-- ==== Sys2Proof/Word.lean ====
section
/-! DEFINITION. The words of the block: bytes, 32-bit registers, the 16-bit command word (R70) and the
36-bit response word (R76). Bit 0 is the least significant bit of each (R8). -/

namespace Sys2Proof

/-- One byte: a memory cell, an operand, a stream byte. -/
abbrev Byte := BitVec 8

/-- A 32-bit register or the data part of a response. -/
abbrev Word := BitVec 32

/-- A command word, `cmd[15:0]` (R70). -/
abbrev CmdWord := BitVec 16

/-- A response word, `rsp[35:0]` (R76). -/
abbrev Rsp := BitVec 36

end Sys2Proof
end

