-- ==== Sys2Proof/Syntax.lean ====
section
/-! DEFINITION. The 22 commands of the block (R72), one constructor per row of spec/opcode_table.json.
A Format I command carries its `imm8` as it stands in the command word (R73); a Format Z command carries
nothing (R71). -/

namespace Sys2Proof

/-- A command of the block. Each docstring names the mnemonic and the rule of its semantics. -/
inductive Instr where
  /-- `NOP`, R240. -/
  | nop
  /-- `BLK_RESET`, R241. -/
  | blkReset
  /-- `ST_READ sel`, R242. -/
  | stRead (sel : Byte)
  /-- `PA_SHIFT d`, R243. -/
  | paShift (d : Byte)
  /-- `PIX_RD`, R244. -/
  | pixRd
  /-- `HT_SEL t`, R101. -/
  | htSel (t : Byte)
  /-- `HT_BEGIN`, R102. -/
  | htBegin
  /-- `HT_CNT n`, R103. -/
  | htCnt (n : Byte)
  /-- `HT_SYM s`, R104. -/
  | htSym (s : Byte)
  /-- `HD_RESET`, R107. -/
  | hdReset
  /-- `HD_BIT b`, R108. -/
  | hdBit (b : Byte)
  /-- `CRC_RESET`, R121. -/
  | crcReset
  /-- `CRC_BYTE d`, R122. -/
  | crcByte (d : Byte)
  /-- `CRC_EXPB d`, R123. -/
  | crcExpb (d : Byte)
  /-- `CRC_READ`, R124. -/
  | crcRead
  /-- `CRC_CHECK`, R125. -/
  | crcCheck
  /-- `IN_RESET`, R141. -/
  | inReset
  /-- `IN_ROUTE r`, R142. -/
  | inRoute (r : Byte)
  /-- `IN_BYTE d`, R143. -/
  | inByte (d : Byte)
  /-- `DF_HDRB d`, R201. -/
  | dfHdrb (d : Byte)
  /-- `DF_CONFIG`, R202. -/
  | dfConfig
  /-- `DF_BYTE d`, R206. -/
  | dfByte (d : Byte)
  deriving DecidableEq, Repr

end Sys2Proof
end

