-- ==== Sys2Proof/WellFormed.lean ====
section
/-! DEFINITION. Which commands are legal as syntax: the "Legal operand values" column of R72. Only
`ST_READ`, `HT_SEL`, `HD_BIT` and `IN_ROUTE` have operand values that are not legal (R74 (c)). -/

namespace Sys2Proof

/-- The 19 selectors of the status registers, in the order of R32's table. -/
def statusSelectors : List Nat :=
  [0x00, 0x01, 0x02, 0x03, 0x04, 0x05, 0x06, 0x08, 0x09, 0x10, 0x11, 0x12,
   0x18, 0x19, 0x1A, 0x1B, 0x1C, 0x1D, 0x1E]

/-- The operand is one of the legal operand values of R72. -/
def Instr.wellFormed : Instr → Bool
  | .nop => true
  | .blkReset => true
  | .stRead sel => statusSelectors.contains sel.toNat
  | .paShift _ => true
  | .pixRd => true
  | .htSel t => decide (t.toNat ≤ 7)
  | .htBegin => true
  | .htCnt _ => true
  | .htSym _ => true
  | .hdReset => true
  | .hdBit b => decide (b.toNat ≤ 1)
  | .crcReset => true
  | .crcByte _ => true
  | .crcExpb _ => true
  | .crcRead => true
  | .crcCheck => true
  | .inReset => true
  | .inRoute r => decide (r.toNat ≤ 1)
  | .inByte _ => true
  | .dfHdrb _ => true
  | .dfConfig => true
  | .dfByte _ => true

end Sys2Proof
end

