-- ==== Sys2Proof/Decode.lean ====
section
/-! DEFINITION. The decoder of R70 to R75, total on all 16-bit words: a word is one of the 22 commands or
illegal, and an illegal word is rejected by the reason R74 names. After it, the encoder, written from the
same table of R72. -/

namespace Sys2Proof

/-- Why a command word is illegal: items (a), (b) and (c) of R74, in the order they are tested. -/
inductive Illegal where
  /-- (a) `op` is not one of the 22 values of R72. -/
  | unknownOpcode
  /-- (b) a Format Z opcode with `imm8 ≠ 0`. -/
  | nonzeroImm
  /-- (c) a Format I opcode whose `imm8` is outside its legal operand values. -/
  | operandRange
  deriving DecidableEq, Repr

/-- `op = cmd[15:8]` (R70). -/
def opField (w : CmdWord) : Byte := w.extractLsb' 8 8

/-- `imm8 = cmd[7:0]` (R70). -/
def immField (w : CmdWord) : Byte := w.extractLsb' 0 8

/-- The legal selectors of `ST_READ`, as R242 lists them: `0x00..0x06`, `0x08`, `0x09`, `0x10..0x12`,
`0x18..0x1E`. -/
def selLegal (sel : Byte) : Bool :=
  let n := sel.toNat
  decide (n ≤ 0x06) || decide (n = 0x08) || decide (n = 0x09) ||
    (decide (0x10 ≤ n) && decide (n ≤ 0x12)) || (decide (0x18 ≤ n) && decide (n ≤ 0x1E))

/-- The legal slot numbers of `HT_SEL`: `0..7` (R101). -/
def slotLegal (t : Byte) : Bool := decide (t.toNat < 8)

/-- The legal operands of `HD_BIT` and `IN_ROUTE`: `0` and `1` (R108, R142). -/
def bitLegal (b : Byte) : Bool := decide (b.toNat < 2)

/-- Format Z (R71): no operand, `imm8` must be zero. -/
def formatZ (imm : Byte) (i : Instr) : Except Illegal Instr :=
  if imm = 0#8 then .ok i else .error .nonzeroImm

/-- Format I (R71) with the legal operand values of R72. -/
def formatI (legal : Bool) (i : Instr) : Except Illegal Instr :=
  if legal then .ok i else .error .operandRange

/-- The decoder: the opcode map of R72 and the order of checks of R74. -/
def decode (w : CmdWord) : Except Illegal Instr :=
  let imm := immField w
  match (opField w).toNat with
  | 0x00 => formatZ imm .nop
  | 0x01 => formatZ imm .blkReset
  | 0x02 => formatI (selLegal imm) (.stRead imm)
  | 0x03 => formatI true (.paShift imm)
  | 0x04 => formatZ imm .pixRd
  | 0x10 => formatI (slotLegal imm) (.htSel imm)
  | 0x11 => formatZ imm .htBegin
  | 0x12 => formatI true (.htCnt imm)
  | 0x13 => formatI true (.htSym imm)
  | 0x14 => formatZ imm .hdReset
  | 0x15 => formatI (bitLegal imm) (.hdBit imm)
  | 0x20 => formatZ imm .crcReset
  | 0x21 => formatI true (.crcByte imm)
  | 0x22 => formatI true (.crcExpb imm)
  | 0x23 => formatZ imm .crcRead
  | 0x24 => formatZ imm .crcCheck
  | 0x30 => formatZ imm .inReset
  | 0x31 => formatI (bitLegal imm) (.inRoute imm)
  | 0x32 => formatI true (.inByte imm)
  | 0x40 => formatI true (.dfHdrb imm)
  | 0x41 => formatZ imm .dfConfig
  | 0x42 => formatI true (.dfByte imm)
  | _ => .error .unknownOpcode

/-- A command word from its two fields, `op × 256 + imm8` (R72). -/
def word (op imm : Byte) : CmdWord := op ++ imm

/-- The encoder: the word of a command, from the table of R72. -/
def encode : Instr → CmdWord
  | .nop => word 0x00#8 0#8
  | .blkReset => word 0x01#8 0#8
  | .stRead sel => word 0x02#8 sel
  | .paShift d => word 0x03#8 d
  | .pixRd => word 0x04#8 0#8
  | .htSel t => word 0x10#8 t
  | .htBegin => word 0x11#8 0#8
  | .htCnt n => word 0x12#8 n
  | .htSym s => word 0x13#8 s
  | .hdReset => word 0x14#8 0#8
  | .hdBit b => word 0x15#8 b
  | .crcReset => word 0x20#8 0#8
  | .crcByte d => word 0x21#8 d
  | .crcExpb d => word 0x22#8 d
  | .crcRead => word 0x23#8 0#8
  | .crcCheck => word 0x24#8 0#8
  | .inReset => word 0x30#8 0#8
  | .inRoute r => word 0x31#8 r
  | .inByte d => word 0x32#8 d
  | .dfHdrb d => word 0x40#8 d
  | .dfConfig => word 0x41#8 0#8
  | .dfByte d => word 0x42#8 d

/-- The command the decoder reads from a word numbered as spec/opcode_table.json numbers its bits: one
16-bit word, bit 0 the least significant (R70); the bits from `nbits` up are 0. -/
def decodeTableWord (nbits w : Nat) : Option Instr :=
  match decode (BitVec.ofNat 16 (w % 2 ^ nbits)) with
  | .ok i => some i
  | .error _ => none

end Sys2Proof
end

