-- ==== Sys2Proof/Config.lean ====
section
/-! DEFINITION. The implementation parameters of rule R7: those with a value, and `PIXCAP`, which the
spec leaves open and which has no value here either. -/

namespace Sys2Proof.Config

/-- `MAXLEN` (R7): the maximum configured code length of the HUFF lookup. -/
def maxLen : Nat := 16

/-- `WINSZ` (R7): bytes of inflate history. -/
def winSz : Nat := 32768

/-- `HTCAP` (R7): entries one Huffman table can hold. -/
def htCap : Nat := 4080

/-- `BLKID` (R7): the value of the `ID` status register. -/
def blkId : Word := 0x4D410003#32

/-- The open parameter of R7, as one of the `2^32 - 1` values it may take. No body: nothing can be
proved of it beyond its range (DESIGN CHOICE, safe: notes/assumptions/1.md). -/
opaque pixCapIndex : Fin 4294967295

/-- `PIXCAP` (R7), bytes of pixel memory, `1 ≤ PIXCAP ≤ 2^32 - 1`: a value this model does not know. -/
def pixCap : Word := BitVec.ofNat 32 (pixCapIndex.val + 1)

end Sys2Proof.Config
end

