-- ==== Sys2Proof/Machine/State.lean ====
section
/-! DEFINITION. The state of the block (R20 to R31), as plain data, with the host's side of its three
ports (R272) beside it: the inputs still to come and the responses given. Then the reasons a step of the
model stops, and the state after reset (R37). -/

namespace Sys2Proof.Machine

/-- A byte memory as the list of its bytes that hold a value, addresses strictly rising. An unlisted
address holds no value (R29, R292): reading it gives `none`. -/
abbrev Memory := List Host.Cell

/-- A Huffman table (R23, R27): a finite partial map from keys `(L, code)` to symbols of `w` bits, as the
list of its entries with keys strictly falling, so that equal maps are equal lists. Codes are assigned in
rising order, so an insertion lands at the head. -/
abbrev Table (w : Nat) := List ((Nat × Nat) × BitVec w)

/-- `BPHASE` (R22): 0, 1, 2; the value 3 never occurs. -/
inductive BPhase where
  /-- 0 `IDLE`. -/
  | idle
  /-- 1 `COUNTS`. -/
  | counts
  /-- 2 `SYMS`. -/
  | syms
  deriving DecidableEq, Repr

/-- `INSTATE` (R26): the fifteen parser states of R146, in the order of their values 0 to 14. -/
inductive InState where
  /-- 0 `ZH_CMF`. -/
  | zhCmf
  /-- 1 `ZH_FLG`. -/
  | zhFlg
  /-- 2 `BLK_HDR`. -/
  | blkHdr
  /-- 3 `ST_LEN`. -/
  | stLen
  /-- 4 `ST_COPY`. -/
  | stCopy
  /-- 5 `DYN_HDR`. -/
  | dynHdr
  /-- 6 `DYN_CLEN`. -/
  | dynClen
  /-- 7 `DYN_LENS`. -/
  | dynLens
  /-- 8 `DYN_REP`. -/
  | dynRep
  /-- 9 `SYM`. -/
  | sym
  /-- 10 `LEN_EXTRA`. -/
  | lenExtra
  /-- 11 `DIST_SYM`. -/
  | distSym
  /-- 12 `DIST_EXTRA`. -/
  | distExtra
  /-- 13 `TRAILER`. -/
  | trailer
  /-- 14 `DONE`. -/
  | done
  deriving DecidableEq, Repr

/-- The HUFF unit: builder registers (R22), table slots (R23) and decoder registers (R24). -/
structure Huff where
  /-- `TSEL`, 3 bits: the selected slot. -/
  tsel : Fin 8
  /-- `BPHASE`. -/
  bphase : BPhase
  /-- `CNT[1..16]`; `CNT[L]` stands at index `L - 1`. -/
  cnt : Vector Byte 16
  /-- `CIDX`: counts loaded since `HT_BEGIN`. -/
  cidx : BitVec 5
  /-- `CURL`: the length the next `HT_SYM` uses, 0 when none. -/
  curl : BitVec 5
  /-- `REMAIN`: codes still to be inserted. -/
  remain : BitVec 12
  /-- `LASTCODE`, two's complement. -/
  lastCode : Word
  /-- `LASTBITS`. -/
  lastBits : BitVec 5
  /-- `TAB[0..7]`. -/
  tab : Vector (Table 8) 8
  /-- `READY[0..7]`. -/
  ready : Vector Bool 8
  /-- `HDN`: bits of the current symbol consumed so far. -/
  hdn : BitVec 5
  /-- `HDCAND`: those bits as an integer. -/
  hdcand : BitVec 16
  deriving DecidableEq, Repr

/-- The CRC unit (R25). -/
structure Crc where
  /-- `CRCACC`: the raw running remainder. -/
  acc : Word
  /-- `CRCEXP`: the expected digest. -/
  exp : Word
  deriving DecidableEq, Repr

/-- The INFL unit: registers (R26), tables and window (R27). -/
structure Infl where
  /-- `INSTATE`. -/
  instate : InState
  /-- `ROUTE`: false is 0 (to `OUT`), true is 1 (to DEFILT). -/
  route : Bool
  /-- `BITQ`, oldest bit first. -/
  bitq : List Bool
  /-- `FINAL`. -/
  final : Bool
  /-- `CMF`. -/
  cmf : Byte
  /-- `REM`. -/
  rem : BitVec 16
  /-- `HLIT`. -/
  hlit : BitVec 9
  /-- `HDIST`. -/
  hdist : BitVec 5
  /-- `HCLEN`. -/
  hclen : BitVec 5
  /-- `CLL[0..18]`. -/
  cll : Vector (BitVec 3) 19
  /-- `IDX`. -/
  idx : BitVec 5
  /-- `LENS`. -/
  lens : List (BitVec 4)
  /-- `REPSYM`. -/
  repsym : BitVec 5
  /-- `LSYM`, 5 bits, values 0..28. -/
  lsym : Fin 29
  /-- `LENGTH`. -/
  length : BitVec 9
  /-- `DSYM`, 5 bits, values 0..29. -/
  dsym : Fin 30
  /-- `HN`. -/
  hn : BitVec 5
  /-- `HCAND`. -/
  hcand : BitVec 15
  /-- `S1`, the low Adler-32 half. -/
  s1 : BitVec 16
  /-- `S2`, the high Adler-32 half. -/
  s2 : BitVec 16
  /-- `TOTAL`: bytes emitted, modulo 2^32. -/
  total : Word
  /-- `CT`, the code-length table. -/
  ct : Table 5
  /-- `LT`, the literal/length table. -/
  lt : Table 9
  /-- `DT`, the distance table. -/
  dt : Table 5
  /-- `WIN`, oldest byte first; `WIN[−k]` is the `k`-th from the end. -/
  win : List Byte
  deriving DecidableEq, Repr

/-- The DEFILT unit: registers (R28) and the memories `LINE` and `PIX` (R29). -/
structure Defilt where
  /-- `HDR[0..12]`. -/
  hdr : Vector Byte 13
  /-- `HCNT`. -/
  hcnt : BitVec 4
  /-- `DFVALID`. -/
  dfvalid : Bool
  /-- `WIDTH`. -/
  width : Word
  /-- `HEIGHT`. -/
  height : Word
  /-- `DEPTH`. -/
  depth : Byte
  /-- `CTYPE`. -/
  ctype : Byte
  /-- `BPP`. -/
  bpp : BitVec 6
  /-- `STRIDE`. -/
  stride : Word
  /-- `PSIZE`. -/
  psize : BitVec 3
  /-- `ROW`. -/
  row : Word
  /-- `FILL`. -/
  fill : Word
  /-- `LINE`: the scanline being gathered. -/
  line : Memory
  /-- `PIX`: the pixel memory. -/
  pix : Memory
  deriving DecidableEq, Repr

/-- The block: exactly the state R20 lists. -/
structure Block where
  /-- `FAULT` (R21): 0 or the cause code. -/
  fault : Byte
  /-- `FSUB` (R21). -/
  fsub : Byte
  /-- HUFF. -/
  huff : Huff
  /-- CRC. -/
  crc : Crc
  /-- INFL. -/
  infl : Infl
  /-- DEFILT. -/
  df : Defilt
  /-- `PIXA` (R30). -/
  pixa : Word
  /-- The `OUT` trace (R31), oldest byte first. -/
  out : List Byte
  deriving DecidableEq, Repr

/-- The part of the block that one `IN_BYTE` works on: the engine, the trace and the defilter (R148). -/
structure Pipe where
  /-- INFL. -/
  infl : Infl
  /-- `OUT`. -/
  out : List Byte
  /-- DEFILT. -/
  df : Defilt
  deriving DecidableEq, Repr

/-- What reaches the block from outside: a command word from the host (R2), or the platform's power-on
reset (R290). -/
inductive Input where
  /-- A word on the command port. -/
  | command (w : CmdWord)
  /-- Power-on reset: an input of the platform, not a command. -/
  | powerOn
  deriving DecidableEq, Repr

/-- The whole machine: the block, its parameter `PIXCAP` (R7), the inputs still to be presented, in
order, and the responses given so far, oldest first (R300). The last three are the model's own fields
(DESIGN CHOICE: notes/assumptions/1.md, safe, and 2.md, unsafe in one point): the block itself remembers nothing but `blk`. -/
structure State where
  /-- The block. -/
  blk : Block
  /-- `PIXCAP`: no step changes it. -/
  pixcap : Word
  /-- The inputs the block has not taken yet, the next one first. -/
  inputs : List Input
  /-- The responses the host has received, oldest first. -/
  responses : List Rsp
  deriving DecidableEq, Repr

/-- The conditions under which a command raises a fault OF THE BLOCK: the rows of R262. Taking one is a
next state of the machine (`takeFault`), not a stop of the model. -/
inductive Trap where
  /-- (1, 1): no table entry after bit 17 of a symbol. -/
  | huffMiss
  /-- (1, 2): zlib header invalid. -/
  | zlibHeader
  /-- (1, 3): block type 3. -/
  | blockType
  /-- (1, 4): stored block `NLEN` is not the complement of `LEN`. -/
  | storedLen
  /-- (1, 5): a set of code lengths is over-subscribed. -/
  | overSubscribed
  /-- (1, 6): repeat symbol 16 with no previous length. -/
  | repeatNoPrevious
  /-- (1, 7): a repeat runs past `HLIT + HDIST` lengths. -/
  | repeatPastEnd
  /-- (1, 8): literal/length symbol 286 or 287. -/
  | litLenSymbol
  /-- (1, 9): distance symbol 30 or 31. -/
  | distSymbol
  /-- (1, 10): match distance larger than the bytes emitted so far. -/
  | distTooFar
  /-- (1, 11): no table entry in an INFL lookup. -/
  | inflMiss
  /-- (1, 12): `IN_BYTE` after the stream is complete. -/
  | afterDone
  /-- (1, 13): filter-type byte above 4. -/
  | filterType
  /-- (1, 14): scanline data after the last row. -/
  | surplusData
  /-- (1, 15): `HLIT > 286` or `HDIST > 30`. -/
  | dynCounts
  /-- (1, 16): end-of-block symbol has code length 0. -/
  | noEndOfBlock
  /-- (3, 1): digest differs from `CRCEXP`. -/
  | crcMismatch
  /-- (3, 2): Adler-32 trailer differs. -/
  | adlerMismatch
  /-- (4, 1): bit depth 16. -/
  | depth16
  /-- (4, 2): colour type 4. -/
  | grayAlpha
  /-- (4, 3): compression method not 0. -/
  | compression
  /-- (4, 4): filter method not 0. -/
  | filterMethod
  /-- (4, 5): interlace method not 0. -/
  | interlace
  /-- (4, 6): any other (depth, colour type) pair outside the eight accepted. -/
  | pixelFormat
  /-- (4, 7): zlib preset dictionary. -/
  | presetDictionary
  /-- (5, 1): width or height is 0. -/
  | zeroDimension
  /-- (5, 2): `stride × height > PIXCAP`. -/
  | imageTooLarge
  /-- (6, 1): unknown opcode. -/
  | unknownOpcode
  /-- (6, 2): non-zero `imm8` in a Format Z command. -/
  | nonzeroImm
  /-- (6, 3): operand out of range. -/
  | operandRange
  /-- (7, 1): `HT_SEL` during a build or in mid-symbol. -/
  | selectBusy
  /-- (7, 2): `HT_CNT` when `BPHASE ≠ COUNTS`. -/
  | countPhase
  /-- (7, 3): `HT_SYM` when `BPHASE ≠ SYMS`. -/
  | symbolPhase
  /-- (7, 4): `HD_BIT` with a build in progress or a slot that is not ready. -/
  | tableNotReady
  /-- (7, 5): a fourteenth `DF_HDRB`. -/
  | headerFull
  /-- (7, 6): `DF_CONFIG` without thirteen header bytes. -/
  | headerShort
  /-- (7, 7): a byte for the defilter with no configuration in force. -/
  | notConfigured
  /-- (7, 8): `PIX_RD` of an address that holds no value. -/
  | pixelRange
  deriving DecidableEq, Repr

/-- The reasons the MODEL stops. None is a fault of the block (those are next states): each marks a state
the spec says never occurs, in which its pseudocode names a byte, a register or a table entry that does not
exist. All are safe: no state with `Safety.Inv` (Safety.lean) meets one (DEDUCED: notes/assumptions/3.md). -/
inductive Fault where
  /-- `df_push` with `FILL > STRIDE`: `LINE` has no such address (R50). Raised by `dfPush`. Safe. -/
  | lineOutside (addr : Nat)
  /-- A byte of `LINE` that holds no value is read (R53). Raised by `dfPush` and the row loop. Safe. -/
  | lineNoValue (addr : Nat)
  /-- An address of `PIX` not below `PIXCAP` (R50). Raised by the row loop and `PIX_RD`. Safe. -/
  | pixOutside (addr : Nat)
  /-- A byte of `PIX` that holds no value is read (R53). Raised by the row loop and `PIX_RD`. Safe. -/
  | pixNoValue (addr : Nat)
  /-- `WIN[−k]` with no such byte (R53). Raised by the match copy. Safe. -/
  | windowNoValue (dist : Nat)
  /-- `CNT[L]` with `L` outside `1..16` (R22). Raised by `HT_CNT` and `HT_SYM`. Safe. -/
  | countNoRegister (len : Nat)
  /-- The minimum of R103 or R104 over no length at all. Raised by `HT_CNT` and `HT_SYM`. Safe. -/
  | noNextLength
  /-- `CLORDER[IDX]` with `IDX ≥ 19` (R158). Raised by `IN_BYTE`. Safe. -/
  | codeOrderNoEntry
  /-- State `DYN_REP` with `REPSYM` not 16, 17 or 18, or 16 with no previous length (R160). Raised by
  `IN_BYTE`. Safe. -/
  | repeatUndefined
  /-- `ll[256]` of a list with no such element (R161). Raised by `IN_BYTE`. Safe. -/
  | noEndOfBlockLength
  /-- The run loop of R146 did not end within its bound; it always does (Laws/Inflate.lean). Safe. -/
  | runBound
  deriving DecidableEq, Repr

/-- The reasons the model gives an instruction no meaning. -/
inductive Refusal where
  /-- An instruction with no meaning in the model yet, by mnemonic; raised by `exec` alone. Safe. -/
  | notModelled (mnemonic : String)
  deriving DecidableEq, Repr

/-- HUFF after reset (R22 to R24, R37). -/
def Huff.reset : Huff where
  tsel := 0
  bphase := .idle
  cnt := Vector.replicate 16 0#8
  cidx := 0#5
  curl := 0#5
  remain := 0#12
  lastCode := 0xFFFFFFFF#32
  lastBits := 0#5
  tab := Vector.replicate 8 []
  ready := Vector.replicate 8 false
  hdn := 0#5
  hdcand := 0#16

/-- CRC after reset (R25, R37). -/
def Crc.reset : Crc where
  acc := 0xFFFFFFFF#32
  exp := 0#32

/-- INFL after reset (R26, R27, R37). -/
def Infl.reset : Infl where
  instate := .zhCmf
  route := false
  bitq := []
  final := false
  cmf := 0#8
  rem := 0#16
  hlit := 0#9
  hdist := 0#5
  hclen := 0#5
  cll := Vector.replicate 19 0#3
  idx := 0#5
  lens := []
  repsym := 0#5
  lsym := 0
  length := 0#9
  dsym := 0
  hn := 0#5
  hcand := 0#15
  s1 := 1#16
  s2 := 0#16
  total := 0#32
  ct := []
  lt := []
  dt := []
  win := []

/-- DEFILT after reset (R28, R29, R37): `LINE` and `PIX` list nothing, because no byte of them holds a
value the spec states (R292; DESIGN CHOICE, safe: notes/assumptions/6.md). -/
def Defilt.reset : Defilt where
  hdr := Vector.replicate 13 0#8
  hcnt := 0#4
  dfvalid := false
  width := 0#32
  height := 0#32
  depth := 0#8
  ctype := 0#8
  bpp := 0#6
  stride := 0#32
  psize := 0#3
  row := 0#32
  fill := 0#32
  line := []
  pix := []

/-- The block after power-on reset and after `BLK_RESET` (R37, R290). -/
def Block.reset : Block where
  fault := 0#8
  fsub := 0#8
  huff := Huff.reset
  crc := Crc.reset
  infl := Infl.reset
  df := Defilt.reset
  pixa := 0#32
  out := []

/-- The machine right after reset: the block of R37, no input presented, no response given, and a
`PIXCAP` that has no known value. -/
def State.reset : State where
  blk := Block.reset
  pixcap := Config.pixCap
  inputs := []
  responses := []

end Sys2Proof.Machine
end

