-- ==== Sys2Proof/Machine/Operands.lean ====
section
/-! DEFINITION. Operand assembly. The only operand of a command is `imm8`, used as it stands (R73); wider
values are built from bytes by shifting (R51, R73). The legality of an operand is `selLegal`, `slotLegal`
and `bitLegal` of Decode.lean. -/

namespace Sys2Proof.Machine

/-- Shift one byte into a 32-bit register, most significant byte first: `((r << 8) | d) mod 2^32`
(R123, R243). -/
def shiftInByte (r : Word) (d : Byte) : Word := (r <<< 8) ||| d.setWidth 32

/-- A big-endian 32-bit value from four bytes, the first the most significant (R51 (a), R203). -/
def bigEndian32 (b0 b1 b2 b3 : Byte) : Word := b0 ++ b1 ++ b2 ++ b3

/-- `HT_SEL`'s operand as a slot number (R101); `none` when it is not legal. -/
def slotOperand (t : Byte) : Option (Fin 8) :=
  if h : slotLegal t = true then some ⟨t.toNat, of_decide_eq_true h⟩ else none

/-- The operand of `HD_BIT` or `IN_ROUTE` as a bit (R108, R142); `none` when it is not legal. -/
def bitOperand (b : Byte) : Option Bool :=
  if bitLegal b then some (decide (b.toNat = 1)) else none

end Sys2Proof.Machine
end

