-- ==== Sys2Proof/Machine/Flags.lean ====
section
/-! DEFINITION. What the host sees as status. The block has no condition codes (R34): the status bits are
the code of each response (R76 to R78) and the fields of the 19 read-only status registers (R32). -/

namespace Sys2Proof.Machine

/-- A response word: `rsp[35:32] = code`, `rsp[31:0] = data` (R76). -/
def rsp (code : BitVec 4) (data : Word) : Rsp := code ++ data

/-- `OK` with the data the command's rule gives (R77). -/
def rspOk (data : Word) : Rsp := rsp 0x0#4 data

/-- `PENDING`: `data[15:0] = HDCAND`, `data[20:16] = HDN`, both after the command (R77). -/
def rspPending (n : BitVec 5) (cand : BitVec 16) : Rsp := rsp 0x1#4 ((n ++ cand).setWidth 32)

/-- `HIT`: `data[7:0]` the symbol, `data[12:8]` its code length (R77). -/
def rspHit (len : BitVec 5) (sym : Byte) : Rsp := rsp 0x2#4 ((len ++ sym).setWidth 32)

/-- `FAULT`: `data[7:0] = FAULT`, `data[15:8] = FSUB`, `data[16]` set when the block was already faulted
(R78). -/
def rspFault (refused : Bool) (fault fsub : Byte) : Rsp :=
  rsp 0xF#4 ((BitVec.ofBool refused ++ fsub ++ fault).setWidth 32)

/-- The value of `BPHASE` (R22). -/
def bphaseCode : BPhase → BitVec 2
  | .idle => 0#2
  | .counts => 1#2
  | .syms => 2#2

/-- The value of `INSTATE` (R146). -/
def instateCode : InState → BitVec 4
  | .zhCmf => 0#4
  | .zhFlg => 1#4
  | .blkHdr => 2#4
  | .stLen => 3#4
  | .stCopy => 4#4
  | .dynHdr => 5#4
  | .dynClen => 6#4
  | .dynLens => 7#4
  | .dynRep => 8#4
  | .sym => 9#4
  | .lenExtra => 10#4
  | .distSym => 11#4
  | .distExtra => 12#4
  | .trailer => 13#4
  | .done => 14#4

/-- `READY[7..0]` as eight bits, `READY[t]` at bit `t` (R32, `HT_CTRL[22:15]`). -/
def readyBits (r : Vector Bool 8) : Byte :=
  BitVec.ofBool r[7] ++ BitVec.ofBool r[6] ++ BitVec.ofBool r[5] ++ BitVec.ofBool r[4] ++
    BitVec.ofBool r[3] ++ BitVec.ofBool r[2] ++ BitVec.ofBool r[1] ++ BitVec.ofBool r[0]

/-- `FAULTR`: `[7:0] FAULT`, `[15:8] FSUB` (R32). -/
def viewFaultr (b : Block) : Word := (b.fsub ++ b.fault).setWidth 32

/-- `HT_CTRL`: `[1:0] BPHASE`, `[4:2] TSEL`, `[9:5] CIDX`, `[14:10] CURL`, `[22:15] READY` (R32). -/
def viewHtCtrl (h : Huff) : Word :=
  (readyBits h.ready ++ h.curl ++ h.cidx ++ BitVec.ofNat 3 h.tsel.val ++ bphaseCode h.bphase).setWidth 32

/-- `HD_STATE`: `[15:0] HDCAND`, `[20:16] HDN` (R32). -/
def viewHdState (h : Huff) : Word := (h.hdn ++ h.hdcand).setWidth 32

/-- `IN_STAT`: `[3:0] INSTATE`, `[4] ROUTE`, `[5] FINAL`, `[11:6]` the number of bits in `BITQ` (R32). -/
def viewInStat (i : Infl) : Word :=
  (BitVec.ofNat 6 i.bitq.length ++ BitVec.ofBool i.final ++ BitVec.ofBool i.route ++
    instateCode i.instate).setWidth 32

/-- `IN_ADLER`: `[15:0] S1`, `[31:16] S2` (R32). -/
def viewInAdler (i : Infl) : Word := i.s2 ++ i.s1

/-- `DF_STAT`: `[0] DFVALID`, `[4:1] HCNT`, `[7:5] PSIZE`, `[13:8] BPP`, `[21:14] DEPTH`, `[29:22] CTYPE`
(R32). -/
def viewDfStat (d : Defilt) : Word :=
  (d.ctype ++ d.depth ++ d.bpp ++ d.psize ++ d.hcnt ++ BitVec.ofBool d.dfvalid).setWidth 32

/-- The 32-bit view of status register `sel` (R32); `none` for a `sel` that is no register. -/
def statusView (b : Block) (sel : Byte) : Option Word :=
  match sel.toNat with
  | 0x00 => some Config.blkId
  | 0x01 => some (viewFaultr b)
  | 0x02 => some (viewHtCtrl b.huff)
  | 0x03 => some b.huff.lastCode
  | 0x04 => some (b.huff.lastBits.setWidth 32)
  | 0x05 => some (b.huff.remain.setWidth 32)
  | 0x06 => some (viewHdState b.huff)
  | 0x08 => some b.crc.acc
  | 0x09 => some b.crc.exp
  | 0x10 => some (viewInStat b.infl)
  | 0x11 => some b.infl.total
  | 0x12 => some (viewInAdler b.infl)
  | 0x18 => some (viewDfStat b.df)
  | 0x19 => some b.df.width
  | 0x1A => some b.df.height
  | 0x1B => some b.df.stride
  | 0x1C => some b.df.row
  | 0x1D => some b.df.fill
  | 0x1E => some b.pixa
  | _ => none

end Sys2Proof.Machine
end

