-- ==== Sys2Proof/Machine/Ops.lean ====
section
/-! DEFINITION. The operations every command shares: byte memories and tables, the result of a piece of a
command, raising a fault (R264), refusing a command in the faulted state (R265), leaving that state (R266),
and running a command whole. -/

namespace Sys2Proof.Machine

/-! ### Byte memories (`LINE`, `PIX`) -/

/-- The byte at an address, `none` when the address holds no value (R29). -/
def Memory.read : Memory → Nat → Option Byte
  | [], _ => none
  | (k, v) :: m, a => if k = a then some v else Memory.read m a

/-- `MemWrite(space, a, 1, v)`: the byte at `a` becomes `v`, every other byte stays (R10, R53). -/
def Memory.write : Memory → Nat → Byte → Memory
  | [], a, v => [(a, v)]
  | (k, w) :: m, a, v =>
    if a < k then (a, v) :: (k, w) :: m
    else if a = k then (a, v) :: m
    else (k, w) :: Memory.write m a v

/-- The canonical form of a memory: addresses strictly rising. An unlisted address holds no value, and no
entry says so. -/
def Memory.wf (m : Memory) : Bool := decide (m.Pairwise fun x y => x.1 < y.1)

/-! ### Huffman tables -/

/-- The order of keys: shorter lengths first, then smaller codes. -/
def keyLt (x y : Nat × Nat) : Bool := decide (x.1 < y.1) || (decide (x.1 = y.1) && decide (x.2 < y.2))

/-- `tab[(L, code)]`, `none` when the key is absent: one probe (R109). -/
def Table.find {w : Nat} : Table w → Nat × Nat → Option (BitVec w)
  | [], _ => none
  | (k, v) :: t, key => if k = key then some v else Table.find t key

/-- `tab[key] <- v` (R104, R149). -/
def Table.insert {w : Nat} : Table w → Nat × Nat → BitVec w → Table w
  | [], key, v => [(key, v)]
  | (k, u) :: t, key, v =>
    if keyLt k key then (key, v) :: (k, u) :: t
    else if k = key then (key, v) :: t
    else (k, u) :: Table.insert t key v

/-- The canonical form of a table: keys strictly falling. -/
def Table.wf {w : Nat} (t : Table w) : Bool := decide (t.Pairwise fun x y => keyLt y.1 x.1 = true)

/-! ### The result of a piece of a command -/

/-- What a piece of a command does to the part `σ` of the machine it works on: it completes with an answer,
it raises a fault of the block (R264: what was written before stays written), or the model stops. -/
inductive Res (σ α : Type) where
  /-- The piece ran to its end. -/
  | ok (a : α) (s : σ)
  /-- `raise Fault(cause, sub)` at this point, the state as it was then. -/
  | trap (t : Trap) (s : σ)
  /-- The model stops (`Machine.Fault`). -/
  | stop (f : Fault)
  deriving DecidableEq, Repr

/-- Go on with the next piece, unless this one raised or stopped. -/
def Res.bind {σ α β : Type} (r : Res σ α) (f : α → σ → Res σ β) : Res σ β :=
  match r with
  | .ok a s => f a s
  | .trap t s => .trap t s
  | .stop e => .stop e

/-- A piece that works on a part of a larger state, put back into it. -/
def Res.within {σ τ α : Type} (put : σ → τ) (r : Res σ α) : Res τ α :=
  match r with
  | .ok a s => .ok a (put s)
  | .trap t s => .trap t (put s)
  | .stop e => .stop e

/-- A piece that works on HUFF alone. -/
def onHuff {α : Type} (f : Huff → Res Huff α) (b : Block) : Res Block α :=
  (f b.huff).within fun h => { b with huff := h }

/-- A piece that works on the CRC unit alone. -/
def onCrc {α : Type} (f : Crc → Res Crc α) (b : Block) : Res Block α :=
  (f b.crc).within fun c => { b with crc := c }

/-- A piece that works on INFL alone. -/
def onInfl {α : Type} (f : Infl → Res Infl α) (b : Block) : Res Block α :=
  (f b.infl).within fun i => { b with infl := i }

/-- A piece that works on DEFILT alone. -/
def onDefilt {α : Type} (f : Defilt → Res Defilt α) (b : Block) : Res Block α :=
  (f b.df).within fun d => { b with df := d }

/-- A piece that works on INFL, `OUT` and DEFILT. -/
def onPipe {α : Type} (f : Pipe → Res Pipe α) (b : Block) : Res Block α :=
  (f { infl := b.infl, out := b.out, df := b.df }).within fun p =>
    { b with infl := p.infl, out := p.out, df := p.df }

/-! ### Raising a fault -/

/-- The cause code of a condition (R261, R262), the value of `FAULT`. -/
def Trap.cause : Trap → Byte
  | .huffMiss => 1#8
  | .zlibHeader => 1#8
  | .blockType => 1#8
  | .storedLen => 1#8
  | .overSubscribed => 1#8
  | .repeatNoPrevious => 1#8
  | .repeatPastEnd => 1#8
  | .litLenSymbol => 1#8
  | .distSymbol => 1#8
  | .distTooFar => 1#8
  | .inflMiss => 1#8
  | .afterDone => 1#8
  | .filterType => 1#8
  | .surplusData => 1#8
  | .dynCounts => 1#8
  | .noEndOfBlock => 1#8
  | .crcMismatch => 3#8
  | .adlerMismatch => 3#8
  | .depth16 => 4#8
  | .grayAlpha => 4#8
  | .compression => 4#8
  | .filterMethod => 4#8
  | .interlace => 4#8
  | .pixelFormat => 4#8
  | .presetDictionary => 4#8
  | .zeroDimension => 5#8
  | .imageTooLarge => 5#8
  | .unknownOpcode => 6#8
  | .nonzeroImm => 6#8
  | .operandRange => 6#8
  | .selectBusy => 7#8
  | .countPhase => 7#8
  | .symbolPhase => 7#8
  | .tableNotReady => 7#8
  | .headerFull => 7#8
  | .headerShort => 7#8
  | .notConfigured => 7#8
  | .pixelRange => 7#8

/-- The sub-code of a condition (R262), the value of `FSUB`. -/
def Trap.sub : Trap → Byte
  | .huffMiss => 1#8
  | .zlibHeader => 2#8
  | .blockType => 3#8
  | .storedLen => 4#8
  | .overSubscribed => 5#8
  | .repeatNoPrevious => 6#8
  | .repeatPastEnd => 7#8
  | .litLenSymbol => 8#8
  | .distSymbol => 9#8
  | .distTooFar => 10#8
  | .inflMiss => 11#8
  | .afterDone => 12#8
  | .filterType => 13#8
  | .surplusData => 14#8
  | .dynCounts => 15#8
  | .noEndOfBlock => 16#8
  | .crcMismatch => 1#8
  | .adlerMismatch => 2#8
  | .depth16 => 1#8
  | .grayAlpha => 2#8
  | .compression => 3#8
  | .filterMethod => 4#8
  | .interlace => 5#8
  | .pixelFormat => 6#8
  | .presetDictionary => 7#8
  | .zeroDimension => 1#8
  | .imageTooLarge => 2#8
  | .unknownOpcode => 1#8
  | .nonzeroImm => 2#8
  | .operandRange => 3#8
  | .selectBusy => 1#8
  | .countPhase => 2#8
  | .symbolPhase => 3#8
  | .tableNotReady => 4#8
  | .headerFull => 5#8
  | .headerShort => 6#8
  | .notConfigured => 7#8
  | .pixelRange => 8#8

/-- The condition an illegal command word raises (R74). -/
def illegalTrap : Illegal → Trap
  | .unknownOpcode => .unknownOpcode
  | .nonzeroImm => .nonzeroImm
  | .operandRange => .operandRange

/-- A response leaves on the response port: exactly one per command (R76, R298). -/
def respond (s : State) (r : Rsp) : State := { s with responses := s.responses ++ [r] }

/-- The block is faulted (R21). -/
def faulted (b : Block) : Bool := decide (b.fault ≠ 0#8)

/-- Taking a fault, R264: `FAULT` and `FSUB` are written, nothing else is saved, and the response is
`FAULT` with `data[16] = 0`. What the command wrote before stays written (R277). -/
def takeFault (t : Trap) (s : State) : State :=
  respond { s with blk := { s.blk with fault := t.cause, fsub := t.sub } } (rspFault false t.cause t.sub)

/-- A word refused by a faulted block, R265: no state of the block changes, and the response carries the
fault kept, with `data[16] = 1`. -/
def refuse (s : State) : State := respond s (rspFault true s.blk.fault s.blk.fsub)

/-- The return from the faulted state, R266, and reset as such, R290: every register, table, queue and
trace of the block takes its reset value. -/
def resetBlock (s : State) : State := { s with blk := Block.reset }

/-- How a command ends: its response, its fault, or a stop of the model. -/
def finish (s : State) : Res Block Rsp → Host.Outcome State Fault Refusal
  | .ok r b => .next (respond { s with blk := b } r)
  | .trap t b => .next (takeFault t { s with blk := b })
  | .stop f => .fault f

/-- A command that a faulted block refuses (R265) and that otherwise runs whole (R2, R263). -/
def command (s : State) (body : Block → Res Block Rsp) : Host.Outcome State Fault Refusal :=
  if faulted s.blk then .next (refuse s) else finish s (body s.blk)

/-- A word that is no command: `Fault(6, sub)` (R74), or a refusal in a faulted block (R265). -/
def illegalWord (e : Illegal) (s : State) : Host.Outcome State Fault Refusal :=
  command s fun b => .trap (illegalTrap e) b

end Sys2Proof.Machine
end

