-- ==== Sys2Proof/Machine/Crc.lean ====
section
/-! DEFINITION. The CRC unit, 41_crc.md: CRC-32/ISO-HDLC, with the parameters R120 gives. -/

namespace Sys2Proof.Machine

/-- One of the eight rounds of R126, on one bit. -/
def crcRound (acc : Word) : Word :=
  if acc.getLsbD 0 then (acc >>> 1) ^^^ 0xEDB88320#32 else acc >>> 1

/-- `n` rounds. -/
def crcRounds : Nat → Word → Word
  | 0, acc => acc
  | n + 1, acc => crcRounds n (crcRound acc)

/-- `crc_update(acc, d)`, R126. -/
def crcUpdate (acc : Word) (d : Byte) : Word := crcRounds 8 (acc ^^^ d.setWidth 32)

/-- The digest of the bytes seen: `CRCACC ^ 0xFFFFFFFF` (R120). -/
def crcDigest (c : Crc) : Word := c.acc ^^^ 0xFFFFFFFF#32

/-- The body of `CRC_RESET`, R121; `CRCEXP` is cleared (DEDUCED: notes/assumptions/11.md). -/
def crcResetBody (c : Crc) : Res Crc Rsp :=
  .ok (rspOk 0#32) { c with acc := 0xFFFFFFFF#32, exp := 0#32 }

/-- `CRC_RESET`, R121. -/
def execCrcReset (s : State) : Host.Outcome State Fault Refusal := command s (onCrc crcResetBody)

/-- The body of `CRC_BYTE`, R122: the unit is pass-through, the response is the byte. -/
def crcByteBody (d : Byte) (c : Crc) : Res Crc Rsp :=
  .ok (rspOk (d.setWidth 32)) { c with acc := crcUpdate c.acc d }

/-- `CRC_BYTE d`, R122. -/
def execCrcByte (d : Byte) (s : State) : Host.Outcome State Fault Refusal := command s (onCrc (crcByteBody d))

/-- The body of `CRC_EXPB`, R123: the response is the value after the shift. -/
def crcExpbBody (d : Byte) (c : Crc) : Res Crc Rsp :=
  .ok (rspOk (shiftInByte c.exp d)) { c with exp := shiftInByte c.exp d }

/-- `CRC_EXPB d`, R123. -/
def execCrcExpb (d : Byte) (s : State) : Host.Outcome State Fault Refusal := command s (onCrc (crcExpbBody d))

/-- The body of `CRC_READ`, R124: no state changes. -/
def crcReadBody (c : Crc) : Res Crc Rsp := .ok (rspOk (crcDigest c)) c

/-- `CRC_READ`, R124. -/
def execCrcRead (s : State) : Host.Outcome State Fault Refusal := command s (onCrc crcReadBody)

/-- The body of `CRC_CHECK`, R125. -/
def crcCheckBody (c : Crc) : Res Crc Rsp :=
  if crcDigest c = c.exp then .ok (rspOk (crcDigest c)) c else .trap .crcMismatch c

/-- `CRC_CHECK`, R125. -/
def execCrcCheck (s : State) : Host.Outcome State Fault Refusal := command s (onCrc crcCheckBody)

end Sys2Proof.Machine
end

