-- ==== Sys2Proof/Machine/System.lean ====
section
/-! DEFINITION. The system commands of 44_system.md: `NOP`, `BLK_RESET`, `ST_READ`, `PA_SHIFT`, `PIX_RD`,
and reading `PIX`. -/

namespace Sys2Proof.Machine

/-- `MemRead(PIX, a, 1)` (R50, R53): an address not below `PIXCAP` does not exist, and a byte that holds no
value is read by no rule. -/
def pixRead (cap : Word) (m : Memory) (a : Nat) : Except Fault Byte :=
  if cap.toNat ≤ a then .error (.pixOutside a)
  else match Memory.read m a with
    | some v => .ok v
    | none => .error (.pixNoValue a)

/-- `NOP`, R240: no state changes, in a faulted block as well (R265). -/
def execNop (s : State) : Host.Outcome State Fault Refusal := .next (respond s (rspOk 0#32))

/-- `BLK_RESET`, R241: accepted in every state; the only exit from the faulted state (R266). -/
def execBlkReset (s : State) : Host.Outcome State Fault Refusal :=
  .next (respond (resetBlock s) (rspOk 0#32))

/-- `ST_READ sel`, R242: the view of R32, in a faulted block as well (R265). A `sel` that is no register
is an illegal word. -/
def execStRead (sel : Byte) (s : State) : Host.Outcome State Fault Refusal :=
  match statusView s.blk sel with
  | some v => .next (respond s (rspOk v))
  | none => command s fun b => .trap .operandRange b

/-- `PA_SHIFT d`, R243. -/
def execPaShift (d : Byte) (s : State) : Host.Outcome State Fault Refusal :=
  command s fun b =>
    let a := shiftInByte b.pixa d
    .ok (rspOk a) { b with pixa := a }

/-- The precondition of `PIX_RD`: `DFVALID = 1` and `PIXA < ROW × STRIDE` (R244). -/
def pixReadable (b : Block) : Bool :=
  b.df.dfvalid && decide (b.pixa.toNat < b.df.row.toNat * b.df.stride.toNat)

/-- The body of `PIX_RD`, R244: one reconstructed byte, then `PIXA <- (PIXA + 1) mod 2^32`. -/
def pixRdBody (cap : Word) (b : Block) : Res Block Rsp :=
  if pixReadable b then
    match pixRead cap b.df.pix b.pixa.toNat with
    | .ok v => .ok (rspOk (v.setWidth 32)) { b with pixa := b.pixa + 1#32 }
    | .error f => .stop f
  else .trap .pixelRange b

/-- `PIX_RD`, R244. -/
def execPixRd (s : State) : Host.Outcome State Fault Refusal := command s (pixRdBody s.pixcap)

end Sys2Proof.Machine
end

