-- ==== Sys2Proof/Machine/Defilter.lean ====
section
/-! DEFINITION. The DEFILT unit, 43_defilter.md: the image configuration (`DF_HDRB`, `DF_CONFIG`), the
primitive `df_push` with the five filters, and `DF_BYTE`. -/

namespace Sys2Proof.Machine

/-! ### Configuration -/

/-- The body of `DF_HDRB`, R201. -/
def dfHdrbBody (d : Byte) (u : Defilt) : Res Defilt Rsp :=
  if h : u.hcnt.toNat < 13 then
    let n := BitVec.ofNat 4 (u.hcnt.toNat + 1)
    .ok (rspOk (n.setWidth 32)) { u with hdr := u.hdr.set u.hcnt.toNat d, hcnt := n }
  else .trap .headerFull u

/-- `DF_HDRB d`, R201. -/
def execDfHdrb (d : Byte) (s : State) : Host.Outcome State Fault Refusal :=
  command s (onDefilt (dfHdrbBody d))

/-- The eight (depth, colour type) pairs of row 6 of R204. -/
def acceptedFormats : List (Byte × Byte) :=
  [(1#8, 0#8), (4#8, 0#8), (8#8, 0#8), (1#8, 3#8), (4#8, 3#8), (8#8, 3#8), (8#8, 2#8), (8#8, 6#8)]

/-- Row 6 of R204: the block accepts the pair. -/
def formatAccepted (depth ctype : Byte) : Bool := acceptedFormats.contains (depth, ctype)

/-- `check_features`, R204: the first rejection that applies, `none` when none does. -/
def checkFeatures (depth ctype comp filt inter : Byte) : Option Trap :=
  if depth = 16#8 then some .depth16
  else if ctype = 4#8 then some .grayAlpha
  else if comp ≠ 0#8 then some .compression
  else if filt ≠ 0#8 then some .filterMethod
  else if inter ≠ 0#8 then some .interlace
  else if formatAccepted depth ctype = false then some .pixelFormat
  else none

/-- The channel count of a colour type, R205: 0→1, 2→3, 3→1, 6→4. R204 lets no other type through. -/
def channels (ctype : Byte) : Nat :=
  if ctype = 0#8 then 1 else if ctype = 2#8 then 3 else if ctype = 3#8 then 1 else 4

/-- What `geometry` returns (R205). -/
structure Geometry where
  /-- Bits per pixel. -/
  bpp : Nat
  /-- Bytes per row. -/
  stride : Nat
  /-- MA3's pixel size P in bytes. -/
  psize : Nat
  deriving DecidableEq, Repr

/-- `geometry`, R205, in unbounded integers, with its two size checks in order. -/
def geometry (cap w h : Word) (depth ctype : Byte) : Except Trap Geometry :=
  if w = 0#32 ∨ h = 0#32 then .error .zeroDimension
  else
    let bpp := depth.toNat * channels ctype
    let stride := (w.toNat * bpp + 7) / 8
    if cap.toNat < stride * h.toNat then .error .imageTooLarge
    else .ok { bpp := bpp, stride := stride, psize := max 1 (bpp / 8) }

/-- The width field of the header, R203. -/
def hdrWidth (hdr : Vector Byte 13) : Word := bigEndian32 hdr[0] hdr[1] hdr[2] hdr[3]

/-- The height field of the header, R203. -/
def hdrHeight (hdr : Vector Byte 13) : Word := bigEndian32 hdr[4] hdr[5] hdr[6] hdr[7]

/-- The configuration a successful `DF_CONFIG` puts in force, R202. `PIX` and `LINE` are not cleared. -/
def configured (u : Defilt) (g : Geometry) : Defilt :=
  { u with
    width := hdrWidth u.hdr
    height := hdrHeight u.hdr
    depth := u.hdr[8]
    ctype := u.hdr[9]
    bpp := BitVec.ofNat 6 g.bpp
    stride := BitVec.ofNat 32 g.stride
    psize := BitVec.ofNat 3 g.psize
    row := 0#32
    fill := 0#32
    hcnt := 0#4
    dfvalid := true }

/-- The body of `DF_CONFIG`, R202: nothing is written if a check faults. -/
def dfConfigBody (cap : Word) (u : Defilt) : Res Defilt Rsp :=
  if u.hcnt.toNat = 13 then
    match checkFeatures u.hdr[8] u.hdr[9] u.hdr[10] u.hdr[11] u.hdr[12] with
    | some t => .trap t u
    | none =>
      match geometry cap (hdrWidth u.hdr) (hdrHeight u.hdr) u.hdr[8] u.hdr[9] with
      | .error t => .trap t u
      | .ok g => .ok (rspOk (BitVec.ofNat 32 g.stride)) (configured u g)
  else .trap .headerShort u

/-- `DF_CONFIG`, R202. -/
def execDfConfig (s : State) : Host.Outcome State Fault Refusal :=
  command s (onDefilt (dfConfigBody s.pixcap))

/-! ### The five filters -/

/-- The filter types of R211. -/
inductive Filter where
  /-- 0 None. -/
  | none
  /-- 1 Sub. -/
  | sub
  /-- 2 Up. -/
  | up
  /-- 3 Average. -/
  | average
  /-- 4 Paeth. -/
  | paeth
  deriving DecidableEq, Repr

/-- The filter a filter-type byte names; no filter for a byte above 4 (R208, R211). -/
def filterOfByte (f : Byte) : Option Filter :=
  match f.toNat with
  | 0 => some .none
  | 1 => some .sub
  | 2 => some .up
  | 3 => some .average
  | 4 => some .paeth
  | _ => Option.none

/-- The Paeth choice of R212, in unbounded integers; ties go to `a`, then `b`, then `c`. -/
def paeth (a b c : Nat) : Nat :=
  let pa := ((b : Int) - c).natAbs
  let pb := ((a : Int) - c).natAbs
  let pc := ((a : Int) + b - 2 * c).natAbs
  if pa ≤ pb ∧ pa ≤ pc then a else if pb ≤ pc then b else c

/-- `predictor(F, a, b, c)`, R211, from the left, up and upper-left bytes as integers. -/
def predictor (f : Filter) (a b c : Nat) : Nat :=
  match f with
  | .none => 0
  | .sub => a
  | .up => b
  | .average => (a + b) / 2
  | .paeth => paeth a b c

/-- `MemRead(LINE, a, 1)` (R53). -/
def lineRead (m : Memory) (a : Nat) : Except Fault Byte :=
  match Memory.read m a with
  | some v => .ok v
  | none => .error (.lineNoValue a)

/-- `MemWrite(PIX, a, 1, v)` (R50, R53). -/
def pixWrite (cap : Word) (m : Memory) (a : Nat) (v : Byte) : Except Fault Memory :=
  if cap.toNat ≤ a then .error (.pixOutside a) else .ok (Memory.write m a v)

/-- A neighbour: the byte of `PIX` at `a`, or 0 when it is missing (R209, R210). -/
def neighbour (cap : Word) (m : Memory) (present : Bool) (a : Nat) : Except Fault Byte :=
  if present then pixRead cap m a else .ok 0#8

/-- The reconstructed byte: only this last sum wraps (R209, R212). -/
def reconValue (f : Filter) (x a b c : Byte) : Byte :=
  BitVec.ofNat 8 (x.toNat + predictor f a.toNat b.toNat c.toNat)

/-- Byte `i` of the row, one turn of the loop of R209. -/
def reconByte (cap : Word) (f : Filter) (u : Defilt) (i : Nat) (pix : Memory) : Except Fault Memory :=
  let p := u.psize.toNat
  let stride := u.stride.toNat
  let base := u.row.toNat * stride
  let above := decide (0 < u.row.toNat)
  match lineRead u.line (1 + i) with
  | .error e => .error e
  | .ok x =>
    match neighbour cap pix (decide (p ≤ i)) (base + i - p) with
    | .error e => .error e
    | .ok a =>
      match neighbour cap pix above (base - stride + i) with
      | .error e => .error e
      | .ok b =>
        match neighbour cap pix (above && decide (p ≤ i)) (base - stride + i - p) with
        | .error e => .error e
        | .ok c => pixWrite cap pix (base + i) (reconValue f x a b c)

/-- Bytes `i`, `i + 1`, ..., in that order: `n` turns of the loop of R209. -/
def reconFrom (cap : Word) (f : Filter) (u : Defilt) : Nat → Nat → Memory → Except Fault Memory
  | 0, _, pix => .ok pix
  | n + 1, i, pix =>
    match reconByte cap f u i pix with
    | .error e => .error e
    | .ok pix' => reconFrom cap f u n (i + 1) pix'

/-- `reconstruct_row(F)`, R209: the row goes straight to its place in `PIX` (R213). -/
def reconRow (cap : Word) (f : Filter) (u : Defilt) : Except Fault Memory :=
  reconFrom cap f u u.stride.toNat 0 u.pix

/-! ### Accepting a decompressed byte -/

/-- A whole scanline is in `LINE`: check its filter type, reconstruct the row, start the next (R208). -/
def finishRow (cap : Word) (u : Defilt) : Res Defilt Unit :=
  match lineRead u.line 0 with
  | .error e => .stop e
  | .ok ft =>
    match filterOfByte ft with
    | Option.none => .trap .filterType u
    | some f =>
      match reconRow cap f u with
      | .error e => .stop e
      | .ok pix => .ok () { u with pix := pix, row := u.row + 1#32, fill := 0#32 }

/-- `df_push(b)`, R208. -/
def dfPush (cap : Word) (b : Byte) (u : Defilt) : Res Defilt Unit :=
  if u.dfvalid = false then .trap .notConfigured u
  else if u.row = u.height then .trap .surplusData u
  else if u.stride.toNat < u.fill.toNat then .stop (.lineOutside u.fill.toNat)
  else
    let stored := { u with line := Memory.write u.line u.fill.toNat b }
    if u.fill.toNat < u.stride.toNat then .ok () { stored with fill := u.fill + 1#32 }
    else finishRow cap stored

/-- The body of `DF_BYTE`, R206: `data[0]` a row was completed, `data[1]` all rows are complete. -/
def dfByteBody (cap : Word) (d : Byte) (u : Defilt) : Res Defilt Rsp :=
  (dfPush cap d u).bind fun _ u' =>
    .ok (rspOk ((u'.row - u.row) + (if u'.row = u'.height then 2#32 else 0#32))) u'

/-- `DF_BYTE d`, R206. -/
def execDfByte (d : Byte) (s : State) : Host.Outcome State Fault Refusal :=
  command s (onDefilt (dfByteBody s.pixcap d))

end Sys2Proof.Machine
end

