-- ==== Sys2Proof/Machine/Huffman.lean ====
section
/-! DEFINITION. The HUFF unit, 40_huffman.md: canonical construction (`HT_SEL`, `HT_BEGIN`, `HT_CNT`,
`HT_SYM`) and bit-by-bit lookup (`HD_RESET`, `HD_BIT`). `assign` and `lookupStep` are shared with INFL
(R147, R149). -/

namespace Sys2Proof.Machine

/-- `assign(L)`, R105, line for line, on the pair `(lastCode, lastBits)` in unbounded integers; the code
returned is the new `lastCode`. -/
def assign (lastCode : Int) (lastBits len : Nat) : Int × Nat :=
  let code := lastCode + 1
  let bits := if (code >>> lastBits) % 2 = 1 then lastBits + 1 else lastBits
  let shifted := if bits < len then code * 2 ^ (len - bits) else code
  (shifted, len)

/-- The answer of one step of a lookup (R109). -/
inductive Look (w : Nat) where
  /-- The probe found an entry: the symbol and its code length. -/
  | hit (sym : BitVec w) (len : Nat)
  /-- No entry yet: the bits consumed and the candidate. -/
  | pending (n cand : Nat)
  /-- No entry after more bits than the maximum code length: a FormatError. -/
  | miss
  deriving DecidableEq, Repr

/-- `lookup_step(tab, maxlen, n, cand, b)`, R109: the new bit becomes the least significant bit of the
candidate, one probe, first hit wins (R110). -/
def lookupStep {w : Nat} (tab : Table w) (maxlen n cand b : Nat) : Look w :=
  match Table.find tab (n + 1, cand * 2 + b) with
  | some sym => .hit sym (n + 1)
  | none => if maxlen < n + 1 then .miss else .pending (n + 1) (cand * 2 + b)

/-- `min { L in lo..16 : CNT[L] > 0 }` (R103, R104). -/
def firstLength (cnt : Vector Byte 16) (lo : Nat) : Option Nat :=
  (List.range' 1 16).find? fun l => decide (lo ≤ l) && decide (cnt.toList.getD (l - 1) 0#8 ≠ 0#8)

/-- The body of `HT_SEL`, R101. -/
def htSelBody (t : Fin 8) (h : Huff) : Res Huff Rsp :=
  if h.bphase = .idle ∧ h.hdn = 0#5 then .ok (rspOk 0#32) { h with tsel := t }
  else .trap .selectBusy h

/-- `HT_SEL t`, R101. -/
def execHtSel (t : Byte) (s : State) : Host.Outcome State Fault Refusal :=
  command s fun b =>
    match slotOperand t with
    | some slot => onHuff (htSelBody slot) b
    | none => .trap .operandRange b

/-- The body of `HT_BEGIN`, R102: legal in every phase. -/
def htBeginBody (h : Huff) : Res Huff Rsp :=
  .ok (rspOk 0#32)
    { h with
      tab := h.tab.set h.tsel []
      ready := h.ready.set h.tsel false
      cnt := Vector.replicate 16 0#8
      cidx := 0#5
      curl := 0#5
      remain := 0#12
      lastCode := 0xFFFFFFFF#32
      lastBits := 0#5
      hdn := 0#5
      hdcand := 0#16
      bphase := .counts }

/-- `HT_BEGIN`, R102. -/
def execHtBegin (s : State) : Host.Outcome State Fault Refusal := command s (onHuff htBeginBody)

/-- A build comes to its end: the slot is usable and no length is current (R103, R104). -/
def finishBuild (h : Huff) : Huff :=
  { h with bphase := .idle, ready := h.ready.set h.tsel true, curl := 0#5 }

/-- The next length to insert at, or the end of the build when no code remains (R103, R104): the least
length from `lo` up with a code still to insert. -/
def nextLength (lo : Nat) (h : Huff) : Except Fault Huff :=
  if h.remain = 0#12 then .ok (finishBuild h)
  else match firstLength h.cnt lo with
    | some l => .ok { h with bphase := .syms, curl := BitVec.ofNat 5 l }
    | none => .error .noNextLength

/-- The body of `HT_CNT`, R103. -/
def htCntBody (n : Byte) (h : Huff) : Res Huff Rsp :=
  if h.bphase = .counts then
    let k := h.cidx.toNat + 1
    if hk : k - 1 < 16 then
      let loaded : Huff :=
        { h with
          cidx := BitVec.ofNat 5 k
          cnt := h.cnt.set (k - 1) n
          remain := BitVec.ofNat 12 (h.remain.toNat + n.toNat) }
      if k = 16 then
        match nextLength 1 loaded with
        | .ok h' => .ok (rspOk (h'.remain.setWidth 32)) h'
        | .error f => .stop f
      else .ok (rspOk (loaded.remain.setWidth 32)) loaded
    else .stop (.countNoRegister k)
  else .trap .countPhase h

/-- `HT_CNT n`, R103. -/
def execHtCnt (n : Byte) (s : State) : Host.Outcome State Fault Refusal := command s (onHuff (htCntBody n))

/-- The body of `HT_SYM`, R104: the next code with payload `s`. The key holds the code as `LASTCODE` holds
it; the response is `L × 2^24 + code`. -/
def htSymBody (s : Byte) (h : Huff) : Res Huff Rsp :=
  if h.bphase = .syms then
    let l := h.curl.toNat
    if hl : 1 ≤ l ∧ l - 1 < 16 then
      let a := assign h.lastCode.toInt h.lastBits.toNat l
      let code : Word := BitVec.ofInt 32 a.1
      let inserted : Huff :=
        { h with
          lastCode := code
          lastBits := BitVec.ofNat 5 a.2
          tab := h.tab.set h.tsel (Table.insert h.tab[h.tsel] (l, code.toNat) s)
          cnt := h.cnt.set (l - 1) (h.cnt[l - 1]'hl.2 - 1#8)
          remain := h.remain - 1#12 }
      match nextLength l inserted with
      | .ok h' => .ok (rspOk (BitVec.ofNat 32 (l * 2 ^ 24 + code.toNat))) h'
      | .error f => .stop f
    else .stop (.countNoRegister l)
  else .trap .symbolPhase h

/-- `HT_SYM s`, R104. -/
def execHtSym (p : Byte) (s : State) : Host.Outcome State Fault Refusal := command s (onHuff (htSymBody p))

/-- The body of `HD_RESET`, R107. -/
def hdResetBody (h : Huff) : Res Huff Rsp := .ok (rspOk 0#32) { h with hdn := 0#5, hdcand := 0#16 }

/-- `HD_RESET`, R107. -/
def execHdReset (s : State) : Host.Outcome State Fault Refusal := command s (onHuff hdResetBody)

/-- The body of `HD_BIT`, R108: one bit against `TAB[TSEL]`; a miss leaves `HDN` and `HDCAND` as they
were. -/
def hdBitBody (b : Bool) (h : Huff) : Res Huff Rsp :=
  if h.bphase = .idle ∧ h.ready[h.tsel] = true then
    match lookupStep h.tab[h.tsel] Config.maxLen h.hdn.toNat h.hdcand.toNat b.toNat with
    | .hit sym len => .ok (rspHit (BitVec.ofNat 5 len) sym) { h with hdn := 0#5, hdcand := 0#16 }
    | .pending n cand =>
      .ok (rspPending (BitVec.ofNat 5 n) (BitVec.ofNat 16 cand))
        { h with hdn := BitVec.ofNat 5 n, hdcand := BitVec.ofNat 16 cand }
    | .miss => .trap .huffMiss h
  else .trap .tableNotReady h

/-- `HD_BIT b`, R108. -/
def execHdBit (b : Byte) (s : State) : Host.Outcome State Fault Refusal :=
  command s fun blk =>
    match bitOperand b with
    | some bit => onHuff (hdBitBody bit) blk
    | none => .trap .operandRange blk

end Sys2Proof.Machine
end

