-- ==== Sys2Proof/Machine/Inflate.lean ====
section
/-! DEFINITION. The INFL unit, 42_inflate.md: bits (R144, R145), code tables (R149, R150), output (R148),
one transition per parser state (R151 to R166), the run loop (R146) and the commands `IN_RESET`,
`IN_ROUTE`, `IN_BYTE`. -/

namespace Sys2Proof.Machine

/-! ### Bits -/

/-- The eight bits of a byte in the order they enter `BITQ`: bit 0 first (R144). -/
def byteBits (d : Byte) : List Bool :=
  [d.getLsbD 0, d.getLsbD 1, d.getLsbD 2, d.getLsbD 3, d.getLsbD 4, d.getLsbD 5, d.getLsbD 6, d.getLsbD 7]

/-- The value of a field of bits, the first the least significant (R144). -/
def bitsValue : List Bool → Nat
  | [] => 0
  | b :: q => b.toNat + 2 * bitsValue q

/-- The value `take(k)` returns (R144). -/
def takeValue (k : Nat) (i : Infl) : Nat := bitsValue (i.bitq.take k)

/-- The engine after `take(k)`: the `k` oldest bits are gone (R144). -/
def dropBits (k : Nat) (i : Infl) : Infl := { i with bitq := i.bitq.drop k }

/-- `align()`, R145. -/
def alignBits (i : Infl) : Infl := dropBits (i.bitq.length % 8) i

/-! ### Constant tables -/

/-- `CLORDER`, R158. -/
def clOrder : List Nat := [16, 17, 18, 0, 8, 7, 9, 6, 10, 5, 11, 4, 12, 3, 13, 2, 14, 1, 15]

/-- `LBASE`, R168. -/
def lBase : Vector Nat 29 :=
  #v[3, 4, 5, 6, 7, 8, 9, 10, 11, 13, 15, 17, 19, 23, 27, 31, 35, 43, 51, 59, 67, 83, 99, 115, 131, 163, 195,
    227, 258]

/-- `LEXT`, R168. -/
def lExt : Vector Nat 29 :=
  #v[0, 0, 0, 0, 0, 0, 0, 0, 1, 1, 1, 1, 2, 2, 2, 2, 3, 3, 3, 3, 4, 4, 4, 4, 5, 5, 5, 5, 0]

/-- `DBASE`, R169. -/
def dBase : Vector Nat 30 :=
  #v[1, 2, 3, 4, 5, 7, 9, 13, 17, 25, 33, 49, 65, 97, 129, 193, 257, 385, 513, 769, 1025, 1537, 2049, 3073,
    4097, 6145, 8193, 12289, 16385, 24577]

/-- `DEXT`, R169. -/
def dExt : Vector Nat 30 :=
  #v[0, 0, 0, 0, 1, 1, 2, 2, 3, 3, 4, 4, 5, 5, 6, 6, 7, 7, 8, 8, 9, 9, 10, 10, 11, 11, 12, 12, 13, 13]

/-- The fixed literal/length code lengths, R150. -/
def fixedLitLen : List Nat :=
  List.replicate 144 8 ++ List.replicate 112 9 ++ List.replicate 24 7 ++ List.replicate 8 8

/-- The fixed distance code lengths, R150. -/
def fixedDist : List Nat := List.replicate 32 5

/-! ### Code tables -/

/-- `Σ over L of count[L] × 2^(maxlen − L)`, the code space a list of lengths uses (R149). -/
def codeSpace (lens : List Nat) (maxlen : Nat) : Nat :=
  ((List.range' 1 maxlen).map fun l => lens.count l * 2 ^ (maxlen - l)).sum

/-- The symbols with code length `l`, in increasing order (R149). -/
def symbolsOfLength (lens : List Nat) (l : Nat) : List Nat :=
  (lens.zipIdx.filter fun x => decide (x.1 = l)).map fun x => x.2

/-- The codes to assign, as (length, symbol): shorter lengths first, then increasing symbols (R149). -/
def codeOrder (lens : List Nat) (maxlen : Nat) : List (Nat × Nat) :=
  (List.range' 1 maxlen).flatMap fun l => (symbolsOfLength lens l).map fun s => (l, s)

/-- The running pair and the table of a build (R149). -/
structure Builder (w : Nat) where
  /-- The private `lastCode`. -/
  lastCode : Int
  /-- The private `lastBits`. -/
  lastBits : Nat
  /-- The table so far. -/
  tab : Table w
  deriving DecidableEq, Repr

/-- One assignment of R149: `assign(L)`, then `tab[(L, code)] <- s`. -/
def buildOne {w : Nat} (b : Builder w) (x : Nat × Nat) : Builder w :=
  let a := assign b.lastCode b.lastBits x.1
  { lastCode := a.1, lastBits := a.2, tab := Table.insert b.tab (x.1, a.1.toNat) (BitVec.ofNat w x.2) }

/-- `table_from_lengths(lens, maxlen)`, R149; `none` when the lengths are over-subscribed. -/
def tableFromLengths (w : Nat) (lens : List Nat) (maxlen : Nat) : Option (Table w) :=
  if 2 ^ maxlen < codeSpace lens maxlen then none
  else some ((codeOrder lens maxlen).foldl buildOne { lastCode := -1, lastBits := 0, tab := [] }).tab

/-! ### The engine on its pipe -/

/-- The pipe with another engine state. -/
def Pipe.setInfl (p : Pipe) (i : Infl) : Pipe := { p with infl := i }

/-- The pipe with the engine in another parser state. -/
def Pipe.goto (p : Pipe) (st : InState) : Pipe := { p with infl := { p.infl with instate := st } }

/-- `hstep(tab, maxlen)`, R147: one bit of a symbol; the symbol when it is complete. -/
def hstep {w : Nat} (tab : Table w) (maxlen : Nat) (p : Pipe) : Res Pipe (Option (BitVec w)) :=
  let i := dropBits 1 p.infl
  match lookupStep tab maxlen p.infl.hn.toNat p.infl.hcand.toNat (takeValue 1 p.infl) with
  | .hit sym _ => .ok (some sym) (p.setInfl { i with hn := 0#5, hcand := 0#15 })
  | .pending n cand =>
    .ok none (p.setInfl { i with hn := BitVec.ofNat 5 n, hcand := BitVec.ofNat 15 cand })
  | .miss => .trap .inflMiss (p.setInfl i)

/-- The window after one more byte: at most 32768 bytes are kept (R148). -/
def pushWindow (win : List Byte) (b : Byte) : List Byte :=
  if Config.winSz < (win ++ [b]).length then (win ++ [b]).tail else win ++ [b]

/-- `S1` after one more byte (R171). -/
def adlerS1 (s1 : BitVec 16) (b : Byte) : BitVec 16 := BitVec.ofNat 16 ((s1.toNat + b.toNat) % 65521)

/-- `S2` after `S1` took its new value (R171). -/
def adlerS2 (s2 s1 : BitVec 16) : BitVec 16 := BitVec.ofNat 16 ((s2.toNat + s1.toNat) % 65521)

/-- The engine's own record of an emitted byte: window, checksum, count (R148). -/
def recordByte (b : Byte) (i : Infl) : Infl :=
  { i with
    win := pushWindow i.win b
    s1 := adlerS1 i.s1 b
    s2 := adlerS2 i.s2 (adlerS1 i.s1 b)
    total := i.total + 1#32 }

/-- `emit(b)`, R148: recorded first, then handed on as `ROUTE` says. -/
def emit (cap : Word) (b : Byte) (p : Pipe) : Res Pipe Unit :=
  let q := p.setInfl (recordByte b p.infl)
  if p.infl.route then (dfPush cap b q.df).within fun d => { q with df := d }
  else .ok () { q with out := q.out ++ [b] }

/-- `block_end()`, R156. -/
def blockEnd (p : Pipe) : Pipe :=
  if p.infl.final then (p.setInfl (alignBits p.infl)).goto .trailer else p.goto .blkHdr

/-! ### The transitions, one per parser state -/

/-- State `ZH_CMF`, R151. -/
def stepZhCmf (p : Pipe) : Res Pipe Unit :=
  let cmf := BitVec.ofNat 8 (takeValue 8 p.infl)
  let q := p.setInfl { dropBits 8 p.infl with cmf := cmf }
  if cmf.toNat % 16 ≠ 8 ∨ 7 < cmf.toNat / 16 then .trap .zlibHeader q else .ok () (q.goto .zhFlg)

/-- State `ZH_FLG`, R152. -/
def stepZhFlg (p : Pipe) : Res Pipe Unit :=
  let flg := takeValue 8 p.infl
  let q := p.setInfl (dropBits 8 p.infl)
  if (p.infl.cmf.toNat * 256 + flg) % 31 ≠ 0 then .trap .zlibHeader q
  else if flg / 32 % 2 = 1 then .trap .presetDictionary q
  else .ok () (q.goto .blkHdr)

/-- State `BLK_HDR`, R153. -/
def stepBlkHdr (p : Pipe) : Res Pipe Unit :=
  let final := decide (takeValue 1 p.infl = 1)
  let btype := takeValue 2 (dropBits 1 p.infl)
  let q := p.setInfl { dropBits 3 p.infl with final := final }
  if btype = 0 then .ok () ((q.setInfl (alignBits q.infl)).goto .stLen)
  else if btype = 1 then
    match tableFromLengths 9 fixedLitLen 15, tableFromLengths 5 fixedDist 15 with
    | some lt, some dt => .ok () ((q.setInfl { q.infl with lt := lt, dt := dt }).goto .sym)
    | _, _ => .trap .overSubscribed q
  else if btype = 2 then .ok () (q.goto .dynHdr)
  else .trap .blockType q

/-- State `ST_LEN`, R154. -/
def stepStLen (p : Pipe) : Res Pipe Unit :=
  let len := BitVec.ofNat 16 (takeValue 16 p.infl)
  let nlen := BitVec.ofNat 16 (takeValue 16 (dropBits 16 p.infl))
  let q := p.setInfl (dropBits 32 p.infl)
  if len ≠ nlen ^^^ 0xFFFF#16 then .trap .storedLen q
  else
    let q := q.setInfl { q.infl with rem := len }
    .ok () (if len = 0#16 then blockEnd q else q.goto .stCopy)

/-- State `ST_COPY`, R155. -/
def stepStCopy (cap : Word) (p : Pipe) : Res Pipe Unit :=
  (emit cap (BitVec.ofNat 8 (takeValue 8 p.infl)) (p.setInfl (dropBits 8 p.infl))).bind fun _ q =>
    let q := q.setInfl { q.infl with rem := q.infl.rem - 1#16 }
    .ok () (if q.infl.rem = 0#16 then blockEnd q else q)

/-- State `DYN_HDR`, R157. The check is made on the integers; a count of 32 does not fit the 5 bits of
`HDIST` and is rejected (DESIGN CHOICE, unsafe: notes/assumptions/4.md). -/
def stepDynHdr (p : Pipe) : Res Pipe Unit :=
  let hlit := takeValue 5 p.infl + 257
  let hdist := takeValue 5 (dropBits 5 p.infl) + 1
  let hclen := takeValue 4 (dropBits 10 p.infl) + 4
  let q := p.setInfl
    { dropBits 14 p.infl with
      hlit := BitVec.ofNat 9 hlit, hdist := BitVec.ofNat 5 hdist, hclen := BitVec.ofNat 5 hclen }
  if 286 < hlit ∨ 30 < hdist then .trap .dynCounts q
  else .ok () ((q.setInfl { q.infl with cll := Vector.replicate 19 0#3, idx := 0#5 }).goto .dynClen)

/-- State `DYN_CLEN`, R158. -/
def stepDynClen (p : Pipe) : Res Pipe Unit :=
  match clOrder[p.infl.idx.toNat]? with
  | none => .stop .codeOrderNoEntry
  | some pos =>
    let q := p.setInfl
      { dropBits 3 p.infl with
        cll := p.infl.cll.setIfInBounds pos (BitVec.ofNat 3 (takeValue 3 p.infl))
        idx := p.infl.idx + 1#5 }
    if q.infl.idx = q.infl.hclen then
      match tableFromLengths 5 (q.infl.cll.toList.map BitVec.toNat) 7 with
      | none => .trap .overSubscribed q
      | some ct => .ok () ((q.setInfl { q.infl with ct := ct, lens := [] }).goto .dynLens)
    else .ok () q

/-- `HLIT + HDIST`, the number of code lengths of a dynamic block (R160, R161). -/
def lensWanted (i : Infl) : Nat := i.hlit.toNat + i.hdist.toNat

/-- `lens_done()`, R161. -/
def lensDone (p : Pipe) : Res Pipe Unit :=
  if p.infl.lens.length = lensWanted p.infl then
    let ll := p.infl.lens.take p.infl.hlit.toNat
    let dl := p.infl.lens.drop p.infl.hlit.toNat
    match ll[256]? with
    | none => .stop .noEndOfBlockLength
    | some e =>
      if e = 0#4 then .trap .noEndOfBlock p
      else
        match tableFromLengths 9 (ll.map BitVec.toNat) 15 with
        | none => .trap .overSubscribed p
        | some lt =>
          let q := p.setInfl { p.infl with lt := lt }
          match tableFromLengths 5 (dl.map BitVec.toNat) 15 with
          | none => .trap .overSubscribed q
          | some dt => .ok () ((q.setInfl { q.infl with dt := dt }).goto .sym)
  else .ok () p

/-- State `DYN_LENS`, R159. -/
def stepDynLens (p : Pipe) : Res Pipe Unit :=
  (hstep p.infl.ct 7 p).bind fun r q =>
    match r with
    | none => .ok () q
    | some s =>
      if s.toNat ≤ 15 then
        lensDone (q.setInfl { q.infl with lens := q.infl.lens ++ [BitVec.ofNat 4 s.toNat] })
      else if s.toNat = 16 ∧ q.infl.lens = [] then .trap .repeatNoPrevious q
      else .ok () ((q.setInfl { q.infl with repsym := s }).goto .dynRep)

/-- The bits state `DYN_REP` needs, by `REPSYM` (R160). -/
def repeatBits (repsym : BitVec 5) : Nat :=
  if repsym = 16#5 then 2 else if repsym = 17#5 then 3 else 7

/-- What a repeat appends, R160: the value and the count, from the bits read; `none` when the spec gives
`REPSYM` no meaning or there is no previous length. -/
def repeatRun (i : Infl) : Option (BitVec 4 × Nat) :=
  if i.repsym = 16#5 then i.lens.getLast?.map fun v => (v, 3 + takeValue 2 i)
  else if i.repsym = 17#5 then some (0#4, 3 + takeValue 3 i)
  else if i.repsym = 18#5 then some (0#4, 11 + takeValue 7 i)
  else none

/-- State `DYN_REP`, R160. -/
def stepDynRep (p : Pipe) : Res Pipe Unit :=
  match repeatRun p.infl with
  | none => .stop .repeatUndefined
  | some (v, n) =>
    let q := p.setInfl (dropBits (repeatBits p.infl.repsym) p.infl)
    if lensWanted q.infl < q.infl.lens.length + n then .trap .repeatPastEnd q
    else
      lensDone ((q.setInfl { q.infl with lens := q.infl.lens ++ List.replicate n v }).goto .dynLens)

/-- State `SYM`, R162. -/
def stepSym (cap : Word) (p : Pipe) : Res Pipe Unit :=
  (hstep p.infl.lt 15 p).bind fun r q =>
    match r with
    | none => .ok () q
    | some s =>
      if s.toNat < 256 then emit cap (BitVec.ofNat 8 s.toNat) q
      else if s.toNat = 256 then .ok () (blockEnd q)
      else if h : s.toNat - 257 < 29 then
        .ok () ((q.setInfl { q.infl with lsym := ⟨s.toNat - 257, h⟩ }).goto .lenExtra)
      else .trap .litLenSymbol q

/-- State `LEN_EXTRA`, R163. -/
def stepLenExtra (p : Pipe) : Res Pipe Unit :=
  let k := lExt[p.infl.lsym]
  let len := lBase[p.infl.lsym] + takeValue k p.infl
  .ok () ((p.setInfl { dropBits k p.infl with length := BitVec.ofNat 9 len }).goto .distSym)

/-- State `DIST_SYM`, R164. -/
def stepDistSym (p : Pipe) : Res Pipe Unit :=
  (hstep p.infl.dt 15 p).bind fun r q =>
    match r with
    | none => .ok () q
    | some s =>
      if h : s.toNat < 30 then
        .ok () ((q.setInfl { q.infl with dsym := ⟨s.toNat, h⟩ }).goto .distExtra)
      else .trap .distSymbol q

/-- `WIN[−k]`: the byte emitted `k` positions ago (R27). -/
def windowBack (win : List Byte) (k : Nat) : Option Byte :=
  if 1 ≤ k ∧ k ≤ win.length then win[win.length - k]? else none

/-- `repeat n times: emit( WIN[−dist] )`, R165: one byte at a time, the window changing as it goes. -/
def copyMatch (cap : Word) (dist : Nat) : Nat → Pipe → Res Pipe Unit
  | 0, p => .ok () p
  | n + 1, p =>
    match windowBack p.infl.win dist with
    | none => .stop (.windowNoValue dist)
    | some b => (emit cap b p).bind fun _ q => copyMatch cap dist n q

/-- State `DIST_EXTRA`, R165. -/
def stepDistExtra (cap : Word) (p : Pipe) : Res Pipe Unit :=
  let k := dExt[p.infl.dsym]
  let dist := dBase[p.infl.dsym] + takeValue k p.infl
  let q := p.setInfl (dropBits k p.infl)
  if q.infl.win.length < dist then .trap .distTooFar q
  else (copyMatch cap dist q.infl.length.toNat q).bind fun _ r => .ok () (r.goto .sym)

/-- The trailer the stream carries: four bytes, the first the most significant (R166). -/
def trailerValue (i : Infl) : Nat :=
  takeValue 8 i * 2 ^ 24 + takeValue 8 (dropBits 8 i) * 2 ^ 16 + takeValue 8 (dropBits 16 i) * 2 ^ 8 +
    takeValue 8 (dropBits 24 i)

/-- State `TRAILER`, R166. -/
def stepTrailer (p : Pipe) : Res Pipe Unit :=
  let q := p.setInfl (dropBits 32 p.infl)
  if trailerValue p.infl ≠ p.infl.s2.toNat * 2 ^ 16 + p.infl.s1.toNat then .trap .adlerMismatch q
  else .ok () (q.goto .done)

/-! ### The run loop -/

/-- The bits the engine needs to proceed, R146; `none` in state `DONE`, which never proceeds. -/
def bitsNeeded (i : Infl) : Option Nat :=
  match i.instate with
  | .zhCmf => some 8
  | .zhFlg => some 8
  | .blkHdr => some 3
  | .stLen => some 32
  | .stCopy => some 8
  | .dynHdr => some 14
  | .dynClen => some 3
  | .dynLens => some 1
  | .dynRep => some (repeatBits i.repsym)
  | .sym => some 1
  | .lenExtra => some lExt[i.lsym]
  | .distSym => some 1
  | .distExtra => some dExt[i.dsym]
  | .trailer => some 32
  | .done => none

/-- The transition of the current state, once (R146). `DONE` has none. -/
def transition (cap : Word) (p : Pipe) : Res Pipe Unit :=
  match p.infl.instate with
  | .zhCmf => stepZhCmf p
  | .zhFlg => stepZhFlg p
  | .blkHdr => stepBlkHdr p
  | .stLen => stepStLen p
  | .stCopy => stepStCopy cap p
  | .dynHdr => stepDynHdr p
  | .dynClen => stepDynClen p
  | .dynLens => stepDynLens p
  | .dynRep => stepDynRep p
  | .sym => stepSym cap p
  | .lenExtra => stepLenExtra p
  | .distSym => stepDistSym p
  | .distExtra => stepDistExtra cap p
  | .trailer => stepTrailer p
  | .done => .ok () p

/-- The engine has the bits its state needs (R146). -/
def canProceed (i : Infl) : Bool :=
  match bitsNeeded i with
  | none => false
  | some k => decide (k ≤ i.bitq.length)

/-- `run()`, R146, in at most `n` turns. Two transitions in a row never consume nothing, so `runBound` is
never reached from `IN_BYTE` (Laws/Inflate.lean). -/
def run (cap : Word) : Nat → Pipe → Res Pipe Unit
  | 0, _ => .stop .runBound
  | n + 1, p => if canProceed p.infl then (transition cap p).bind fun _ q => run cap n q else .ok () p

/-- More turns than a run over these bits can take. -/
def runTurns (i : Infl) : Nat := 2 * i.bitq.length + 2

/-! ### Commands -/

/-- The body of `IN_RESET`, R141: everything of INFL but `ROUTE`. -/
def inResetBody (i : Infl) : Res Infl Rsp :=
  .ok (rspOk 0#32)
    { i with
      instate := .zhCmf
      bitq := []
      final := false
      cmf := 0#8
      rem := 0#16
      hlit := 0#9
      hdist := 0#5
      hclen := 0#5
      cll := Vector.replicate 19 0#3
      idx := 0#5
      lens := []
      repsym := 0#5
      lsym := 0
      length := 0#9
      dsym := 0
      hn := 0#5
      hcand := 0#15
      ct := []
      lt := []
      dt := []
      win := []
      s1 := 1#16
      s2 := 0#16
      total := 0#32 }

/-- `IN_RESET`, R141. -/
def execInReset (s : State) : Host.Outcome State Fault Refusal := command s (onInfl inResetBody)

/-- The body of `IN_ROUTE`, R142. -/
def inRouteBody (r : Bool) (i : Infl) : Res Infl Rsp := .ok (rspOk 0#32) { i with route := r }

/-- `IN_ROUTE r`, R142. -/
def execInRoute (r : Byte) (s : State) : Host.Outcome State Fault Refusal :=
  command s fun b =>
    match bitOperand r with
    | some bit => onInfl (inRouteBody bit) b
    | none => .trap .operandRange b

/-- A compressed byte joins `BITQ` (R143, R144). -/
def feedByte (d : Byte) (p : Pipe) : Pipe := p.setInfl { p.infl with bitq := p.infl.bitq ++ byteBits d }

/-- The response of `IN_BYTE`: `INSTATE × 2^16 +` the bytes emitted by this command (R143), counted by
`TOTAL` (DEDUCED, safe: notes/assumptions/14.md). -/
def inByteData (before after : Infl) : Word :=
  BitVec.ofNat 32 ((instateCode after.instate).toNat * 2 ^ 16 + (after.total - before.total).toNat)

/-- The body of `IN_BYTE`, R143. -/
def inByteBody (cap : Word) (d : Byte) (p : Pipe) : Res Pipe Rsp :=
  if p.infl.instate = .done then .trap .afterDone p
  else
    let fed := feedByte d p
    (run cap (runTurns fed.infl) fed).bind fun _ q => .ok (rspOk (inByteData p.infl q.infl)) q

/-- `IN_BYTE d`, R143. -/
def execInByte (d : Byte) (s : State) : Host.Outcome State Fault Refusal :=
  command s (onPipe (inByteBody s.pixcap d))

end Sys2Proof.Machine
end

