-- ==== Sys2Proof/Machine/Dispatch.lean ====
section
/-! DEFINITION. One arm per command of R72. -/

namespace Sys2Proof.Machine

def exec (i : Instr) (s : State) : Host.Outcome State Fault Refusal :=
  match i with
  | .nop => Sys2Proof.Machine.execNop s
  | .blkReset => Sys2Proof.Machine.execBlkReset s
  | .stRead sel => Sys2Proof.Machine.execStRead sel s
  | .paShift d => Sys2Proof.Machine.execPaShift d s
  | .pixRd => Sys2Proof.Machine.execPixRd s
  | .htSel t => Sys2Proof.Machine.execHtSel t s
  | .htBegin => Sys2Proof.Machine.execHtBegin s
  | .htCnt n => Sys2Proof.Machine.execHtCnt n s
  | .htSym p => Sys2Proof.Machine.execHtSym p s
  | .hdReset => Sys2Proof.Machine.execHdReset s
  | .hdBit b => Sys2Proof.Machine.execHdBit b s
  | .crcReset => Sys2Proof.Machine.execCrcReset s
  | .crcByte d => Sys2Proof.Machine.execCrcByte d s
  | .crcExpb d => Sys2Proof.Machine.execCrcExpb d s
  | .crcRead => Sys2Proof.Machine.execCrcRead s
  | .crcCheck => Sys2Proof.Machine.execCrcCheck s
  | .inReset => Sys2Proof.Machine.execInReset s
  | .inRoute r => Sys2Proof.Machine.execInRoute r s
  | .inByte d => Sys2Proof.Machine.execInByte d s
  | .dfHdrb d => Sys2Proof.Machine.execDfHdrb d s
  | .dfConfig => Sys2Proof.Machine.execDfConfig s
  | .dfByte d => Sys2Proof.Machine.execDfByte d s

end Sys2Proof.Machine
end

