-- ==== Sys2Proof/Machine/Step.lean ====
section
/-! DEFINITION. One step of the machine: the block takes the next input, if there is one (R2, R5, R6). -/

namespace Sys2Proof.Machine

/-- One step. With no input presented the block is idle and holds its state (R6, R275). A command word is
decoded and executed whole, or is illegal (R74). Power-on reset gives the state of R291 (R290). -/
def step (s : State) : Host.Outcome State Fault Refusal :=
  match s.inputs with
  | [] => .next s
  | .powerOn :: rest => .next (resetBlock { s with inputs := rest })
  | .command w :: rest =>
    match decode w with
    | .ok i => exec i { s with inputs := rest }
    | .error e => illegalWord e { s with inputs := rest }

/-- `s` with one more command word, presented next: the word numbered as spec/opcode_table.json numbers
its bits, zero from bit `nbits` up. The block runs no stored program (R2), so nothing is loaded: the host
presents the word. -/
def State.withFetchWord (s : State) (nbits w : Nat) : State :=
  { s with inputs := .command (BitVec.ofNat 16 (w % 2 ^ nbits)) :: s.inputs }

end Sys2Proof.Machine
end

