-- ==== Sys2Proof/Safety.lean ====
section
/-! DEFINITION. What a good state of the machine is: the value ranges the "Values" columns of 10_state.md
give, and the relations between registers that the rules of the units keep. The model stops in no state
that has `Safety.Inv`. -/

namespace Sys2Proof.Safety

open Sys2Proof.Machine

/-! ### The fault pair -/

/-- `FAULT` and `FSUB` hold the pair of no fault, or a pair of the table of R262 (R21, R261, R262). -/
def FaultPair (b : Block) : Prop :=
  (b.fault = 0#8 ∧ b.fsub = 0#8) ∨ ∃ t : Trap, b.fault = t.cause ∧ b.fsub = t.sub

/-! ### HUFF -/

/-- `CNT[1] + ... + CNT[16]` (R22, `REMAIN`). -/
def countSum (cnt : Vector Byte 16) : Nat := (cnt.toList.map BitVec.toNat).sum

/-- A table of R23 or R27: a map in canonical form whose keys have lengths `1..maxlen`. -/
structure TableOk {w : Nat} (maxlen : Nat) (t : Table w) : Prop where
  /-- No two entries have the same key, and equal maps are equal lists. -/
  wf : Table.wf t = true
  /-- Key lengths are in range. -/
  lengths : ∀ e ∈ t, 1 ≤ e.1.1 ∧ e.1.1 ≤ maxlen

/-- The progress of a build, by phase (R22, R102 to R104). -/
def BuildOk (h : Huff) : Prop :=
  match h.bphase with
  | .idle => h.curl = 0#5
  | .counts =>
    h.cidx.toNat < 16 ∧ h.curl = 0#5 ∧ h.remain.toNat = countSum h.cnt ∧
      h.lastCode = 0xFFFFFFFF#32 ∧ h.lastBits = 0#5 ∧ h.ready[h.tsel] = false ∧ h.tab[h.tsel] = [] ∧
      ∀ k : Fin 16, h.cidx.toNat ≤ k.val → h.cnt[k] = 0#8
  | .syms =>
    h.cidx = 16#5 ∧ 1 ≤ h.curl.toNat ∧ h.curl.toNat ≤ 16 ∧ h.remain ≠ 0#12 ∧
      h.remain.toNat = countSum h.cnt ∧ h.ready[h.tsel] = false ∧
      h.tab[h.tsel].length + h.remain.toNat ≤ Config.htCap ∧ h.lastBits.toNat ≤ h.curl.toNat ∧
      (∀ k : Fin 16, k.val + 1 < h.curl.toNat → h.cnt[k] = 0#8) ∧
      (∀ k : Fin 16, k.val + 1 = h.curl.toNat → h.cnt[k] ≠ 0#8)

/-- HUFF in a good state (R22 to R24). -/
structure HuffInv (h : Huff) : Prop where
  /-- The builder's registers agree with its phase. -/
  build : BuildOk h
  /-- `LASTBITS` is in `0..16`. -/
  lastBits : h.lastBits.toNat ≤ 16
  /-- Every slot is a table with key lengths `1..16` and at most 4080 entries. -/
  tables : ∀ t : Fin 8, TableOk 16 h.tab[t] ∧ h.tab[t].length ≤ Config.htCap
  /-- `HDN` is in `0..16` and the candidate is a number of that many bits. -/
  candidate : h.hdn.toNat ≤ 16 ∧ h.hdcand.toNat < 2 ^ h.hdn.toNat
  /-- A symbol is under way only against a ready table, with no build in progress. -/
  midSymbol : h.hdn ≠ 0#5 → h.bphase = .idle ∧ h.ready[h.tsel] = true

/-! ### INFL -/

/-- INFL's registers are in their ranges, in a faulted block as well (R26, R27, R146). -/
structure InflRanges (i : Infl) : Prop where
  /-- `|BITQ| ≤ 39`. -/
  bitq : i.bitq.length ≤ 39
  /-- `LENS` holds at most 316 values. -/
  lens : i.lens.length ≤ 316
  /-- `HN` is in `0..15` and the candidate is a number of that many bits. -/
  candidate : i.hn.toNat ≤ 15 ∧ i.hcand.toNat < 2 ^ i.hn.toNat
  /-- The Adler-32 halves are remainders modulo 65521. -/
  adler : i.s1.toNat < 65521 ∧ i.s2.toNat < 65521
  /-- The window holds at most 32768 bytes. -/
  win : i.win.length ≤ Config.winSz
  /-- The code-length table, whose symbols are `0..18`. -/
  ct : TableOk 7 i.ct ∧ ∀ e ∈ i.ct, e.2.toNat < 19
  /-- The literal/length table. -/
  lt : TableOk 15 i.lt
  /-- The distance table. -/
  dt : TableOk 15 i.dt

/-- The counts of a dynamic block header are in range (R157). -/
def DynCounts (i : Infl) : Prop :=
  257 ≤ i.hlit.toNat ∧ i.hlit.toNat ≤ 286 ∧ 1 ≤ i.hdist.toNat ∧ i.hdist.toNat ≤ 30

/-- What each parser state relies on (R154 to R165, the "when in use" ranges of R26). -/
def StateOk (i : Infl) : Prop :=
  match i.instate with
  | .zhCmf => True
  | .zhFlg => True
  | .blkHdr => True
  | .stLen => i.bitq.length % 8 = 0
  | .stCopy => i.rem ≠ 0#16
  | .dynHdr => True
  | .dynClen => DynCounts i ∧ i.idx.toNat < i.hclen.toNat ∧ i.hclen.toNat ≤ 19
  | .dynLens => DynCounts i ∧ i.lens.length < lensWanted i
  | .dynRep =>
    DynCounts i ∧ i.lens.length < lensWanted i ∧
      (i.repsym = 16#5 ∨ i.repsym = 17#5 ∨ i.repsym = 18#5) ∧ (i.repsym = 16#5 → i.lens ≠ [])
  | .sym => True
  | .lenExtra => True
  | .distSym => 3 ≤ i.length.toNat ∧ i.length.toNat ≤ 258
  | .distExtra => 3 ≤ i.length.toNat ∧ i.length.toNat ≤ 258
  | .trailer => i.bitq.length % 8 = 0
  | .done => i.bitq = []

/-- The states that read Huffman symbols bit by bit (R159, R162, R164). -/
def readsSymbol : InState → Bool
  | .zhCmf => false
  | .zhFlg => false
  | .blkHdr => false
  | .stLen => false
  | .stCopy => false
  | .dynHdr => false
  | .dynClen => false
  | .dynLens => true
  | .dynRep => false
  | .sym => true
  | .lenExtra => false
  | .distSym => true
  | .distExtra => false
  | .trailer => false
  | .done => false

/-- The engine is in a state it can go on from: its parser state has what it relies on, and a symbol is
under way only in a state that reads one (R156). -/
structure EngineOk (i : Infl) : Prop where
  /-- What the parser state relies on. -/
  state : StateOk i
  /-- `HN = 0` unless a symbol is being read. -/
  midSymbol : readsSymbol i.instate = false → i.hn = 0#5

/-- The engine waits: it has not the bits its state needs (R140, R146). -/
def Waiting (i : Infl) : Prop := canProceed i = false

/-! ### DEFILT -/

/-- A configuration in force (R28, R204, R205). -/
structure ConfigOk (cap : Word) (d : Defilt) : Prop where
  /-- `WIDTH` and `HEIGHT` are not zero. -/
  size : d.width ≠ 0#32 ∧ d.height ≠ 0#32
  /-- The depth and colour type are one of the eight pairs. -/
  format : formatAccepted d.depth d.ctype = true
  /-- `BPP` is depth times channels. -/
  bpp : d.bpp.toNat = d.depth.toNat * channels d.ctype
  /-- `STRIDE = ceil(WIDTH × BPP / 8)`. -/
  stride : d.stride.toNat = (d.width.toNat * d.bpp.toNat + 7) / 8
  /-- `PSIZE = max(1, floor(BPP / 8))`. -/
  psize : d.psize.toNat = max 1 (d.bpp.toNat / 8)
  /-- The image fits the pixel memory. -/
  fits : d.stride.toNat * d.height.toNat ≤ cap.toNat
  /-- `ROW` is in `0 .. HEIGHT`. -/
  row : d.row.toNat ≤ d.height.toNat
  /-- `FILL` is in `0 .. STRIDE`. -/
  fill : d.fill.toNat ≤ d.stride.toNat

/-- DEFILT in a good state: exactly the bytes the counters say hold values can be read (R28, R29, R53). -/
structure DefiltInv (cap : Word) (d : Defilt) : Prop where
  /-- `HCNT` is in `0..13`. -/
  hcnt : d.hcnt.toNat ≤ 13
  /-- With `DFVALID`, a configuration is in force. -/
  valid : d.dfvalid = true → ConfigOk cap d
  /-- Without, no row and no byte has been taken. -/
  idle : d.dfvalid = false → d.row = 0#32 ∧ d.fill = 0#32
  /-- `LINE` is in canonical form and `LINE[0 .. FILL−1]` hold values. -/
  line : Memory.wf d.line = true ∧ ∀ a < d.fill.toNat, (Memory.read d.line a).isSome = true
  /-- `PIX` is in canonical form, inside the pixel memory, and `PIX[0 .. ROW×STRIDE−1]` hold values. -/
  pix : Memory.wf d.pix = true ∧ (∀ e ∈ d.pix, e.1 < cap.toNat) ∧
    ∀ a < d.row.toNat * d.stride.toNat, (Memory.read d.pix a).isSome = true

/-! ### The whole machine -/

/-- The block in a good state. -/
structure BlockInv (cap : Word) (b : Block) : Prop where
  /-- The fault pair is legal. -/
  faultPair : FaultPair b
  /-- HUFF is in a good state. -/
  huff : HuffInv b.huff
  /-- INFL's registers are in range. -/
  ranges : InflRanges b.infl
  /-- DEFILT is in a good state. -/
  defilt : DefiltInv cap b.df
  /-- In a block that is not faulted the engine can go on and waits for its next byte. -/
  engine : b.fault = 0#8 → EngineOk b.infl ∧ Waiting b.infl

/-- The machine in a good state; `PIXCAP ≥ 1` is R7's. -/
structure Inv (s : State) : Prop where
  /-- `PIXCAP` is not zero. -/
  cap : s.pixcap ≠ 0#32
  /-- The block is in a good state. -/
  blk : BlockInv s.pixcap s.blk

/-- The step answers a next state: the model does not stop. -/
def Runs (s : State) : Prop := ∃ t, step s = .next t

/-! ### What statements about commands are written with -/

/-- The state after a command that completes with response `r` and block `b`. -/
def answered (r : Rsp) (b : Block) (s : State) : State := respond { s with blk := b } r

/-- The state after `raise Fault(cause, sub)` with nothing else changed: the fault pair is written, and the
response is `FAULT` with `cause + 256 × sub` (R264, R78). -/
def raised (cause sub : Nat) (s : State) : State :=
  answered (rsp 0xF#4 (BitVec.ofNat 32 (cause + 256 * sub)))
    { s.blk with fault := BitVec.ofNat 8 cause, fsub := BitVec.ofNat 8 sub } s

/-- Every word with this opcode is, in Format Z, the command `i` or an illegal word, which a block that is not
faulted answers with `Fault(6, 2)` and nothing else (R71, R74 (b)). -/
def EncodedZ (op : Nat) (i : Instr) : Prop :=
  ∀ w : CmdWord, w.toNat / 256 = op →
    (w.toNat % 256 = 0 → decode w = .ok i) ∧
      (w.toNat % 256 ≠ 0 → decode w = .error .nonzeroImm ∧
        ∀ (s : State) (rest : List Input), s.inputs = .command w :: rest → s.blk.fault = 0#8 →
          step s = .next (raised 6 2 { s with inputs := rest }))

/-- Every word with this opcode is, in Format I, the command with its low byte as operand, or an illegal word,
which a block that is not faulted answers with `Fault(6, 3)` and nothing else (R71, R73, R74 (c)). -/
def EncodedI (op : Nat) (i : Byte → Instr) (legal : Nat → Prop) : Prop :=
  ∀ w : CmdWord, w.toNat / 256 = op →
    (legal (w.toNat % 256) → decode w = .ok (i (BitVec.ofNat 8 (w.toNat % 256)))) ∧
      (¬ legal (w.toNat % 256) → decode w = .error .operandRange ∧
        ∀ (s : State) (rest : List Input), s.inputs = .command w :: rest → s.blk.fault = 0#8 →
          step s = .next (raised 6 3 { s with inputs := rest }))

/-- A list of commands, one after another, as long as each answers a next state. -/
def execAll : List Instr → State → Host.Outcome State Fault Refusal
  | [], s => .next s
  | i :: is, s =>
    match exec i s with
    | .next t => execAll is t
    | .fault e => .fault e
    | .refused r => .refused r

/-- `df_push` of some bytes, one after another, up to the first that raises a fault (R200, R208). -/
def pushAll (cap : Word) : List Byte → Defilt → Res Defilt Unit
  | [], u => .ok () u
  | b :: bs, u => (dfPush cap b u).bind fun _ v => pushAll cap bs v

/-- The engine `j` has recorded the bytes `bs`, and no others, since it was `i`: the window holds the last 32768
bytes, the count grew by their number modulo 2^32, and the two sums took each byte in order (R148, R171). -/
structure Recorded (bs : List Byte) (i j : Infl) : Prop where
  /-- `WIN`. -/
  win : j.win = (i.win ++ bs).drop ((i.win ++ bs).length - 32768)
  /-- `TOTAL`. -/
  total : j.total.toNat = (i.total.toNat + bs.length) % 2 ^ 32
  /-- `S1` and `S2`. -/
  adler : (j.s1.toNat, j.s2.toNat) =
    bs.foldl (fun (a : Nat × Nat) b => ((a.1 + b.toNat) % 65521, (a.2 + (a.1 + b.toNat) % 65521) % 65521))
      (i.s1.toNat, i.s2.toNat)

/-- The transition relation of R146: the engine has the bits its state needs, and takes that state's
transition to its end. -/
def Turn (cap : Word) (p q : Pipe) : Prop := canProceed p.infl = true ∧ transition cap p = .ok () q

/-- The code space the codes still to be inserted take, as multiples of `2^-16` (R106 (b)). -/
def codesLeft (cnt : Vector Byte 16) : Nat :=
  ((List.finRange 16).map fun k => cnt[k].toNat * 2 ^ (15 - k.val)).sum

/-- What bounds `LASTCODE` and keeps keys apart (R106). -/
structure CodeBound (h : Huff) : Prop where
  /-- `LASTCODE` is −1 or a code. -/
  start : -1 ≤ h.lastCode.toInt
  /-- The code space up to `LASTCODE` and what is still to come are at most 255 codes of each length. -/
  space : (h.lastCode.toInt + 1) * 2 ^ (16 - h.lastBits.toNat) + codesLeft h.cnt ≤ 255 * (2 ^ 16 - 1)
  /-- While codes are being inserted, every code inserted so far is at most `LASTCODE`. -/
  keys : h.bphase = .syms → ∀ e ∈ h.tab[h.tsel], (e.1.2 : Int) ≤ h.lastCode.toInt

/-- The codes that `assign` gives to a list of lengths, from a running pair on (R105). -/
def codesFrom (lastCode : Int) (lastBits : Nat) : List Nat → List Nat
  | [] => []
  | l :: ls =>
    let a := assign lastCode lastBits l
    a.1.toNat :: codesFrom a.1 a.2 ls

/-- The value of a field of bits, the first the least significant, as the sum R144 writes. -/
def fieldValue (bits : List Bool) : Nat := (bits.zipIdx.map fun x => x.1.toNat * 2 ^ x.2).sum

/-- The bits of a byte from bit 0 to bit 7 (R144). -/
def bitsOf (d : Byte) : List Bool := (List.finRange 8).map fun k => d.getLsbD k.val

/-- Two states that differ only in bytes of `LINE` and `PIX` that hold no value (R29, R292). -/
structure SameReadable (s t : State) : Prop where
  /-- Everything but the two memories. -/
  rest : t = { s with blk := { s.blk with df := { s.blk.df with line := t.blk.df.line, pix := t.blk.df.pix } } }
  /-- `LINE[0 .. FILL−1]`. -/
  line : ∀ a < s.blk.df.fill.toNat, Memory.read t.blk.df.line a = Memory.read s.blk.df.line a
  /-- `PIX[0 .. ROW×STRIDE−1]`. -/
  pix : ∀ a < s.blk.df.row.toNat * s.blk.df.stride.toNat,
    Memory.read t.blk.df.pix a = Memory.read s.blk.df.pix a

end Sys2Proof.Safety
end

