-- ==== Sys2Proof/Certificates/Slice0/Obligations.lean ====
section
/-! DEFINITION. The statements for the provers. Each docstring names the rules of the spec it formalises.
`answered r b s` is `s` after a command that completes with response `r` and block `b`: as `b` is written as an
update of `s.blk`, every register, table, memory and queue not named in the update is unchanged. `raised c u s`
is `s` after `raise Fault(c, u)` with nothing else changed. -/

open Sys2Proof Sys2Proof.Machine Sys2Proof.Safety

/-! ### Encoding -/

/-- R72, R74: the decoder and the encoder agree on every word and every command, operands at every value. -/
def Obligations.DecodeAndEncodeAgree : Prop :=
  ∀ (w : CmdWord) (i : Instr), decode w = .ok i ↔ i.wellFormed = true ∧ encode i = w

/-- R74: which words are illegal and by which of its three reasons; what an illegal word does in a block
that is not faulted and in one that is. -/
def Obligations.IllegalWordsRaiseCauseSix : Prop :=
  (∀ w : CmdWord,
    (decode w = .error .unknownOpcode ↔
      w.toNat / 256 ∉ [0x00, 0x01, 0x02, 0x03, 0x04, 0x10, 0x11, 0x12, 0x13, 0x14, 0x15, 0x20, 0x21, 0x22,
        0x23, 0x24, 0x30, 0x31, 0x32, 0x40, 0x41, 0x42]) ∧
    (decode w = .error .nonzeroImm ↔
      w.toNat / 256 ∈ [0x00, 0x01, 0x04, 0x11, 0x14, 0x20, 0x23, 0x24, 0x30, 0x41] ∧ w.toNat % 256 ≠ 0) ∧
    (decode w = .error .operandRange ↔
      (w.toNat / 256 = 0x02 ∧ w.toNat % 256 ∉ statusSelectors) ∨ (w.toNat / 256 = 0x10 ∧ 7 < w.toNat % 256) ∨
        (w.toNat / 256 = 0x15 ∧ 1 < w.toNat % 256) ∨ (w.toNat / 256 = 0x31 ∧ 1 < w.toNat % 256))) ∧
  ∀ (s : State) (w : CmdWord) (rest : List Input) (e : Illegal),
    s.inputs = .command w :: rest → decode w = .error e →
      (s.blk.fault = 0#8 →
        step s = .next (raised 6
          (match e with
            | .unknownOpcode => 1
            | .nonzeroImm => 2
            | .operandRange => 3) { s with inputs := rest })) ∧
      (s.blk.fault ≠ 0#8 → ∃ r, step s = .next (answered r s.blk { s with inputs := rest }))

/-- R72: words written out bit by bit from the two formats and the opcode column, one or more per unit, with
the spec's four examples among them (0x1202, 0x1501, 0x2000, 0x3278). -/
def Obligations.WrittenOutWordsDecode : Prop :=
  decode 0b0000000000000000#16 = .ok .nop ∧
  decode 0b0000001000010001#16 = .ok (.stRead 0x11#8) ∧
  decode 0b0000010000000000#16 = .ok .pixRd ∧
  decode 0b0001000000000111#16 = .ok (.htSel 7#8) ∧
  decode 0b0001001000000010#16 = .ok (.htCnt 2#8) ∧
  decode 0b0001010100000001#16 = .ok (.hdBit 1#8) ∧
  decode 0b0010000000000000#16 = .ok .crcReset ∧
  decode 0b0010001010101110#16 = .ok (.crcExpb 0xAE#8) ∧
  decode 0b0011000100000001#16 = .ok (.inRoute 1#8) ∧
  decode 0b0011001001111000#16 = .ok (.inByte 0x78#8) ∧
  decode 0b0100000100000000#16 = .ok .dfConfig ∧
  decode 0b0100001011111011#16 = .ok (.dfByte 251#8)

/-! ### The machine -/

/-- R2, R5: when the next word decodes to a command, the step is that command's execution, on the state from
which the word has been taken. -/
def Obligations.StepRunsTheDecodedCommand : Prop :=
  ∀ (s : State) (w : CmdWord) (rest : List Input) (i : Instr),
    s.inputs = .command w :: rest → decode w = .ok i → step s = exec i { s with inputs := rest }

/-- R6, R275, R290: with no input the block holds its state; a power-on reset, an input and not a command,
gives the reset state and no response. The queue of inputs and the place where a power-on reset lands are the
model's (notes/assumptions/2.md). -/
def Obligations.IdleAndPowerOn : Prop :=
  (∀ s : State, s.inputs = [] → step s = .next s) ∧
  ∀ (s : State) (rest : List Input), s.inputs = .powerOn :: rest →
    step s = .next { s with blk := Block.reset, inputs := rest }

/-- R37: every register, table, queue and trace after power-on reset and after `BLK_RESET`, and in the model's
reset state; `LINE` and `PIX` unreadable. -/
def Obligations.ResetValues : Prop :=
  ∀ t : State,
    (t = State.reset ∨ (∃ s, exec .blkReset s = .next t) ∨
      ∃ s rest, s.inputs = .powerOn :: rest ∧ step s = .next t) →
    (t.blk.fault = 0#8 ∧ t.blk.fsub = 0#8) ∧
    (t.blk.huff.tsel = 0 ∧ t.blk.huff.bphase = .idle ∧ (∀ k : Fin 16, t.blk.huff.cnt[k] = 0#8) ∧
      t.blk.huff.cidx = 0#5 ∧ t.blk.huff.curl = 0#5 ∧ t.blk.huff.remain = 0#12 ∧
      t.blk.huff.lastCode.toInt = -1 ∧ t.blk.huff.lastBits = 0#5 ∧
      (∀ k : Fin 8, t.blk.huff.tab[k] = [] ∧ t.blk.huff.ready[k] = false) ∧
      t.blk.huff.hdn = 0#5 ∧ t.blk.huff.hdcand = 0#16) ∧
    (t.blk.crc.acc = 0xFFFFFFFF#32 ∧ t.blk.crc.exp = 0#32) ∧
    (t.blk.infl.instate = .zhCmf ∧ t.blk.infl.route = false ∧ t.blk.infl.bitq = [] ∧
      t.blk.infl.final = false ∧ t.blk.infl.cmf = 0#8 ∧ t.blk.infl.rem = 0#16 ∧ t.blk.infl.hlit = 0#9 ∧
      t.blk.infl.hdist = 0#5 ∧ t.blk.infl.hclen = 0#5 ∧ (∀ k : Fin 19, t.blk.infl.cll[k] = 0#3) ∧
      t.blk.infl.idx = 0#5 ∧ t.blk.infl.lens = [] ∧ t.blk.infl.repsym = 0#5 ∧ t.blk.infl.lsym = 0 ∧
      t.blk.infl.length = 0#9 ∧ t.blk.infl.dsym = 0 ∧ t.blk.infl.hn = 0#5 ∧ t.blk.infl.hcand = 0#15 ∧
      t.blk.infl.s1 = 1#16 ∧ t.blk.infl.s2 = 0#16 ∧ t.blk.infl.total = 0#32 ∧ t.blk.infl.ct = [] ∧
      t.blk.infl.lt = [] ∧ t.blk.infl.dt = [] ∧ t.blk.infl.win = []) ∧
    ((∀ k : Fin 13, t.blk.df.hdr[k] = 0#8) ∧ t.blk.df.hcnt = 0#4 ∧ t.blk.df.dfvalid = false ∧
      t.blk.df.width = 0#32 ∧ t.blk.df.height = 0#32 ∧ t.blk.df.depth = 0#8 ∧ t.blk.df.ctype = 0#8 ∧
      t.blk.df.bpp = 0#6 ∧ t.blk.df.stride = 0#32 ∧ t.blk.df.psize = 0#3 ∧ t.blk.df.row = 0#32 ∧
      t.blk.df.fill = 0#32) ∧
    (t.blk.pixa = 0#32 ∧ t.blk.out = []) ∧
    (∀ a : Word, exec .pixRd { t with blk := { t.blk with pixa := a } } =
      .next (raised 7 8 { t with blk := { t.blk with pixa := a } })) ∧
    ∀ d : Byte, exec (.dfByte d) t = .next (raised 7 7 t)

/-- R76, R77, R78: the four response words by their fields; every command word gives exactly one response,
with code `OK`, `PENDING`, `HIT` or `FAULT`; a `FAULT` response carries the fault pair as it stands after the
command, and bit 16 says whether the block was faulted before. -/
def Obligations.ResponseWords : Prop :=
  ((∀ d : Word, (rspOk d).toNat = d.toNat) ∧
    (∀ (n : BitVec 5) (c : BitVec 16), (rspPending n c).toNat = 1 * 2 ^ 32 + n.toNat * 2 ^ 16 + c.toNat) ∧
    (∀ (n : BitVec 5) (y : Byte), (rspHit n y).toNat = 2 * 2 ^ 32 + n.toNat * 256 + y.toNat) ∧
    ∀ (r : Bool) (f u : Byte),
      (rspFault r f u).toNat = 15 * 2 ^ 32 + r.toNat * 2 ^ 16 + u.toNat * 256 + f.toNat) ∧
  ∀ (s t : State) (w : CmdWord) (rest : List Input), s.inputs = .command w :: rest → step s = .next t →
    t.inputs = rest ∧ t.pixcap = s.pixcap ∧ ∃ r : Rsp, t.responses = s.responses ++ [r] ∧
      ((r.toNat / 2 ^ 32 ∈ [0, 1, 2] ∧ (t.blk.fault = 0#8 ∨ t.blk = s.blk)) ∨
        (t.blk.fault ≠ 0#8 ∧
          r.toNat = 15 * 2 ^ 32 + (if s.blk.fault = 0#8 then 0 else 2 ^ 16) + t.blk.fsub.toNat * 256 +
            t.blk.fault.toNat))

/-- R76: the response, and the block after the command, depend on the block before it, the command word and
`PIXCAP` alone: not on earlier responses or later inputs. -/
def Obligations.ResponseDependsOnBlockAndWord : Prop :=
  ∀ (s s' t : State) (w : CmdWord) (rest rest' : List Input),
    s'.blk = s.blk → s'.pixcap = s.pixcap → s.inputs = .command w :: rest → s'.inputs = .command w :: rest' →
    step s = .next t → ∃ r, t.responses = s.responses ++ [r] ∧
      step s' = .next { s' with blk := t.blk, inputs := rest', responses := s'.responses ++ [r] }

/-- R265: every command word in a faulted block, by the four rows of its table. -/
def Obligations.FaultedBlockAnswers : Prop :=
  ∀ (s : State) (w : CmdWord) (rest : List Input), s.inputs = .command w :: rest → s.blk.fault ≠ 0#8 →
    (w = 0x0000#16 → step s = .next (answered (rspOk 0#32) s.blk { s with inputs := rest })) ∧
    (w = 0x0100#16 → step s = .next (answered (rspOk 0#32) Block.reset { s with inputs := rest })) ∧
    (∀ sel ∈ statusSelectors, w = BitVec.ofNat 16 (0x0200 + sel) →
      ∃ v, statusView s.blk (BitVec.ofNat 8 sel) = some v ∧
        step s = .next (answered (rspOk v) s.blk { s with inputs := rest })) ∧
    (w ≠ 0x0000#16 → w ≠ 0x0100#16 → (∀ sel ∈ statusSelectors, w ≠ BitVec.ofNat 16 (0x0200 + sel)) →
      step s = .next (answered
        (rsp 0xF#4 (BitVec.ofNat 32 (s.blk.fault.toNat + 256 * s.blk.fsub.toNat + 2 ^ 16))) s.blk
        { s with inputs := rest }))

/-- R266: the only exits from the faulted state are `BLK_RESET` and power-on reset, which clear everything;
until then nothing of the block changes (R21). -/
def Obligations.FaultLeftOnlyByReset : Prop :=
  ∀ s : State, s.blk.fault ≠ 0#8 →
    (∀ t, step s = .next t → t.blk = s.blk ∨
      (t.blk = Block.reset ∧ ∃ rest, s.inputs = .command 0x0100#16 :: rest ∨ s.inputs = .powerOn :: rest)) ∧
    ∀ rest, (s.inputs = .command 0x0100#16 :: rest ∨ s.inputs = .powerOn :: rest) →
      ∃ t, step s = .next t ∧ t.blk = Block.reset

/-- R262: every step keeps the fault pair among the pairs of the table: no other value of `FAULT` and `FSUB`
ever occurs. -/
def Obligations.FaultPairKept : Prop :=
  ∀ s t : State, FaultPair s.blk → step s = .next t → FaultPair t.blk

/-- R262: the cause and sub-code of each condition, row by row; the pair identifies the condition. -/
def Obligations.FaultPairIdentifiesCondition : Prop :=
  (∀ e ∈ ([(.huffMiss, 1, 1), (.zlibHeader, 1, 2), (.blockType, 1, 3), (.storedLen, 1, 4),
      (.overSubscribed, 1, 5), (.repeatNoPrevious, 1, 6), (.repeatPastEnd, 1, 7), (.litLenSymbol, 1, 8),
      (.distSymbol, 1, 9), (.distTooFar, 1, 10), (.inflMiss, 1, 11), (.afterDone, 1, 12), (.filterType, 1, 13),
      (.surplusData, 1, 14), (.dynCounts, 1, 15), (.noEndOfBlock, 1, 16), (.crcMismatch, 3, 1),
      (.adlerMismatch, 3, 2), (.depth16, 4, 1), (.grayAlpha, 4, 2), (.compression, 4, 3), (.filterMethod, 4, 4),
      (.interlace, 4, 5), (.pixelFormat, 4, 6), (.presetDictionary, 4, 7), (.zeroDimension, 5, 1),
      (.imageTooLarge, 5, 2), (.unknownOpcode, 6, 1), (.nonzeroImm, 6, 2), (.operandRange, 6, 3),
      (.selectBusy, 7, 1), (.countPhase, 7, 2), (.symbolPhase, 7, 3), (.tableNotReady, 7, 4),
      (.headerFull, 7, 5), (.headerShort, 7, 6), (.notConfigured, 7, 7), (.pixelRange, 7, 8)] :
      List (Trap × Nat × Nat)), e.1.cause.toNat = e.2.1 ∧ e.1.sub.toNat = e.2.2) ∧
  ∀ a b : Trap, a.cause = b.cause → a.sub = b.sub → a = b

/-- R34, D32: which part of the block each command may write. -/
def Obligations.CommandsWriteOnlyTheirUnit : Prop :=
  ∀ (i : Instr) (s t : State), exec i s = .next t →
    match i with
    | .nop => t.blk = s.blk
    | .blkReset => t.blk = Block.reset
    | .stRead _ => t.blk = { s.blk with fault := t.blk.fault, fsub := t.blk.fsub }
    | .paShift _ => t.blk = { s.blk with pixa := t.blk.pixa }
    | .pixRd => t.blk = { s.blk with pixa := t.blk.pixa, fault := t.blk.fault, fsub := t.blk.fsub }
    | .htSel _ => t.blk = { s.blk with huff := t.blk.huff, fault := t.blk.fault, fsub := t.blk.fsub }
    | .htBegin => t.blk = { s.blk with huff := t.blk.huff }
    | .htCnt _ => t.blk = { s.blk with huff := t.blk.huff, fault := t.blk.fault, fsub := t.blk.fsub }
    | .htSym _ => t.blk = { s.blk with huff := t.blk.huff, fault := t.blk.fault, fsub := t.blk.fsub }
    | .hdReset => t.blk = { s.blk with huff := t.blk.huff }
    | .hdBit _ => t.blk = { s.blk with huff := t.blk.huff, fault := t.blk.fault, fsub := t.blk.fsub }
    | .crcReset => t.blk = { s.blk with crc := t.blk.crc }
    | .crcByte _ => t.blk = { s.blk with crc := t.blk.crc }
    | .crcExpb _ => t.blk = { s.blk with crc := t.blk.crc }
    | .crcRead => t.blk = s.blk
    | .crcCheck => t.blk = { s.blk with fault := t.blk.fault, fsub := t.blk.fsub }
    | .inReset => t.blk = { s.blk with infl := { t.blk.infl with route := s.blk.infl.route } }
    | .inRoute _ =>
      t.blk = { s.blk with
        infl := { s.blk.infl with route := t.blk.infl.route }, fault := t.blk.fault, fsub := t.blk.fsub }
    | .inByte _ =>
      t.blk = { s.blk with
        infl := { t.blk.infl with route := s.blk.infl.route }
        out := if s.blk.infl.route then s.blk.out else t.blk.out
        df := if s.blk.infl.route then t.blk.df else s.blk.df
        fault := t.blk.fault
        fsub := t.blk.fsub }
    | .dfHdrb _ =>
      t.blk = { s.blk with
        df := { s.blk.df with hdr := t.blk.df.hdr, hcnt := t.blk.df.hcnt }
        fault := t.blk.fault
        fsub := t.blk.fsub }
    | .dfConfig =>
      t.blk = { s.blk with
        df := { t.blk.df with hdr := s.blk.df.hdr, line := s.blk.df.line, pix := s.blk.df.pix }
        fault := t.blk.fault
        fsub := t.blk.fsub }
    | .dfByte _ =>
      t.blk = { s.blk with
        df := { s.blk.df with
          line := t.blk.df.line, pix := t.blk.df.pix, row := t.blk.df.row, fill := t.blk.df.fill }
        fault := t.blk.fault
        fsub := t.blk.fsub }

/-- R277: the commands with a single check before any write, and `DF_CONFIG`, fault with no state change but
`FAULT` and `FSUB`. -/
def Obligations.SingleCheckCommandsFaultClean : Prop :=
  ∀ (i : Instr) (s t : State),
    ((∃ x, i = .htSel x) ∨ (∃ x, i = .htCnt x) ∨ (∃ x, i = .htSym x) ∨ (∃ x, i = .hdBit x) ∨
      (∃ x, i = .dfHdrb x) ∨ i = .pixRd ∨ i = .crcCheck ∨ (∃ x, i = .stRead x) ∨ i = .dfConfig) →
    s.blk.fault = 0#8 → exec i s = .next t → t.blk.fault ≠ 0#8 →
      t = raised t.blk.fault.toNat t.blk.fsub.toNat s

/-! ### System commands -/

/-- R240: `NOP`, faulted or not. -/
def Obligations.NopChangesNothing : Prop :=
  EncodedZ 0x00 .nop ∧ ∀ s : State, exec .nop s = .next (answered (rspOk 0#32) s.blk s)

/-- R241: `BLK_RESET` gives the reset state in every state, the state a power-on reset gives; it is the only
command that clears a fault and the only one that empties `OUT`. -/
def Obligations.BlockReset : Prop :=
  EncodedZ 0x01 .blkReset ∧
  (∀ s : State, exec .blkReset s = .next (answered (rspOk 0#32) Block.reset s)) ∧
  (∀ (s t : State) (rest : List Input), s.inputs = .powerOn :: rest → step s = .next t → t.blk = Block.reset) ∧
  ∀ (i : Instr) (s t : State), i ≠ .blkReset → exec i s = .next t →
    (s.blk.fault ≠ 0#8 → t.blk.fault ≠ 0#8) ∧ ∃ bs, t.blk.out = s.blk.out ++ bs

/-- R242, R32: the nineteen views, each by the places of its fields, in every state, faulted or not. (The six
bits of `IN_STAT[11:6]` hold the number of bits in `BITQ`, which R26 keeps below 40; the fifteen values of
`INSTATE` are those of R146's table.) -/
def Obligations.StatusRegisterViews : Prop :=
  EncodedI 0x02 .stRead (· ∈ statusSelectors) ∧
  ∀ (s : State) (b : Block), b = s.blk → b.infl.bitq.length ≤ 39 →
    ∀ e ∈ ([(0x00, 0x4D410003),
      (0x01, b.fault.toNat + 2 ^ 8 * b.fsub.toNat),
      (0x02, (match b.huff.bphase with
          | .idle => 0
          | .counts => 1
          | .syms => 2) + 2 ^ 2 * b.huff.tsel.val + 2 ^ 5 * b.huff.cidx.toNat + 2 ^ 10 * b.huff.curl.toNat +
        ((List.finRange 8).map fun t => 2 ^ (15 + t.val) * b.huff.ready[t].toNat).sum),
      (0x03, b.huff.lastCode.toNat),
      (0x04, b.huff.lastBits.toNat),
      (0x05, b.huff.remain.toNat),
      (0x06, b.huff.hdcand.toNat + 2 ^ 16 * b.huff.hdn.toNat),
      (0x08, b.crc.acc.toNat),
      (0x09, b.crc.exp.toNat),
      (0x10, (match b.infl.instate with
          | .zhCmf => 0
          | .zhFlg => 1
          | .blkHdr => 2
          | .stLen => 3
          | .stCopy => 4
          | .dynHdr => 5
          | .dynClen => 6
          | .dynLens => 7
          | .dynRep => 8
          | .sym => 9
          | .lenExtra => 10
          | .distSym => 11
          | .distExtra => 12
          | .trailer => 13
          | .done => 14) + 2 ^ 4 * b.infl.route.toNat + 2 ^ 5 * b.infl.final.toNat +
        2 ^ 6 * b.infl.bitq.length),
      (0x11, b.infl.total.toNat),
      (0x12, b.infl.s1.toNat + 2 ^ 16 * b.infl.s2.toNat),
      (0x18, b.df.dfvalid.toNat + 2 ^ 1 * b.df.hcnt.toNat + 2 ^ 5 * b.df.psize.toNat + 2 ^ 8 * b.df.bpp.toNat +
        2 ^ 14 * b.df.depth.toNat + 2 ^ 22 * b.df.ctype.toNat),
      (0x19, b.df.width.toNat),
      (0x1A, b.df.height.toNat),
      (0x1B, b.df.stride.toNat),
      (0x1C, b.df.row.toNat),
      (0x1D, b.df.fill.toNat),
      (0x1E, b.pixa.toNat)] : List (Nat × Nat)),
      exec (.stRead (BitVec.ofNat 8 e.1)) s = .next (answered (rspOk (BitVec.ofNat 32 e.2)) s.blk s)

/-- R243: `PA_SHIFT` shifts one byte in; four of them set `PIXA` to any value whatever it held. -/
def Obligations.PixelAddressShift : Prop :=
  EncodedI 0x03 .paShift (fun _ => True) ∧
  (∀ (s : State) (d : Byte), s.blk.fault = 0#8 →
    ∃ a : Word, a.toNat = (s.blk.pixa.toNat * 2 ^ 8 + d.toNat) % 2 ^ 32 ∧
      exec (.paShift d) s = .next (answered (rspOk a) { s.blk with pixa := a } s)) ∧
  ∀ (s : State) (d3 d2 d1 d0 : Byte), s.blk.fault = 0#8 →
    ∃ t, execAll [.paShift d3, .paShift d2, .paShift d1, .paShift d0] s = .next t ∧
      t.blk = { s.blk with pixa := t.blk.pixa } ∧
      t.blk.pixa.toNat = d3.toNat * 2 ^ 24 + d2.toNat * 2 ^ 16 + d1.toNat * 2 ^ 8 + d0.toNat

/-- R244: `PIX_RD` inside the rows reconstructed reads the byte and advances `PIXA`, which wraps; elsewhere it
faults and changes nothing. -/
def Obligations.PixelRead : Prop :=
  EncodedZ 0x04 .pixRd ∧
  ∀ s : State, s.blk.fault = 0#8 →
    (DefiltInv s.pixcap s.blk.df → s.blk.df.dfvalid = true →
      s.blk.pixa.toNat < s.blk.df.row.toNat * s.blk.df.stride.toNat →
      ∃ v a, Memory.read s.blk.df.pix s.blk.pixa.toNat = some v ∧
        a.toNat = (s.blk.pixa.toNat + 1) % 2 ^ 32 ∧
        exec .pixRd s = .next (answered (rspOk (BitVec.ofNat 32 v.toNat)) { s.blk with pixa := a } s)) ∧
    ((s.blk.df.dfvalid = false ∨ s.blk.df.row.toNat * s.blk.df.stride.toNat ≤ s.blk.pixa.toNat) →
      exec .pixRd s = .next (raised 7 8 s))

/-- R244, R62: successive `PIX_RD` commands stream the bytes in address order, row after row with no gap. -/
def Obligations.PixelsStreamInOrder : Prop :=
  ∀ (s : State) (n : Nat), s.blk.fault = 0#8 → DefiltInv s.pixcap s.blk.df → s.blk.df.dfvalid = true →
    s.blk.pixa.toNat + n ≤ s.blk.df.row.toNat * s.blk.df.stride.toNat →
    ∃ (t : State) (vs : List Byte), execAll (List.replicate n .pixRd) s = .next t ∧ vs.length = n ∧
      (∀ k < n, Memory.read s.blk.df.pix (s.blk.pixa.toNat + k) = vs[k]?) ∧
      t.responses = s.responses ++ vs.map (fun v => rspOk (BitVec.ofNat 32 v.toNat)) ∧
      t.blk = { s.blk with pixa := s.blk.pixa + BitVec.ofNat 32 n }

/-! ### HUFF -/

/-- R101: `HT_SEL`. -/
def Obligations.SelectSlot : Prop :=
  EncodedI 0x10 .htSel (· ≤ 7) ∧
  ∀ (s : State) (t : Fin 8), s.blk.fault = 0#8 →
    (s.blk.huff.bphase = .idle → s.blk.huff.hdn = 0#5 →
      exec (.htSel (BitVec.ofNat 8 t.val)) s =
        .next (answered (rspOk 0#32) { s.blk with huff := { s.blk.huff with tsel := t } } s)) ∧
    (s.blk.huff.bphase ≠ .idle ∨ s.blk.huff.hdn ≠ 0#5 →
      exec (.htSel (BitVec.ofNat 8 t.val)) s = .next (raised 7 1 s))

/-- R102: `HT_BEGIN`, legal in every build phase. -/
def Obligations.BeginBuild : Prop :=
  EncodedZ 0x11 .htBegin ∧
  ∀ s : State, s.blk.fault = 0#8 →
    ∃ h : Huff, exec .htBegin s = .next (answered (rspOk 0#32) { s.blk with huff := h } s) ∧
      h.tsel = s.blk.huff.tsel ∧ h.tab[h.tsel] = [] ∧ h.ready[h.tsel] = false ∧
      (∀ t : Fin 8, t ≠ h.tsel → h.tab[t] = s.blk.huff.tab[t] ∧ h.ready[t] = s.blk.huff.ready[t]) ∧
      (∀ k : Fin 16, h.cnt[k] = 0#8) ∧ h.cidx = 0#5 ∧ h.curl = 0#5 ∧ h.remain = 0#12 ∧
      h.lastCode.toInt = -1 ∧ h.lastBits = 0#5 ∧ h.hdn = 0#5 ∧ h.hdcand = 0#16 ∧ h.bphase = .counts

/-- R103: `HT_CNT` loads the count of the next length; the sixteenth ends the build of an empty table, or
starts the insertions at the least length that has a code. -/
def Obligations.LoadCount : Prop :=
  EncodedI 0x12 .htCnt (fun _ => True) ∧
  (∀ (s : State) (n : Byte), s.blk.fault = 0#8 → s.blk.huff.bphase ≠ .counts →
    exec (.htCnt n) s = .next (raised 7 2 s)) ∧
  ∀ (s : State) (n : Byte) (h : Huff), s.blk.fault = 0#8 → h = s.blk.huff → HuffInv h → h.bphase = .counts →
    ∃ h' : Huff,
      exec (.htCnt n) s =
        .next (answered (rspOk (BitVec.ofNat 32 (h.remain.toNat + n.toNat))) { s.blk with huff := h' } s) ∧
      h'.cidx.toNat = h.cidx.toNat + 1 ∧
      (∀ k : Fin 16, h'.cnt[k] = if k.val = h.cidx.toNat then n else h.cnt[k]) ∧
      h'.remain.toNat = h.remain.toNat + n.toNat ∧
      h' = { h with
        cidx := h'.cidx, cnt := h'.cnt, remain := h'.remain
        bphase := h'.bphase, curl := h'.curl, ready := h'.ready } ∧
      (∀ t : Fin 8, t ≠ h.tsel → h'.ready[t] = h.ready[t]) ∧
      (h'.cidx.toNat < 16 → h'.bphase = .counts ∧ h'.curl = h.curl ∧ h'.ready[h.tsel] = h.ready[h.tsel]) ∧
      (h'.cidx.toNat = 16 → h'.remain.toNat = 0 →
        h'.bphase = .idle ∧ h'.ready[h.tsel] = true ∧ h'.curl = 0#5) ∧
      (h'.cidx.toNat = 16 → h'.remain.toNat ≠ 0 →
        h'.bphase = .syms ∧ h'.ready[h.tsel] = h.ready[h.tsel] ∧
          ∃ k : Fin 16, h'.curl.toNat = k.val + 1 ∧ h'.cnt[k] ≠ 0#8 ∧ ∀ j : Fin 16, j < k → h'.cnt[j] = 0#8)

/-- R104, R105: `HT_SYM` assigns the next code of length `CURL` as R105 computes it and inserts it under a key
that was not there; then the build ends or goes on at the least length that has a code. -/
def Obligations.InsertCode : Prop :=
  EncodedI 0x13 .htSym (fun _ => True) ∧
  (∀ (s : State) (p : Byte), s.blk.fault = 0#8 → s.blk.huff.bphase ≠ .syms →
    exec (.htSym p) s = .next (raised 7 3 s)) ∧
  ∀ (s : State) (p : Byte) (h : Huff) (len inc bits code : Nat),
    s.blk.fault = 0#8 → h = s.blk.huff → HuffInv h → CodeBound h → h.bphase = .syms →
    len = h.curl.toNat → (inc : Int) = h.lastCode.toInt + 1 →
    bits = (if inc / 2 ^ h.lastBits.toNat % 2 = 1 then h.lastBits.toNat + 1 else h.lastBits.toNat) →
    code = (if bits < len then inc * 2 ^ (len - bits) else inc) →
    ∃ h' : Huff,
      exec (.htSym p) s =
        .next (answered (rspOk (BitVec.ofNat 32 (len * 2 ^ 24 + code))) { s.blk with huff := h' } s) ∧
      code < 2 ^ 24 ∧ h'.lastCode.toNat = code ∧ h'.lastBits.toNat = len ∧
      Table.find h.tab[h.tsel] (len, code) = none ∧
      (∀ key, Table.find h'.tab[h.tsel] key = if key = (len, code) then some p else Table.find h.tab[h.tsel] key) ∧
      (∀ t : Fin 8, t ≠ h.tsel → h'.tab[t] = h.tab[t] ∧ h'.ready[t] = h.ready[t]) ∧
      (∀ k : Fin 16, h'.cnt[k].toNat = h.cnt[k].toNat - if k.val + 1 = len then 1 else 0) ∧
      h'.remain.toNat + 1 = h.remain.toNat ∧
      h'.tsel = h.tsel ∧ h'.cidx = h.cidx ∧ h'.hdn = h.hdn ∧ h'.hdcand = h.hdcand ∧
      (h'.remain.toNat = 0 → h'.bphase = .idle ∧ h'.ready[h.tsel] = true ∧ h'.curl = 0#5) ∧
      (h'.remain.toNat ≠ 0 → h'.bphase = .syms ∧ h'.ready[h.tsel] = h.ready[h.tsel] ∧
        ∃ k : Fin 16, h'.curl.toNat = k.val + 1 ∧ len ≤ k.val + 1 ∧ h'.cnt[k] ≠ 0#8 ∧
          ∀ j : Fin 16, len ≤ j.val + 1 → j < k → h'.cnt[j] = 0#8)

/-- R107, R108, R109: `HD_RESET`, and `HD_BIT` against the selected table: not ready, hit, pending, and the miss
at the seventeenth bit, which leaves `HDN` and `HDCAND` as they were. -/
def Obligations.LookUpOneBit : Prop :=
  EncodedZ 0x14 .hdReset ∧ EncodedI 0x15 .hdBit (· ≤ 1) ∧
  (∀ s : State, s.blk.fault = 0#8 →
    exec .hdReset s =
      .next (answered (rspOk 0#32) { s.blk with huff := { s.blk.huff with hdn := 0#5, hdcand := 0#16 } } s)) ∧
  ∀ (s : State) (b : Bool) (h : Huff) (n c : Nat), s.blk.fault = 0#8 → h = s.blk.huff → HuffInv h →
    n = h.hdn.toNat + 1 → c = h.hdcand.toNat * 2 + b.toNat →
    (h.bphase ≠ .idle ∨ h.ready[h.tsel] = false →
      exec (.hdBit (BitVec.ofNat 8 b.toNat)) s = .next (raised 7 4 s)) ∧
    (h.bphase = .idle → h.ready[h.tsel] = true →
      (∀ y, Table.find h.tab[h.tsel] (n, c) = some y →
        exec (.hdBit (BitVec.ofNat 8 b.toNat)) s =
          .next (answered (rsp 2#4 (BitVec.ofNat 32 (n * 256 + y.toNat)))
            { s.blk with huff := { h with hdn := 0#5, hdcand := 0#16 } } s)) ∧
      (Table.find h.tab[h.tsel] (n, c) = none → n ≤ 16 →
        ∃ h' : Huff, h' = { h with hdn := h'.hdn, hdcand := h'.hdcand } ∧ h'.hdn.toNat = n ∧ h'.hdcand.toNat = c ∧
          exec (.hdBit (BitVec.ofNat 8 b.toNat)) s =
            .next (answered (rsp 1#4 (BitVec.ofNat 32 (n * 2 ^ 16 + c))) { s.blk with huff := h' } s)) ∧
      (n = 17 → exec (.hdBit (BitVec.ofNat 8 b.toNat)) s = .next (raised 1 1 s)))

/-- R109, R110: a code word that is in the table and has no shorter entry as a prefix, sent first bit most
significant from a symbol boundary, gives a pending answer to every bit but the last and then its symbol and
length, and leaves the block as it was. -/
def Obligations.CodeWordDecodes : Prop :=
  ∀ (s : State) (len code : Nat) (y : Byte), s.blk.fault = 0#8 → HuffInv s.blk.huff →
    s.blk.huff.bphase = .idle → s.blk.huff.ready[s.blk.huff.tsel] = true → s.blk.huff.hdn = 0#5 →
    s.blk.huff.hdcand = 0#16 → code < 2 ^ len →
    Table.find s.blk.huff.tab[s.blk.huff.tsel] (len, code) = some y →
    (∀ k < len, Table.find s.blk.huff.tab[s.blk.huff.tsel] (k, code / 2 ^ (len - k)) = none) →
    execAll ((List.range len).map fun k => .hdBit (BitVec.ofNat 8 (code / 2 ^ (len - 1 - k) % 2))) s =
      .next { s with
        responses := s.responses ++
          ((List.range (len - 1)).map fun k =>
            rsp 1#4 (BitVec.ofNat 32 ((k + 1) * 2 ^ 16 + code / 2 ^ (len - 1 - k)))) ++
          [rsp 2#4 (BitVec.ofNat 32 (len * 256 + y.toNat))] }

/-- R100, R103, R104: `HT_BEGIN`, the sixteen counts and then as many payloads as they add up to make the
selected slot ready, with one entry per payload: in input order, as many of each length as its count, shortest
first. The entries are read off the table's list from its end: that a table is a list with falling keys, so that
the newest entry stands first, is the model's (notes/assumptions/8.md, DEDUCED). -/
def Obligations.WholeBuildFillsSlot : Prop :=
  ∀ (s : State) (counts : Vector Byte 16) (payloads : List Byte), s.blk.fault = 0#8 → HuffInv s.blk.huff →
    payloads.length = countSum counts →
    ∃ t : State,
      execAll (.htBegin :: (counts.toList.map .htCnt ++ payloads.map .htSym)) s = .next t ∧
      t.blk.fault = 0#8 ∧ t.blk.huff.bphase = .idle ∧ t.blk.huff.tsel = s.blk.huff.tsel ∧
      t.blk.huff.ready[s.blk.huff.tsel] = true ∧
      t.blk.huff.tab[s.blk.huff.tsel].reverse.map (fun e => e.2) = payloads ∧
      t.blk.huff.tab[s.blk.huff.tsel].reverse.map (fun e => e.1.1) =
        (List.finRange 16).flatMap (fun k => List.replicate counts[k].toNat (k.val + 1)) ∧
      t.blk.huff.tab[s.blk.huff.tsel].reverse.map (fun e => e.1.2) =
        codesFrom (-1) 0 ((List.finRange 16).flatMap fun k => List.replicate counts[k].toNat (k.val + 1)) ∧
      ∀ k : Fin 8, k ≠ s.blk.huff.tsel →
        t.blk.huff.tab[k] = s.blk.huff.tab[k] ∧ t.blk.huff.ready[k] = s.blk.huff.ready[k]

/-- R106: (a) and (c): `assign` strictly increases `LASTCODE`, and by exactly one at an unchanged length, so the
codes of one length are consecutive, over-subscribed lists included; (b): every step keeps the bound on
`LASTCODE`: it is a number from −1 to below `2^24`, so the register never wraps. -/
def Obligations.LastCodeIncreasesAndStaysBounded : Prop :=
  (∀ (lastCode : Int) (lastBits len : Nat), -1 ≤ lastCode → 1 ≤ len → lastBits ≤ len →
    lastCode < (assign lastCode lastBits len).1 ∧ (assign lastCode lastBits len).2 = len ∧
      (lastBits = len → (assign lastCode lastBits len).1 = lastCode + 1)) ∧
  ∀ s t : State, HuffInv s.blk.huff → CodeBound s.blk.huff → step s = .next t →
    HuffInv t.blk.huff ∧ CodeBound t.blk.huff ∧ -1 ≤ t.blk.huff.lastCode.toInt ∧
      t.blk.huff.lastCode.toInt < 2 ^ 24

/-- R111: for lengths in rising order that do not over-subscribe the code space, the codes are those of the
standard canonical construction: each is the code space before it, fits its length, and no code is a prefix
of a later one. -/
def Obligations.CanonicalCodes : Prop :=
  ∀ lens : List Nat, lens.Pairwise (· ≤ ·) → (∀ l ∈ lens, 1 ≤ l ∧ l ≤ 16) →
    (lens.map fun l => 2 ^ (16 - l)).sum ≤ 2 ^ 16 →
    (codesFrom (-1) 0 lens).length = lens.length ∧
    (∀ k l c : Nat, lens[k]? = some l → (codesFrom (-1) 0 lens)[k]? = some c →
      c * 2 ^ (16 - l) = ((lens.take k).map fun j => 2 ^ (16 - j)).sum ∧ c < 2 ^ l) ∧
    ∀ j k l m c d : Nat, j < k → lens[j]? = some l → lens[k]? = some m → (codesFrom (-1) 0 lens)[j]? = some c →
      (codesFrom (-1) 0 lens)[k]? = some d → d / 2 ^ (m - l) ≠ c

/-! ### CRC -/

/-- R121, R122, R123, R124: the CRC commands that only move data. -/
def Obligations.ChecksumCommands : Prop :=
  EncodedZ 0x20 .crcReset ∧ EncodedI 0x21 .crcByte (fun _ => True) ∧ EncodedI 0x22 .crcExpb (fun _ => True) ∧
  EncodedZ 0x23 .crcRead ∧
  (∀ s : State, s.blk.fault = 0#8 →
    exec .crcReset s = .next (answered (rspOk 0#32) { s.blk with crc := { acc := 0xFFFFFFFF#32, exp := 0#32 } } s) ∧
    exec .crcRead s = .next (answered (rspOk (s.blk.crc.acc ^^^ 0xFFFFFFFF#32)) s.blk s)) ∧
  (∀ (s : State) (d : Byte), s.blk.fault = 0#8 →
    exec (.crcByte d) s =
      .next (answered (rspOk (BitVec.ofNat 32 d.toNat))
        { s.blk with crc := { s.blk.crc with acc := crcUpdate s.blk.crc.acc d } } s) ∧
    ∃ e : Word, e.toNat = (s.blk.crc.exp.toNat * 2 ^ 8 + d.toNat) % 2 ^ 32 ∧
      exec (.crcExpb d) s = .next (answered (rspOk e) { s.blk with crc := { s.blk.crc with exp := e } } s)) ∧
  ∀ (s : State) (e0 e1 e2 e3 : Byte), s.blk.fault = 0#8 →
    ∃ t, execAll [.crcExpb e0, .crcExpb e1, .crcExpb e2, .crcExpb e3] s = .next t ∧
      t.blk = { s.blk with crc := { s.blk.crc with exp := t.blk.crc.exp } } ∧
      t.blk.crc.exp.toNat = e0.toNat * 2 ^ 24 + e1.toNat * 2 ^ 16 + e2.toNat * 2 ^ 8 + e3.toNat

/-- R125: `CRC_CHECK`. -/
def Obligations.ChecksumCompare : Prop :=
  EncodedZ 0x24 .crcCheck ∧
  ∀ s : State, s.blk.fault = 0#8 →
    (s.blk.crc.acc ^^^ 0xFFFFFFFF#32 = s.blk.crc.exp →
      exec .crcCheck s = .next (answered (rspOk (s.blk.crc.acc ^^^ 0xFFFFFFFF#32)) s.blk s)) ∧
    (s.blk.crc.acc ^^^ 0xFFFFFFFF#32 ≠ s.blk.crc.exp → exec .crcCheck s = .next (raised 3 1 s))

/-- R126: the update is the eight rounds of R126, and it is the same function as a 256-entry table indexed by
the low byte, which R126 says is the same hardware; with the values the spec gives (R120, R124, R126): three of
the update function, the check value of the nine digits and the digest of `IEND`. -/
def Obligations.ChecksumUpdate : Prop :=
  (∀ (acc : Word) (d : Byte),
    crcUpdate acc d =
      (fun a : Word => if a.toNat % 2 = 1 then (a >>> 1) ^^^ 0xEDB88320#32 else a >>> 1)^[8]
        (acc ^^^ d.setWidth 32) ∧
    crcUpdate acc d = (acc >>> 8) ^^^ crcUpdate 0#32 (acc.setWidth 8 ^^^ d)) ∧
  crcUpdate 0#32 1#8 = 0x77073096#32 ∧ crcUpdate 0#32 0x80#8 = 0xEDB88320#32 ∧
  crcUpdate 0xFFFFFFFF#32 0#8 = 0x2DFD1072#32 ∧
  ([0x31#8, 0x32#8, 0x33#8, 0x34#8, 0x35#8, 0x36#8, 0x37#8, 0x38#8, 0x39#8].foldl crcUpdate 0xFFFFFFFF#32) ^^^
    0xFFFFFFFF#32 = 0xCBF43926#32 ∧
  ([0x49#8, 0x45#8, 0x4E#8, 0x44#8].foldl crcUpdate 0xFFFFFFFF#32) ^^^ 0xFFFFFFFF#32 = 0xAE426082#32

/-- R127: any single-byte change alters the digest, so `CRC_CHECK` against the digest of the original bytes
raises `Fault(3, 1)`; with the original bytes it answers the digest. -/
def Obligations.ChangedByteFailsCheck : Prop :=
  ∀ (s : State) (front back : List Byte) (d e g0 g1 g2 g3 : Byte), s.blk.fault = 0#8 →
    g0 ++ g1 ++ g2 ++ g3 = (front ++ d :: back).foldl crcUpdate 0xFFFFFFFF#32 ^^^ 0xFFFFFFFF#32 →
    ∃ t, execAll (.crcReset :: ((front ++ e :: back).map .crcByte ++
        [.crcExpb g0, .crcExpb g1, .crcExpb g2, .crcExpb g3, .crcCheck])) s = .next t ∧
      (e = d → t.blk.fault = 0#8 ∧ t.responses.getLast? = some (rspOk (g0 ++ g1 ++ g2 ++ g3))) ∧
      (e ≠ d → t.blk.fault = 3#8 ∧ t.blk.fsub = 1#8)

/-! ### INFL -/

/-- R141, R142: `IN_RESET`, which leaves `ROUTE` and everything outside INFL, and `IN_ROUTE`. -/
def Obligations.InflateResetAndRoute : Prop :=
  EncodedZ 0x30 .inReset ∧ EncodedI 0x31 .inRoute (· ≤ 1) ∧
  ∀ s : State, s.blk.fault = 0#8 →
    exec .inReset s =
      .next (answered (rspOk 0#32) { s.blk with infl := { Infl.reset with route := s.blk.infl.route } } s) ∧
    ∀ r : Bool, exec (.inRoute (BitVec.ofNat 8 r.toNat)) s =
      .next (answered (rspOk 0#32) { s.blk with infl := { s.blk.infl with route := r } } s)

/-- R143, R146: `IN_BYTE` appends the eight bits, bit 0 first, and then takes transitions as long as the engine
has the bits its state needs, as the table of R146 gives them; it ends waiting, or at the fault a transition
raises, with all that was written before it. In state `DONE` it faults. The response holds the number of the state,
one of R146's fifteen, and the number of bytes emitted, which is what `TOTAL` grew by (notes/assumptions/14.md,
DEDUCED from R148 and R172). -/
def Obligations.FeedByteRunsToRest : Prop :=
  EncodedI 0x32 .inByte (fun _ => True) ∧
  (∀ i : Infl, bitsNeeded i =
    match i.instate with
    | .zhCmf => some 8
    | .zhFlg => some 8
    | .blkHdr => some 3
    | .stLen => some 32
    | .stCopy => some 8
    | .dynHdr => some 14
    | .dynClen => some 3
    | .dynLens => some 1
    | .dynRep => if i.repsym = 16#5 then some 2 else if i.repsym = 17#5 then some 3 else some 7
    | .sym => some 1
    | .lenExtra => some lExt[i.lsym]
    | .distSym => some 1
    | .distExtra => some dExt[i.dsym]
    | .trailer => some 32
    | .done => none) ∧
  (∀ st : InState, (instateCode st).toNat =
    match st with
    | .zhCmf => 0
    | .zhFlg => 1
    | .blkHdr => 2
    | .stLen => 3
    | .stCopy => 4
    | .dynHdr => 5
    | .dynClen => 6
    | .dynLens => 7
    | .dynRep => 8
    | .sym => 9
    | .lenExtra => 10
    | .distSym => 11
    | .distExtra => 12
    | .trailer => 13
    | .done => 14) ∧
  (∀ i : Infl, canProceed i = true ↔ ∃ k, bitsNeeded i = some k ∧ k ≤ i.bitq.length) ∧
  ∀ (s : State) (d : Byte), s.blk.fault = 0#8 →
    (s.blk.infl.instate = .done → exec (.inByte d) s = .next (raised 1 12 s)) ∧
    (s.blk.infl.instate ≠ .done → BlockInv s.pixcap s.blk →
      ∃ q : Pipe,
        Relation.ReflTransGen (Turn s.pixcap)
          { infl := { s.blk.infl with bitq := s.blk.infl.bitq ++ bitsOf d }, out := s.blk.out, df := s.blk.df } q ∧
        ((canProceed q.infl = false ∧
            exec (.inByte d) s =
              .next (answered
                (rspOk (BitVec.ofNat 32 ((instateCode q.infl.instate).toNat * 2 ^ 16 +
                  (q.infl.total - s.blk.infl.total).toNat)))
                { s.blk with infl := q.infl, out := q.out, df := q.df } s)) ∨
          ∃ (c : Trap) (r : Pipe), canProceed q.infl = true ∧ transition s.pixcap q = .trap c r ∧
            exec (.inByte d) s =
              .next (raised c.cause.toNat c.sub.toNat
                { s with blk := { s.blk with infl := r.infl, out := r.out, df := r.df } })))

/-- R151, R152: the two header bytes, as `IN_BYTE` commands on an engine that waits for them: accepted, or
rejected with what was taken already taken. -/
def Obligations.ZlibHeaderBytes : Prop :=
  ∀ (s : State) (d : Byte), s.blk.fault = 0#8 → s.blk.infl.bitq = [] →
    (s.blk.infl.instate = .zhCmf →
      (d.toNat % 16 = 8 ∧ d.toNat / 16 ≤ 7 →
        exec (.inByte d) s =
          .next (answered (rspOk 0x00010000#32)
            { s.blk with infl := { s.blk.infl with cmf := d, instate := .zhFlg } } s)) ∧
      (¬ (d.toNat % 16 = 8 ∧ d.toNat / 16 ≤ 7) →
        exec (.inByte d) s =
          .next (raised 1 2 { s with blk := { s.blk with infl := { s.blk.infl with cmf := d } } }))) ∧
    (s.blk.infl.instate = .zhFlg →
      ((s.blk.infl.cmf.toNat * 256 + d.toNat) % 31 ≠ 0 → exec (.inByte d) s = .next (raised 1 2 s)) ∧
      ((s.blk.infl.cmf.toNat * 256 + d.toNat) % 31 = 0 → d.getLsbD 5 = true →
        exec (.inByte d) s = .next (raised 4 7 s)) ∧
      ((s.blk.infl.cmf.toNat * 256 + d.toNat) % 31 = 0 → d.getLsbD 5 = false →
        exec (.inByte d) s =
          .next (answered (rspOk 0x00020000#32) { s.blk with infl := { s.blk.infl with instate := .blkHdr } } s)))

/-- R153, R154, R155, R156: the block header, the length of a stored block and the copy of one stored byte, as
transitions on the bits they take. -/
def Obligations.BlockHeaderAndStored : Prop :=
  ∀ (cap : Word) (p : Pipe) (rest : List Bool),
    (∀ f t0 t1 : Bool, p.infl.instate = .blkHdr → p.infl.bitq = f :: t0 :: t1 :: rest →
      (t1 = false → t0 = false → transition cap p = .ok () { p with
        infl := { p.infl with final := f, bitq := rest.drop (rest.length % 8), instate := .stLen } }) ∧
      (t1 = false → t0 = true → ∃ lt dt, tableFromLengths 9 fixedLitLen 15 = some lt ∧
        tableFromLengths 5 fixedDist 15 = some dt ∧ transition cap p = .ok () { p with
          infl := { p.infl with final := f, bitq := rest, lt := lt, dt := dt, instate := .sym } }) ∧
      (t1 = true → t0 = false → transition cap p = .ok () { p with
        infl := { p.infl with final := f, bitq := rest, instate := .dynHdr } }) ∧
      (t1 = true → t0 = true → transition cap p = .trap .blockType { p with
        infl := { p.infl with final := f, bitq := rest } })) ∧
    (∀ l0 l1 n0 n1 : Byte, p.infl.instate = .stLen →
      p.infl.bitq = bitsOf l0 ++ bitsOf l1 ++ bitsOf n0 ++ bitsOf n1 ++ rest →
      (n0 = ~~~l0 ∧ n1 = ~~~l1 → ∃ len : BitVec 16, len.toNat = l0.toNat + 256 * l1.toNat ∧
        (len ≠ 0#16 → transition cap p = .ok () { p with
          infl := { p.infl with bitq := rest, rem := len, instate := .stCopy } }) ∧
        (len = 0#16 → transition cap p = .ok () (blockEnd { p with
          infl := { p.infl with bitq := rest, rem := len } }))) ∧
      (¬ (n0 = ~~~l0 ∧ n1 = ~~~l1) →
        transition cap p = .trap .storedLen { p with infl := { p.infl with bitq := rest } })) ∧
    (∀ d : Byte, p.infl.instate = .stCopy → p.infl.bitq = bitsOf d ++ rest →
      (∀ q, emit cap d { p with infl := { p.infl with bitq := rest } } = .ok () q →
        (q.infl.rem ≠ 1#16 → transition cap p = .ok () { q with infl := { q.infl with rem := q.infl.rem - 1#16 } }) ∧
        (q.infl.rem = 1#16 →
          transition cap p = .ok () (blockEnd { q with infl := { q.infl with rem := 0#16 } }))) ∧
      (∀ c q, emit cap d { p with infl := { p.infl with bitq := rest } } = .trap c q →
        transition cap p = .trap c q)) ∧
    (p.infl.final = true → blockEnd p = { p with
      infl := { p.infl with bitq := p.infl.bitq.drop (p.infl.bitq.length % 8), instate := .trailer } }) ∧
    (p.infl.final = false → blockEnd p = { p with infl := { p.infl with instate := .blkHdr } })

/-- R157, R158: the counts of a dynamic block and the code lengths of the code-length alphabet, in the order the
rule lists. A count that its check rejects is stored cut to its register's width (notes/assumptions/4.md), so
the rejecting case does not say what `HDIST` holds. -/
def Obligations.DynamicBlockCounts : Prop :=
  ∀ (cap : Word) (p : Pipe) (rest : List Bool),
    (∀ a b c : List Bool, p.infl.instate = .dynHdr → a.length = 5 → b.length = 5 → c.length = 4 →
      p.infl.bitq = a ++ b ++ c ++ rest →
      (fieldValue a + 257 ≤ 286 ∧ fieldValue b + 1 ≤ 30 → ∃ i : Infl, transition cap p = .ok () { p with infl := i } ∧
        i.hlit.toNat = fieldValue a + 257 ∧ i.hdist.toNat = fieldValue b + 1 ∧ i.hclen.toNat = fieldValue c + 4 ∧
        (∀ k : Fin 19, i.cll[k] = 0#3) ∧
        i = { p.infl with
          hlit := i.hlit, hdist := i.hdist, hclen := i.hclen, cll := i.cll, idx := 0#5, bitq := rest
          instate := .dynClen }) ∧
      (286 < fieldValue a + 257 ∨ 30 < fieldValue b + 1 → ∃ i : Infl,
        transition cap p = .trap .dynCounts { p with infl := i } ∧
        i.hlit.toNat = fieldValue a + 257 ∧ i.hclen.toNat = fieldValue c + 4 ∧
        i = { p.infl with hlit := i.hlit, hdist := i.hdist, hclen := i.hclen, bitq := rest })) ∧
    (∀ (v : List Bool) (pos : Fin 19) (i : Infl), p.infl.instate = .dynClen → v.length = 3 →
      p.infl.bitq = v ++ rest →
      [16, 17, 18, 0, 8, 7, 9, 6, 10, 5, 11, 4, 12, 3, 13, 2, 14, 1, 15][p.infl.idx.toNat]? = some pos.val →
      i = { p.infl with
        cll := p.infl.cll.set pos (BitVec.ofNat 3 (fieldValue v)), idx := p.infl.idx + 1#5, bitq := rest } →
      (i.idx ≠ i.hclen → transition cap p = .ok () { p with infl := i }) ∧
      (i.idx = i.hclen →
        (∀ ct, tableFromLengths 5 (i.cll.toList.map BitVec.toNat) 7 = some ct → transition cap p = .ok () { p with
          infl := { i with ct := ct, lens := [], instate := .dynLens } }) ∧
        (tableFromLengths 5 (i.cll.toList.map BitVec.toNat) 7 = none →
          transition cap p = .trap .overSubscribed { p with infl := i })))

/-- R159, R160, R161: the code lengths of a dynamic block: literal lengths, repeats, and the two tables built when
the list is complete. -/
def Obligations.DynamicBlockLengths : Prop :=
  ∀ (cap : Word) (p : Pipe) (rest : List Bool),
    (∀ (b : Bool) (n c : Nat) (i : Infl), p.infl.instate = .dynLens → p.infl.bitq = b :: rest →
      InflRanges p.infl → n = p.infl.hn.toNat + 1 → c = p.infl.hcand.toNat * 2 + b.toNat →
      i = { p.infl with bitq := rest, hn := 0#5, hcand := 0#15 } →
      (Table.find p.infl.ct (n, c) = none → n ≤ 7 → ∃ j : Infl, transition cap p = .ok () { p with infl := j } ∧
        j.hn.toNat = n ∧ j.hcand.toNat = c ∧ j = { i with hn := j.hn, hcand := j.hcand }) ∧
      (Table.find p.infl.ct (n, c) = none → 7 < n →
        transition cap p = .trap .inflMiss { p with infl := { p.infl with bitq := rest } }) ∧
      (∀ y, Table.find p.infl.ct (n, c) = some y → y.toNat ≤ 15 →
        transition cap p =
          lensDone { p with infl := { i with lens := p.infl.lens ++ [BitVec.ofNat 4 y.toNat] } }) ∧
      (∀ y, Table.find p.infl.ct (n, c) = some y → 16 ≤ y.toNat →
        (y.toNat = 16 → p.infl.lens = [] → transition cap p = .trap .repeatNoPrevious { p with infl := i }) ∧
        (y.toNat ≠ 16 ∨ p.infl.lens ≠ [] →
          transition cap p = .ok () { p with infl := { i with repsym := y, instate := .dynRep } }))) ∧
    (∀ (x : List Bool) (v : BitVec 4) (n : Nat), p.infl.instate = .dynRep → p.infl.bitq = x ++ rest →
      ((p.infl.repsym = 16#5 ∧ x.length = 2 ∧ p.infl.lens.getLast? = some v ∧ n = 3 + fieldValue x) ∨
        (p.infl.repsym = 17#5 ∧ x.length = 3 ∧ v = 0#4 ∧ n = 3 + fieldValue x) ∨
        (p.infl.repsym = 18#5 ∧ x.length = 7 ∧ v = 0#4 ∧ n = 11 + fieldValue x)) →
      (p.infl.hlit.toNat + p.infl.hdist.toNat < p.infl.lens.length + n →
        transition cap p = .trap .repeatPastEnd { p with infl := { p.infl with bitq := rest } }) ∧
      (p.infl.lens.length + n ≤ p.infl.hlit.toNat + p.infl.hdist.toNat →
        transition cap p = lensDone { p with
          infl := { p.infl with
            bitq := rest, lens := p.infl.lens ++ List.replicate n v, instate := .dynLens } })) ∧
    ((p.infl.lens.length ≠ p.infl.hlit.toNat + p.infl.hdist.toNat → lensDone p = .ok () p) ∧
      ∀ (ll dl : List (BitVec 4)), p.infl.lens = ll ++ dl → ll.length = p.infl.hlit.toNat →
        dl.length = p.infl.hdist.toNat →
        (ll[256]? = some 0#4 → lensDone p = .trap .noEndOfBlock p) ∧
        (∀ e, ll[256]? = some e → e ≠ 0#4 →
          (tableFromLengths 9 (ll.map BitVec.toNat) 15 = none → lensDone p = .trap .overSubscribed p) ∧
          (∀ lt, tableFromLengths 9 (ll.map BitVec.toNat) 15 = some lt →
            (tableFromLengths 5 (dl.map BitVec.toNat) 15 = none →
              lensDone p = .trap .overSubscribed { p with infl := { p.infl with lt := lt } }) ∧
            ∀ dt, tableFromLengths 5 (dl.map BitVec.toNat) 15 = some dt →
              lensDone p = .ok () { p with infl := { p.infl with lt := lt, dt := dt, instate := .sym } })))

/-- R162, R163: a literal/length symbol bit by bit: pending, miss, literal, end of block, length; and the length
with its extra bits, by the table of R168. -/
def Obligations.LiteralAndLengthSymbols : Prop :=
  ∀ (cap : Word) (p : Pipe) (rest : List Bool),
    (∀ (b : Bool) (n c : Nat) (i : Infl), p.infl.instate = .sym → p.infl.bitq = b :: rest →
      InflRanges p.infl → n = p.infl.hn.toNat + 1 → c = p.infl.hcand.toNat * 2 + b.toNat →
      i = { p.infl with bitq := rest, hn := 0#5, hcand := 0#15 } →
      (Table.find p.infl.lt (n, c) = none → n ≤ 15 → ∃ j : Infl, transition cap p = .ok () { p with infl := j } ∧
        j.hn.toNat = n ∧ j.hcand.toNat = c ∧ j = { i with hn := j.hn, hcand := j.hcand }) ∧
      (Table.find p.infl.lt (n, c) = none → 15 < n →
        transition cap p = .trap .inflMiss { p with infl := { p.infl with bitq := rest } }) ∧
      ∀ y, Table.find p.infl.lt (n, c) = some y →
        (y.toNat < 256 → transition cap p = emit cap (BitVec.ofNat 8 y.toNat) { p with infl := i }) ∧
        (y.toNat = 256 → transition cap p = .ok () (blockEnd { p with infl := i })) ∧
        (∀ k : Fin 29, y.toNat = 257 + k.val →
          transition cap p = .ok () { p with infl := { i with lsym := k, instate := .lenExtra } }) ∧
        (286 ≤ y.toNat → transition cap p = .trap .litLenSymbol { p with infl := i })) ∧
    (∀ (x : List Bool) (base ext : Nat), p.infl.instate = .lenExtra → p.infl.bitq = x ++ rest →
      [(3, 0), (4, 0), (5, 0), (6, 0), (7, 0), (8, 0), (9, 0), (10, 0), (11, 1), (13, 1), (15, 1), (17, 1),
        (19, 2), (23, 2), (27, 2), (31, 2), (35, 3), (43, 3), (51, 3), (59, 3), (67, 4), (83, 4), (99, 4),
        (115, 4), (131, 5), (163, 5), (195, 5), (227, 5), (258, 0)][p.infl.lsym.val]? = some (base, ext) →
      x.length = ext → ∃ v : BitVec 9, v.toNat = base + fieldValue x ∧ 3 ≤ v.toNat ∧ v.toNat ≤ 258 ∧
        transition cap p = .ok () { p with
          infl := { p.infl with bitq := rest, length := v, instate := .distSym } })

/-- R164, R165: a distance symbol bit by bit, and the distance with its extra bits, by the table of R169; a match
that reaches before the start of the output faults. -/
def Obligations.DistanceSymbols : Prop :=
  ∀ (cap : Word) (p : Pipe) (rest : List Bool),
    (∀ (b : Bool) (n c : Nat) (i : Infl), p.infl.instate = .distSym → p.infl.bitq = b :: rest →
      InflRanges p.infl → n = p.infl.hn.toNat + 1 → c = p.infl.hcand.toNat * 2 + b.toNat →
      i = { p.infl with bitq := rest, hn := 0#5, hcand := 0#15 } →
      (Table.find p.infl.dt (n, c) = none → n ≤ 15 → ∃ j : Infl, transition cap p = .ok () { p with infl := j } ∧
        j.hn.toNat = n ∧ j.hcand.toNat = c ∧ j = { i with hn := j.hn, hcand := j.hcand }) ∧
      (Table.find p.infl.dt (n, c) = none → 15 < n →
        transition cap p = .trap .inflMiss { p with infl := { p.infl with bitq := rest } }) ∧
      ∀ y, Table.find p.infl.dt (n, c) = some y →
        (∀ k : Fin 30, y.toNat = k.val →
          transition cap p = .ok () { p with infl := { i with dsym := k, instate := .distExtra } }) ∧
        (30 ≤ y.toNat → transition cap p = .trap .distSymbol { p with infl := i })) ∧
    (∀ (x : List Bool) (base ext dist : Nat), p.infl.instate = .distExtra → p.infl.bitq = x ++ rest →
      [(1, 0), (2, 0), (3, 0), (4, 0), (5, 1), (7, 1), (9, 2), (13, 2), (17, 3), (25, 3), (33, 4), (49, 4),
        (65, 5), (97, 5), (129, 6), (193, 6), (257, 7), (385, 7), (513, 8), (769, 8), (1025, 9), (1537, 9),
        (2049, 10), (3073, 10), (4097, 11), (6145, 11), (8193, 12), (12289, 12), (16385, 13),
        (24577, 13)][p.infl.dsym.val]? = some (base, ext) →
      x.length = ext → dist = base + fieldValue x →
      1 ≤ dist ∧ dist ≤ 32768 ∧
      (p.infl.win.length < dist →
        transition cap p = .trap .distTooFar { p with infl := { p.infl with bitq := rest } }) ∧
      (dist ≤ p.infl.win.length →
        (∀ q, copyMatch cap dist p.infl.length.toNat { p with infl := { p.infl with bitq := rest } } = .ok () q →
          transition cap p = .ok () { q with infl := { q.infl with instate := .sym } }) ∧
        ∀ c q, copyMatch cap dist p.infl.length.toNat { p with infl := { p.infl with bitq := rest } } =
          .trap c q → transition cap p = .trap c q))

/-- R165: the bytes a match copies: byte `j` is the byte `dist` back from the start of the match, taken round and
round when the match overlaps its own output. With `ROUTE = 0` they all go to `OUT`. With `ROUTE = 1` they go to
the defilter one by one, and a byte that it refuses stops the copy there: that byte is in the window, checksum and
count, no later one is, and the defilter is as `df_push` left it (R148, R277). -/
def Obligations.MatchCopyRepeats : Prop :=
  ∀ (cap : Word) (p : Pipe) (dist n : Nat), p.infl.win.length ≤ 32768 → 1 ≤ dist → dist ≤ p.infl.win.length →
    ∃ bs : List Byte, bs.length = n ∧
      (∀ j < n, bs[j]? = p.infl.win[p.infl.win.length - dist + j % dist]?) ∧
      (p.infl.route = false → copyMatch cap dist n p =
        .ok () { p with infl := bs.foldl (fun i b => recordByte b i) p.infl, out := p.out ++ bs }) ∧
      (p.infl.route = true →
        (∀ u, pushAll cap bs p.df = .ok () u → copyMatch cap dist n p =
          .ok () { p with infl := bs.foldl (fun i b => recordByte b i) p.infl, df := u }) ∧
        ∀ (pre post : List Byte) (b : Byte) (u v : Defilt) (c : Trap), bs = pre ++ b :: post →
          pushAll cap pre p.df = .ok () u → dfPush cap b u = .trap c v → copyMatch cap dist n p =
            .trap c { p with infl := (pre ++ [b]).foldl (fun i b => recordByte b i) p.infl, df := v })

/-- R166, R167: the trailer, most significant byte first, against `S2 × 2^16 + S1`. -/
def Obligations.TrailerCheck : Prop :=
  ∀ (cap : Word) (p : Pipe) (a b c d : Byte) (rest : List Bool), p.infl.instate = .trailer →
    p.infl.bitq = bitsOf a ++ bitsOf b ++ bitsOf c ++ bitsOf d ++ rest →
    (p.infl.s2 ++ p.infl.s1 = a ++ b ++ c ++ d →
      transition cap p = .ok () { p with infl := { p.infl with bitq := rest, instate := .done } }) ∧
    (p.infl.s2 ++ p.infl.s1 ≠ a ++ b ++ c ++ d →
      transition cap p = .trap .adlerMismatch { p with infl := { p.infl with bitq := rest } })

/-- R149: a table is refused exactly when its lengths are over-subscribed; otherwise its entries are exactly the
standard canonical codes: the code of a symbol, as code space, is what shorter lengths, and smaller symbols of
the same length, take. -/
def Obligations.TablesAreCanonical : Prop :=
  ∀ (w maxlen : Nat) (lens : List Nat), maxlen ≤ 15 → (∀ l ∈ lens, l ≤ maxlen) → lens.length ≤ 2 ^ w →
    (tableFromLengths w lens maxlen = none ↔
      2 ^ maxlen < (lens.map fun l => if l = 0 then 0 else 2 ^ (maxlen - l)).sum) ∧
    ∀ t, tableFromLengths w lens maxlen = some t →
      ∀ (l c : Nat) (y : BitVec w), Table.find t (l, c) = some y ↔
        lens[y.toNat]? = some l ∧ l ≠ 0 ∧
          c * 2 ^ (maxlen - l) =
            (lens.zipIdx.map fun x =>
              if x.1 ≠ 0 ∧ (x.1 < l ∨ (x.1 = l ∧ x.2 < y.toNat)) then 2 ^ (maxlen - x.1) else 0).sum

/-- R150: the codes of the fixed block. -/
def Obligations.FixedBlockCodes : Prop :=
  ∃ lt dt, tableFromLengths 9 fixedLitLen 15 = some lt ∧ tableFromLengths 5 fixedDist 15 = some dt ∧
    lt.length = 288 ∧ dt.length = 32 ∧
    (∀ k < 144, Table.find lt (8, 0b00110000 + k) = some (BitVec.ofNat 9 k)) ∧
    (∀ k < 112, Table.find lt (9, 0b110010000 + k) = some (BitVec.ofNat 9 (144 + k))) ∧
    (∀ k < 24, Table.find lt (7, k) = some (BitVec.ofNat 9 (256 + k))) ∧
    (∀ k < 8, Table.find lt (8, 0b11000000 + k) = some (BitVec.ofNat 9 (280 + k))) ∧
    ∀ k < 32, Table.find dt (5, k) = some (BitVec.ofNat 5 k)

/-- R148, R165, R171, R277: the bytes one `IN_BYTE` emits are recorded once each, in order, in the window, in the
checksum and in the count. With `ROUTE = 0` they are appended to `OUT`. With `ROUTE = 1` they go to the defilter in
that order: it took them all, or it raised a fault on the last of them, which is then the fault of the command;
that byte is recorded too, nothing is rolled back, and no later byte is emitted. A command that is answered `OK`
says how many bytes they are. -/
def Obligations.EmittedBytesRecordedOnce : Prop :=
  ∀ (s t : State) (d : Byte), s.blk.fault = 0#8 → InflRanges s.blk.infl → exec (.inByte d) s = .next t →
    ∃ bs : List Byte, Recorded bs s.blk.infl t.blk.infl ∧
      (s.blk.infl.route = false → t.blk.out = s.blk.out ++ bs ∧ t.blk.df = s.blk.df) ∧
      (s.blk.infl.route = true → t.blk.out = s.blk.out ∧
        (pushAll s.pixcap bs s.blk.df = .ok () t.blk.df ∨
          ∃ (pre : List Byte) (b : Byte) (u : Defilt) (c : Trap), bs = pre ++ [b] ∧
            pushAll s.pixcap pre s.blk.df = .ok () u ∧ dfPush s.pixcap b u = .trap c t.blk.df ∧
            t.blk.fault = c.cause ∧ t.blk.fsub = c.sub)) ∧
      (t.blk.fault = 0#8 → t.responses = s.responses ++
        [rspOk (BitVec.ofNat 32 ((instateCode t.blk.infl.instate).toNat * 2 ^ 16 + bs.length % 2 ^ 32))])

/-- R171: the two sums in closed form, from the start of a stream, and the spec's two values. -/
def Obligations.AdlerSums : Prop :=
  (∀ (bs : List Byte) (i : Infl), i = bs.foldl (fun i b => recordByte b i) Infl.reset →
    i.s1.toNat = (1 + (bs.map BitVec.toNat).sum) % 65521 ∧
    i.s2.toNat = (bs.length + (bs.zipIdx.map fun x => (bs.length - x.2) * x.1.toNat).sum) % 65521) ∧
  viewInAdler Infl.reset = 0x00000001#32 ∧
  viewInAdler ([0x61#8, 0x62#8, 0x63#8].foldl (fun i b => recordByte b i) Infl.reset) = 0x024D0127#32

/-- R172: one `IN_BYTE` emits at most 1290 bytes: the list of the bytes recorded, which is what `OUT` grew by with
`ROUTE = 0` and what the defilter was given with `ROUTE = 1`. -/
def Obligations.OneByteEmitsAtMost1290 : Prop :=
  ∀ (s t : State) (d : Byte), Inv s → exec (.inByte d) s = .next t →
    ∃ bs : List Byte, bs.length ≤ 1290 ∧ Recorded bs s.blk.infl t.blk.infl ∧
      (s.blk.infl.route = false → t.blk.out = s.blk.out ++ bs) ∧
      (s.blk.infl.route = true →
        pushAll s.pixcap bs s.blk.df = .ok () t.blk.df ∨ ∃ c, pushAll s.pixcap bs s.blk.df = .trap c t.blk.df)

/-- R172: what `IN_BYTE` does depends on nothing but the engine, `OUT`, the defilter and `PIXCAP`, and no command
of another unit, nor a status read, changes the engine. The fault pairs are among those of R262, so that `FSUB` is 0
in a block that is not faulted (R21). -/
def Obligations.InflateSeesOnlyItsBytes : Prop :=
  (∀ (s s' t : State) (d : Byte), FaultPair s.blk → FaultPair s'.blk → s.blk.fault = 0#8 → s'.blk.fault = 0#8 →
    s'.blk.infl = s.blk.infl → s'.blk.out = s.blk.out → s'.blk.df = s.blk.df → s'.pixcap = s.pixcap →
    exec (.inByte d) s = .next t →
    ∃ r, t.responses = s.responses ++ [r] ∧ exec (.inByte d) s' = .next { s' with
      blk := { s'.blk with
        infl := t.blk.infl, out := t.blk.out, df := t.blk.df, fault := t.blk.fault, fsub := t.blk.fsub }
      responses := s'.responses ++ [r] }) ∧
  ∀ (i : Instr) (s t : State),
    (i ≠ .blkReset ∧ i ≠ .inReset ∧ (∀ r, i ≠ .inRoute r) ∧ ∀ d, i ≠ .inByte d) →
    exec i s = .next t → t.blk.infl = s.blk.infl

/-- R200, R148, R277: the two sources of the defilter drive the same primitive. Let `bs` be the bytes an `IN_BYTE`
appends to `OUT` with `ROUTE = 0`, with or without a fault of the engine at its end. With `ROUTE = 1`: if `DF_BYTE` of
all of them runs without a fault, the command leaves the defilter as these do and all else as with `ROUTE = 0`; if
`DF_BYTE` of a first part runs and of the next byte faults, the command ends with that fault, leaves the defilter as
these do, with the bytes taken before kept, and has recorded the first part and the faulting byte and nothing
more. -/
def Obligations.RoutedBytesAreDefilterBytes : Prop :=
  ∀ (s t : State) (d : Byte) (bs : List Byte), Inv s → s.blk.fault = 0#8 → s.blk.infl.route = true →
    exec (.inByte d) { s with blk := { s.blk with infl := { s.blk.infl with route := false } } } = .next t →
    t.blk.out = s.blk.out ++ bs →
    (∀ u, execAll (bs.map .dfByte) s = .next u → u.blk.fault = 0#8 →
      exec (.inByte d) s = .next { t with
        blk := { t.blk with infl := { t.blk.infl with route := true }, out := s.blk.out, df := u.blk.df } }) ∧
    ∀ (pre post : List Byte) (b : Byte) (u v : State), bs = pre ++ b :: post →
      execAll (pre.map .dfByte) s = .next u → u.blk.fault = 0#8 →
      exec (.dfByte b) u = .next v → v.blk.fault ≠ 0#8 →
      ∃ i : Infl, Recorded (pre ++ [b]) s.blk.infl i ∧ i.route = true ∧
        exec (.inByte d) s = .next (raised v.blk.fault.toNat v.blk.fsub.toNat
          { s with blk := { s.blk with infl := i, df := v.blk.df } })

/-! ### DEFILT -/

/-- R201: `DF_HDRB`. -/
def Obligations.LoadHeaderByte : Prop :=
  EncodedI 0x40 .dfHdrb (fun _ => True) ∧
  ∀ (s : State) (d : Byte), s.blk.fault = 0#8 →
    (s.blk.df.hcnt.toNat < 13 → ∃ u : Defilt,
      exec (.dfHdrb d) s =
        .next (answered (rspOk (BitVec.ofNat 32 (s.blk.df.hcnt.toNat + 1))) { s.blk with df := u } s) ∧
      u.hcnt.toNat = s.blk.df.hcnt.toNat + 1 ∧
      (∀ k : Fin 13, u.hdr[k] = if k.val = s.blk.df.hcnt.toNat then d else s.blk.df.hdr[k]) ∧
      u = { s.blk.df with hdr := u.hdr, hcnt := u.hcnt }) ∧
    (13 ≤ s.blk.df.hcnt.toNat → exec (.dfHdrb d) s = .next (raised 7 5 s))

/-- R202, R203, R204, R205: `DF_CONFIG`: the checks in their order, the first that applies raising its fault with
nothing written; and the configuration put in force. -/
def Obligations.PutConfigurationInForce : Prop :=
  EncodedZ 0x41 .dfConfig ∧
  (∀ s : State, s.blk.fault = 0#8 → s.blk.df.hcnt.toNat ≠ 13 → exec .dfConfig s = .next (raised 7 6 s)) ∧
  ∀ (s : State) (hdr : Vector Byte 13) (w h depth ctype bpp stride : Nat),
    s.blk.fault = 0#8 → s.blk.df.hcnt.toNat = 13 → hdr = s.blk.df.hdr →
    w = hdr[0].toNat * 2 ^ 24 + hdr[1].toNat * 2 ^ 16 + hdr[2].toNat * 2 ^ 8 + hdr[3].toNat →
    h = hdr[4].toNat * 2 ^ 24 + hdr[5].toNat * 2 ^ 16 + hdr[6].toNat * 2 ^ 8 + hdr[7].toNat →
    depth = hdr[8].toNat → ctype = hdr[9].toNat →
    bpp = depth * (if ctype = 2 then 3 else if ctype = 6 then 4 else 1) → stride = (w * bpp + 7) / 8 →
    (depth = 16 → exec .dfConfig s = .next (raised 4 1 s)) ∧
    (depth ≠ 16 →
      (ctype = 4 → exec .dfConfig s = .next (raised 4 2 s)) ∧
      (ctype ≠ 4 →
        (hdr[10] ≠ 0#8 → exec .dfConfig s = .next (raised 4 3 s)) ∧
        (hdr[10] = 0#8 →
          (hdr[11] ≠ 0#8 → exec .dfConfig s = .next (raised 4 4 s)) ∧
          (hdr[11] = 0#8 →
            (hdr[12] ≠ 0#8 → exec .dfConfig s = .next (raised 4 5 s)) ∧
            (hdr[12] = 0#8 →
              ((depth, ctype) ∉ [(1, 0), (4, 0), (8, 0), (1, 3), (4, 3), (8, 3), (8, 2), (8, 6)] →
                exec .dfConfig s = .next (raised 4 6 s)) ∧
              ((depth, ctype) ∈ [(1, 0), (4, 0), (8, 0), (1, 3), (4, 3), (8, 3), (8, 2), (8, 6)] →
                (w = 0 ∨ h = 0 → exec .dfConfig s = .next (raised 5 1 s)) ∧
                (w ≠ 0 → h ≠ 0 →
                  (s.pixcap.toNat < stride * h → exec .dfConfig s = .next (raised 5 2 s)) ∧
                  (stride * h ≤ s.pixcap.toNat → ∃ u : Defilt,
                    exec .dfConfig s = .next (answered (rspOk u.stride) { s.blk with df := u } s) ∧
                    u.width.toNat = w ∧ u.height.toNat = h ∧ u.depth.toNat = depth ∧ u.ctype.toNat = ctype ∧
                    u.bpp.toNat = bpp ∧ u.stride.toNat = stride ∧ u.psize.toNat = max 1 (bpp / 8) ∧
                    u.row = 0#32 ∧ u.fill = 0#32 ∧ u.hcnt = 0#4 ∧ u.dfvalid = true ∧
                    u.hdr = hdr ∧ u.line = s.blk.df.line ∧ u.pix = s.blk.df.pix))))))))

/-- R206, R208: `DF_BYTE` outside a configuration, after the last row, in the middle of a scanline, and as the
last byte of a scanline whose filter type is above 4. -/
def Obligations.GatherScanline : Prop :=
  EncodedI 0x42 .dfByte (fun _ => True) ∧
  ∀ (s : State) (d : Byte) (u : Defilt), s.blk.fault = 0#8 → u = s.blk.df →
    (u.dfvalid = false → exec (.dfByte d) s = .next (raised 7 7 s)) ∧
    (u.dfvalid = true → u.row = u.height → exec (.dfByte d) s = .next (raised 1 14 s)) ∧
    (u.dfvalid = true → u.row ≠ u.height →
      (u.fill.toNat < u.stride.toNat → ∃ (fill : Word) (line : Memory),
        exec (.dfByte d) s = .next (answered (rspOk 0#32) { s.blk with df := { u with fill := fill, line := line } } s) ∧
        fill.toNat = u.fill.toNat + 1 ∧
        ∀ a, Memory.read line a = if a = u.fill.toNat then some d else Memory.read u.line a) ∧
      (∀ f : Byte, u.fill = u.stride → u.stride ≠ 0#32 → Memory.read u.line 0 = some f → 4 < f.toNat →
        ∃ line : Memory,
          exec (.dfByte d) s =
            .next (raised 1 13 { s with blk := { s.blk with df := { u with line := line } } }) ∧
          ∀ a, Memory.read line a = if a = u.fill.toNat then some d else Memory.read u.line a))

/-- R206, R208, R209, R210, R211, R213: the last byte of a scanline reconstructs its row: every byte of the row is
the filtered byte plus the predictor of its neighbours, modulo 256, a missing neighbour counting as 0; no other
byte of `PIX` changes; the response says that a row, or the image, is complete. -/
def Obligations.ReconstructRow : Prop :=
  ∀ (s : State) (d : Byte) (u : Defilt) (f : Nat) (base : Nat), s.blk.fault = 0#8 → u = s.blk.df →
    DefiltInv s.pixcap u → u.dfvalid = true → u.row ≠ u.height → u.fill = u.stride →
    (Memory.read u.line 0).map BitVec.toNat = some f → f ≤ 4 → base = u.row.toNat * u.stride.toNat →
    ∃ (row : Word) (line pix : Memory),
      exec (.dfByte d) s =
        .next (answered (rspOk (if row = u.height then 3#32 else 1#32))
          { s.blk with df := { u with row := row, fill := 0#32, line := line, pix := pix } } s) ∧
      row.toNat = u.row.toNat + 1 ∧
      (∀ a, Memory.read line a = if a = u.fill.toNat then some d else Memory.read u.line a) ∧
      (∀ a, a < base ∨ base + u.stride.toNat ≤ a → Memory.read pix a = Memory.read u.pix a) ∧
      ∀ i < u.stride.toNat, ∃ x v a b c : Byte,
        Memory.read line (1 + i) = some x ∧ Memory.read pix (base + i) = some v ∧
        (if u.psize.toNat ≤ i then Memory.read pix (base + i - u.psize.toNat) = some a else a = 0#8) ∧
        (if 0 < u.row.toNat then Memory.read pix (base - u.stride.toNat + i) = some b else b = 0#8) ∧
        (if 0 < u.row.toNat ∧ u.psize.toNat ≤ i then
          Memory.read pix (base - u.stride.toNat + i - u.psize.toNat) = some c else c = 0#8) ∧
        v.toNat = (x.toNat +
          (if f = 0 then 0
            else if f = 1 then a.toNat
            else if f = 2 then b.toNat
            else if f = 3 then (a.toNat + b.toNat) / 2
            else paeth a.toNat b.toNat c.toNat)) % 256

/-- R212: the Paeth predictor is the neighbour nearest to `a + b − c`, ties going to `a`, then `b`, then `c`; with
the values the rule lists. -/
def Obligations.PaethTakesNearest : Prop :=
  (∀ a b c : Nat,
    let dist := fun x : Nat => ((a : Int) + b - c - x).natAbs
    (dist a ≤ dist b ∧ dist a ≤ dist c → paeth a b c = a) ∧
    (dist b < dist a ∧ dist b ≤ dist c → paeth a b c = b) ∧
    (dist c < dist a ∧ dist c < dist b → paeth a b c = c) ∧
    dist (paeth a b c) ≤ dist a ∧ dist (paeth a b c) ≤ dist b ∧ dist (paeth a b c) ≤ dist c) ∧
  paeth 10 20 15 = 15 ∧ paeth 255 255 0 = 255 ∧ paeth 0 0 0 = 0 ∧ paeth 255 0 0 = 255 ∧ paeth 0 255 0 = 255 ∧
  paeth 1 2 3 = 1 ∧ paeth 200 100 250 = 100 ∧ paeth 100 50 75 = 75 ∧ paeth 3 5 4 = 4 ∧
  predictor .average 200 100 0 = 150

/-- R209, R211: the defilter undoes each of the five filters: a row filtered as PNG defines it (each raw byte less
the predictor of its raw neighbours, modulo 256), sent with its filter-type byte, comes back as the raw row. -/
def Obligations.DefilterUndoesFilter : Prop :=
  ∀ (s : State) (f : Filter) (ft : Byte) (raw up : List Byte) (stride p : Nat), s.blk.fault = 0#8 →
    DefiltInv s.pixcap s.blk.df → s.blk.df.dfvalid = true → s.blk.df.row ≠ s.blk.df.height →
    s.blk.df.fill = 0#32 → filterOfByte ft = some f → stride = s.blk.df.stride.toNat → p = s.blk.df.psize.toNat →
    raw.length = stride →
    up = (if s.blk.df.row = 0#32 then List.replicate stride 0#8
      else (List.range stride).map fun i =>
        (Memory.read s.blk.df.pix ((s.blk.df.row.toNat - 1) * stride + i)).getD 0#8) →
    ∃ t : State,
      execAll ((ft :: (List.range stride).map fun i =>
        raw.getD i 0#8 - BitVec.ofNat 8 (predictor f
          (if p ≤ i then (raw.getD (i - p) 0#8).toNat else 0)
          (up.getD i 0#8).toNat
          (if p ≤ i then (up.getD (i - p) 0#8).toNat else 0))).map .dfByte) s = .next t ∧
      t.blk.fault = 0#8 ∧ t.blk.df.row = s.blk.df.row + 1#32 ∧ t.blk.df.fill = 0#32 ∧
      ∀ i < stride, Memory.read t.blk.df.pix (s.blk.df.row.toNat * stride + i) = raw[i]?

/-- R213: rows already finished are never written again under the same configuration: until `DF_CONFIG` or a
reset, no command changes a byte of them, and `ROW` does not go back. -/
def Obligations.FinishedRowsStay : Prop :=
  ∀ (i : Instr) (s t : State), Inv s → i ≠ .dfConfig → i ≠ .blkReset → exec i s = .next t →
    s.blk.df.row.toNat ≤ t.blk.df.row.toNat ∧ t.blk.df.stride = s.blk.df.stride ∧
      ∀ a < s.blk.df.row.toNat * s.blk.df.stride.toNat, Memory.read t.blk.df.pix a = Memory.read s.blk.df.pix a

/-! ### The whole machine -/

/-- The reset state is good, whatever `PIXCAP` is within R7's range. -/
def Obligations.ResetStateIsGood : Prop :=
  Inv State.reset ∧ ∀ cap : Word, cap ≠ 0#32 → Inv { State.reset with pixcap := cap }

/-- R9, R26, R28, R53: from every good state, whatever comes next on its inputs, the machine takes a step to a
good state: every register keeps its range, no byte is read that holds no value, and the model never stops. -/
def Obligations.GoodStatesStepToGoodStates : Prop :=
  ∀ s : State, Inv s → ∃ t, step s = .next t ∧ Inv t

/-- R292: no result depends on bytes of `LINE` and `PIX` that hold no value: two good states that differ only in
such bytes step to two that differ only in such bytes, with the same responses. -/
def Obligations.UnwrittenBytesHaveNoEffect : Prop :=
  ∀ s s' t : State, Inv s → Inv s' → SameReadable s s' → step s = .next t →
    ∃ t', step s' = .next t' ∧ SameReadable t t' ∧ t'.responses = t.responses
end

