-- ==== Sys2Proof/Laws/State.lean ====
section
/-! SUPPORT. One lemma per field per update of the state: later proofs rewrite with these and unfold no
record update. -/

namespace Sys2Proof.Machine

variable (s : State) (r : Rsp) (t : Trap) (p : Pipe) (i : Infl) (st : InState) (k : Nat)

@[simp] theorem respond_blk : (respond s r).blk = s.blk := rfl
@[simp] theorem respond_pixcap : (respond s r).pixcap = s.pixcap := rfl
@[simp] theorem respond_inputs : (respond s r).inputs = s.inputs := rfl
@[simp] theorem respond_responses : (respond s r).responses = s.responses ++ [r] := rfl

@[simp] theorem refuse_blk : (refuse s).blk = s.blk := rfl
@[simp] theorem refuse_pixcap : (refuse s).pixcap = s.pixcap := rfl
@[simp] theorem refuse_inputs : (refuse s).inputs = s.inputs := rfl
@[simp] theorem refuse_responses :
    (refuse s).responses = s.responses ++ [rspFault true s.blk.fault s.blk.fsub] := rfl

@[simp] theorem resetBlock_blk : (resetBlock s).blk = Block.reset := rfl
@[simp] theorem resetBlock_pixcap : (resetBlock s).pixcap = s.pixcap := rfl
@[simp] theorem resetBlock_inputs : (resetBlock s).inputs = s.inputs := rfl
@[simp] theorem resetBlock_responses : (resetBlock s).responses = s.responses := rfl

@[simp] theorem takeFault_fault : (takeFault t s).blk.fault = t.cause := rfl
@[simp] theorem takeFault_fsub : (takeFault t s).blk.fsub = t.sub := rfl
@[simp] theorem takeFault_huff : (takeFault t s).blk.huff = s.blk.huff := rfl
@[simp] theorem takeFault_crc : (takeFault t s).blk.crc = s.blk.crc := rfl
@[simp] theorem takeFault_infl : (takeFault t s).blk.infl = s.blk.infl := rfl
@[simp] theorem takeFault_df : (takeFault t s).blk.df = s.blk.df := rfl
@[simp] theorem takeFault_pixa : (takeFault t s).blk.pixa = s.blk.pixa := rfl
@[simp] theorem takeFault_out : (takeFault t s).blk.out = s.blk.out := rfl
@[simp] theorem takeFault_pixcap : (takeFault t s).pixcap = s.pixcap := rfl
@[simp] theorem takeFault_inputs : (takeFault t s).inputs = s.inputs := rfl
@[simp] theorem takeFault_responses :
    (takeFault t s).responses = s.responses ++ [rspFault false t.cause t.sub] := rfl

@[simp] theorem withFetchWord_blk (n w : Nat) : (s.withFetchWord n w).blk = s.blk := rfl
@[simp] theorem withFetchWord_pixcap (n w : Nat) : (s.withFetchWord n w).pixcap = s.pixcap := rfl
@[simp] theorem withFetchWord_responses (n w : Nat) : (s.withFetchWord n w).responses = s.responses := rfl
@[simp] theorem withFetchWord_inputs (n w : Nat) :
    (s.withFetchWord n w).inputs = .command (BitVec.ofNat 16 (w % 2 ^ n)) :: s.inputs := rfl

@[simp] theorem setInfl_infl : (p.setInfl i).infl = i := rfl
@[simp] theorem setInfl_out : (p.setInfl i).out = p.out := rfl
@[simp] theorem setInfl_df : (p.setInfl i).df = p.df := rfl
@[simp] theorem setInfl_setInfl (j : Infl) : (p.setInfl i).setInfl j = p.setInfl j := rfl

@[simp] theorem goto_instate : (p.goto st).infl.instate = st := rfl
@[simp] theorem goto_infl : (p.goto st).infl = { p.infl with instate := st } := rfl
@[simp] theorem goto_out : (p.goto st).out = p.out := rfl
@[simp] theorem goto_df : (p.goto st).df = p.df := rfl

@[simp] theorem dropBits_bitq : (dropBits k i).bitq = i.bitq.drop k := rfl
@[simp] theorem dropBits_instate : (dropBits k i).instate = i.instate := rfl
@[simp] theorem dropBits_route : (dropBits k i).route = i.route := rfl
@[simp] theorem dropBits_final : (dropBits k i).final = i.final := rfl
@[simp] theorem dropBits_cmf : (dropBits k i).cmf = i.cmf := rfl
@[simp] theorem dropBits_rem : (dropBits k i).rem = i.rem := rfl
@[simp] theorem dropBits_hlit : (dropBits k i).hlit = i.hlit := rfl
@[simp] theorem dropBits_hdist : (dropBits k i).hdist = i.hdist := rfl
@[simp] theorem dropBits_hclen : (dropBits k i).hclen = i.hclen := rfl
@[simp] theorem dropBits_cll : (dropBits k i).cll = i.cll := rfl
@[simp] theorem dropBits_idx : (dropBits k i).idx = i.idx := rfl
@[simp] theorem dropBits_lens : (dropBits k i).lens = i.lens := rfl
@[simp] theorem dropBits_repsym : (dropBits k i).repsym = i.repsym := rfl
@[simp] theorem dropBits_lsym : (dropBits k i).lsym = i.lsym := rfl
@[simp] theorem dropBits_length : (dropBits k i).length = i.length := rfl
@[simp] theorem dropBits_dsym : (dropBits k i).dsym = i.dsym := rfl
@[simp] theorem dropBits_hn : (dropBits k i).hn = i.hn := rfl
@[simp] theorem dropBits_hcand : (dropBits k i).hcand = i.hcand := rfl
@[simp] theorem dropBits_s1 : (dropBits k i).s1 = i.s1 := rfl
@[simp] theorem dropBits_s2 : (dropBits k i).s2 = i.s2 := rfl
@[simp] theorem dropBits_total : (dropBits k i).total = i.total := rfl
@[simp] theorem dropBits_ct : (dropBits k i).ct = i.ct := rfl
@[simp] theorem dropBits_lt : (dropBits k i).lt = i.lt := rfl
@[simp] theorem dropBits_dt : (dropBits k i).dt = i.dt := rfl
@[simp] theorem dropBits_win : (dropBits k i).win = i.win := rfl

end Sys2Proof.Machine
end

