-- ==== Sys2Proof/Laws/Ops.lean ====
section
/-! SUPPORT. What the shared operations of Machine/Ops.lean do: memories, tables, pieces of a command, a
whole command. -/

namespace Sys2Proof.Machine

/-! ### Memories -/

theorem memory_wf_iff (m : Memory) : Memory.wf m = true ↔ m.Pairwise fun x y => x.1 < y.1 := by
  simp [Memory.wf]

/-- The byte just written is read back. -/
theorem memory_read_write_self (m : Memory) (a : Nat) (v : Byte) :
    Memory.read (Memory.write m a v) a = some v := by
  induction m with
  | nil => simp [Memory.write, Memory.read]
  | cons e m ih =>
    obtain ⟨k, w⟩ := e
    simp only [Memory.write]
    split_ifs with h1 h2
    · simp [Memory.read]
    · simp [Memory.read]
    · have : k ≠ a := fun h => h2 h.symm
      simp [Memory.read, this, ih]

/-- A write leaves every other byte alone. -/
theorem memory_read_write_ne (m : Memory) {a b : Nat} (v : Byte) (h : b ≠ a) :
    Memory.read (Memory.write m a v) b = Memory.read m b := by
  induction m with
  | nil => simp [Memory.write, Memory.read, h.symm]
  | cons e m ih =>
    obtain ⟨k, w⟩ := e
    simp only [Memory.write]
    split_ifs with h1 h2
    · simp [Memory.read, h.symm]
    · subst h2; simp [Memory.read, h.symm]
    · simp only [Memory.read, ih]

theorem memory_read_write (m : Memory) (a b : Nat) (v : Byte) :
    Memory.read (Memory.write m a v) b = if b = a then some v else Memory.read m b := by
  split_ifs with h
  · rw [h, memory_read_write_self]
  · exact memory_read_write_ne m v h

/-- The addresses a write leaves listed: those listed before, and the one written. -/
theorem memory_write_mem {m : Memory} {a : Nat} {v : Byte} {e : Nat × Byte}
    (h : e ∈ Memory.write m a v) : e.1 = a ∨ e ∈ m := by
  induction m with
  | nil => simp only [Memory.write, List.mem_singleton] at h; simp [h]
  | cons x m ih =>
    obtain ⟨k, w⟩ := x
    simp only [Memory.write] at h
    split_ifs at h with h1 h2
    · rcases List.mem_cons.1 h with h | h
      · simp [h]
      · exact .inr h
    · rcases List.mem_cons.1 h with h | h
      · simp [h]
      · exact .inr (List.mem_cons_of_mem _ h)
    · rcases List.mem_cons.1 h with h | h
      · exact .inr (h ▸ List.mem_cons_self)
      · rcases ih h with h | h
        · exact .inl h
        · exact .inr (List.mem_cons_of_mem _ h)

/-- A write keeps the canonical form. -/
theorem memory_write_wf {m : Memory} (a : Nat) (v : Byte) (hm : Memory.wf m = true) :
    Memory.wf (Memory.write m a v) = true := by
  rw [memory_wf_iff] at *
  induction m with
  | nil => simp [Memory.write]
  | cons x m ih =>
    obtain ⟨k, w⟩ := x
    obtain ⟨hk, hm'⟩ := List.pairwise_cons.1 hm
    simp only [Memory.write]
    split_ifs with h1 h2
    · refine List.pairwise_cons.2 ⟨fun e he => ?_, hm⟩
      rcases List.mem_cons.1 he with he | he
      · simpa [he] using h1
      · exact lt_trans h1 (hk e he)
    · subst h2
      exact List.pairwise_cons.2 ⟨hk, hm'⟩
    · refine List.pairwise_cons.2 ⟨fun e he => ?_, ih hm'⟩
      rcases memory_write_mem he with he | he
      · simp only at he ⊢; omega
      · exact hk e he

/-- Memory after reset is in canonical form. -/
theorem memory_reset_wf : Memory.wf Block.reset.df.line = true ∧ Memory.wf Block.reset.df.pix = true := by
  decide

/-- Two memories in canonical form that read the same everywhere are the same list. -/
theorem memory_ext {m n : Memory} (hm : Memory.wf m = true) (hn : Memory.wf n = true)
    (h : ∀ a, Memory.read m a = Memory.read n a) : m = n := by
  rw [memory_wf_iff] at hm hn
  have low : ∀ {l : Memory} {k : Nat}, (∀ e ∈ l, k < e.1) → Memory.read l k = none := by
    intro l k hl
    induction l with
    | nil => rfl
    | cons x l ih =>
      have hx := hl x List.mem_cons_self
      have : x.1 ≠ k := by omega
      simpa [Memory.read, this] using ih fun e he => hl e (List.mem_cons_of_mem _ he)
  induction m generalizing n with
  | nil =>
    cases n with
    | nil => rfl
    | cons y n => simpa [Memory.read] using h y.1
  | cons x m ih =>
    cases n with
    | nil => simpa [Memory.read] using h x.1
    | cons y n =>
      obtain ⟨k, v⟩ := x
      obtain ⟨l, w⟩ := y
      obtain ⟨hx, hm'⟩ := List.pairwise_cons.1 hm
      obtain ⟨hy, hn'⟩ := List.pairwise_cons.1 hn
      have hkl : k = l := by
        rcases lt_trichotomy k l with hlt | heq | hlt
        · have h1 := h k
          rw [show Memory.read ((l, w) :: n) k = none from
            low fun e he => by
              rcases List.mem_cons.1 he with he | he
              · simpa [he] using hlt
              · exact lt_trans hlt (hy e he)] at h1
          simp [Memory.read] at h1
        · exact heq
        · have h1 := h l
          rw [show Memory.read ((k, v) :: m) l = none from
            low fun e he => by
              rcases List.mem_cons.1 he with he | he
              · simpa [he] using hlt
              · exact lt_trans hlt (hx e he)] at h1
          simp [Memory.read] at h1
      subst hkl
      have hvw : v = w := by simpa [Memory.read] using h k
      subst hvw
      congr 1
      refine ih hm' hn' fun a => ?_
      have ha := h a
      by_cases hka : k = a
      · subst hka; rw [low hx, low hy]
      · simpa [Memory.read, hka] using ha

/-! ### Tables -/

theorem table_wf_iff {w : Nat} (t : Table w) :
    Table.wf t = true ↔ t.Pairwise fun x y => keyLt y.1 x.1 = true := by
  simp [Table.wf]

theorem keyLt_trans {x y z : Nat × Nat} (h1 : keyLt x y = true) (h2 : keyLt y z = true) :
    keyLt x z = true := by
  simp only [keyLt, Bool.or_eq_true, Bool.and_eq_true, decide_eq_true_eq] at *; omega

theorem keyLt_total {x y : Nat × Nat} (h1 : keyLt x y ≠ true) (h2 : x ≠ y) : keyLt y x = true := by
  have h3 : ¬ (x.1 = y.1 ∧ x.2 = y.2) := fun h => h2 (Prod.ext h.1 h.2)
  simp only [keyLt, ne_eq, Bool.or_eq_true, Bool.and_eq_true, decide_eq_true_eq] at *
  omega

theorem keyLt_ne {x y : Nat × Nat} (h : keyLt x y = true) : x ≠ y := by
  rintro rfl
  simp [keyLt] at h

theorem table_find_insert_self {w : Nat} (t : Table w) (k : Nat × Nat) (v : BitVec w) :
    Table.find (Table.insert t k v) k = some v := by
  induction t with
  | nil => simp [Table.insert, Table.find]
  | cons e t ih =>
    obtain ⟨l, u⟩ := e
    simp only [Table.insert]
    split_ifs with h1 h2
    · simp [Table.find]
    · simp [Table.find]
    · simp [Table.find, h2, ih]

theorem table_find_insert_ne {w : Nat} (t : Table w) {k l : Nat × Nat} (v : BitVec w) (h : l ≠ k) :
    Table.find (Table.insert t k v) l = Table.find t l := by
  induction t with
  | nil => simp [Table.insert, Table.find, h.symm]
  | cons e t ih =>
    obtain ⟨j, u⟩ := e
    simp only [Table.insert]
    split_ifs with h1 h2
    · simp [Table.find, h.symm]
    · subst h2; simp [Table.find, h.symm]
    · simp only [Table.find, ih]

/-- An inserted entry is found, and every other key as before. -/
theorem table_find_insert {w : Nat} (t : Table w) (k l : Nat × Nat) (v : BitVec w) :
    Table.find (Table.insert t k v) l = if l = k then some v else Table.find t l := by
  split_ifs with h
  · rw [h, table_find_insert_self]
  · exact table_find_insert_ne t v h

theorem table_insert_mem {w : Nat} {t : Table w} {k : Nat × Nat} {v : BitVec w} {e : (Nat × Nat) × BitVec w}
    (h : e ∈ Table.insert t k v) : e = (k, v) ∨ e ∈ t := by
  induction t with
  | nil => simpa [Table.insert] using h
  | cons x t ih =>
    obtain ⟨l, u⟩ := x
    simp only [Table.insert] at h
    split_ifs at h with h1 h2
    · exact List.mem_cons.1 h
    · rcases List.mem_cons.1 h with h | h
      · exact .inl h
      · exact .inr (List.mem_cons_of_mem _ h)
    · rcases List.mem_cons.1 h with h | h
      · exact .inr (h ▸ List.mem_cons_self)
      · exact (ih h).imp_right (List.mem_cons_of_mem _)

theorem table_insert_length_le {w : Nat} (t : Table w) (k : Nat × Nat) (v : BitVec w) :
    (Table.insert t k v).length ≤ t.length + 1 := by
  induction t with
  | nil => simp [Table.insert]
  | cons x t ih =>
    obtain ⟨l, u⟩ := x
    simp only [Table.insert]
    split_ifs <;> simp; omega

/-- An insertion keeps the canonical form. -/
theorem table_insert_wf {w : Nat} {t : Table w} (k : Nat × Nat) (v : BitVec w) (ht : Table.wf t = true) :
    Table.wf (Table.insert t k v) = true := by
  rw [table_wf_iff] at *
  induction t with
  | nil => simp [Table.insert]
  | cons x t ih =>
    obtain ⟨l, u⟩ := x
    obtain ⟨hl, ht'⟩ := List.pairwise_cons.1 ht
    simp only [Table.insert]
    split_ifs with h1 h2
    · refine List.pairwise_cons.2 ⟨fun e he => ?_, ht⟩
      rcases List.mem_cons.1 he with he | he
      · simpa [he] using h1
      · exact keyLt_trans (hl e he) h1
    · subst h2
      exact List.pairwise_cons.2 ⟨hl, ht'⟩
    · refine List.pairwise_cons.2 ⟨fun e he => ?_, ih ht'⟩
      rcases table_insert_mem he with he | he
      · subst he; exact keyLt_total h1 h2
      · exact hl e he

/-- What is found is an entry. -/
theorem table_find_mem {w : Nat} {t : Table w} {k : Nat × Nat} {v : BitVec w} (h : Table.find t k = some v) :
    (k, v) ∈ t := by
  induction t with
  | nil => simp [Table.find] at h
  | cons x t ih =>
    obtain ⟨l, u⟩ := x
    simp only [Table.find] at h
    split_ifs at h with h1
    · obtain rfl := Option.some.inj h
      exact h1 ▸ List.mem_cons_self
    · exact List.mem_cons_of_mem _ (ih h)

/-! ### Pieces of a command -/

section
variable {σ τ α β : Type} (a : α) (s : σ) (t : Trap) (e : Fault) (f : α → σ → Res σ β) (put : σ → τ)

@[simp] theorem bind_ok : (Res.ok a s : Res σ α).bind f = f a s := rfl
@[simp] theorem bind_trap : (Res.trap t s : Res σ α).bind f = .trap t s := rfl
@[simp] theorem bind_stop : (Res.stop e : Res σ α).bind f = .stop e := rfl
@[simp] theorem within_ok : (Res.ok a s : Res σ α).within put = .ok a (put s) := rfl
@[simp] theorem within_trap : (Res.trap t s : Res σ α).within put = .trap t (put s) := rfl
@[simp] theorem within_stop : (Res.stop e : Res σ α).within put = .stop e := rfl
end

/-- A piece meets a pair of postconditions and does not stop: `P` where it completes, `Q` where it raises
a fault. -/
def Res.Meets {σ α : Type} (r : Res σ α) (P : α → σ → Prop) (Q : Trap → σ → Prop) : Prop :=
  match r with
  | .ok a s => P a s
  | .trap t s => Q t s
  | .stop _ => False

section
variable {σ τ α β : Type}

@[simp] theorem meets_ok (a : α) (s : σ) (P : α → σ → Prop) (Q : Trap → σ → Prop) :
    (Res.ok a s).Meets P Q ↔ P a s := Iff.rfl
@[simp] theorem meets_trap (t : Trap) (s : σ) (P : α → σ → Prop) (Q : Trap → σ → Prop) :
    (Res.trap t s).Meets P Q ↔ Q t s := Iff.rfl
@[simp] theorem meets_stop (e : Fault) (P : α → σ → Prop) (Q : Trap → σ → Prop) :
    (Res.stop e : Res σ α).Meets P Q ↔ False := Iff.rfl

theorem meets_bind {r : Res σ α} {f : α → σ → Res σ β} {P : α → σ → Prop} {P' : β → σ → Prop}
    {Q : Trap → σ → Prop} (h : r.Meets P Q) (hf : ∀ a s, P a s → (f a s).Meets P' Q) :
    (r.bind f).Meets P' Q := by
  cases r with
  | ok a s => exact hf a s h
  | trap t s => exact h
  | stop e => exact h

theorem meets_within {r : Res σ α} {put : σ → τ} {P : α → σ → Prop} {Q : Trap → σ → Prop}
    {P' : α → τ → Prop} {Q' : Trap → τ → Prop} (h : r.Meets P Q) (hp : ∀ a s, P a s → P' a (put s))
    (hq : ∀ t s, Q t s → Q' t (put s)) : (r.within put).Meets P' Q' := by
  cases r with
  | ok a s => exact hp a s h
  | trap t s => exact hq t s h
  | stop e => exact h

theorem meets_imp {r : Res σ α} {P P' : α → σ → Prop} {Q Q' : Trap → σ → Prop} (h : r.Meets P Q)
    (hp : ∀ a s, P a s → P' a s) (hq : ∀ t s, Q t s → Q' t s) : r.Meets P' Q' := by
  cases r with
  | ok a s => exact hp a s h
  | trap t s => exact hq t s h
  | stop e => exact h
end

/-! ### A whole command -/

/-- A command that answers a next state was refused, or completed, or raised a fault. -/
theorem command_next {s t : State} {body : Block → Res Block Rsp} (h : command s body = .next t) :
    (s.blk.fault ≠ 0#8 ∧ t = refuse s) ∨
    (s.blk.fault = 0#8 ∧ ∃ r b, body s.blk = .ok r b ∧ t = respond { s with blk := b } r) ∨
    (s.blk.fault = 0#8 ∧ ∃ c b, body s.blk = .trap c b ∧ t = takeFault c { s with blk := b }) := by
  by_cases hf : s.blk.fault = 0#8
  · right
    simp only [command, faulted, hf, ne_eq, not_true_eq_false, decide_false, Bool.false_eq_true,
      if_false] at h
    cases hb : body s.blk with
    | ok r b =>
      rw [hb] at h
      exact .inl ⟨hf, r, b, rfl, (Host.Outcome.next.inj h).symm⟩
    | trap c b =>
      rw [hb] at h
      exact .inr ⟨hf, c, b, rfl, (Host.Outcome.next.inj h).symm⟩
    | stop e => rw [hb] at h; simp [finish] at h
  · left
    refine ⟨hf, ?_⟩
    simp only [command, faulted, ne_eq, hf, not_false_eq_true, decide_true, if_true] at h
    exact (Host.Outcome.next.inj h).symm

/-- A faulted block refuses the command (R265). -/
theorem command_faulted {s : State} (body : Block → Res Block Rsp) (h : s.blk.fault ≠ 0#8) :
    command s body = .next (refuse s) := by
  simp [command, faulted, h]

/-- A block that is not faulted runs the command. -/
theorem command_runs {s : State} (body : Block → Res Block Rsp) (h : s.blk.fault = 0#8) :
    command s body = finish s (body s.blk) := by
  simp [command, faulted, h]

/-- A command answers a next state when its body does not stop. -/
theorem command_meets {s : State} {body : Block → Res Block Rsp} {P : Rsp → Block → Prop}
    {Q : Trap → Block → Prop} (h : s.blk.fault = 0#8) (hb : (body s.blk).Meets P Q) :
    (∃ r b, P r b ∧ command s body = .next (respond { s with blk := b } r)) ∨
      ∃ c b, Q c b ∧ command s body = .next (takeFault c { s with blk := b }) := by
  rw [command_runs body h]
  cases hr : body s.blk with
  | ok r b => rw [hr] at hb; exact .inl ⟨r, b, hb, rfl⟩
  | trap c b => rw [hr] at hb; exact .inr ⟨c, b, hb, rfl⟩
  | stop e => rw [hr] at hb; exact hb.elim

end Sys2Proof.Machine
end

