-- ==== Sys2Proof/Laws/Defilter.lean ====
section
/-! SUPPORT. What the pieces of the DEFILT unit do: one row, one pushed byte, a configuration; and that
each keeps `DefiltInv`. -/

namespace Sys2Proof.Machine

open Sys2Proof.Safety

/-! ### Reading and writing `PIX` -/

theorem pixRead_ok {cap : Word} {m : Memory} {a : Nat} {v : Byte} :
    pixRead cap m a = .ok v ↔ a < cap.toNat ∧ Memory.read m a = some v := by
  unfold pixRead
  split_ifs with h
  · simp; omega
  · cases hr : Memory.read m a <;> simp; omega

theorem pixRead_isSome {cap : Word} {m : Memory} {a : Nat} (h1 : a < cap.toNat)
    (h2 : (Memory.read m a).isSome = true) : ∃ v, pixRead cap m a = .ok v := by
  obtain ⟨v, hv⟩ := Option.isSome_iff_exists.1 h2
  exact ⟨v, pixRead_ok.2 ⟨h1, hv⟩⟩

theorem pixWrite_ok {cap : Word} {m m' : Memory} {a : Nat} {v : Byte} :
    pixWrite cap m a v = .ok m' ↔ a < cap.toNat ∧ m' = Memory.write m a v := by
  unfold pixWrite
  split_ifs with h
  · simp; omega
  · simp only [Except.ok.injEq]
    exact ⟨fun e => ⟨by omega, e.symm⟩, fun e => e.2.symm⟩

theorem neighbour_ok {cap : Word} {m : Memory} {present : Bool} {a : Nat}
    (h : present = true → a < cap.toNat ∧ (Memory.read m a).isSome = true) :
    ∃ v, neighbour cap m present a = .ok v := by
  cases present with
  | false => exact ⟨0#8, rfl⟩
  | true => exact pixRead_isSome (h rfl).1 (h rfl).2

/-! ### One row -/

/-- One turn of the row loop writes one byte of `PIX`, at `ROW × STRIDE + i`. -/
theorem reconByte_writes {cap : Word} {f : Filter} {u : Defilt} {i : Nat} {pix pix' : Memory}
    (h : reconByte cap f u i pix = .ok pix') :
    u.row.toNat * u.stride.toNat + i < cap.toNat ∧
      ∃ x a b c, Memory.read u.line (1 + i) = some x ∧
        neighbour cap pix (decide (u.psize.toNat ≤ i))
          (u.row.toNat * u.stride.toNat + i - u.psize.toNat) = .ok a ∧
        neighbour cap pix (decide (0 < u.row.toNat))
          (u.row.toNat * u.stride.toNat - u.stride.toNat + i) = .ok b ∧
        neighbour cap pix (decide (0 < u.row.toNat) && decide (u.psize.toNat ≤ i))
          (u.row.toNat * u.stride.toNat - u.stride.toNat + i - u.psize.toNat) = .ok c ∧
        pix' = Memory.write pix (u.row.toNat * u.stride.toNat + i) (reconValue f x a b c) := by
  unfold reconByte lineRead at h
  cases hx : Memory.read u.line (1 + i) with
  | none => simp [hx] at h
  | some x =>
    simp only [hx] at h
    split at h
    · simp at h
    · rename_i a ha
      split at h
      · simp at h
      · rename_i b hb
        split at h
        · simp at h
        · rename_i c hc
          obtain ⟨h1, h2⟩ := pixWrite_ok.1 h
          exact ⟨h1, x, a, b, c, rfl, ha, hb, hc, h2⟩

/-- A turn of the row loop goes through when its bytes hold values. -/
theorem reconByte_runs {cap : Word} {f : Filter} {u : Defilt} {i : Nat} {pix : Memory}
    (hp : 1 ≤ u.psize.toNat) (hi : i < u.stride.toNat)
    (hline : (Memory.read u.line (1 + i)).isSome = true)
    (hcap : u.row.toNat * u.stride.toNat + i < cap.toNat)
    (hpix : ∀ a < u.row.toNat * u.stride.toNat + i, (Memory.read pix a).isSome = true) :
    ∃ pix', reconByte cap f u i pix = .ok pix' := by
  have hbase : 0 < u.row.toNat → u.stride.toNat ≤ u.row.toNat * u.stride.toNat :=
    fun h => Nat.le_mul_of_pos_left _ h
  obtain ⟨x, hx⟩ := Option.isSome_iff_exists.1 hline
  have near : ∀ (p : Bool) (a : Nat), (p = true → a < u.row.toNat * u.stride.toNat + i) →
      ∃ v, neighbour cap pix p a = .ok v := fun p a h =>
    neighbour_ok fun hp => ⟨lt_trans (h hp) hcap, hpix a (h hp)⟩
  obtain ⟨a, ha⟩ := near (decide (u.psize.toNat ≤ i)) (u.row.toNat * u.stride.toNat + i - u.psize.toNat)
    fun h => by simp at h; omega
  obtain ⟨b, hb⟩ := near (decide (0 < u.row.toNat)) (u.row.toNat * u.stride.toNat - u.stride.toNat + i)
    fun h => by have := hbase (by simpa using h); omega
  obtain ⟨c, hc⟩ := near (decide (0 < u.row.toNat) && decide (u.psize.toNat ≤ i))
    (u.row.toNat * u.stride.toNat - u.stride.toNat + i - u.psize.toNat)
    fun h => by
      simp only [Bool.and_eq_true, decide_eq_true_eq] at h
      have := hbase h.1; omega
  refine ⟨Memory.write pix (u.row.toNat * u.stride.toNat + i) (reconValue f x a b c), ?_⟩
  simp only [reconByte, lineRead, hx, ha, hb, hc]
  exact pixWrite_ok.2 ⟨hcap, rfl⟩

/-- The row loop changes no byte of `PIX` outside the bytes it goes over, and keeps the memory in form and
inside the pixel memory. -/
theorem reconFrom_frame {cap : Word} {f : Filter} {u : Defilt} {n i : Nat} {pix pix' : Memory}
    (h : reconFrom cap f u n i pix = .ok pix') :
    (∀ a, a < u.row.toNat * u.stride.toNat + i ∨ u.row.toNat * u.stride.toNat + i + n ≤ a →
        Memory.read pix' a = Memory.read pix a) ∧
      (Memory.wf pix = true → Memory.wf pix' = true) ∧
      ((∀ e ∈ pix, e.1 < cap.toNat) → ∀ e ∈ pix', e.1 < cap.toNat) := by
  induction n generalizing i pix with
  | zero =>
    obtain rfl : pix = pix' := Except.ok.inj h
    exact ⟨fun _ _ => rfl, id, id⟩
  | succ n ih =>
    simp only [reconFrom] at h
    split at h
    · simp at h
    · rename_i mid hmid
      obtain ⟨hcap, x, a, b, c, -, -, -, -, rfl⟩ := reconByte_writes hmid
      obtain ⟨h1, h2, h3⟩ := ih h
      refine ⟨fun k hk => ?_, fun hw => h2 (memory_write_wf _ _ hw), fun hw => h3 fun e he => ?_⟩
      · rw [h1 k (by omega), memory_read_write_ne _ _ (by omega)]
      · rcases memory_write_mem he with he | he
        · omega
        · exact hw e he

/-- The row loop goes through when the scanline and the rows above hold values, and leaves the whole row
with values. -/
theorem reconFrom_runs {cap : Word} {f : Filter} {u : Defilt} {n i : Nat} {pix : Memory}
    (hp : 1 ≤ u.psize.toNat) (hi : i + n ≤ u.stride.toNat)
    (hline : ∀ k < u.stride.toNat, (Memory.read u.line (1 + k)).isSome = true)
    (hcap : u.row.toNat * u.stride.toNat + u.stride.toNat ≤ cap.toNat)
    (hpix : ∀ a < u.row.toNat * u.stride.toNat + i, (Memory.read pix a).isSome = true) :
    ∃ pix', reconFrom cap f u n i pix = .ok pix' ∧
      ∀ a < u.row.toNat * u.stride.toNat + i + n, (Memory.read pix' a).isSome = true := by
  induction n generalizing i pix with
  | zero => exact ⟨pix, rfl, hpix⟩
  | succ n ih =>
    obtain ⟨mid, hmid⟩ := reconByte_runs (cap := cap) (f := f) hp (by omega) (hline i (by omega)) (by omega)
      hpix
    obtain ⟨-, x, a, b, c, -, -, -, -, rfl⟩ := reconByte_writes hmid
    obtain ⟨pix', h1, h2⟩ := ih (i := i + 1) (by omega)
      (pix := Memory.write pix (u.row.toNat * u.stride.toNat + i) (reconValue f x a b c)) fun k hk => by
        rw [memory_read_write]
        split_ifs with he
        · rfl
        · exact hpix k (by omega)
    refine ⟨pix', ?_, fun k hk => h2 k (by omega)⟩
    simp only [reconFrom, hmid, h1]

/-! ### One pushed byte -/

/-- What `df_push` does, all of it (R208). -/
theorem dfPush_cases {cap : Word} {b : Byte} {u : Defilt} {r : Res Defilt Unit} (h : dfPush cap b u = r) :
    (u.dfvalid = false ∧ r = .trap .notConfigured u) ∨
    (u.dfvalid = true ∧ u.row = u.height ∧ r = .trap .surplusData u) ∨
    (u.dfvalid = true ∧ u.row ≠ u.height ∧ u.stride.toNat < u.fill.toNat ∧
      r = .stop (.lineOutside u.fill.toNat)) ∨
    (u.dfvalid = true ∧ u.row ≠ u.height ∧ u.fill.toNat < u.stride.toNat ∧
      r = .ok () { u with line := Memory.write u.line u.fill.toNat b, fill := u.fill + 1#32 }) ∨
    (u.dfvalid = true ∧ u.row ≠ u.height ∧ u.fill.toNat = u.stride.toNat ∧
      r = finishRow cap { u with line := Memory.write u.line u.fill.toNat b }) := by
  unfold dfPush at h
  cases hv : u.dfvalid with
  | false => exact .inl ⟨rfl, by simpa [hv] using h.symm⟩
  | true =>
    right
    by_cases hr : u.row = u.height
    · exact .inl ⟨rfl, hr, by simpa [hv, hr] using h.symm⟩
    · right
      simp only [hv, Bool.true_eq_false, if_false, hr] at h
      rcases lt_trichotomy u.fill.toNat u.stride.toNat with hlt | heq | hlt
      · right; left
        rw [if_neg (by omega), if_pos hlt] at h
        exact ⟨rfl, hr, hlt, h.symm⟩
      · right; right
        rw [if_neg (by omega), if_neg (by omega)] at h
        exact ⟨rfl, hr, heq, h.symm⟩
      · left
        rw [if_pos hlt] at h
        exact ⟨rfl, hr, hlt, h.symm⟩

/-- Storing one more byte of a scanline keeps `LINE` in form. -/
theorem line_after_write {m : Memory} {fill : Nat} (b : Byte)
    (h : Memory.wf m = true ∧ ∀ a < fill, (Memory.read m a).isSome = true) :
    Memory.wf (Memory.write m fill b) = true ∧
      ∀ a < fill + 1, (Memory.read (Memory.write m fill b) a).isSome = true := by
  refine ⟨memory_write_wf _ _ h.1, fun a ha => ?_⟩
  rw [memory_read_write]
  split_ifs with he
  · rfl
  · exact h.2 a (by omega)

theorem configOk_psize {cap : Word} {d : Defilt} (h : ConfigOk cap d) : 1 ≤ d.psize.toNat := by
  rw [h.psize]; omega

theorem toNat_succ_of_lt {x y : Word} (h : x.toNat < y.toNat) : (x + 1#32).toNat = x.toNat + 1 := by
  have := y.isLt
  rw [BitVec.toNat_add]
  exact Nat.mod_eq_of_lt (by simp only [BitVec.toNat_ofNat]; omega)

/-- In a good state `df_push` does not stop the model, and the state after it is good, whether it completed
or raised a fault. -/
theorem dfPush_meets {cap : Word} {u : Defilt} (b : Byte) (hu : DefiltInv cap u) :
    (dfPush cap b u).Meets (fun _ d => DefiltInv cap d) (fun _ d => DefiltInv cap d) := by
  rcases dfPush_cases (cap := cap) (b := b) (u := u) rfl with
    ⟨-, h⟩ | ⟨-, -, h⟩ | ⟨hv, -, hlt, -⟩ | ⟨hv, -, hlt, h⟩ | ⟨hv, hr, heq, h⟩
  · rw [h]; exact hu
  · rw [h]; exact hu
  · have := (hu.valid hv).fill; omega
  · rw [h]
    have hc := hu.valid hv
    have hs := toNat_succ_of_lt hlt
    exact
      { hcnt := hu.hcnt
        valid := fun _ =>
          { size := hc.size, format := hc.format, bpp := hc.bpp, stride := hc.stride, psize := hc.psize
            fits := hc.fits, row := hc.row, fill := by simp only [hs]; omega }
        idle := fun h0 => by simp [hv] at h0
        line := by simp only [hs]; exact line_after_write b hu.line
        pix := hu.pix }
  · rw [h]
    have hc := hu.valid hv
    have hline := line_after_write b hu.line
    have hrow : u.row.toNat < u.height.toNat := by
      have := hc.row
      have : u.row.toNat ≠ u.height.toNat := fun e => hr (BitVec.eq_of_toNat_eq e)
      omega
    have hbase : u.row.toNat * u.stride.toNat + u.stride.toNat ≤ cap.toNat := by
      have h1 : (u.row.toNat + 1) * u.stride.toNat ≤ u.height.toNat * u.stride.toNat :=
        Nat.mul_le_mul_right _ hrow
      have h2 := hc.fits
      rw [Nat.mul_comm] at h2
      rw [Nat.succ_mul] at h1
      omega
    have hstored : DefiltInv cap { u with line := Memory.write u.line u.fill.toNat b } :=
      { hcnt := hu.hcnt
        valid := fun _ =>
          { size := hc.size, format := hc.format, bpp := hc.bpp, stride := hc.stride, psize := hc.psize
            fits := hc.fits, row := hc.row, fill := hc.fill }
        idle := fun h0 => by simp [hv] at h0
        line := ⟨hline.1, fun a ha => hline.2 a (Nat.lt_succ_of_lt ha)⟩
        pix := hu.pix }
    obtain ⟨ft, hft⟩ := Option.isSome_iff_exists.1 (hline.2 0 (by omega))
    simp only [finishRow, lineRead, hft]
    cases hf : filterOfByte ft with
    | none => exact hstored
    | some f =>
      obtain ⟨pix', hpix', hread⟩ := reconFrom_runs (cap := cap) (f := f)
        (u := { u with line := Memory.write u.line u.fill.toNat b }) (n := u.stride.toNat) (i := 0)
        (pix := u.pix) (configOk_psize (cap := cap) (d := u) hc) (by simp) (fun k hk => hline.2 _ (by simp only at hk; omega)) hbase
        (by simpa using hu.pix.2.2)
      obtain ⟨-, hwf, hmem⟩ := reconFrom_frame hpix'
      have hs := toNat_succ_of_lt hrow
      simp only [reconRow, hpix', meets_ok]
      exact
        { hcnt := hu.hcnt
          valid := fun _ =>
            { size := hc.size, format := hc.format, bpp := hc.bpp, stride := hc.stride, psize := hc.psize
              fits := hc.fits, row := by simp only [hs]; omega, fill := by simp }
          idle := fun h0 => by simp [hv] at h0
          line := ⟨hline.1, fun a ha => by simp at ha⟩
          pix := ⟨hwf hu.pix.1, hmem hu.pix.2.1, fun a ha => hread a (by
            simp only [hs] at ha
            rw [Nat.succ_mul] at ha
            simp only; omega)⟩ }

/-! ### Commands -/

theorem dfByte_meets {cap : Word} {u : Defilt} (b : Byte) (hu : DefiltInv cap u) :
    (dfByteBody cap b u).Meets (fun _ d => DefiltInv cap d) (fun _ d => DefiltInv cap d) :=
  meets_bind (dfPush_meets b hu) fun _ _ h => h

theorem dfHdrb_meets {cap : Word} {u : Defilt} (b : Byte) (hu : DefiltInv cap u) :
    (dfHdrbBody b u).Meets (fun _ d => DefiltInv cap d) (fun _ d => DefiltInv cap d) := by
  unfold dfHdrbBody
  split_ifs with h
  · refine { hcnt := ?_, valid := fun hv => ?_, idle := hu.idle, line := hu.line, pix := hu.pix }
    · simp only [BitVec.toNat_ofNat]
      omega
    · have hc := hu.valid hv
      exact
        { size := hc.size, format := hc.format, bpp := hc.bpp, stride := hc.stride, psize := hc.psize
          fits := hc.fits, row := hc.row, fill := hc.fill }
  · exact hu

/-- An accepted pair has one of the five values of bits per pixel (R204, R205). -/
theorem formatAccepted_bpp {depth ctype : Byte} (h : formatAccepted depth ctype = true) :
    depth.toNat * channels ctype = 1 ∨ depth.toNat * channels ctype = 4 ∨
      depth.toNat * channels ctype = 8 ∨ depth.toNat * channels ctype = 24 ∨
      depth.toNat * channels ctype = 32 := by
  have table : ∀ e : Byte × Byte, e ∈ acceptedFormats →
      e.1.toNat * channels e.2 ∈ [1, 4, 8, 24, 32] := by simp [acceptedFormats, channels]
  simpa using table _ (List.contains_iff_mem.mp h)

/-- What an accepted feature set says (R204). -/
theorem checkFeatures_none {depth ctype comp filt inter : Byte}
    (h : checkFeatures depth ctype comp filt inter = none) :
    formatAccepted depth ctype = true ∧ comp = 0#8 ∧ filt = 0#8 ∧ inter = 0#8 := by
  unfold checkFeatures at h
  split_ifs at h with h1 h2 h3 h4 h5 h6
  simp only [ne_eq, not_not] at h3 h4 h5
  exact ⟨by simpa using h6, h3, h4, h5⟩

/-- What `geometry` returns when it raises nothing (R205). -/
theorem geometry_ok {cap w h : Word} {depth ctype : Byte} {g : Geometry}
    (hg : geometry cap w h depth ctype = .ok g) :
    w ≠ 0#32 ∧ h ≠ 0#32 ∧ g.bpp = depth.toNat * channels ctype ∧ g.stride = (w.toNat * g.bpp + 7) / 8 ∧
      g.psize = max 1 (g.bpp / 8) ∧ g.stride * h.toNat ≤ cap.toNat := by
  unfold geometry at hg
  split_ifs at hg with h1
  dsimp only at hg
  split_ifs at hg with h2
  simp only [not_or] at h1
  obtain rfl := Except.ok.inj hg
  exact ⟨h1.1, h1.2, rfl, rfl, rfl, by simpa using h2⟩

/-- A configuration put in force is a good one. -/
theorem configured_ok {cap : Word} {u : Defilt} {g : Geometry}
    (hf : checkFeatures u.hdr[8] u.hdr[9] u.hdr[10] u.hdr[11] u.hdr[12] = none)
    (hg : geometry cap (hdrWidth u.hdr) (hdrHeight u.hdr) u.hdr[8] u.hdr[9] = .ok g) :
    ConfigOk cap (configured u g) := by
  obtain ⟨hacc, -⟩ := checkFeatures_none hf
  obtain ⟨hw, hh, hb, hs, hp, hfit⟩ := geometry_ok hg
  have hb32 : g.bpp ≤ 32 := by rcases formatAccepted_bpp hacc with h | h | h | h | h <;> omega
  have hb1 : 1 ≤ g.bpp := by rcases formatAccepted_bpp hacc with h | h | h | h | h <;> omega
  have hcap := cap.isLt
  have hh1 : 1 ≤ (hdrHeight u.hdr).toNat := by
    rcases Nat.eq_zero_or_pos (hdrHeight u.hdr).toNat with h0 | h0
    · exact absurd (BitVec.eq_of_toNat_eq (by simpa using h0)) hh
    · exact h0
  have hs32 : g.stride < 2 ^ 32 := by
    have : g.stride * 1 ≤ g.stride * (hdrHeight u.hdr).toNat := Nat.mul_le_mul_left _ hh1
    omega
  have hp4 : max 1 (g.bpp / 8) < 8 := by omega
  have ebpp : (configured u g).bpp.toNat = g.bpp := by
    simp only [configured, BitVec.toNat_ofNat]; exact Nat.mod_eq_of_lt (by omega)
  have estr : (configured u g).stride.toNat = g.stride := by
    simp only [configured, BitVec.toNat_ofNat]; exact Nat.mod_eq_of_lt hs32
  have eps : (configured u g).psize.toNat = g.psize := by
    simp only [configured, BitVec.toNat_ofNat]; exact Nat.mod_eq_of_lt (by omega)
  exact
    { size := ⟨hw, hh⟩
      format := hacc
      bpp := by rw [ebpp, hb]; rfl
      stride := by rw [estr, ebpp, hs]; rfl
      psize := by rw [eps, ebpp, hp]
      fits := by rw [estr]; exact hfit
      row := by simp [configured]
      fill := by simp [configured] }

theorem dfConfig_meets {cap : Word} {u : Defilt} (hu : DefiltInv cap u) :
    (dfConfigBody cap u).Meets (fun _ d => DefiltInv cap d) (fun _ d => DefiltInv cap d) := by
  unfold dfConfigBody
  split_ifs with h
  · cases hf : checkFeatures u.hdr[8] u.hdr[9] u.hdr[10] u.hdr[11] u.hdr[12] with
    | some t => exact hu
    | none =>
      cases hg : geometry cap (hdrWidth u.hdr) (hdrHeight u.hdr) u.hdr[8] u.hdr[9] with
      | error t => exact hu
      | ok g =>
        simp only [meets_ok]
        exact
          { hcnt := by simp [configured]
            valid := fun _ => configured_ok hf hg
            idle := fun h0 => by simp [configured] at h0
            line := ⟨hu.line.1, fun a ha => by simp [configured] at ha⟩
            pix := ⟨hu.pix.1, hu.pix.2.1, fun a ha => by simp [configured] at ha⟩ }
  · exact hu

end Sys2Proof.Machine
end

