-- ==== Sys2Proof/Laws/Huffman.lean ====
section
/-! SUPPORT. What the pieces of the HUFF unit do: `assign`, one step of a lookup, the next length of a
build; and that each command keeps `HuffInv`. -/

namespace Sys2Proof.Machine

open Sys2Proof.Safety

/-! ### `assign` -/

@[simp] theorem assign_bits (c : Int) (n l : Nat) : (assign c n l).2 = l := rfl

/-- The code of R105 in one formula: the incremented code, shifted by at most `L − lastBits`. -/
theorem assign_code (c : Int) (n l : Nat) :
    ∃ k : Nat, k ≤ l - n ∧ (assign c n l).1 = (c + 1) * 2 ^ k := by
  unfold assign
  dsimp only
  by_cases h : (c + 1) >>> n % 2 = 1
  · simp only [h, if_true]
    split_ifs with h2
    · exact ⟨l - (n + 1), by omega, rfl⟩
    · exact ⟨0, by omega, by simp⟩
  · simp only [h, if_false]
    split_ifs with h2
    · exact ⟨l - n, le_refl _, rfl⟩
    · exact ⟨0, by omega, by simp⟩

/-- Codes are natural numbers once the pair started at −1 (R105). -/
theorem assign_nonneg {c : Int} (n l : Nat) (h : -1 ≤ c) : 0 ≤ (assign c n l).1 := by
  obtain ⟨k, -, e⟩ := assign_code c n l
  rw [e]
  exact mul_nonneg (by omega) (by positivity)

/-! ### One step of a lookup -/

/-- Everything one step of a lookup can answer (R109). -/
theorem lookupStep_cases {w : Nat} (tab : Table w) (maxlen n cand b : Nat) :
    (∃ s, Table.find tab (n + 1, cand * 2 + b) = some s ∧
        lookupStep tab maxlen n cand b = .hit s (n + 1)) ∨
      (Table.find tab (n + 1, cand * 2 + b) = none ∧ n + 1 ≤ maxlen ∧
        lookupStep tab maxlen n cand b = .pending (n + 1) (cand * 2 + b)) ∨
      (Table.find tab (n + 1, cand * 2 + b) = none ∧ maxlen < n + 1 ∧
        lookupStep tab maxlen n cand b = .miss) := by
  unfold lookupStep
  cases hf : Table.find tab (n + 1, cand * 2 + b) with
  | some s => exact .inl ⟨s, rfl, rfl⟩
  | none =>
    right
    by_cases h : maxlen < n + 1
    · exact .inr ⟨rfl, h, by simp [h]⟩
    · exact .inl ⟨rfl, by omega, by simp [h]⟩

/-- A candidate with one more bit is a number of one more bit. -/
theorem candidate_lt {n cand b : Nat} (h : cand < 2 ^ n) (hb : b ≤ 1) : cand * 2 + b < 2 ^ (n + 1) := by
  rw [pow_succ]; omega

/-! ### The counts -/

theorem cnt_getD (cnt : Vector Byte 16) {k : Nat} (h : k < 16) : cnt.toList.getD k 0#8 = cnt[k] := by
  rw [List.getD_eq_getElem _ _ (by simpa using h)]
  simp

theorem list_sum_set {l : List Nat} {k : Nat} (h : k < l.length) (v : Nat) :
    (l.set k v).sum + l[k] = l.sum + v := by
  induction l generalizing k with
  | nil => simp at h
  | cons x l ih =>
    cases k with
    | zero => simp; omega
    | succ k =>
      have := ih (k := k) (by simpa using h)
      simp only [List.set_cons_succ, List.sum_cons, List.getElem_cons_succ]
      omega

/-- Loading one count changes the sum by it. -/
theorem countSum_set (cnt : Vector Byte 16) {k : Nat} (h : k < 16) (v : Byte) :
    countSum (cnt.set k v) + cnt[k].toNat = countSum cnt + v.toNat := by
  have := list_sum_set (l := cnt.toList.map BitVec.toNat) (k := k) (by simpa using h) v.toNat
  simp only [countSum, Vector.toList_set, List.map_set]
  simpa using this

theorem countSum_zero_iff (cnt : Vector Byte 16) : countSum cnt = 0 ↔ ∀ k : Fin 16, cnt[k] = 0#8 := by
  rw [countSum, List.sum_eq_zero_iff]
  constructor
  · intro h k
    have := h cnt[k].toNat (List.mem_map.2 ⟨_, by simp, rfl⟩)
    exact BitVec.eq_of_toNat_eq (by simpa using this)
  · intro h x hx
    obtain ⟨v, hv, rfl⟩ := List.mem_map.1 hx
    obtain ⟨k, hk, rfl⟩ := List.mem_iff_getElem.1 hv
    have := h ⟨k, by simpa using hk⟩
    simp only [Vector.getElem_toList] at *
    simpa using congrArg BitVec.toNat this

/-- `REMAIN` fits: sixteen counts of at most 255 (R103). -/
theorem countSum_le (cnt : Vector Byte 16) : countSum cnt ≤ Config.htCap := by
  have := List.sum_le_card_nsmul (cnt.toList.map BitVec.toNat) 255 fun x hx => by
    obtain ⟨v, -, rfl⟩ := List.mem_map.1 hx
    have := v.isLt
    omega
  simp only [List.length_map, Vector.length_toList, smul_eq_mul] at this
  exact this

theorem countSum_replicate : countSum (Vector.replicate 16 0#8) = 0 := by decide

/-- `firstLength` is the minimum R103 and R104 name. -/
theorem firstLength_some {cnt : Vector Byte 16} {lo l : Nat} (h : firstLength cnt lo = some l) :
    lo ≤ l ∧ 1 ≤ l ∧ l ≤ 16 ∧ (∀ k : Fin 16, k.val + 1 = l → cnt[k] ≠ 0#8) ∧
      ∀ k : Fin 16, lo ≤ k.val + 1 → k.val + 1 < l → cnt[k] = 0#8 := by
  unfold firstLength at h
  rw [List.find?_range'_eq_some] at h
  obtain ⟨h1, h2, h3⟩ := h
  simp only [Bool.and_eq_true, decide_eq_true_eq, List.mem_range'_1] at h1 h2
  refine ⟨h1.1, h2.1, by omega, fun k hk => ?_, fun k hk1 hk2 => ?_⟩
  · have h4 := h1.2
    rw [← hk, Nat.add_sub_cancel, cnt_getD cnt k.isLt] at h4
    exact h4
  · have h4 := h3 (k.val + 1) (by omega) hk2
    simp only [Nat.add_sub_cancel, cnt_getD cnt k.isLt, Bool.not_eq_true', Bool.and_eq_false_iff,
      decide_eq_false_iff_not, not_le, ne_eq, not_not] at h4
    rcases h4 with h4 | h4
    · omega
    · exact h4

theorem firstLength_none {cnt : Vector Byte 16} {lo : Nat} (h : firstLength cnt lo = none) :
    ∀ k : Fin 16, lo ≤ k.val + 1 → cnt[k] = 0#8 := by
  unfold firstLength at h
  intro k hk
  rw [List.find?_range'_eq_none] at h
  have h4 := h (k.val + 1) (by omega) (by omega)
  simp only [Nat.add_sub_cancel, cnt_getD cnt k.isLt, Bool.not_eq_true', Bool.and_eq_false_iff,
    decide_eq_false_iff_not, not_le, ne_eq, not_not] at h4
  rcases h4 with h4 | h4
  · omega
  · exact h4

/-- With a code still to insert and none below `lo`, there is a next length. -/
theorem nextLength_runs {lo : Nat} {h : Huff} (hr : h.remain.toNat = countSum h.cnt)
    (hlo : ∀ k : Fin 16, k.val + 1 < lo → h.cnt[k] = 0#8) :
    (h.remain = 0#12 ∧ nextLength lo h = .ok (finishBuild h)) ∨
      (h.remain ≠ 0#12 ∧ ∃ l, firstLength h.cnt lo = some l ∧
        nextLength lo h = .ok { h with bphase := .syms, curl := BitVec.ofNat 5 l }) := by
  unfold nextLength
  by_cases h0 : h.remain = 0#12
  · exact .inl ⟨h0, by simp [h0]⟩
  · right
    refine ⟨h0, ?_⟩
    cases hf : firstLength h.cnt lo with
    | some l => exact ⟨l, rfl, by simp [h0]⟩
    | none =>
      exfalso
      apply h0
      have : countSum h.cnt = 0 := (countSum_zero_iff _).2 fun k => by
        by_cases hk : lo ≤ k.val + 1
        · exact firstLength_none hf k hk
        · exact hlo k (by omega)
      exact BitVec.eq_of_toNat_eq (by rw [hr, this]; rfl)

/-! ### The commands keep the unit's invariant -/

theorem tableOk_nil {w maxlen : Nat} : TableOk maxlen ([] : Table w) :=
  { wf := by simp [Table.wf], lengths := by simp }

theorem tableOk_insert {w maxlen : Nat} {t : Table w} {l c : Nat} {v : BitVec w} (h : TableOk maxlen t)
    (h1 : 1 ≤ l) (h2 : l ≤ maxlen) : TableOk maxlen (Table.insert t (l, c) v) :=
  { wf := table_insert_wf _ _ h.wf
    lengths := fun e he => by
      rcases table_insert_mem he with rfl | he
      · exact ⟨h1, h2⟩
      · exact h.lengths e he }

theorem htSel_meets {t : Fin 8} {h : Huff} (hi : HuffInv h) :
    (htSelBody t h).Meets (fun _ g => HuffInv g) (fun _ g => g = h) := by
  unfold htSelBody
  split_ifs with hc
  · obtain ⟨h1, h2⟩ := hc
    have hb := hi.build
    simp only [BuildOk, h1] at hb
    exact
      { build := by simp only [BuildOk, h1]; exact hb
        lastBits := hi.lastBits
        tables := hi.tables
        candidate := hi.candidate
        midSymbol := fun h0 => absurd h2 h0 }
  · rfl

theorem htBegin_meets {h : Huff} (hi : HuffInv h) :
    (htBeginBody h).Meets (fun _ g => HuffInv g) (fun _ g => g = h) := by
  refine
    { build := ?_, lastBits := by simp, tables := fun t => ?_, candidate := by simp
      midSymbol := fun h0 => absurd rfl h0 }
  · refine ⟨by simp, rfl, ?_, rfl, rfl, by simp, by simp, fun k _ => by simp⟩
    simp only [countSum_replicate]; rfl
  · simp only [Fin.getElem_fin, Vector.getElem_set]
    split_ifs with he
    · exact ⟨tableOk_nil, by simp⟩
    · exact hi.tables t

/-- The end of a build keeps the invariant. -/
theorem finishBuild_inv {h : Huff} (hl : h.lastBits.toNat ≤ 16)
    (ht : ∀ t : Fin 8, TableOk 16 h.tab[t] ∧ h.tab[t].length ≤ Config.htCap) (hn : h.hdn = 0#5)
    (hcand : h.hdcand.toNat < 2 ^ h.hdn.toNat) : HuffInv (finishBuild h) :=
  { build := rfl
    lastBits := hl
    tables := ht
    candidate := ⟨by simp [finishBuild, hn], hcand⟩
    midSymbol := fun h0 => absurd hn h0 }

/-- No symbol is under way during a build. -/
theorem hdn_of_phase {h : Huff} (hi : HuffInv h) (hp : h.bphase ≠ .idle) : h.hdn = 0#5 := by
  by_contra h0
  exact hp (hi.midSymbol h0).1

theorem htCnt_meets {n : Byte} {h : Huff} (hi : HuffInv h) :
    (htCntBody n h).Meets (fun _ g => HuffInv g) (fun _ g => g = h) := by
  unfold htCntBody
  by_cases hp : h.bphase = .counts
  · have hb := hi.build
    simp only [BuildOk, hp] at hb
    obtain ⟨h1, h2, h3, h4, h5, h6, h7, h8⟩ := hb
    have hn := hdn_of_phase hi (by simp [hp])
    have hz : (h.cnt[h.cidx.toNat]'h1).toNat = 0 := by
      simpa using congrArg BitVec.toNat (h8 ⟨h.cidx.toNat, h1⟩ le_rfl)
    have hsum := countSum_set h.cnt h1 n
    have hle := countSum_le (h.cnt.set h.cidx.toNat n)
    have hrem : (BitVec.ofNat 12 (h.remain.toNat + n.toNat)).toNat = countSum (h.cnt.set h.cidx.toNat n) := by
      simp only [BitVec.toNat_ofNat, Config.htCap] at *
      omega
    simp only [hp, if_true, Nat.add_sub_cancel, h1, dif_pos]
    by_cases hk : h.cidx.toNat + 1 = 16
    · simp only [hk, if_true]
      rcases nextLength_runs (lo := 1)
          (h := { h with cidx := BitVec.ofNat 5 16, cnt := h.cnt.set h.cidx.toNat n,
                         remain := BitVec.ofNat 12 (h.remain.toNat + n.toNat) })
          hrem (fun k hk => by omega) with ⟨-, e⟩ | ⟨h0, l, hl, e⟩
      · rw [hp] at e
        simp only [e, meets_ok]
        exact finishBuild_inv hi.lastBits hi.tables hn hi.candidate.2
      · rw [hp] at e
        obtain ⟨-, hl1, hl2, hl3, hl4⟩ := firstLength_some hl
        have hcurl : (BitVec.ofNat 5 l).toNat = l := by
          simp only [BitVec.toNat_ofNat]; omega
        simp only [e, meets_ok]
        exact
          { build := by
              refine ⟨rfl, by rw [hcurl]; exact hl1, by rw [hcurl]; exact hl2, h0, hrem, h6, ?_, ?_, ?_, ?_⟩
              · simp only [h7, List.length_nil, zero_add, hrem]; exact hle
              · simp [h5]
              · intro k hk'; rw [hcurl] at hk'; exact hl4 k (by omega) hk'
              · intro k hk'; rw [hcurl] at hk'; exact hl3 k hk'
            lastBits := hi.lastBits
            tables := hi.tables
            candidate := hi.candidate
            midSymbol := fun h0 => absurd hn h0 }
    · simp only [hk, if_false, meets_ok]
      have hcidx : (BitVec.ofNat 5 (h.cidx.toNat + 1)).toNat = h.cidx.toNat + 1 := by
        simp only [BitVec.toNat_ofNat]; omega
      exact
        { build := by
            simp only [BuildOk]
            refine ⟨by rw [hcidx]; omega, h2, hrem, h4, h5, h6, h7, fun k hk' => ?_⟩
            rw [hcidx] at hk'
            rw [Fin.getElem_fin, Vector.getElem_set_ne _ _ (by omega)]
            exact h8 k (by omega)
          lastBits := hi.lastBits
          tables := hi.tables
          candidate := hi.candidate
          midSymbol := fun h0 => absurd hn h0 }
  · simp only [hp, if_false]; rfl

theorem htSym_meets {p : Byte} {h : Huff} (hi : HuffInv h) :
    (htSymBody p h).Meets (fun _ g => HuffInv g) (fun _ g => g = h) := by
  unfold htSymBody
  by_cases hp : h.bphase = .syms
  · have hb := hi.build
    simp only [BuildOk, hp] at hb
    obtain ⟨h1, h2, h3, h4, h5, h6, h7, h8, h9, h10⟩ := hb
    have hn := hdn_of_phase hi (by simp [hp])
    have hl : 1 ≤ h.curl.toNat ∧ h.curl.toNat - 1 < 16 := by omega
    simp only [hp, if_true, dif_pos hl]
    generalize hcode : BitVec.ofInt 32 (assign h.lastCode.toInt h.lastBits.toNat h.curl.toNat).1 = code
    have hcur : (h.cnt[h.curl.toNat - 1]'hl.2) ≠ 0#8 := h10 ⟨h.curl.toNat - 1, hl.2⟩ (by simp only; omega)
    have hcur1 : 1 ≤ (h.cnt[h.curl.toNat - 1]'hl.2).toNat := by
      rcases Nat.eq_zero_or_pos (h.cnt[h.curl.toNat - 1]'hl.2).toNat with h0 | h0
      · exact absurd (BitVec.eq_of_toNat_eq (by simpa using h0)) hcur
      · exact h0
    have hrem1 : 1 ≤ h.remain.toNat := by
      rcases Nat.eq_zero_or_pos h.remain.toNat with h0 | h0
      · exact absurd (BitVec.eq_of_toNat_eq (by simpa using h0)) h4
      · exact h0
    have hdec8 : (h.cnt[h.curl.toNat - 1]'hl.2 - 1#8).toNat = (h.cnt[h.curl.toNat - 1]'hl.2).toNat - 1 := by
      have := (h.cnt[h.curl.toNat - 1]'hl.2).isLt
      rw [BitVec.toNat_sub]; simp only [BitVec.toNat_ofNat]; omega
    have hdec12 : (h.remain - 1#12).toNat = h.remain.toNat - 1 := by
      have := h.remain.isLt
      rw [BitVec.toNat_sub]; simp only [BitVec.toNat_ofNat]; omega
    have hsum := countSum_set h.cnt hl.2 (h.cnt[h.curl.toNat - 1]'hl.2 - 1#8)
    have hrem : (h.remain - 1#12).toNat =
        countSum (h.cnt.set (h.curl.toNat - 1) (h.cnt[h.curl.toNat - 1]'hl.2 - 1#8) hl.2) := by omega
    have hlow : ∀ k : Fin 16, k.val + 1 < h.curl.toNat →
        (h.cnt.set (h.curl.toNat - 1) (h.cnt[h.curl.toNat - 1]'hl.2 - 1#8) hl.2)[k] = 0#8 := fun k hk => by
      rw [Fin.getElem_fin, Vector.getElem_set_ne _ _ (by omega)]
      exact h9 k hk
    have hbits : (BitVec.ofNat 5 h.curl.toNat).toNat = h.curl.toNat := by
      simp only [BitVec.toNat_ofNat]; omega
    have hins := table_insert_length_le h.tab[h.tsel] (h.curl.toNat, code.toNat) p
    have htab : ∀ t : Fin 8,
        TableOk 16 (h.tab.set h.tsel (Table.insert h.tab[h.tsel] (h.curl.toNat, code.toNat) p))[t] ∧
          (h.tab.set h.tsel (Table.insert h.tab[h.tsel] (h.curl.toNat, code.toNat) p))[t].length ≤
            Config.htCap := fun t => by
      simp only [Fin.getElem_fin, Vector.getElem_set]
      split_ifs with he
      · exact ⟨tableOk_insert (hi.tables h.tsel).1 h2 h3, by simp only [Fin.getElem_fin] at hins h7; omega⟩
      · exact hi.tables t
    rcases nextLength_runs (lo := h.curl.toNat)
        (h := { h with
          lastCode := code
          lastBits := BitVec.ofNat 5 (assign h.lastCode.toInt h.lastBits.toNat h.curl.toNat).2
          tab := h.tab.set h.tsel (Table.insert h.tab[h.tsel] (h.curl.toNat, code.toNat) p)
          cnt := h.cnt.set (h.curl.toNat - 1) (h.cnt[h.curl.toNat - 1]'hl.2 - 1#8) hl.2
          remain := h.remain - 1#12 })
        hrem hlow with ⟨-, e⟩ | ⟨h0, l, hfl, e⟩
    · rw [hp] at e
      simp only [e, meets_ok]
      exact finishBuild_inv (by simp only [assign_bits, hbits]; exact h3) htab hn hi.candidate.2
    · rw [hp] at e
      obtain ⟨hl0, hl1, hl2, hl3, hl4⟩ := firstLength_some hfl
      have hcurl : (BitVec.ofNat 5 l).toNat = l := by
        simp only [BitVec.toNat_ofNat]; omega
      simp only [e, meets_ok]
      exact
        { build := by
            refine ⟨h1, by rw [hcurl]; exact hl1, by rw [hcurl]; exact hl2, h0, hrem, h6, ?_, ?_, ?_, ?_⟩
            · simp only [Fin.getElem_fin, Vector.getElem_set_self, hdec12]
              simp only [Fin.getElem_fin] at hins h7
              omega
            · simp only [assign_bits, hbits, hcurl]; exact hl0
            · intro k hk
              rw [hcurl] at hk
              by_cases hk' : h.curl.toNat ≤ k.val + 1
              · exact hl4 k hk' hk
              · exact hlow k (by omega)
            · intro k hk; rw [hcurl] at hk; exact hl3 k hk
          lastBits := by simp only [assign_bits, hbits]; exact h3
          tables := htab
          candidate := hi.candidate
          midSymbol := fun h0 => absurd hn h0 }
  · simp only [hp, if_false]; rfl

theorem hdReset_meets {h : Huff} (hi : HuffInv h) :
    (hdResetBody h).Meets (fun _ g => HuffInv g) (fun _ g => g = h) :=
  show HuffInv { h with hdn := 0#5, hdcand := 0#16 } from
    { build := hi.build
      lastBits := hi.lastBits
      tables := hi.tables
      candidate := by simp
      midSymbol := fun h0 => absurd rfl h0 }

theorem hdBit_meets {b : Bool} {h : Huff} (hi : HuffInv h) :
    (hdBitBody b h).Meets (fun _ g => HuffInv g) (fun _ g => g = h) := by
  unfold hdBitBody
  by_cases hc : h.bphase = .idle ∧ h.ready[h.tsel] = true
  · rw [if_pos hc]
    rcases lookupStep_cases h.tab[h.tsel] Config.maxLen h.hdn.toNat h.hdcand.toNat b.toNat with
      ⟨s, -, e⟩ | ⟨-, hle, e⟩ | ⟨-, -, e⟩
    · rw [e]
      exact hdReset_meets hi
    · rw [e]
      have hcand := candidate_lt hi.candidate.2 (Bool.toNat_le b)
      simp only [Config.maxLen] at hle
      have hn : (BitVec.ofNat 5 (h.hdn.toNat + 1)).toNat = h.hdn.toNat + 1 := by
        simp only [BitVec.toNat_ofNat]; omega
      have h16 : (2 : Nat) ^ (h.hdn.toNat + 1) ≤ 2 ^ 16 := Nat.pow_le_pow_right (by norm_num) hle
      exact
        { build := hi.build
          lastBits := hi.lastBits
          tables := hi.tables
          candidate := ⟨by rw [hn]; exact hle, by
            simp only [hn, BitVec.toNat_ofNat]
            rw [Nat.mod_eq_of_lt (lt_of_lt_of_le hcand h16)]
            exact hcand⟩
          midSymbol := fun _ => hc }
    · rw [e]; rfl
  · simp only [hc, if_false]; rfl

end Sys2Proof.Machine
end

