-- ==== Sys2Proof/Laws/Inflate.lean ====
section
/-! SUPPORT. What the pieces of the INFL unit do: fields of bits, one symbol bit, an emitted byte, a code
table; that each transition keeps a good state good and consumes bits, so that the run loop ends. -/

namespace Sys2Proof.Machine

open Sys2Proof.Safety

/-! ### Bits -/

theorem bitsValue_lt (q : List Bool) : bitsValue q < 2 ^ q.length := by
  induction q with
  | nil => simp [bitsValue]
  | cons b q ih =>
    have := Bool.toNat_le b
    simp only [bitsValue, List.length_cons, pow_succ]
    omega

/-- A field of `k` bits is below `2^k`. -/
theorem takeValue_lt (k : Nat) (i : Infl) : takeValue k i < 2 ^ k :=
  lt_of_lt_of_le (bitsValue_lt _) (Nat.pow_le_pow_right (by norm_num) (by simp))

@[simp] theorem byteBits_length (d : Byte) : (byteBits d).length = 8 := rfl

/-! ### The window and the checksum -/

/-- The window grows by one byte until it holds 32768. -/
theorem pushWindow_length (win : List Byte) (b : Byte) :
    (pushWindow win b).length = if Config.winSz < win.length + 1 then win.length else win.length + 1 := by
  unfold pushWindow
  simp only [List.length_append, List.length_cons, List.length_nil, zero_add]
  split_ifs <;> simp

theorem adlerS1_lt (s1 : BitVec 16) (b : Byte) : (adlerS1 s1 b).toNat < 65521 := by
  simp only [adlerS1, BitVec.toNat_ofNat]; omega

theorem adlerS2_lt (s2 s1 : BitVec 16) : (adlerS2 s2 s1).toNat < 65521 := by
  simp only [adlerS2, BitVec.toNat_ofNat]; omega

theorem recordByte_ranges {i : Infl} (b : Byte) (h : InflRanges i) : InflRanges (recordByte b i) :=
  { bitq := h.bitq, lens := h.lens, candidate := h.candidate
    adler := ⟨adlerS1_lt _ _, adlerS2_lt _ _⟩
    win := by
      have := h.win
      simp only [recordByte, pushWindow_length]
      split_ifs <;> omega
    ct := h.ct, lt := h.lt, dt := h.dt }

/-! ### Lists of emitted bytes -/

@[simp] theorem pushAll_nil (cap : Word) (u : Defilt) : pushAll cap [] u = .ok () u := rfl

@[simp] theorem pushAll_cons (cap : Word) (b : Byte) (bs : List Byte) (u : Defilt) :
    pushAll cap (b :: bs) u = (dfPush cap b u).bind fun _ v => pushAll cap bs v := rfl

/-- Handing over a list in two parts (R200). -/
theorem pushAll_append (cap : Word) (xs ys : List Byte) (u : Defilt) :
    pushAll cap (xs ++ ys) u = (pushAll cap xs u).bind fun _ v => pushAll cap ys v := by
  induction xs generalizing u with
  | nil => rfl
  | cons b bs ih =>
    simp only [List.cons_append, pushAll_cons]
    cases dfPush cap b u <;> simp [ih]

/-- Nothing emitted: every `IN_BYTE` that ends before its first byte. -/
theorem recorded_refl {i : Infl} (h : InflRanges i) : Recorded [] i i :=
  { win := by have := h.win; simp only [Config.winSz] at this; simp [this]
    total := by simp [Nat.mod_eq_of_lt i.total.isLt]
    adler := rfl }

/-- One emitted byte, R148. -/
theorem recorded_record (b : Byte) {i : Infl} (h : InflRanges i) : Recorded [b] i (recordByte b i) :=
  { win := by
      have := h.win
      simp only [recordByte, pushWindow, Config.winSz, List.length_append, List.length_singleton] at this ⊢
      split
      · rw [show i.win.length + 1 - 32768 = 1 by omega, List.drop_one]
      · rw [show i.win.length + 1 - 32768 = 0 by omega, List.drop_zero]
    total := by simp [recordByte]
    adler := by
      simp only [recordByte, adlerS1, adlerS2, BitVec.toNat_ofNat, List.foldl_cons, List.foldl_nil]
      ext <;> simp only <;> omega }

/-- Keeping the last `m` bytes of a list before more are appended loses none of the last `m` of the whole. -/
theorem drop_last_append (m : Nat) (zs ys : List Byte) :
    (zs.drop (zs.length - m) ++ ys).drop ((zs.drop (zs.length - m) ++ ys).length - m) =
      (zs ++ ys).drop ((zs ++ ys).length - m) := by
  rw [← List.drop_append_of_le_length (Nat.sub_le _ _), List.drop_drop]
  congr 1
  simp only [List.length_drop, List.length_append]
  omega

/-- Bytes emitted after bytes emitted. -/
theorem recorded_trans {xs ys : List Byte} {i j k : Infl} (h : Recorded xs i j) (h' : Recorded ys j k) :
    Recorded (xs ++ ys) i k :=
  { win := by
      rw [h'.win, h.win, ← List.append_assoc]
      exact drop_last_append 32768 (i.win ++ xs) ys
    total := by rw [h'.total, h.total]; simp [Nat.add_assoc]
    adler := by rw [h'.adler, h.adler, List.foldl_append] }
/-- `j` is `i` but for what emitting bytes changes (R148). -/
def SameParser (i j : Infl) : Prop :=
  j = { i with win := j.win, s1 := j.s1, s2 := j.s2, total := j.total }

theorem sameParser_refl (i : Infl) : SameParser i i := rfl

theorem sameParser_record (b : Byte) (i : Infl) : SameParser i (recordByte b i) := rfl

theorem sameParser_trans {i j k : Infl} (h1 : SameParser i j) (h2 : SameParser j k) : SameParser i k := by
  unfold SameParser at *
  rw [h2, h1]

/-- Emitting a byte: the engine records it, and the defilter stays good (R148). -/
theorem emit_meets {cap : Word} {p : Pipe} (b : Byte) (hd : DefiltInv cap p.df) :
    (emit cap b p).Meets (fun _ q => q.infl = recordByte b p.infl ∧ DefiltInv cap q.df)
      (fun _ q => q.infl = recordByte b p.infl ∧ DefiltInv cap q.df) := by
  unfold emit
  dsimp only
  split_ifs
  · exact meets_within (dfPush_meets b hd) (fun _ _ h => ⟨rfl, h⟩) fun _ _ h => ⟨rfl, h⟩
  · exact ⟨rfl, hd⟩

theorem windowBack_some {win : List Byte} {k : Nat} (h1 : 1 ≤ k) (h2 : k ≤ win.length) :
    ∃ b, windowBack win k = some b := by
  unfold windowBack
  rw [if_pos ⟨h1, h2⟩]
  exact ⟨_, List.getElem?_eq_getElem (by omega)⟩

/-- A match copy that starts inside the window reads only bytes the window holds (R53, R165). -/
theorem copyMatch_meets {cap : Word} {dist n : Nat} {p : Pipe} (hi : InflRanges p.infl)
    (hd : DefiltInv cap p.df) (h1 : 1 ≤ dist) (h2 : dist ≤ p.infl.win.length) :
    (copyMatch cap dist n p).Meets
      (fun _ q => SameParser p.infl q.infl ∧ InflRanges q.infl ∧ DefiltInv cap q.df)
      (fun _ q => SameParser p.infl q.infl ∧ InflRanges q.infl ∧ DefiltInv cap q.df) := by
  induction n generalizing p with
  | zero => exact ⟨sameParser_refl _, hi, hd⟩
  | succ n ih =>
    obtain ⟨b, hb⟩ := windowBack_some h1 h2
    simp only [copyMatch, hb]
    refine meets_bind (P := fun _ q => q.infl = recordByte b p.infl ∧ DefiltInv cap q.df)
      (meets_imp (emit_meets b hd) (fun _ _ h => h)
        fun _ q h => ⟨h.1 ▸ sameParser_record b _, h.1 ▸ recordByte_ranges b hi, h.2⟩) ?_
    intro _ q hq
    have hwin : dist ≤ q.infl.win.length := by
      have hw := hi.win
      have e : q.infl.win = pushWindow p.infl.win b := by rw [hq.1]; rfl
      have hl := pushWindow_length p.infl.win b
      rw [← e] at hl
      rw [hl]
      split_ifs <;> omega
    have hsame : SameParser p.infl q.infl := hq.1 ▸ sameParser_record b _
    exact meets_imp (ih (hq.1 ▸ recordByte_ranges b hi) hq.2 hwin)
      (fun _ _ h => ⟨sameParser_trans hsame h.1, h.2⟩) fun _ _ h => ⟨sameParser_trans hsame h.1, h.2⟩

/-! ### Code tables -/

theorem codeOrder_mem {lens : List Nat} {maxlen : Nat} {x : Nat × Nat} (h : x ∈ codeOrder lens maxlen) :
    1 ≤ x.1 ∧ x.1 ≤ maxlen ∧ x.2 < lens.length ∧ lens[x.2]? = some x.1 := by
  simp only [codeOrder, List.mem_flatMap, List.mem_range'_1, symbolsOfLength, List.mem_map, List.mem_filter,
    decide_eq_true_eq] at h
  obtain ⟨l, hl, s, ⟨⟨a, k⟩, ⟨hk, hal⟩, rfl⟩, rfl⟩ := h
  obtain ⟨h1, h2, h3⟩ := List.mem_zipIdx hk
  simp only at *
  subst hal
  refine ⟨hl.1, by omega, by simpa using h2, ?_⟩
  rw [List.getElem?_eq_getElem (by simpa using h2), h3]
  simp

/-- Building over a list of codes keeps the table in form and adds only their symbols. -/
theorem buildAll_ok {w maxlen m : Nat} (xs : List (Nat × Nat)) (b : Builder w)
    (hx : ∀ x ∈ xs, 1 ≤ x.1 ∧ x.1 ≤ maxlen ∧ x.2 < m) (hb : TableOk maxlen b.tab)
    (hs : ∀ e ∈ b.tab, e.2.toNat < m) :
    TableOk maxlen (xs.foldl buildOne b).tab ∧ ∀ e ∈ (xs.foldl buildOne b).tab, e.2.toNat < m := by
  induction xs generalizing b with
  | nil => exact ⟨hb, hs⟩
  | cons x xs ih =>
    obtain ⟨h1, h2, h3⟩ := hx x List.mem_cons_self
    refine ih (buildOne b x) (fun y hy => hx y (List.mem_cons_of_mem _ hy)) (tableOk_insert hb h1 h2)
      fun e he => ?_
    rcases table_insert_mem he with rfl | he
    · simp only [BitVec.toNat_ofNat]
      exact lt_of_le_of_lt (Nat.mod_le _ _) h3
    · exact hs e he

/-- A table built from lengths is in form, with key lengths `1..maxlen` and the list's symbols (R149). -/
theorem tableFromLengths_ok {w : Nat} {lens : List Nat} {maxlen : Nat} {t : Table w}
    (h : tableFromLengths w lens maxlen = some t) :
    TableOk maxlen t ∧ ∀ e ∈ t, e.2.toNat < lens.length := by
  unfold tableFromLengths at h
  split_ifs at h with h1
  obtain rfl := Option.some.inj h
  exact buildAll_ok _ _ (fun x hx => ⟨(codeOrder_mem hx).1, (codeOrder_mem hx).2.1, (codeOrder_mem hx).2.2.1⟩)
    tableOk_nil (by simp)

/-- The lengths of the fixed block are not over-subscribed (R150). -/
theorem fixed_not_overSubscribed :
    ¬ 2 ^ 15 < codeSpace fixedLitLen 15 ∧ ¬ 2 ^ 15 < codeSpace fixedDist 15 := by
  simp only [codeSpace, fixedLitLen, fixedDist, List.count_append, List.count_replicate, List.range',
    List.map_cons, List.map_nil, List.sum_cons, List.sum_nil]
  decide

/-! ### One bit of a symbol -/

/-- What one bit of a symbol does (R147): the bit is consumed; the candidate is cleared on a hit, extended
when pending, kept on a miss. -/
theorem hstep_meets {w : Nat} {tab : Table w} {maxlen : Nat} {p : Pipe} (hm : maxlen ≤ 15)
    (hi : InflRanges p.infl) :
    (hstep tab maxlen p).Meets
      (fun r q => q = p.setInfl { dropBits 1 p.infl with hn := q.infl.hn, hcand := q.infl.hcand } ∧
        InflRanges q.infl ∧ (r ≠ none → q.infl.hn = 0#5) ∧ ∀ s, r = some s → ∃ k, (k, s) ∈ tab)
      (fun _ q => q = p.setInfl (dropBits 1 p.infl) ∧ InflRanges q.infl) := by
  have hq : (p.infl.bitq.drop 1).length ≤ 39 := by
    have := hi.bitq
    rw [List.length_drop]; omega
  have hbit : takeValue 1 p.infl ≤ 1 := by
    have := takeValue_lt 1 p.infl
    omega
  unfold hstep
  dsimp only
  rcases lookupStep_cases tab maxlen p.infl.hn.toNat p.infl.hcand.toNat (takeValue 1 p.infl) with
    ⟨s, hf, e⟩ | ⟨-, hle, e⟩ | ⟨-, -, e⟩
  · rw [e]
    exact ⟨rfl, { hi with bitq := hq, candidate := by simp }, fun _ => rfl,
      fun s' hs' => ⟨_, Option.some.inj hs' ▸ table_find_mem hf⟩⟩
  · rw [e]
    have hn : (BitVec.ofNat 5 (p.infl.hn.toNat + 1)).toNat = p.infl.hn.toNat + 1 := by
      simp only [BitVec.toNat_ofNat]; omega
    have hlt := candidate_lt hi.candidate.2 hbit
    have h15 : (2 : Nat) ^ (p.infl.hn.toNat + 1) ≤ 2 ^ 15 := Nat.pow_le_pow_right (by norm_num) (by omega)
    refine ⟨rfl, { hi with bitq := hq, candidate := ?_ }, fun h => absurd rfl h, fun s hs => by cases hs⟩
    simp only [setInfl_infl, hn, BitVec.toNat_ofNat]
    rw [Nat.mod_eq_of_lt (lt_of_lt_of_le hlt h15)]
    exact ⟨by omega, hlt⟩
  · rw [e]
    exact ⟨rfl, { hi with bitq := hq }⟩

/-! ### The transitions -/

/-- The engine and the defilter are good, in the middle of a run. -/
def Good (cap : Word) (p : Pipe) : Prop := InflRanges p.infl ∧ EngineOk p.infl ∧ DefiltInv cap p.df

/-- What is left when a transition raises a fault: every register in range, the defilter good. -/
def Kept (cap : Word) (p : Pipe) : Prop := InflRanges p.infl ∧ DefiltInv cap p.df

/-- What a run has left to do: every transition lowers it, also one that consumes no bit. -/
def workLeft (i : Infl) : Nat :=
  2 * i.bitq.length +
    match i.instate with
    | .lenExtra => 1
    | .distExtra => 1
    | _ => 0

/-- The two bounds on `workLeft`: at least the bits, and at most one more. -/
theorem workLeft_bounds (i : Infl) : 2 * i.bitq.length ≤ workLeft i ∧ workLeft i ≤ 2 * i.bitq.length + 1 := by
  unfold workLeft
  split <;> omega

theorem workLeft_of_bits {i j : Infl} (h : j.bitq.length < i.bitq.length) : workLeft j < workLeft i := by
  have h1 := workLeft_bounds i
  have h2 := workLeft_bounds j
  omega

/-- What each transition does to a good state. -/
def Advances (cap : Word) (p : Pipe) (r : Res Pipe Unit) : Prop :=
  r.Meets (fun _ q => Good cap q ∧ workLeft q.infl < workLeft p.infl) (fun _ q => Kept cap q)

variable {cap : Word} {p : Pipe}

theorem stepZhCmf_advances (h : Good cap p) (hs : p.infl.instate = .zhCmf) (hk : 8 ≤ p.infl.bitq.length) :
    Advances cap p (stepZhCmf p) := by
  obtain ⟨hi, he, hd⟩ := h
  have h39 := hi.bitq
  have hq : (p.infl.bitq.drop 8).length ≤ 39 := by rw [List.length_drop]; omega
  unfold Advances stepZhCmf
  dsimp only
  split_ifs
  · exact ⟨{ hi with bitq := hq }, hd⟩
  · refine ⟨⟨{ hi with bitq := hq }, { state := trivial, midSymbol := fun _ => he.midSymbol (by rw [hs]; rfl) },
      hd⟩, workLeft_of_bits ?_⟩
    simp only [goto_infl, setInfl_infl, dropBits_bitq, List.length_drop]; omega

theorem stepZhFlg_advances (h : Good cap p) (hs : p.infl.instate = .zhFlg) (hk : 8 ≤ p.infl.bitq.length) :
    Advances cap p (stepZhFlg p) := by
  obtain ⟨hi, he, hd⟩ := h
  have h39 := hi.bitq
  have hq : (p.infl.bitq.drop 8).length ≤ 39 := by rw [List.length_drop]; omega
  unfold Advances stepZhFlg
  dsimp only
  split_ifs
  · exact ⟨{ hi with bitq := hq }, hd⟩
  · exact ⟨{ hi with bitq := hq }, hd⟩
  · refine ⟨⟨{ hi with bitq := hq }, { state := trivial, midSymbol := fun _ => he.midSymbol (by rw [hs]; rfl) },
      hd⟩, workLeft_of_bits ?_⟩
    simp only [goto_infl, setInfl_infl, dropBits_bitq, List.length_drop]; omega

/-- Dropping up to the byte boundary leaves whole bytes (R145). -/
theorem alignBits_whole (i : Infl) : (alignBits i).bitq.length % 8 = 0 ∧ (alignBits i).bitq.length ≤ i.bitq.length := by
  simp only [alignBits, dropBits_bitq, List.length_drop]
  omega

theorem alignBits_ranges {i : Infl} (h : InflRanges i) : InflRanges (alignBits i) :=
  { h with bitq := le_trans (alignBits_whole i).2 h.bitq }

/-- The parser state is in no range. -/
theorem inflRanges_instate {i : Infl} (st : InState) (h : InflRanges i) : InflRanges { i with instate := st } :=
  { h with }

/-- The end of a block leads to a good state (R156). -/
theorem blockEnd_good {q : Pipe} (hi : InflRanges q.infl) (hn : q.infl.hn = 0#5) (hd : DefiltInv cap q.df) :
    Good cap (blockEnd q) ∧ (blockEnd q).infl.bitq.length ≤ q.infl.bitq.length := by
  unfold blockEnd
  split_ifs
  · exact ⟨⟨inflRanges_instate _ (alignBits_ranges hi), { state := (alignBits_whole q.infl).1, midSymbol := fun _ => hn }, hd⟩,
      (alignBits_whole q.infl).2⟩
  · exact ⟨⟨inflRanges_instate _ hi, { state := trivial, midSymbol := fun _ => hn }, hd⟩, le_refl _⟩

theorem stepBlkHdr_advances (h : Good cap p) (hs : p.infl.instate = .blkHdr) (hk : 3 ≤ p.infl.bitq.length) :
    Advances cap p (stepBlkHdr p) := by
  obtain ⟨hi, he, hd⟩ := h
  have hn := he.midSymbol (by rw [hs]; rfl)
  have h39 := hi.bitq
  have hq : (p.infl.bitq.drop 3).length ≤ 39 := by rw [List.length_drop]; omega
  have hlen : (p.infl.bitq.drop 3).length < p.infl.bitq.length := by rw [List.length_drop]; omega
  obtain ⟨f1, f2⟩ := fixed_not_overSubscribed
  unfold Advances stepBlkHdr
  dsimp only
  split_ifs
  · have hr : InflRanges { dropBits 3 p.infl with final := decide (takeValue 1 p.infl = 1) } :=
      { hi with bitq := hq }
    refine ⟨⟨inflRanges_instate _ (alignBits_ranges hr),
      { state := (alignBits_whole _).1, midSymbol := fun _ => hn }, hd⟩, workLeft_of_bits ?_⟩
    exact lt_of_le_of_lt (alignBits_whole { dropBits 3 p.infl with final := _ }).2 hlen
  · split
    · rename_i lt dt hlt hdt
      exact ⟨⟨{ hi with bitq := hq, lt := (tableFromLengths_ok hlt).1, dt := (tableFromLengths_ok hdt).1 },
        { state := trivial, midSymbol := fun _ => hn }, hd⟩, workLeft_of_bits hlen⟩
    · exact ⟨{ hi with bitq := hq }, hd⟩
  · exact ⟨⟨{ hi with bitq := hq }, { state := trivial, midSymbol := fun _ => hn }, hd⟩, workLeft_of_bits hlen⟩
  · exact ⟨{ hi with bitq := hq }, hd⟩

theorem stepStLen_advances (h : Good cap p) (hs : p.infl.instate = .stLen) (hk : 32 ≤ p.infl.bitq.length) :
    Advances cap p (stepStLen p) := by
  obtain ⟨hi, he, hd⟩ := h
  have hn := he.midSymbol (by rw [hs]; rfl)
  have h39 := hi.bitq
  have hq : (p.infl.bitq.drop 32).length ≤ 39 := by rw [List.length_drop]; omega
  have hlen : (p.infl.bitq.drop 32).length < p.infl.bitq.length := by rw [List.length_drop]; omega
  unfold Advances stepStLen
  dsimp only
  split_ifs with h1 h2
  · exact ⟨{ hi with bitq := hq }, hd⟩
  · have hb := blockEnd_good (cap := cap)
      (q := (p.setInfl (dropBits 32 p.infl)).setInfl
        { (p.setInfl (dropBits 32 p.infl)).infl with rem := BitVec.ofNat 16 (takeValue 16 p.infl) })
      { hi with bitq := hq } hn hd
    exact ⟨hb.1, workLeft_of_bits (lt_of_le_of_lt hb.2 hlen)⟩
  · exact ⟨⟨{ hi with bitq := hq }, { state := h2, midSymbol := fun _ => hn }, hd⟩, workLeft_of_bits hlen⟩

theorem stepStCopy_advances (h : Good cap p) (hs : p.infl.instate = .stCopy) (hk : 8 ≤ p.infl.bitq.length) :
    Advances cap p (stepStCopy cap p) := by
  obtain ⟨hi, he, hd⟩ := h
  have hn := he.midSymbol (by rw [hs]; rfl)
  have h39 := hi.bitq
  have hq : (p.infl.bitq.drop 8).length ≤ 39 := by rw [List.length_drop]; omega
  have hlen : (p.infl.bitq.drop 8).length < p.infl.bitq.length := by rw [List.length_drop]; omega
  have hr : InflRanges (dropBits 8 p.infl) := { hi with bitq := hq }
  unfold Advances stepStCopy
  refine meets_bind (meets_imp (emit_meets (p := p.setInfl (dropBits 8 p.infl)) _ hd) (fun _ _ h => h)
    fun _ q h => ⟨by rw [h.1]; exact recordByte_ranges _ hr, h.2⟩) ?_
  rintro _ q ⟨hq1, hq2⟩
  have hr' : InflRanges q.infl := by rw [hq1]; exact recordByte_ranges _ hr
  have hn' : q.infl.hn = 0#5 := by rw [hq1]; exact hn
  have hs' : q.infl.instate = .stCopy := by rw [hq1]; exact hs
  have hl' : q.infl.bitq.length < p.infl.bitq.length := by rw [hq1]; exact hlen
  dsimp only
  split_ifs with h0
  · have hb := blockEnd_good (cap := cap) (q := q.setInfl { q.infl with rem := q.infl.rem - 1#16 })
      { hr' with } hn' hq2
    exact ⟨hb.1, workLeft_of_bits (lt_of_le_of_lt hb.2 hl')⟩
  · refine ⟨⟨{ hr' with }, { state := ?_, midSymbol := fun _ => hn' }, hq2⟩, workLeft_of_bits hl'⟩
    simp only [StateOk, setInfl_infl, hs']
    exact h0

theorem stepDynHdr_advances (h : Good cap p) (hs : p.infl.instate = .dynHdr) (hk : 14 ≤ p.infl.bitq.length) :
    Advances cap p (stepDynHdr p) := by
  obtain ⟨hi, he, hd⟩ := h
  have hn := he.midSymbol (by rw [hs]; rfl)
  have h39 := hi.bitq
  have hq : (p.infl.bitq.drop 14).length ≤ 39 := by rw [List.length_drop]; omega
  have hlen : (p.infl.bitq.drop 14).length < p.infl.bitq.length := by rw [List.length_drop]; omega
  have h1 := takeValue_lt 5 p.infl
  have h2 := takeValue_lt 5 (dropBits 5 p.infl)
  have h3 := takeValue_lt 4 (dropBits 10 p.infl)
  unfold Advances stepDynHdr
  dsimp only
  split_ifs with hc
  · exact ⟨{ hi with bitq := hq }, hd⟩
  · refine ⟨⟨{ hi with bitq := hq }, { state := ?_, midSymbol := fun _ => hn }, hd⟩, workLeft_of_bits hlen⟩
    simp only [not_or, not_lt] at hc
    simp only [StateOk, goto_infl, setInfl_infl, DynCounts, BitVec.toNat_ofNat]
    omega

/-- The code lengths of a dynamic block are complete, or one more is wanted: either way the state after
`lens_done()` is good (R161). -/
theorem lensDone_meets {q : Pipe} (hi : InflRanges q.infl) (hn : q.infl.hn = 0#5) (hc : DynCounts q.infl)
    (hs : q.infl.instate = .dynLens) (hl : q.infl.lens.length ≤ lensWanted q.infl) (hd : DefiltInv cap q.df) :
    (lensDone q).Meets (fun _ r => Good cap r ∧ r.infl.bitq = q.infl.bitq) (fun _ r => Kept cap r) := by
  unfold lensDone
  split_ifs with h1
  · obtain ⟨c1, c2, c3, c4⟩ := hc
    have h256 : 256 < (q.infl.lens.take q.infl.hlit.toNat).length := by
      simp only [lensWanted] at h1
      rw [List.length_take]; omega
    dsimp only
    rw [List.getElem?_eq_getElem h256]
    dsimp only
    split_ifs
    · exact ⟨hi, hd⟩
    · split
      · exact ⟨hi, hd⟩
      · rename_i lt hlt
        split
        · exact ⟨{ hi with lt := (tableFromLengths_ok hlt).1 }, hd⟩
        · rename_i dt hdt
          exact ⟨⟨{ hi with lt := (tableFromLengths_ok hlt).1, dt := (tableFromLengths_ok hdt).1 },
            { state := trivial, midSymbol := fun _ => hn }, hd⟩, rfl⟩
  · refine ⟨⟨hi, { state := ?_, midSymbol := fun _ => hn }, hd⟩, rfl⟩
    simp only [StateOk, hs]
    exact ⟨hc, by omega⟩

theorem stepDynClen_advances (h : Good cap p) (hs : p.infl.instate = .dynClen) (hk : 3 ≤ p.infl.bitq.length) :
    Advances cap p (stepDynClen p) := by
  obtain ⟨hi, he, hd⟩ := h
  have hn := he.midSymbol (by rw [hs]; rfl)
  have hst := he.state
  simp only [StateOk, hs] at hst
  obtain ⟨hc, h1, h2⟩ := hst
  have h39 := hi.bitq
  have hq : (p.infl.bitq.drop 3).length ≤ 39 := by rw [List.length_drop]; omega
  have hlen : (p.infl.bitq.drop 3).length < p.infl.bitq.length := by rw [List.length_drop]; omega
  have hpos : p.infl.idx.toNat < clOrder.length := by
    have : clOrder.length = 19 := rfl
    omega
  have hidx : (p.infl.idx + 1#5).toNat = p.infl.idx.toNat + 1 := by
    have := p.infl.hclen.isLt
    rw [BitVec.toNat_add]; simp only [BitVec.toNat_ofNat]; omega
  unfold Advances stepDynClen
  rw [List.getElem?_eq_getElem hpos]
  dsimp only
  split_ifs with he'
  · split
    · exact ⟨{ hi with bitq := hq }, hd⟩
    · rename_i ct hct
      have hok := tableFromLengths_ok hct
      have hlen19 : ∀ v : Vector (BitVec 3) 19, (v.toList.map BitVec.toNat).length = 19 := fun v => by simp
      refine ⟨⟨{ hi with bitq := hq, lens := by simp, ct := ⟨hok.1, fun e he => ?_⟩ },
        { state := ?_, midSymbol := fun _ => hn }, hd⟩, workLeft_of_bits hlen⟩
      · have := hok.2 e he
        rw [hlen19] at this
        exact this
      · refine ⟨hc, ?_⟩
        have := hc.1
        simp only [lensWanted, goto_infl, setInfl_infl, dropBits_hlit, dropBits_hdist, List.length_nil]
        omega
  · refine ⟨⟨{ hi with bitq := hq }, { state := ?_, midSymbol := fun _ => hn }, hd⟩, workLeft_of_bits hlen⟩
    simp only [StateOk, setInfl_infl, dropBits_instate, hs]
    refine ⟨hc, ?_, h2⟩
    simp only [setInfl_infl, dropBits_hclen] at he'
    have hne : (p.infl.idx + 1#5).toNat ≠ p.infl.hclen.toNat := fun e => he' (BitVec.eq_of_toNat_eq e)
    simp only [dropBits_hclen]
    omega

theorem stepDynLens_advances (h : Good cap p) (hs : p.infl.instate = .dynLens) (hk : 1 ≤ p.infl.bitq.length) :
    Advances cap p (stepDynLens p) := by
  obtain ⟨hi, he, hd⟩ := h
  have hst := he.state
  simp only [StateOk, hs] at hst
  obtain ⟨hc, hl⟩ := hst
  have hlen : (p.infl.bitq.drop 1).length < p.infl.bitq.length := by rw [List.length_drop]; omega
  unfold Advances stepDynLens
  refine meets_bind (meets_imp (hstep_meets (tab := p.infl.ct) (maxlen := 7) (by norm_num) hi) (fun _ _ h => h)
    fun _ q h => ⟨h.2, h.1 ▸ hd⟩) ?_
  rintro r q ⟨hq, hr, hn, hsym⟩
  generalize hqn : q.infl.hn = n at *
  generalize hqc : q.infl.hcand = c at *
  subst hq
  have hw : lensWanted p.infl ≤ 316 := by
    obtain ⟨-, c2, -, c4⟩ := hc
    simp only [lensWanted]; omega
  cases r with
  | none =>
    refine ⟨⟨hr, { state := ?_, midSymbol := fun h0 => ?_ }, hd⟩, workLeft_of_bits hlen⟩
    · simp only [StateOk, setInfl_infl, dropBits_instate, hs]
      exact ⟨hc, hl⟩
    · simp [hs, readsSymbol] at h0
  | some s =>
    have hn0 := hn (by simp)
    dsimp only
    split_ifs with h1 h2
    · refine meets_imp (lensDone_meets (cap := cap)
        (q := (p.setInfl { dropBits 1 p.infl with hn := n, hcand := c }).setInfl
          { (p.setInfl { dropBits 1 p.infl with hn := n, hcand := c }).infl with
            lens := (p.setInfl { dropBits 1 p.infl with hn := n, hcand := c }).infl.lens ++
              [BitVec.ofNat 4 s.toNat] })
        { hr with lens := ?_ } hn0 hc hs ?_ hd) (fun _ q h => ⟨h.1, ?_⟩) fun _ _ h => h
      · simp only [setInfl_infl, dropBits_lens, List.length_append, List.length_singleton]; omega
      · simp only [setInfl_infl, dropBits_lens, List.length_append, List.length_singleton]
        exact hl
      · exact workLeft_of_bits (by rw [h.2]; exact hlen)
    · exact ⟨hr, hd⟩
    · refine ⟨⟨{ hr with }, { state := ?_, midSymbol := fun _ => hn0 }, hd⟩, workLeft_of_bits hlen⟩
      obtain ⟨k, hk⟩ := hsym s rfl
      have h19 := hi.ct.2 _ hk
      simp only at h19
      refine ⟨hc, hl, ?_, fun e => ?_⟩
      · simp only [goto_infl, setInfl_infl, ← BitVec.toNat_inj, BitVec.toNat_ofNat]
        omega
      · simp only [goto_infl, setInfl_infl] at e
        exact fun hnil => h2 ⟨by rw [e]; rfl, hnil⟩

theorem repeatRun_some {i : Infl} (h : i.repsym = 16#5 ∨ i.repsym = 17#5 ∨ i.repsym = 18#5)
    (h16 : i.repsym = 16#5 → i.lens ≠ []) : ∃ v n, repeatRun i = some (v, n) := by
  unfold repeatRun
  rcases h with h | h | h
  · obtain ⟨v, hv⟩ := Option.isSome_iff_exists.1 (List.getLast?_isSome.2 (h16 h))
    exact ⟨v, 3 + takeValue 2 i, by simp [h, hv]⟩
  · exact ⟨_, _, by rw [h]; rfl⟩
  · exact ⟨_, _, by rw [h]; rfl⟩

theorem stepDynRep_advances (h : Good cap p) (hs : p.infl.instate = .dynRep)
    (hk : repeatBits p.infl.repsym ≤ p.infl.bitq.length) : Advances cap p (stepDynRep p) := by
  obtain ⟨hi, he, hd⟩ := h
  have hn := he.midSymbol (by rw [hs]; rfl)
  have hst := he.state
  simp only [StateOk, hs] at hst
  obtain ⟨hc, hl, hsym, h16⟩ := hst
  have h39 := hi.bitq
  have hb1 : 1 ≤ repeatBits p.infl.repsym := by unfold repeatBits; split_ifs <;> norm_num
  have hq : (p.infl.bitq.drop (repeatBits p.infl.repsym)).length ≤ 39 := by rw [List.length_drop]; omega
  have hlen : (p.infl.bitq.drop (repeatBits p.infl.repsym)).length < p.infl.bitq.length := by
    rw [List.length_drop]; omega
  have hw : lensWanted p.infl ≤ 316 := by
    obtain ⟨-, c2, -, c4⟩ := hc
    simp only [lensWanted]; omega
  obtain ⟨v, n, hrun⟩ := repeatRun_some hsym h16
  unfold Advances stepDynRep
  rw [hrun]
  dsimp only
  split_ifs with h1
  · exact ⟨{ hi with bitq := hq }, hd⟩
  · simp only [setInfl_infl, dropBits_lens, not_lt] at h1
    refine meets_imp (lensDone_meets (cap := cap)
      (q := ((p.setInfl (dropBits (repeatBits p.infl.repsym) p.infl)).setInfl
        { (p.setInfl (dropBits (repeatBits p.infl.repsym) p.infl)).infl with
          lens := (p.setInfl (dropBits (repeatBits p.infl.repsym) p.infl)).infl.lens ++
            List.replicate n v }).goto .dynLens)
      { hi with bitq := hq, lens := ?_ } hn hc rfl ?_ hd) (fun _ q h => ⟨h.1, ?_⟩) fun _ _ h => h
    · simp only [goto_infl, setInfl_infl, dropBits_lens, List.length_append, List.length_replicate]
      exact le_trans h1 hw
    · simp only [goto_infl, setInfl_infl, dropBits_lens, List.length_append, List.length_replicate]
      exact h1
    · exact workLeft_of_bits (by rw [h.2]; exact hlen)

theorem stepSym_advances (h : Good cap p) (hs : p.infl.instate = .sym) (hk : 1 ≤ p.infl.bitq.length) :
    Advances cap p (stepSym cap p) := by
  obtain ⟨hi, he, hd⟩ := h
  have hlen : (p.infl.bitq.drop 1).length + 1 = p.infl.bitq.length := by rw [List.length_drop]; omega
  have hwl : workLeft p.infl = 2 * p.infl.bitq.length := by simp only [workLeft, hs, Nat.add_zero]
  unfold Advances stepSym
  refine meets_bind (meets_imp (hstep_meets (tab := p.infl.lt) (maxlen := 15) (by norm_num) hi)
    (fun _ _ h => h) fun _ q h => ⟨h.2, h.1 ▸ hd⟩) ?_
  rintro r q ⟨hq, hr, hn, -⟩
  generalize hqn : q.infl.hn = n at *
  generalize hqc : q.infl.hcand = c at *
  subst hq
  cases r with
  | none =>
    refine ⟨⟨hr, { state := ?_, midSymbol := fun h0 => ?_ }, hd⟩, workLeft_of_bits (by
      simp only [setInfl_infl, dropBits_bitq]; omega)⟩
    · simp only [StateOk, setInfl_infl, dropBits_instate, hs]
    · simp [hs, readsSymbol] at h0
  | some s =>
    have hn0 := hn (by simp)
    dsimp only
    by_cases h1 : s.toNat < 256
    · rw [if_pos h1]
      refine meets_imp (emit_meets _ hd) (fun _ r h => ?_) fun _ r h => ?_
      · have hr' : InflRanges r.infl := by rw [h.1]; exact recordByte_ranges _ hr
        have hst : r.infl.instate = .sym := by rw [h.1]; exact hs
        have hn' : r.infl.hn = 0#5 := by rw [h.1]; exact hn0
        have hb : r.infl.bitq = p.infl.bitq.drop 1 := by rw [h.1]; rfl
        refine ⟨⟨hr', { state := ?_, midSymbol := fun _ => hn' }, h.2⟩, workLeft_of_bits ?_⟩
        · simp only [StateOk, hst]
        · rw [hb]; omega
      · exact ⟨by rw [h.1]; exact recordByte_ranges _ hr, h.2⟩
    · rw [if_neg h1]
      by_cases h2 : s.toNat = 256
      · rw [if_pos h2]
        have hb := blockEnd_good (cap := cap)
          (q := p.setInfl { dropBits 1 p.infl with hn := n, hcand := c }) hr hn0 hd
        refine ⟨hb.1, workLeft_of_bits (lt_of_le_of_lt hb.2 ?_)⟩
        simp only [setInfl_infl, dropBits_bitq]; omega
      · rw [if_neg h2]
        generalize s.toNat - 257 = k
        by_cases h3 : k < 29
        · rw [dif_pos h3]
          refine ⟨⟨{ hr with }, ?_, hd⟩, ?_⟩
          · exact { state := (by simp only [StateOk, goto_infl]), midSymbol := fun _ => hn0 }
          · rw [hwl]
            simp only [workLeft, goto_infl, setInfl_infl, dropBits_bitq]
            omega
        · rw [dif_neg h3]
          exact ⟨hr, hd⟩

theorem lBase_bounds : ∀ k : Fin 29, 3 ≤ lBase[k] ∧ lBase[k] + 2 ^ lExt[k] ≤ 259 := by decide

theorem dBase_bounds : ∀ k : Fin 30, 1 ≤ dBase[k] ∧ dBase[k] + 2 ^ dExt[k] ≤ 32769 := by decide

/-- Every length of R168 is in `3..258`. -/
theorem length_range (k : Fin 29) {v : Nat} (h : v < 2 ^ lExt[k]) : 3 ≤ lBase[k] + v ∧ lBase[k] + v ≤ 258 := by
  have := lBase_bounds k
  omega

/-- Every distance of R169 is in `1..32768`. -/
theorem distance_range (k : Fin 30) {v : Nat} (h : v < 2 ^ dExt[k]) :
    1 ≤ dBase[k] + v ∧ dBase[k] + v ≤ 32768 := by
  have := dBase_bounds k
  omega

theorem stepLenExtra_advances (h : Good cap p) (hs : p.infl.instate = .lenExtra)
    (hk : lExt[p.infl.lsym] ≤ p.infl.bitq.length) : Advances cap p (stepLenExtra p) := by
  obtain ⟨hi, he, hd⟩ := h
  have hn := he.midSymbol (by rw [hs]; rfl)
  have h39 := hi.bitq
  have hwl : workLeft p.infl = 2 * p.infl.bitq.length + 1 := by simp only [workLeft, hs]
  have hr := length_range p.infl.lsym (takeValue_lt lExt[p.infl.lsym] p.infl)
  have hlv : (BitVec.ofNat 9 (lBase[p.infl.lsym] + takeValue lExt[p.infl.lsym] p.infl)).toNat =
      lBase[p.infl.lsym] + takeValue lExt[p.infl.lsym] p.infl := by
    simp only [BitVec.toNat_ofNat]; omega
  unfold Advances stepLenExtra
  refine ⟨⟨{ hi with bitq := ?_ }, { state := ?_, midSymbol := fun _ => hn }, hd⟩, ?_⟩
  · simp only [goto_infl, setInfl_infl, dropBits_bitq, List.length_drop]; omega
  · simp only [StateOk, goto_infl, setInfl_infl, hlv]
    exact hr
  · rw [hwl]
    simp only [workLeft, goto_infl, setInfl_infl, dropBits_bitq, List.length_drop]
    omega

theorem stepDistSym_advances (h : Good cap p) (hs : p.infl.instate = .distSym) (hk : 1 ≤ p.infl.bitq.length) :
    Advances cap p (stepDistSym p) := by
  obtain ⟨hi, he, hd⟩ := h
  have hst := he.state
  simp only [StateOk, hs] at hst
  have hlen : (p.infl.bitq.drop 1).length + 1 = p.infl.bitq.length := by rw [List.length_drop]; omega
  have hwl : workLeft p.infl = 2 * p.infl.bitq.length := by simp only [workLeft, hs, Nat.add_zero]
  unfold Advances stepDistSym
  refine meets_bind (meets_imp (hstep_meets (tab := p.infl.dt) (maxlen := 15) (by norm_num) hi)
    (fun _ _ h => h) fun _ q h => ⟨h.2, h.1 ▸ hd⟩) ?_
  rintro r q ⟨hq, hr, hn, -⟩
  generalize hqn : q.infl.hn = n at *
  generalize hqc : q.infl.hcand = c at *
  subst hq
  cases r with
  | none =>
    refine ⟨⟨hr, { state := ?_, midSymbol := fun h0 => ?_ }, hd⟩, workLeft_of_bits (by
      simp only [setInfl_infl, dropBits_bitq]; omega)⟩
    · simp only [StateOk, setInfl_infl, dropBits_instate, hs]
      exact hst
    · simp [hs, readsSymbol] at h0
  | some s =>
    have hn0 := hn (by simp)
    dsimp only
    split_ifs with h1
    · refine ⟨⟨{ hr with }, { state := hst, midSymbol := fun _ => hn0 }, hd⟩, ?_⟩
      rw [hwl]
      simp only [workLeft, goto_infl, setInfl_infl, dropBits_bitq]
      omega
    · exact ⟨hr, hd⟩

theorem stepDistExtra_advances (h : Good cap p) (hs : p.infl.instate = .distExtra)
    (hk : dExt[p.infl.dsym] ≤ p.infl.bitq.length) : Advances cap p (stepDistExtra cap p) := by
  obtain ⟨hi, he, hd⟩ := h
  have hn := he.midSymbol (by rw [hs]; rfl)
  have h39 := hi.bitq
  have hwl : workLeft p.infl = 2 * p.infl.bitq.length + 1 := by simp only [workLeft, hs]
  have hr := distance_range p.infl.dsym (takeValue_lt dExt[p.infl.dsym] p.infl)
  have hq : InflRanges (dropBits dExt[p.infl.dsym] p.infl) :=
    { hi with bitq := by rw [dropBits_bitq, List.length_drop]; omega }
  unfold Advances stepDistExtra
  dsimp only
  split_ifs with h1
  · exact ⟨hq, hd⟩
  · refine meets_bind (meets_imp (copyMatch_meets (p := p.setInfl (dropBits dExt[p.infl.dsym] p.infl))
      (n := p.infl.length.toNat) hq hd hr.1 (by simpa using h1)) (fun _ _ h => h) fun _ _ h => h.2) ?_
    rintro _ q ⟨hsame, hq1, hq2⟩
    have hn' : q.infl.hn = 0#5 := by rw [hsame]; exact hn
    have hb : q.infl.bitq = p.infl.bitq.drop dExt[p.infl.dsym] := by rw [hsame]; rfl
    refine ⟨⟨{ hq1 with }, { state := trivial, midSymbol := fun _ => hn' }, hq2⟩, ?_⟩
    rw [hwl]
    simp only [workLeft, goto_infl, hb, List.length_drop]
    omega

theorem stepTrailer_advances (h : Good cap p) (hs : p.infl.instate = .trailer) (hk : 32 ≤ p.infl.bitq.length) :
    Advances cap p (stepTrailer p) := by
  obtain ⟨hi, he, hd⟩ := h
  have hn := he.midSymbol (by rw [hs]; rfl)
  have hst := he.state
  simp only [StateOk, hs] at hst
  have h39 := hi.bitq
  have hq : (p.infl.bitq.drop 32).length ≤ 39 := by rw [List.length_drop]; omega
  have hlen : (p.infl.bitq.drop 32).length < p.infl.bitq.length := by rw [List.length_drop]; omega
  unfold Advances stepTrailer
  dsimp only
  split_ifs
  · exact ⟨{ hi with bitq := hq }, hd⟩
  · refine ⟨⟨{ hi with bitq := hq }, { state := ?_, midSymbol := fun _ => hn }, hd⟩, workLeft_of_bits hlen⟩
    simp only [StateOk, goto_infl, setInfl_infl, dropBits_bitq, ← List.length_eq_zero_iff, List.length_drop]
    omega

/-- The engine has the bits its state needs. -/
theorem canProceed_iff {i : Infl} : canProceed i = true ↔ ∃ k, bitsNeeded i = some k ∧ k ≤ i.bitq.length := by
  unfold canProceed
  cases bitsNeeded i <;> simp

/-- Every transition keeps a good state good and lowers the work left; a fault keeps the ranges. -/
theorem transition_advances (h : Good cap p) (hp : canProceed p.infl = true) :
    Advances cap p (transition cap p) := by
  obtain ⟨k, hk, hle⟩ := canProceed_iff.1 hp
  unfold transition
  unfold bitsNeeded at hk
  cases hs : p.infl.instate <;> simp only [hs, Option.some.injEq, reduceCtorEq] at hk <;> subst hk
  · exact stepZhCmf_advances h hs hle
  · exact stepZhFlg_advances h hs hle
  · exact stepBlkHdr_advances h hs hle
  · exact stepStLen_advances h hs hle
  · exact stepStCopy_advances h hs hle
  · exact stepDynHdr_advances h hs hle
  · exact stepDynClen_advances h hs hle
  · exact stepDynLens_advances h hs hle
  · exact stepDynRep_advances h hs hle
  · exact stepSym_advances h hs hle
  · exact stepLenExtra_advances h hs hle
  · exact stepDistSym_advances h hs hle
  · exact stepDistExtra_advances h hs hle
  · exact stepTrailer_advances h hs hle

/-- The run loop ends within its bound, in a good state that waits, or in a fault. -/
theorem run_meets {n : Nat} (h : Good cap p) (hn : workLeft p.infl < n) :
    (run cap n p).Meets (fun _ q => Good cap q ∧ Waiting q.infl) (fun _ q => Kept cap q) := by
  induction n generalizing p with
  | zero => omega
  | succ n ih =>
    unfold run
    split_ifs with hp
    · refine meets_bind (transition_advances h hp) fun _ q hq => ih hq.1 (by omega)
    · exact ⟨h, by simpa [Waiting] using hp⟩

/-! ### Commands -/

/-- A waiting engine has less than a whole need of bits, so one more byte fits `BITQ` (R146). -/
theorem waiting_bits {i : Infl} (hw : Waiting i) (hd : i.instate ≠ .done) : i.bitq.length ≤ 31 := by
  have hl : ∀ k : Fin 29, lExt[k] ≤ 5 := by decide
  have hx : ∀ k : Fin 30, dExt[k] ≤ 13 := by decide
  have hr : repeatBits i.repsym ≤ 7 := by unfold repeatBits; split_ifs <;> norm_num
  have h1 := hl i.lsym
  have h2 := hx i.dsym
  unfold Waiting canProceed bitsNeeded at hw
  cases hs : i.instate <;> simp only [hs, decide_eq_false_iff_not, not_le] at hw hd <;> first | omega | simp at hd

/-- A fed byte leaves a good engine good. -/
theorem feedByte_good {d : Byte} (hi : InflRanges p.infl) (he : EngineOk p.infl) (hw : Waiting p.infl)
    (hd : DefiltInv cap p.df) (hnd : p.infl.instate ≠ .done) : Good cap (feedByte d p) := by
  have h31 := waiting_bits hw hnd
  refine ⟨{ hi with bitq := ?_ }, { state := ?_, midSymbol := he.midSymbol }, hd⟩
  · simp only [feedByte, setInfl_infl, List.length_append, byteBits_length]; omega
  · have hst := he.state
    revert hst
    unfold StateOk
    simp only [feedByte, setInfl_infl, List.length_append, byteBits_length]
    cases hs : p.infl.instate <;> simp only [DynCounts, lensWanted] <;> first | exact id | skip
    · omega
    · omega
    · exact absurd hs hnd

theorem inByte_meets {d : Byte} (hi : InflRanges p.infl) (he : EngineOk p.infl) (hw : Waiting p.infl)
    (hd : DefiltInv cap p.df) :
    (inByteBody cap d p).Meets (fun _ q => Good cap q ∧ Waiting q.infl) (fun _ q => Kept cap q) := by
  unfold inByteBody
  split_ifs with h
  · exact ⟨hi, hd⟩
  · refine meets_bind (run_meets (feedByte_good hi he hw hd h) ?_) fun _ q hq => hq
    have := workLeft_bounds (feedByte d p).infl
    simp only [runTurns]; omega

theorem inReset_meets {i : Infl} :
    (inResetBody i).Meets (fun _ j => InflRanges j ∧ EngineOk j ∧ Waiting j) (fun _ j => j = i) :=
  ⟨{ bitq := by simp, lens := by simp, candidate := by simp, adler := ⟨by simp, by simp⟩, win := by simp
     ct := ⟨tableOk_nil, by simp⟩, lt := tableOk_nil, dt := tableOk_nil },
    { state := trivial, midSymbol := fun _ => rfl }, rfl⟩

theorem inRoute_meets {r : Bool} {i : Infl} (hi : InflRanges i) (he : EngineOk i) (hw : Waiting i) :
    (inRouteBody r i).Meets (fun _ j => InflRanges j ∧ EngineOk j ∧ Waiting j) (fun _ j => j = i) :=
  ⟨{ hi with }, { state := he.state, midSymbol := he.midSymbol }, hw⟩

end Sys2Proof.Machine
end

