-- ==== Sys2Proof/Laws/PerInstr.lean ====
section
/-! SUPPORT. One lemma per command, about its encoding: the opcode byte and the operand byte of its word are
those of the table of R72. -/

namespace Sys2Proof.Laws.EncodesFields

/-- The opcode of a command, from the first column of R72. -/
def opcode : Instr → Nat
  | .nop => 0x00
  | .blkReset => 0x01
  | .stRead _ => 0x02
  | .paShift _ => 0x03
  | .pixRd => 0x04
  | .htSel _ => 0x10
  | .htBegin => 0x11
  | .htCnt _ => 0x12
  | .htSym _ => 0x13
  | .hdReset => 0x14
  | .hdBit _ => 0x15
  | .crcReset => 0x20
  | .crcByte _ => 0x21
  | .crcExpb _ => 0x22
  | .crcRead => 0x23
  | .crcCheck => 0x24
  | .inReset => 0x30
  | .inRoute _ => 0x31
  | .inByte _ => 0x32
  | .dfHdrb _ => 0x40
  | .dfConfig => 0x41
  | .dfByte _ => 0x42

/-- The immediate byte of a command: its operand, or 0 in Format Z (R71). -/
def operand : Instr → Byte
  | .nop => 0#8
  | .blkReset => 0#8
  | .stRead sel => sel
  | .paShift d => d
  | .pixRd => 0#8
  | .htSel t => t
  | .htBegin => 0#8
  | .htCnt n => n
  | .htSym s => s
  | .hdReset => 0#8
  | .hdBit b => b
  | .crcReset => 0#8
  | .crcByte d => d
  | .crcExpb d => d
  | .crcRead => 0#8
  | .crcCheck => 0#8
  | .inReset => 0#8
  | .inRoute r => r
  | .inByte d => d
  | .dfHdrb d => d
  | .dfConfig => 0#8
  | .dfByte d => d

/-- The word of the command is `op × 256 + imm8` (R72). -/
def Statement (i : Instr) : Prop := (encode i).toNat = opcode i * 256 + (operand i).toNat

/-- The number a word of two fields is. -/
theorem word_toNat (op imm : Byte) : (word op imm).toNat = op.toNat * 256 + imm.toNat := by
  have h : imm.toNat < 2 ^ 8 := imm.isLt
  rw [word, BitVec.toNat_append, Nat.shiftLeft_eq, Nat.mul_comm, ← Nat.two_pow_add_eq_or_of_lt h, Nat.mul_comm]

theorem nop : Statement .nop := word_toNat _ _
theorem blkReset : Statement .blkReset := word_toNat _ _
theorem stRead (sel : Byte) : Statement (.stRead sel) := word_toNat _ _
theorem paShift (d : Byte) : Statement (.paShift d) := word_toNat _ _
theorem pixRd : Statement .pixRd := word_toNat _ _
theorem htSel (t : Byte) : Statement (.htSel t) := word_toNat _ _
theorem htBegin : Statement .htBegin := word_toNat _ _
theorem htCnt (n : Byte) : Statement (.htCnt n) := word_toNat _ _
theorem htSym (s : Byte) : Statement (.htSym s) := word_toNat _ _
theorem hdReset : Statement .hdReset := word_toNat _ _
theorem hdBit (b : Byte) : Statement (.hdBit b) := word_toNat _ _
theorem crcReset : Statement .crcReset := word_toNat _ _
theorem crcByte (d : Byte) : Statement (.crcByte d) := word_toNat _ _
theorem crcExpb (d : Byte) : Statement (.crcExpb d) := word_toNat _ _
theorem crcRead : Statement .crcRead := word_toNat _ _
theorem crcCheck : Statement .crcCheck := word_toNat _ _
theorem inReset : Statement .inReset := word_toNat _ _
theorem inRoute (r : Byte) : Statement (.inRoute r) := word_toNat _ _
theorem inByte (d : Byte) : Statement (.inByte d) := word_toNat _ _
theorem dfHdrb (d : Byte) : Statement (.dfHdrb d) := word_toNat _ _
theorem dfConfig : Statement .dfConfig := word_toNat _ _
theorem dfByte (d : Byte) : Statement (.dfByte d) := word_toNat _ _

end Sys2Proof.Laws.EncodesFields
end

