-- ==== Sys2Proof/Laws/Step.lean ====
section
/-! SUPPORT. From the units to the block, and what any command does to the model's own fields. -/

namespace Sys2Proof.Machine

open Sys2Proof.Safety

/-! ### A unit inside the block -/

section
variable {α : Type} {b : Block}

theorem onHuff_meets {f : Huff → Res Huff α} {P : α → Huff → Prop} {Q : Trap → Huff → Prop}
    (h : (f b.huff).Meets P Q) :
    (onHuff f b).Meets (fun a c => P a c.huff ∧ c = { b with huff := c.huff })
      (fun t c => Q t c.huff ∧ c = { b with huff := c.huff }) :=
  meets_within h (fun _ _ h => ⟨h, rfl⟩) fun _ _ h => ⟨h, rfl⟩

theorem onCrc_meets {f : Crc → Res Crc α} {P : α → Crc → Prop} {Q : Trap → Crc → Prop}
    (h : (f b.crc).Meets P Q) :
    (onCrc f b).Meets (fun a c => P a c.crc ∧ c = { b with crc := c.crc })
      (fun t c => Q t c.crc ∧ c = { b with crc := c.crc }) :=
  meets_within h (fun _ _ h => ⟨h, rfl⟩) fun _ _ h => ⟨h, rfl⟩

theorem onInfl_meets {f : Infl → Res Infl α} {P : α → Infl → Prop} {Q : Trap → Infl → Prop}
    (h : (f b.infl).Meets P Q) :
    (onInfl f b).Meets (fun a c => P a c.infl ∧ c = { b with infl := c.infl })
      (fun t c => Q t c.infl ∧ c = { b with infl := c.infl }) :=
  meets_within h (fun _ _ h => ⟨h, rfl⟩) fun _ _ h => ⟨h, rfl⟩

theorem onDefilt_meets {f : Defilt → Res Defilt α} {P : α → Defilt → Prop} {Q : Trap → Defilt → Prop}
    (h : (f b.df).Meets P Q) :
    (onDefilt f b).Meets (fun a c => P a c.df ∧ c = { b with df := c.df })
      (fun t c => Q t c.df ∧ c = { b with df := c.df }) :=
  meets_within h (fun _ _ h => ⟨h, rfl⟩) fun _ _ h => ⟨h, rfl⟩

theorem onPipe_meets {f : Pipe → Res Pipe α} {P : α → Pipe → Prop} {Q : Trap → Pipe → Prop}
    (h : (f { infl := b.infl, out := b.out, df := b.df }).Meets P Q) :
    (onPipe f b).Meets
      (fun a c => P a { infl := c.infl, out := c.out, df := c.df } ∧
        c = { b with infl := c.infl, out := c.out, df := c.df })
      (fun t c => Q t { infl := c.infl, out := c.out, df := c.df } ∧
        c = { b with infl := c.infl, out := c.out, df := c.df }) :=
  meets_within h (fun _ _ h => ⟨h, rfl⟩) fun _ _ h => ⟨h, rfl⟩
end

/-! ### `PIX_RD` -/

/-- In a good block `PIX_RD` reads a byte that holds a value, or faults and changes nothing (R244). -/
theorem pixRd_meets {cap : Word} {b : Block} (hd : DefiltInv cap b.df) :
    (pixRdBody cap b).Meets
      (fun r c => pixReadable b = true ∧ c = { b with pixa := b.pixa + 1#32 } ∧
        ∃ v, Memory.read b.df.pix b.pixa.toNat = some v ∧ r = rspOk (v.setWidth 32))
      (fun t c => pixReadable b = false ∧ t = .pixelRange ∧ c = b) := by
  unfold pixRdBody
  by_cases hr : pixReadable b = true
  · rw [if_pos hr]
    simp only [pixReadable, Bool.and_eq_true, decide_eq_true_eq] at hr
    obtain ⟨hv, hlt⟩ := hr
    have hc := hd.valid hv
    have hcap : b.pixa.toNat < cap.toNat := by
      have h1 := Nat.mul_le_mul_right b.df.stride.toNat hc.row
      have h2 := hc.fits
      rw [Nat.mul_comm b.df.stride.toNat] at h2
      omega
    obtain ⟨v, he⟩ := Option.isSome_iff_exists.1 (hd.pix.2.2 _ hlt)
    have hp : pixRead cap b.df.pix b.pixa.toNat = .ok v := by
      unfold pixRead
      rw [if_neg (not_le.2 hcap), he]
    rw [hp]
    exact ⟨by simp only [pixReadable, hv, hlt, decide_true, Bool.and_self], rfl, v, he, rfl⟩
  · rw [if_neg hr]
    exact ⟨by simpa using hr, rfl, rfl⟩

/-! ### Any command -/

/-- What any command does to the machine outside the block: one response is appended, and nothing else
changes (R76). -/
def OneAnswer (s t : State) : Prop :=
  t.inputs = s.inputs ∧ t.pixcap = s.pixcap ∧ ∃ r, t.responses = s.responses ++ [r]

theorem command_oneAnswer {s t : State} {body : Block → Res Block Rsp} (h : command s body = .next t) :
    OneAnswer s t := by
  rcases command_next h with ⟨-, rfl⟩ | ⟨-, r, b, -, rfl⟩ | ⟨-, c, b, -, rfl⟩ <;>
    exact ⟨rfl, rfl, _, rfl⟩

theorem exec_oneAnswer {i : Instr} {s t : State} (h : exec i s = .next t) : OneAnswer s t := by
  cases i with
  | nop => obtain rfl := Host.Outcome.next.inj h; exact ⟨rfl, rfl, _, rfl⟩
  | blkReset => obtain rfl := Host.Outcome.next.inj h; exact ⟨rfl, rfl, _, rfl⟩
  | stRead sel =>
    simp only [exec, execStRead] at h
    split at h
    · obtain rfl := Host.Outcome.next.inj h; exact ⟨rfl, rfl, _, rfl⟩
    · exact command_oneAnswer h
  | paShift d => simp only [exec, execPaShift] at h; exact command_oneAnswer h
  | pixRd => exact command_oneAnswer h
  | htSel t => simp only [exec, execHtSel] at h; exact command_oneAnswer h
  | htBegin => exact command_oneAnswer h
  | htCnt n => exact command_oneAnswer h
  | htSym p => exact command_oneAnswer h
  | hdReset => exact command_oneAnswer h
  | hdBit b => simp only [exec, execHdBit] at h; exact command_oneAnswer h
  | crcReset => exact command_oneAnswer h
  | crcByte d => exact command_oneAnswer h
  | crcExpb d => exact command_oneAnswer h
  | crcRead => exact command_oneAnswer h
  | crcCheck => exact command_oneAnswer h
  | inReset => exact command_oneAnswer h
  | inRoute r => simp only [exec, execInRoute] at h; exact command_oneAnswer h
  | inByte d => exact command_oneAnswer h
  | dfHdrb d => exact command_oneAnswer h
  | dfConfig => exact command_oneAnswer h
  | dfByte d => exact command_oneAnswer h

end Sys2Proof.Machine
end

