-- ==== Sys2Proof/Tests/Slice0.lean ====
section
/-! SUPPORT. The model's own tests: ill-formed commands are refused; one written-out word per command decodes;
one step per command on small states, with expected results from the spec's rules and its worked examples
(95_test_vectors.md); and, for every statement with hypotheses, a witness that meets them at the boundaries of
its clauses. -/

namespace Sys2Proof.Tests

open Sys2Proof Sys2Proof.Machine Sys2Proof.Safety

/-! ### WellFormed refuses each kind of ill-formed command -/

theorem test_smoke_stRead : (Instr.stRead 0x07#8).wellFormed = false ∧ (Instr.stRead 0x1F#8).wellFormed = false := by
  decide
theorem test_smoke_htSel : (Instr.htSel 8#8).wellFormed = false := by decide
theorem test_smoke_hdBit : (Instr.hdBit 2#8).wellFormed = false := by decide
theorem test_smoke_inRoute : (Instr.inRoute 2#8).wellFormed = false := by decide

/-! ### Words written out from the spec's encodings (the "Word" columns and the encoding lines of each rule) -/

theorem test_decode_nop : decode 0x0000#16 = .ok .nop := by decide
theorem test_decode_blkReset : decode 0x0100#16 = .ok .blkReset := by decide
theorem test_decode_stRead : decode 0x0218#16 = .ok (.stRead 0x18#8) := by decide
theorem test_decode_paShift : decode 0x032C#16 = .ok (.paShift 0x2C#8) := by decide
theorem test_decode_pixRd : decode 0x0400#16 = .ok .pixRd := by decide
theorem test_decode_htSel : decode 0x1003#16 = .ok (.htSel 3#8) := by decide
theorem test_decode_htBegin : decode 0x1100#16 = .ok .htBegin := by decide
theorem test_decode_htCnt : decode 0x1202#16 = .ok (.htCnt 2#8) := by decide
theorem test_decode_htSym : decode 0x1341#16 = .ok (.htSym 0x41#8) := by decide
theorem test_decode_hdReset : decode 0x1400#16 = .ok .hdReset := by decide
theorem test_decode_hdBit : decode 0x1501#16 = .ok (.hdBit 1#8) := by decide
theorem test_decode_crcReset : decode 0x2000#16 = .ok .crcReset := by decide
theorem test_decode_crcByte : decode 0x2149#16 = .ok (.crcByte 0x49#8) := by decide
theorem test_decode_crcExpb : decode 0x22AE#16 = .ok (.crcExpb 0xAE#8) := by decide
theorem test_decode_crcRead : decode 0x2300#16 = .ok .crcRead := by decide
theorem test_decode_crcCheck : decode 0x2400#16 = .ok .crcCheck := by decide
theorem test_decode_inReset : decode 0x3000#16 = .ok .inReset := by decide
theorem test_decode_inRoute : decode 0x3101#16 = .ok (.inRoute 1#8) := by decide
theorem test_decode_inByte : decode 0x3278#16 = .ok (.inByte 0x78#8) := by decide
theorem test_decode_dfHdrb : decode 0x4000#16 = .ok (.dfHdrb 0#8) := by decide
theorem test_decode_dfConfig : decode 0x4100#16 = .ok .dfConfig := by decide
theorem test_decode_dfByte : decode 0x42FB#16 = .ok (.dfByte 251#8) := by decide

/-- R74: an opcode that is none, a Format Z word with an operand, an operand out of range. -/
theorem test_decode_illegal :
    decode 0x0500#16 = .error .unknownOpcode ∧ decode 0x0001#16 = .error .nonzeroImm ∧
      decode 0x0207#16 = .error .operandRange := by decide

/-! ### Small states -/

/-- A block after reset with four bytes of pixel memory. -/
def base : State := { blk := Block.reset, pixcap := 4#32, inputs := [], responses := [] }

/-- The same block with a fault: digest mismatch (R262). -/
def faultedBase : State := { base with blk := { Block.reset with fault := 3#8, fsub := 1#8 } }

/-- A state that differs from `base` in one unit. -/
def withHuff (h : Huff) : State := { base with blk := { Block.reset with huff := h } }
def withCrc (c : Crc) : State := { base with blk := { Block.reset with crc := c } }
def withInfl (i : Infl) : State := { base with blk := { Block.reset with infl := i } }
def withDf (d : Defilt) : State := { base with blk := { Block.reset with df := d } }

/-- `base` with one word presented. -/
def offered (s : State) (w : CmdWord) : State := { s with inputs := [.command w] }

/-- What a test looks at: some fields of the next state. -/
def after {α : Type} (o : Host.Outcome State Fault Refusal) (look : State → α) : Option α :=
  match o with
  | .next t => some (look t)
  | .fault _ => none
  | .refused _ => none

/-- Slot 0 ready with the codes `0` and `10` (R111), payloads 7 and 8. -/
def twoCodes : Huff :=
  { Huff.reset with
    tab := Huff.reset.tab.set 0 [((2, 2), 8#8), ((1, 0), 7#8)]
    ready := Huff.reset.ready.set 0 true }

/-- A build that waits for its sixteenth count, all earlier counts 0. -/
def lastCount : Huff := { Huff.reset with bphase := .counts, cidx := 15#5 }

/-- S1's build after the first payload: counts 2:1, 3:2 left. -/
def insertingS1 : Huff :=
  { Huff.reset with
    bphase := .syms
    cidx := 16#5
    cnt := (Huff.reset.cnt.set 1 1#8).set 2 2#8
    curl := 2#5
    remain := 3#12
    lastCode := 0#32
    lastBits := 2#5
    tab := Huff.reset.tab.set 0 [((2, 0), 0x41#8)] }

/-- The image of DEF-6 (2×2, depth 8, grey) with row 0 done and the second scanline all but in: filter type 4
(Paeth), bytes 15 and 20 above, filtered byte 251. -/
def midImage : Defilt :=
  { Defilt.reset with
    dfvalid := true
    width := 2#32
    height := 2#32
    depth := 8#8
    bpp := 8#6
    stride := 2#32
    psize := 1#3
    row := 1#32
    fill := 2#32
    line := [(0, 4#8), (1, 251#8)]
    pix := [(0, 15#8), (1, 20#8)] }

/-- Thirteen header bytes: width 2, height 2, depth 8, colour type 0. -/
def loadedHeader : Defilt :=
  { Defilt.reset with hdr := #v[0, 0, 0, 2, 0, 0, 0, 2, 8, 0, 0, 0, 0], hcnt := 13#4 }

/-- An engine that copies a stored block of one more byte, the last block, after `61` has been emitted. -/
def lastStored : Infl :=
  { Infl.reset with
    instate := .stCopy, final := true, rem := 1#16, win := [0x61#8], s1 := 0x62#16, s2 := 0x62#16, total := 1#32 }

/-! ### One step per command -/

theorem test_nop : after (exec .nop base) (fun t => (t.blk, t.responses)) = some (base.blk, [0x000000000#36]) := by
  decide
/-- R241's example: a block with `FAULT = 3`. -/
theorem test_blkReset : after (exec .blkReset faultedBase) (fun t => (t.blk.fault, t.responses)) =
    some (0#8, [0x000000000#36]) := by decide
/-- R242's examples. -/
theorem test_stRead_id : after (exec (.stRead 0x00#8) base) State.responses = some [0x04D410003#36] := by decide
theorem test_stRead_illegal : after (step (offered base 0x0207#16)) State.responses = some [0xF00000306#36] := by decide
/-- R243's example: `01` then `2C` gives 300. -/
theorem test_paShift : after (exec (.paShift 0x2C#8) { base with blk := { Block.reset with pixa := 1#32 } })
    (fun t => (t.blk.pixa, t.responses)) = some (300#32, [0x00000012C#36]) := by decide
/-- R244's example: the second byte of row 0 is 20. -/
theorem test_pixRd : after (exec .pixRd { base with blk := { Block.reset with df := midImage, pixa := 1#32 } })
    (fun t => (t.blk.pixa, t.responses)) = some (2#32, [0x000000014#36]) := by decide
theorem test_pixRd_pastRows : after (exec .pixRd { base with blk := { Block.reset with df := midImage, pixa := 2#32 } })
    (fun t => (t.blk.pixa, t.responses)) = some (2#32, [0xF00000807#36]) := by decide
theorem test_htSel : after (exec (.htSel 3#8) base) (fun t => t.blk.huff.tsel) = some 3 := by decide
theorem test_htSel_midBuild : after (exec (.htSel 3#8) (withHuff lastCount)) State.responses =
    some [0xF00000107#36] := by decide
theorem test_htBegin : after (exec .htBegin (withHuff twoCodes))
    (fun t => (t.blk.huff.tab[0], t.blk.huff.ready[0], t.blk.huff.bphase)) = some ([], false, .counts) := by decide
/-- R103: sixteen zero counts give an empty ready table. -/
theorem test_htCnt_empty : after (exec (.htCnt 0#8) (withHuff lastCount))
    (fun t => (t.blk.huff.bphase, t.blk.huff.ready[0], t.responses)) = some (.idle, true, [0x000000000#36]) := by decide
theorem test_htCnt_last : after (exec (.htCnt 255#8) (withHuff lastCount))
    (fun t => (t.blk.huff.bphase, t.blk.huff.curl, t.responses)) = some (.syms, 16#5, [0x0000000FF#36]) := by decide
/-- R104's example: the second code of length 2. -/
theorem test_htSym : after (exec (.htSym 0x42#8) (withHuff insertingS1))
    (fun t => (t.blk.huff.tab[0], t.blk.huff.curl, t.responses)) =
      some ([((2, 1), 0x42#8), ((2, 0), 0x41#8)], 3#5, [0x002000001#36]) := by decide
/-- R105's trace: code 4 follows code 1 when the length grows from 2 to 3; R112 (b). -/
theorem test_assign : assign 1 2 3 = (4, 3) ∧ codesFrom (-1) 0 [1, 2, 2, 3] = [0, 2, 3, 4] := by decide
theorem test_hdReset : after (exec .hdReset (withHuff { twoCodes with hdn := 1#5, hdcand := 1#16 }))
    (fun t => (t.blk.huff.hdn, t.blk.huff.hdcand)) = some (0#5, 0#16) := by decide
/-- R108: the second bit of `10` hits with length 2. -/
theorem test_hdBit_hit : after (exec (.hdBit 0#8) (withHuff { twoCodes with hdn := 1#5, hdcand := 1#16 }))
    State.responses = some [0x200000208#36] := by decide
theorem test_hdBit_pending : after (exec (.hdBit 1#8) (withHuff twoCodes)) State.responses = some [0x100010001#36] := by
  decide
theorem test_crcReset : after (exec .crcReset (withCrc { acc := 5#32, exp := 6#32 })) (fun t => t.blk.crc) =
    some { acc := 0xFFFFFFFF#32, exp := 0#32 } := by decide
/-- R122's example. -/
theorem test_crcByte : after (exec (.crcByte 0x49#8) base) (fun t => (t.blk.crc.acc, t.responses)) =
    some (0x22FDE946#32, [0x000000049#36]) := by decide
/-- R123's example, its last byte. -/
theorem test_crcExpb : after (exec (.crcExpb 0x82#8) (withCrc { acc := 5#32, exp := 0xAE4260#32 }))
    (fun t => (t.blk.crc, t.responses)) = some ({ acc := 5#32, exp := 0xAE426082#32 }, [0x0AE426082#36]) := by decide
/-- R121's example: the digest of no bytes. -/
theorem test_crcRead : after (exec .crcRead base) State.responses = some [0x000000000#36] := by decide
/-- R125's example: the digest of `IEND` against a wrong value. -/
theorem test_crcCheck : after (exec .crcCheck (withCrc { acc := 0x51BD9F7D#32, exp := 0xAE426083#32 })) State.responses =
    some [0xF00000103#36] := by decide
/-- R141: `ROUTE` stays. -/
theorem test_inReset : after (exec .inReset (withInfl { lastStored with route := true })) (fun t => t.blk.infl) =
    some { Infl.reset with route := true } := by decide
theorem test_inRoute : after (exec (.inRoute 1#8) base) (fun t => t.blk.infl.route) = some true := by decide
/-- R143's example. -/
theorem test_inByte_header : after (exec (.inByte 0x78#8) base) (fun t => (t.blk.infl.cmf, t.responses)) =
    some (0x78#8, [0x000010000#36]) := by decide
/-- The end of a stored block: `61 62` in `OUT`'s checksum (S1 = 1 + 0x61 + 0x62), then the trailer. -/
theorem test_inByte_stored : after (exec (.inByte 0x62#8) (withInfl lastStored))
    (fun t => (t.blk.out, t.blk.infl.s1, t.blk.infl.instate, t.responses)) =
      some ([0x62#8], 0xC4#16, .trailer, [0x0000D0001#36]) := by decide
/-- R201's example. -/
theorem test_dfHdrb : after (exec (.dfHdrb 0#8) base) (fun t => (t.blk.df.hcnt, t.responses)) =
    some (1#4, [0x000000001#36]) := by decide
/-- R202's example: the response and `DF_STAT`. -/
theorem test_dfConfig : after (exec .dfConfig (withDf loadedHeader)) (fun t => (viewDfStat t.blk.df, t.responses)) =
    some (0x00020821#32, [0x000000002#36]) := by decide
/-- R206's example: the last byte of the image; `PIX[2..3] = 10, 20`. -/
theorem test_dfByte : after (exec (.dfByte 5#8) (withDf midImage))
    (fun t => (Memory.read t.blk.df.pix 2, Memory.read t.blk.df.pix 3, t.blk.df.row, t.responses)) =
      some (some 10#8, some 20#8, 2#32, [0x000000003#36]) := by decide
/-- R265: a faulted block refuses. -/
theorem test_refused : after (step (offered faultedBase 0x2149#16)) (fun t => (t.blk, t.responses)) =
    some (faultedBase.blk, [0xF00010103#36]) := by decide

/-! ### Good states, for the witnesses -/

/-- HUFF's invariant from facts that can be decided. -/
theorem huffInv_of {h : Huff} (hb : BuildOk h) (hl : h.lastBits.toNat ≤ 16)
    (ht : ∀ t : Fin 8, Table.wf h.tab[t] = true ∧ (∀ e ∈ h.tab[t], 1 ≤ e.1.1 ∧ e.1.1 ≤ 16) ∧
      h.tab[t].length ≤ Config.htCap)
    (hc : h.hdn.toNat ≤ 16 ∧ h.hdcand.toNat < 2 ^ h.hdn.toNat)
    (hm : h.hdn ≠ 0#5 → h.bphase = .idle ∧ h.ready[h.tsel] = true) : HuffInv h :=
  { build := hb, lastBits := hl, tables := fun t => ⟨⟨(ht t).1, (ht t).2.1⟩, (ht t).2.2⟩, candidate := hc
    midSymbol := hm }

theorem good_resetHuff : HuffInv Huff.reset :=
  huffInv_of rfl (by decide) (by decide) (by decide) (by decide)

theorem good_twoCodes : HuffInv twoCodes :=
  huffInv_of rfl (by decide) (by decide) (by decide) (by decide)

/-- `twoCodes` in the middle of its second code. -/
theorem good_twoCodes_mid : HuffInv { twoCodes with hdn := 1#5, hdcand := 1#16 } :=
  huffInv_of rfl (by decide) (by decide) (by decide) (by decide)

/-- An empty ready table after sixteen misses. -/
def sixteenMisses : Huff := { Huff.reset with ready := Huff.reset.ready.set 0 true, hdn := 16#5, hdcand := 65535#16 }

theorem good_sixteenMisses : HuffInv sixteenMisses :=
  huffInv_of rfl (by decide) (by decide) (by decide) (by decide)

/-- The same after fifteen. -/
theorem good_fifteenMisses : HuffInv { sixteenMisses with hdn := 15#5, hdcand := 32767#16 } :=
  huffInv_of rfl (by decide) (by decide) (by decide) (by decide)

theorem good_lastCount : HuffInv lastCount :=
  huffInv_of ⟨by decide, rfl, by decide, rfl, rfl, rfl, rfl, by decide⟩ (by decide) (by decide) (by decide) (by decide)

/-- A build whose first count comes next. -/
theorem good_firstCount : HuffInv { lastCount with cidx := 0#5 } :=
  huffInv_of ⟨by decide, rfl, by decide, rfl, rfl, rfl, rfl, by decide⟩ (by decide) (by decide) (by decide) (by decide)

theorem good_insertingS1 : HuffInv insertingS1 :=
  huffInv_of ⟨rfl, by decide, by decide, by decide, by decide, rfl, by decide, by decide, by decide, by decide⟩
    (by decide) (by decide) (by decide) (by decide)

theorem bound_insertingS1 : CodeBound insertingS1 :=
  { start := by decide, space := by decide, keys := fun _ => by decide }

/-- S1's build before its last payload. -/
def lastPayload : Huff :=
  { insertingS1 with
    cnt := Huff.reset.cnt.set 2 1#8
    curl := 3#5
    remain := 1#12
    lastCode := 4#32
    lastBits := 3#5
    tab := Huff.reset.tab.set 0 [((3, 4), 0x43#8), ((2, 1), 0x42#8), ((2, 0), 0x41#8)] }

theorem good_lastPayload : HuffInv lastPayload :=
  huffInv_of ⟨rfl, by decide, by decide, by decide, by decide, rfl, by decide, by decide, by decide, by decide⟩
    (by decide) (by decide) (by decide) (by decide)

theorem bound_lastPayload : CodeBound lastPayload :=
  { start := by decide, space := by decide, keys := fun _ => by decide }

/-- INFL's ranges from facts that can be decided, for an engine with no more bits than 39. -/
theorem ranges_of {i : Infl}
    (h : i.bitq.length ≤ 39 ∧ i.lens.length ≤ 316 ∧ (i.hn.toNat ≤ 15 ∧ i.hcand.toNat < 2 ^ i.hn.toNat) ∧
      (i.s1.toNat < 65521 ∧ i.s2.toNat < 65521) ∧ i.win.length ≤ Config.winSz ∧
      ((Table.wf i.ct = true ∧ ∀ e ∈ i.ct, 1 ≤ e.1.1 ∧ e.1.1 ≤ 7) ∧ ∀ e ∈ i.ct, e.2.toNat < 19) ∧
      (Table.wf i.lt = true ∧ ∀ e ∈ i.lt, 1 ≤ e.1.1 ∧ e.1.1 ≤ 15) ∧
      (Table.wf i.dt = true ∧ ∀ e ∈ i.dt, 1 ≤ e.1.1 ∧ e.1.1 ≤ 15)) : InflRanges i :=
  match h with
  | ⟨bitq, lens, candidate, adler, win, ct, lt, dt⟩ =>
    { bitq, lens, candidate, adler, win, ct := ⟨⟨ct.1.1, ct.1.2⟩, ct.2⟩, lt := ⟨lt.1, lt.2⟩, dt := ⟨dt.1, dt.2⟩ }

theorem ranges_reset : InflRanges Infl.reset :=
  ranges_of (by decide)

theorem ranges_lastStored : InflRanges lastStored :=
  ranges_of (by decide)

theorem good_resetDefilt : DefiltInv 4#32 Defilt.reset :=
  { hcnt := by decide
    valid := fun h => by cases h
    idle := fun _ => ⟨rfl, rfl⟩
    line := ⟨rfl, by decide⟩
    pix := ⟨rfl, by decide, by decide⟩ }

theorem good_midImage : DefiltInv 4#32 midImage :=
  { hcnt := by decide
    valid := fun _ =>
      { size := by decide, format := by decide, bpp := by decide, stride := by decide, psize := by decide
        fits := by decide, row := by decide, fill := by decide }
    idle := fun h => by cases h
    line := ⟨rfl, by decide⟩
    pix := ⟨rfl, by decide, by decide⟩ }

/-- `midImage` at the start of its second scanline. -/
theorem good_rowStart : DefiltInv 4#32 { midImage with fill := 0#32 } :=
  { hcnt := by decide
    valid := fun _ =>
      { size := by decide, format := by decide, bpp := by decide, stride := by decide, psize := by decide
        fits := by decide, row := by decide, fill := by decide }
    idle := fun h => by cases h
    line := ⟨rfl, by decide⟩
    pix := ⟨rfl, by decide, by decide⟩ }

/-- A good machine that is not the reset state: slot 0 holds a table, a stored block is being copied to the
defilter, an image is half done. -/
def busy : State :=
  { base with
    blk :=
      { Block.reset with
        huff := twoCodes
        infl := { lastStored with route := true }
        df := midImage } }

theorem good_busyBlock : BlockInv 4#32 busy.blk :=
  { faultPair := .inl ⟨rfl, rfl⟩
    huff := good_twoCodes
    ranges := { ranges_lastStored with }
    defilt := good_midImage
    engine := fun _ => ⟨{ state := (by decide : (1#16 : BitVec 16) ≠ 0#16), midSymbol := fun _ => rfl }, rfl⟩ }

theorem good_busy : Inv busy := { cap := by decide, blk := good_busyBlock }

/-! ### Witnesses: the hypotheses of each statement that has some, at the boundaries of its clauses -/

theorem witness_IllegalWordsRaiseCauseSix :
    ((offered base 0x05FF#16).inputs = [.command 0x05FF#16] ∧ decode 0x05FF#16 = .error .unknownOpcode) ∧
      decode 0x0001#16 = .error .nonzeroImm ∧ decode 0x1008#16 = .error .operandRange ∧
      decode 0x1502#16 = .error .operandRange ∧ decode 0x021F#16 = .error .operandRange ∧
      (offered base 0x05FF#16).blk.fault = 0#8 ∧ (offered faultedBase 0x05FF#16).blk.fault ≠ 0#8 := by decide

theorem witness_StepRunsTheDecodedCommand :
    (offered base 0x3278#16).inputs = [.command 0x3278#16] ∧ decode 0x3278#16 = .ok (.inByte 0x78#8) := by decide

theorem witness_IdleAndPowerOn : base.inputs = [] ∧ { busy with inputs := [.powerOn] }.inputs = [.powerOn] := by
  decide

theorem witness_ResetValues :
    (∃ t, exec .blkReset faultedBase = .next t) ∧ ∃ t, step { busy with inputs := [.powerOn] } = .next t :=
  ⟨⟨_, rfl⟩, ⟨_, rfl⟩⟩

theorem witness_ResponseWords : ∃ t, (offered base 0x2149#16).inputs = [.command 0x2149#16] ∧
    step (offered base 0x2149#16) = .next t := ⟨_, rfl, rfl⟩

theorem witness_ResponseDependsOnBlockAndWord :
    let s := offered base 0x2149#16
    let s' : State := { s with inputs := [.command 0x2149#16, .powerOn], responses := [0#36] }
    s'.blk = s.blk ∧ s'.pixcap = s.pixcap ∧ s' ≠ s ∧ (after (step s) State.inputs).isSome = true := by decide

theorem witness_FaultedBlockAnswers :
    (offered faultedBase 0x0000#16).blk.fault ≠ 0#8 ∧
      (∀ sel ∈ [0x00, 0x1E], sel ∈ statusSelectors ∧ BitVec.ofNat 16 (0x0200 + sel) ≠ 0x0100#16) ∧
      (∀ sel ∈ statusSelectors, (0x0207#16 : CmdWord) ≠ BitVec.ofNat 16 (0x0200 + sel)) := by decide

theorem witness_FaultLeftOnlyByReset :
    (offered faultedBase 0x0100#16).blk.fault ≠ 0#8 ∧
      (offered faultedBase 0x0100#16).inputs = [.command 0x0100#16] ∧
      (after (step (offered faultedBase 0x2149#16)) State.blk).isSome = true := by decide

theorem witness_FaultPairKept : FaultPair faultedBase.blk ∧
    ∃ t, step (offered faultedBase 0x2149#16) = .next t :=
  ⟨.inr ⟨.crcMismatch, rfl, rfl⟩, _, rfl⟩

theorem witness_FaultPairIdentifiesCondition : Trap.pixelRange.cause = Trap.pixelRange.cause := rfl

theorem witness_CommandsWriteOnlyTheirUnit : ∃ t, exec (.dfByte 5#8) busy = .next t := ⟨_, rfl⟩

theorem witness_SingleCheckCommandsFaultClean :
    ∀ i ∈ [.htSel 8#8, .htCnt 0#8, .htSym 0#8, .hdBit 1#8, .pixRd, .dfConfig, .stRead 0x07#8],
      base.blk.fault = 0#8 ∧ (after (exec i base) fun t => decide (t.blk.fault ≠ 0#8)) = some true := by decide

theorem witness_SingleCheckCommandsFaultClean_full :
    (after (exec (.dfHdrb 0#8) (withDf loadedHeader)) fun t => t.blk.fault) = some 7#8 ∧
      (after (exec .crcCheck (withCrc { acc := 0#32, exp := 0#32 })) fun t => t.blk.fault) = some 3#8 := by decide

/-- The two halves of `EncodedZ` and `EncodedI`: a legal and an illegal word of one opcode, presented to a block
that is not faulted. -/
theorem witness_NopChangesNothing :
    (0x0000#16 : CmdWord).toNat / 256 = 0x00 ∧ (0x0000#16 : CmdWord).toNat % 256 = 0 ∧
      (0x0001#16 : CmdWord).toNat / 256 = 0x00 ∧ (0x0001#16 : CmdWord).toNat % 256 ≠ 0 ∧
      (0x1007#16 : CmdWord).toNat % 256 ≤ 7 ∧ ¬ (0x1008#16 : CmdWord).toNat % 256 ≤ 7 ∧
      (offered base 0x0001#16).inputs = [.command 0x0001#16] ∧ (offered base 0x0001#16).blk.fault = 0#8 := by
  decide

theorem witness_BlockReset : ∃ t, { busy with inputs := [.powerOn] }.inputs = [.powerOn] ∧
    step { busy with inputs := [.powerOn] } = .next t ∧ Instr.nop ≠ .blkReset ∧ ∃ u, exec .nop faultedBase = .next u :=
  ⟨_, rfl, rfl, by decide, _, rfl⟩

theorem witness_StatusRegisterViews : busy.blk.infl.bitq.length ≤ 39 := by decide

theorem witness_PixelAddressShift : busy.blk.fault = 0#8 := rfl

/-- The last byte that may be read, and the first that may not. -/
theorem witness_PixelRead :
    (busy.blk.fault = 0#8 ∧ DefiltInv busy.pixcap busy.blk.df ∧ busy.blk.df.dfvalid = true) ∧
      (1#32 : Word).toNat < busy.blk.df.row.toNat * busy.blk.df.stride.toNat ∧
      busy.blk.df.row.toNat * busy.blk.df.stride.toNat ≤ (2#32 : Word).toNat ∧ base.blk.df.dfvalid = false :=
  ⟨⟨rfl, good_midImage, rfl⟩, by decide, by decide, rfl⟩

theorem witness_PixelsStreamInOrder :
    busy.blk.fault = 0#8 ∧ DefiltInv busy.pixcap busy.blk.df ∧ busy.blk.df.dfvalid = true ∧
      busy.blk.pixa.toNat + 2 ≤ busy.blk.df.row.toNat * busy.blk.df.stride.toNat :=
  ⟨rfl, good_midImage, rfl, by decide⟩

theorem witness_SelectSlot :
    (base.blk.fault = 0#8 ∧ base.blk.huff.bphase = .idle ∧ base.blk.huff.hdn = 0#5) ∧
      (withHuff lastCount).blk.huff.bphase ≠ .idle ∧
      (withHuff { twoCodes with hdn := 1#5, hdcand := 1#16 }).blk.huff.hdn ≠ 0#5 := by decide

theorem witness_BeginBuild : (withHuff insertingS1).blk.fault = 0#8 := rfl

/-- A first count, the sixteenth with nothing to insert, the sixteenth with a code to insert. -/
theorem witness_LoadCount :
    base.blk.huff.bphase ≠ .counts ∧
      (HuffInv { lastCount with cidx := 0#5 } ∧ HuffInv lastCount ∧ lastCount.bphase = .counts) ∧
      lastCount.cidx.toNat + 1 = 16 ∧ lastCount.remain.toNat + (0#8 : Byte).toNat = 0 ∧
      lastCount.remain.toNat + (255#8 : Byte).toNat ≠ 0 :=
  ⟨by decide, ⟨good_firstCount, good_lastCount, rfl⟩, by decide, by decide, by decide⟩

/-- A payload that is not the last, with length 2 as before, and the last one. -/
theorem witness_InsertCode :
    base.blk.huff.bphase ≠ .syms ∧
      (HuffInv insertingS1 ∧ CodeBound insertingS1 ∧ insertingS1.bphase = .syms ∧ ((1 : Nat) : Int) =
        insertingS1.lastCode.toInt + 1) ∧
      HuffInv lastPayload ∧ CodeBound lastPayload ∧ lastPayload.bphase = .syms ∧
        ((5 : Nat) : Int) = lastPayload.lastCode.toInt + 1 ∧ lastPayload.remain.toNat = 1 :=
  ⟨by decide, ⟨good_insertingS1, bound_insertingS1, rfl, by decide⟩, good_lastPayload, bound_lastPayload, rfl,
    by decide, by decide⟩

/-- Not ready; a hit; pending at the sixteenth bit; a miss at the seventeenth. -/
theorem witness_LookUpOneBit :
    (HuffInv Huff.reset ∧ Huff.reset.ready[Huff.reset.tsel] = false) ∧
      (HuffInv { twoCodes with hdn := 1#5, hdcand := 1#16 } ∧ Table.find twoCodes.tab[twoCodes.tsel] (2, 2) = some 8#8) ∧
      (HuffInv { sixteenMisses with hdn := 15#5, hdcand := 32767#16 } ∧
        Table.find sixteenMisses.tab[sixteenMisses.tsel] (16, 65534) = none) ∧
      HuffInv sixteenMisses ∧ sixteenMisses.hdn.toNat + 1 = 17 ∧ sixteenMisses.ready[sixteenMisses.tsel] = true :=
  ⟨⟨good_resetHuff, by decide⟩, ⟨good_twoCodes_mid, by decide⟩, ⟨good_fifteenMisses, by decide⟩, good_sixteenMisses,
    by decide, by decide⟩

theorem witness_CodeWordDecodes :
    (withHuff twoCodes).blk.fault = 0#8 ∧ HuffInv twoCodes ∧ twoCodes.bphase = .idle ∧
      twoCodes.ready[twoCodes.tsel] = true ∧ twoCodes.hdn = 0#5 ∧ twoCodes.hdcand = 0#16 ∧ 2 < 2 ^ 2 ∧
      Table.find twoCodes.tab[twoCodes.tsel] (2, 2) = some 8#8 ∧
      ∀ k < 2, Table.find twoCodes.tab[twoCodes.tsel] (k, 2 / 2 ^ (2 - k)) = none :=
  ⟨rfl, good_twoCodes, rfl, by decide, rfl, rfl, by decide, by decide, by decide⟩

theorem witness_WholeBuildFillsSlot :
    (withHuff insertingS1).blk.fault = 0#8 ∧ HuffInv insertingS1 ∧
      ([1#8, 2#8, 3#8] : List Byte).length = countSum (Huff.reset.cnt.set 15 3#8) :=
  ⟨rfl, good_insertingS1, by decide⟩

theorem witness_LastCodeIncreasesAndStaysBounded :
    ((-1 : Int) ≤ -1 ∧ 1 ≤ 16 ∧ 0 ≤ 16 ∧ 16 = 16) ∧
      HuffInv insertingS1 ∧ CodeBound insertingS1 ∧ ∃ t, step (offered (withHuff insertingS1) 0x1342#16) = .next t :=
  ⟨by decide, good_insertingS1, bound_insertingS1, _, rfl⟩

/-- A complete code: the code space is used up exactly. -/
theorem witness_CanonicalCodes :
    [1, 2, 16, 16].Pairwise (· ≤ ·) ∧ (∀ l ∈ [1, 2, 16, 16], 1 ≤ l ∧ l ≤ 16) ∧
      ([1, 2, 2].map fun l => 2 ^ (16 - l)).sum = 2 ^ 16 ∧
      ([1, 2, 16, 16].map fun l => 2 ^ (16 - l)).sum ≤ 2 ^ 16 :=
  ⟨by decide, by decide, by norm_num, by norm_num⟩

theorem witness_ChecksumCommands : (withCrc { acc := 5#32, exp := 6#32 }).blk.fault = 0#8 := rfl

theorem witness_ChecksumCompare :
    base.blk.fault = 0#8 ∧ Crc.reset.acc ^^^ 0xFFFFFFFF#32 = Crc.reset.exp ∧
      (5#32 : Word) ^^^ 0xFFFFFFFF#32 ≠ 6#32 := by decide

theorem witness_ChangedByteFailsCheck :
    busy.blk.fault = 0#8 ∧
      (0xAE#8 ++ 0x42#8 ++ 0x60#8 ++ 0x82#8 : Word) =
        ([0x49#8, 0x45#8] ++ 0x4E#8 :: [0x44#8]).foldl crcUpdate 0xFFFFFFFF#32 ^^^ 0xFFFFFFFF#32 :=
  ⟨rfl, by simp [crcUpdate, crcRounds, crcRound]⟩

theorem witness_InflateResetAndRoute : busy.blk.fault = 0#8 := rfl

theorem witness_FeedByteRunsToRest :
    busy.blk.fault = 0#8 ∧ busy.blk.infl.instate ≠ .done ∧ BlockInv busy.pixcap busy.blk ∧
      (withInfl { Infl.reset with instate := .done }).blk.infl.instate = .done :=
  ⟨rfl, by decide, good_busyBlock, rfl⟩

/-- Accepted first bytes at the limits of the two fields, a rejected one, and second bytes of each kind. -/
theorem witness_ZlibHeaderBytes :
    base.blk.fault = 0#8 ∧ base.blk.infl.bitq = [] ∧ base.blk.infl.instate = .zhCmf ∧
      ((0x78#8 : Byte).toNat % 16 = 8 ∧ (0x78#8 : Byte).toNat / 16 ≤ 7) ∧ ¬ (0x88#8 : Byte).toNat / 16 ≤ 7 ∧
      (0x78 * 256 + (0x9C#8 : Byte).toNat) % 31 = 0 ∧ (0x9C#8 : Byte).getLsbD 5 = false ∧
      (0x78 * 256 + (0xBB#8 : Byte).toNat) % 31 = 0 ∧ (0xBB#8 : Byte).getLsbD 5 = true ∧
      (0x78 * 256 + (0x9D#8 : Byte).toNat) % 31 ≠ 0 := by decide

/-- Pipes for the transitions. -/
def pipeOf (i : Infl) : Pipe := { infl := i, out := [], df := Defilt.reset }

theorem witness_BlockHeaderAndStored :
    (∀ t0 t1 : Bool, (pipeOf { Infl.reset with instate := .blkHdr, bitq := [true, t0, t1] }).infl.bitq =
      true :: t0 :: t1 :: []) ∧
      (pipeOf { Infl.reset with
        instate := .stLen, bitq := bitsOf 1#8 ++ bitsOf 0#8 ++ bitsOf 0xFE#8 ++ bitsOf 0xFF#8 }).infl.bitq =
        bitsOf 1#8 ++ bitsOf 0#8 ++ bitsOf (~~~1#8) ++ bitsOf (~~~0#8) ++ [] ∧
      (pipeOf { lastStored with bitq := bitsOf 0x62#8 }).infl.bitq = bitsOf 0x62#8 ++ [] ∧
      lastStored.instate = .stCopy ∧ lastStored.rem = 1#16 ∧ lastStored.final = true ∧ Infl.reset.final = false := by
  decide

/-- The greatest counts accepted, and the least rejected; a code length that completes the alphabet's list. -/
theorem witness_DynamicBlockCounts :
    let a := [true, false, true, true, true]
    let b := [true, false, true, true, true]
    fieldValue a + 257 = 286 ∧ fieldValue b + 1 = 30 ∧ fieldValue [false, true, true, true, true] + 257 = 287 ∧
      fieldValue [false, true, true, true, true] + 1 = 31 ∧ fieldValue [true, true, true, true] + 4 = 19 ∧
      [16, 17, 18, 0, 8, 7, 9, 6, 10, 5, 11, 4, 12, 3, 13, 2, 14, 1, 15][(18#5 : BitVec 5).toNat]? =
        some (15 : Fin 19).val ∧ (18#5 + 1#5 : BitVec 5) = 19#5 := by decide

/-- An engine that reads code lengths: codes `0` for length 0, `10` for a repeat of the previous length. -/
def readingLengths : Infl :=
  { Infl.reset with
    instate := .dynLens, hlit := 257#9, hdist := 1#5, hclen := 19#5, bitq := [true], ct := [((2, 2), 16#5), ((1, 0), 0#5)] }

theorem witness_DynamicBlockLengths :
    InflRanges readingLengths ∧ InflRanges { readingLengths with bitq := [false], hn := 1#5, hcand := 1#15 } ∧
      Table.find readingLengths.ct (1, 1) = none ∧ Table.find readingLengths.ct (2, 2) = some 16#5 ∧
      Table.find readingLengths.ct (1, 0) = some 0#5 ∧ readingLengths.lens = [] ∧
      (InflRanges { readingLengths with ct := [], hn := 7#5 } ∧ Table.find ([] : Table 5) (8, 1) = none) ∧
      (∀ x ∈ [[false, true], [true, true, true]], ∃ n, n = 3 + fieldValue x) ∧
      257 + 1 < 258 + (3 + fieldValue [false, false]) ∧ 255 + (3 + fieldValue [false, false]) ≤ 257 + 1 ∧
      (List.replicate 257 (1#4)).length = (257#9 : BitVec 9).toNat ∧ ([1#4] : List (BitVec 4)).length = (1#5 : BitVec 5).toNat :=
  ⟨ranges_of (by decide),
    ranges_of (by decide),
    by decide, by decide, by decide, rfl,
    ⟨ranges_of (by decide),
      by decide⟩, fun x _ => ⟨_, rfl⟩, by decide, by decide,
    List.length_replicate, by decide⟩

/-- An engine that reads literal/length symbols: `a` (97), end of block, the last length symbol, 286. -/
def readingSymbols : Infl :=
  { Infl.reset with
    instate := .sym, bitq := [false]
    lt := [((4, 15), 286#9), ((3, 6), 285#9), ((2, 2), 256#9), ((1, 0), 97#9)]
    dt := [((2, 2), 30#5), ((1, 0), 29#5)] }

theorem witness_LiteralAndLengthSymbols :
    InflRanges readingSymbols ∧ Table.find readingSymbols.lt (1, 0) = some 97#9 ∧
      Table.find readingSymbols.lt (2, 2) = some 256#9 ∧ Table.find readingSymbols.lt (3, 6) = some 285#9 ∧
      (285#9 : BitVec 9).toNat = 257 + (28 : Fin 29).val ∧ Table.find readingSymbols.lt (4, 15) = some 286#9 ∧
      Table.find readingSymbols.lt (1, 1) = none ∧
      (InflRanges { readingSymbols with hn := 15#5 } ∧ Table.find readingSymbols.lt (16, 0) = none) ∧
      [true, true, true, true, true].length = 5 ∧ 227 + fieldValue [true, true, true, true, true] = 258 :=
  ⟨ranges_of (by decide),
    by decide, by decide, by decide, by decide, by decide, by decide,
    ⟨ranges_of (by decide),
      by decide⟩, by decide, by decide⟩

theorem witness_DistanceSymbols :
    InflRanges { readingSymbols with instate := .distSym } ∧ Table.find readingSymbols.dt (1, 0) = some 29#5 ∧
      (29#5 : BitVec 5).toNat = (29 : Fin 30).val ∧ Table.find readingSymbols.dt (2, 2) = some 30#5 ∧
      Table.find readingSymbols.dt (1, 1) = none ∧ InflRanges { readingSymbols with instate := .distSym, hn := 15#5 } ∧
      24577 + fieldValue (List.replicate 13 true) = 32768 ∧ 1 + fieldValue [] = 1 ∧ lastStored.win.length = 1 ∧
      lastStored.win.length < 2 :=
  ⟨ranges_of (by decide),
    by decide, by decide, by decide, by decide,
    ranges_of (by decide),
    by decide, by decide, by decide, by decide⟩

/-- An engine with a match of length 3 under way, its distance symbol next: distance 1 has the code `0`. Its output
goes to the defilter, whose last scanline lacks one byte. -/
def copying : Infl :=
  { Infl.reset with
    instate := .distSym, route := true, length := 3#9, dt := [((1, 0), 0#5)], win := [5#8], total := 1#32 }

/-- Output to `OUT`; and output to the defilter, which takes the first byte of a match, completes its image with it,
and refuses the second: the copy of three stops there. -/
theorem witness_MatchCopyRepeats :
    ((pipeOf lastStored).infl.route = false ∧ (pipeOf lastStored).infl.win.length ≤ 32768 ∧ 1 ≤ 1 ∧
        1 ≤ (pipeOf lastStored).infl.win.length) ∧
      (copying.route = true ∧ copying.win.length ≤ 32768 ∧ 1 ≤ copying.win.length) ∧
      ([5#8, 5#8, 5#8] : List Byte) = [5#8] ++ 5#8 :: [5#8] ∧
      ∃ u v, pushAll 4#32 [5#8] midImage = .ok () u ∧ dfPush 4#32 5#8 u = .trap .surplusData v :=
  ⟨by decide, by decide, rfl, _, _, rfl, rfl⟩

theorem witness_TrailerCheck :
    let i : Infl := { Infl.reset with
      instate := .trailer, bitq := bitsOf 0#8 ++ bitsOf 0#8 ++ bitsOf 0#8 ++ bitsOf 1#8 }
    i.instate = .trailer ∧ i.bitq = bitsOf 0#8 ++ bitsOf 0#8 ++ bitsOf 0#8 ++ bitsOf 1#8 ++ [] ∧
      (i.s2 ++ i.s1 : Word) = 0#8 ++ 0#8 ++ 0#8 ++ 1#8 ∧ (i.s2 ++ i.s1 : Word) ≠ 0#8 ++ 0#8 ++ 0#8 ++ 2#8 := by decide

/-- A complete list, an over-subscribed one, an empty one. -/
theorem witness_TablesAreCanonical :
    7 ≤ 15 ∧ (∀ l ∈ [1, 2, 0, 2], l ≤ 7) ∧ [1, 2, 0, 2].length ≤ 2 ^ 2 ∧
      (tableFromLengths 2 [1, 2, 0, 2] 7).isSome = true ∧ tableFromLengths 2 [1, 1, 1] 7 = none ∧
      tableFromLengths 2 [0, 0] 7 = some [] := by decide

/-- The match of `copying` in a block whose image is half done. -/
def copyBusy : State := { base with blk := { Block.reset with infl := copying, df := midImage } }

theorem good_copyBusy : Inv copyBusy :=
  { cap := by decide
    blk :=
      { faultPair := .inl ⟨rfl, rfl⟩
        huff := good_resetHuff
        ranges := { ranges_of (i := copying) (by decide) with }
        defilt := good_midImage
        engine := fun _ =>
          ⟨{ state := (by decide : 3 ≤ (3#9 : BitVec 9).toNat ∧ (3#9 : BitVec 9).toNat ≤ 258), midSymbol := fun _ => rfl },
            rfl⟩ } }

/-- A byte to `OUT`; a byte the defilter takes; two bytes of a match of three, of which the defilter refuses the
second: the fault is the defilter's, and `TOTAL` and `WIN` count both. -/
theorem witness_EmittedBytesRecordedOnce :
    ((withInfl lastStored).blk.fault = 0#8 ∧ (withInfl lastStored).blk.infl.route = false ∧ InflRanges lastStored ∧
        ∃ t, exec (.inByte 0x62#8) (withInfl lastStored) = .next t) ∧
      (busy.blk.infl.route = true ∧ ∃ t, exec (.inByte 5#8) busy = .next t) ∧
      InflRanges copying ∧ copyBusy.blk.fault = 0#8 ∧
      after (exec (.inByte 0#8) copyBusy) (fun t => (t.blk.fault, t.blk.fsub, t.blk.infl.total, t.blk.infl.win)) =
        some (1#8, 14#8, 3#32, [5#8, 5#8, 5#8]) :=
  ⟨⟨rfl, rfl, ranges_lastStored, _, rfl⟩, ⟨rfl, _, rfl⟩, ranges_of (by decide), rfl, by decide⟩

theorem witness_AdlerSums : recordByte 0x61#8 Infl.reset = [0x61#8].foldl (fun i b => recordByte b i) Infl.reset := rfl

theorem witness_OneByteEmitsAtMost1290 :
    (Inv busy ∧ ∃ t, exec (.inByte 5#8) busy = .next t) ∧ Inv copyBusy ∧ ∃ t, exec (.inByte 0#8) copyBusy = .next t :=
  ⟨⟨good_busy, _, rfl⟩, good_copyBusy, _, rfl⟩

theorem witness_InflateSeesOnlyItsBytes :
    let s' : State := { busy with blk := { busy.blk with huff := Huff.reset, pixa := 1#32 } }
    FaultPair busy.blk ∧ FaultPair s'.blk ∧ busy.blk.fault = 0#8 ∧ s'.blk.fault = 0#8 ∧ s'.blk.infl = busy.blk.infl ∧ s'.blk.df = busy.blk.df ∧
      s'.blk ≠ busy.blk ∧ (after (exec (.inByte 5#8) busy) State.blk).isSome = true ∧
      (after (exec (.crcByte 5#8) busy) State.blk).isSome = true :=
  ⟨.inl ⟨rfl, rfl⟩, .inl ⟨rfl, rfl⟩, by decide⟩

/-- One byte is emitted, and it completes the second row; of three bytes, the defilter takes one and refuses the
second. -/
theorem witness_RoutedBytesAreDefilterBytes :
    (Inv busy ∧ busy.blk.fault = 0#8 ∧ busy.blk.infl.route = true ∧
      after (exec (.inByte 5#8) { busy with blk := { busy.blk with infl := { busy.blk.infl with route := false } } })
        (fun t => t.blk.out) = some (busy.blk.out ++ [5#8]) ∧
      after (execAll ([5#8].map .dfByte) busy) (fun t => t.blk.fault) = some 0#8) ∧
      Inv copyBusy ∧ copyBusy.blk.fault = 0#8 ∧ copyBusy.blk.infl.route = true ∧
      after (exec (.inByte 0#8)
          { copyBusy with blk := { copyBusy.blk with infl := { copyBusy.blk.infl with route := false } } })
        (fun t => t.blk.out) = some (copyBusy.blk.out ++ ([5#8] ++ 5#8 :: [5#8])) ∧
      ∃ u v, execAll ([5#8].map .dfByte) copyBusy = .next u ∧ u.blk.fault = 0#8 ∧ exec (.dfByte 5#8) u = .next v ∧
        v.blk.fault ≠ 0#8 :=
  ⟨⟨good_busy, rfl, rfl, by decide, by decide⟩, good_copyBusy, rfl, rfl, by decide, _, _, rfl, rfl, rfl, by decide⟩

theorem witness_LoadHeaderByte :
    { loadedHeader with hcnt := 12#4 }.hcnt.toNat < 13 ∧ 13 ≤ loadedHeader.hcnt.toNat ∧
      (withDf loadedHeader).blk.fault = 0#8 := by decide

/-- Each check of R204 and R205 is met on some header; the image that just fits, and one that does not. -/
theorem witness_PutConfigurationInForce :
    (withDf loadedHeader).blk.df.hcnt.toNat = 13 ∧ base.blk.df.hcnt.toNat ≠ 13 ∧
      (loadedHeader.hdr[8].toNat ≠ 16 ∧ loadedHeader.hdr[9].toNat ≠ 4 ∧ loadedHeader.hdr[10] = 0#8 ∧
        loadedHeader.hdr[11] = 0#8 ∧ loadedHeader.hdr[12] = 0#8) ∧
      ((2 * (8 * 1) + 7) / 8) * 2 ≤ (withDf loadedHeader).pixcap.toNat ∧
      (withDf loadedHeader).pixcap.toNat < ((2 * (8 * 1) + 7) / 8) * 3 ∧
      (∀ e ∈ [(8, 16#8, (4, 1)), (9, 4#8, (4, 2)), (10, 1#8, (4, 3)), (11, 1#8, (4, 4)), (12, 1#8, (4, 5)),
          (8, 2#8, (4, 6)), (3, 0#8, (5, 1)), (7, 3#8, (5, 2))],
        after (exec .dfConfig (withDf { loadedHeader with hdr := loadedHeader.hdr.setIfInBounds e.1 e.2.1 }))
          (fun t => (t.blk.fault.toNat, t.blk.fsub.toNat)) = some e.2.2) := by decide

/-- Before a configuration; after the last row; at the first byte of a scanline; at the last of one whose filter
type is 5. -/
theorem witness_GatherScanline :
    base.blk.df.dfvalid = false ∧ { midImage with row := 2#32 }.row = midImage.height ∧
      (midImage.dfvalid = true ∧ midImage.row ≠ midImage.height ∧ (0#32 : Word).toNat < midImage.stride.toNat) ∧
      midImage.fill = midImage.stride ∧ midImage.stride ≠ 0#32 ∧
      Memory.read { midImage with line := [(0, 5#8), (1, 251#8)] }.line 0 = some 5#8 ∧ 4 < (5#8 : Byte).toNat := by
  decide

theorem witness_ReconstructRow :
    (withDf midImage).blk.fault = 0#8 ∧ DefiltInv (withDf midImage).pixcap midImage ∧ midImage.dfvalid = true ∧
      midImage.row ≠ midImage.height ∧ midImage.fill = midImage.stride ∧
      (Memory.read midImage.line 0).map BitVec.toNat = some 4 ∧ 4 ≤ 4 :=
  ⟨rfl, good_midImage, rfl, by decide, rfl, by decide, by decide⟩

theorem witness_PaethTakesNearest : paeth 10 20 15 = 15 := by decide

theorem witness_DefilterUndoesFilter :
    let s := withDf { midImage with fill := 0#32 }
    s.blk.fault = 0#8 ∧ DefiltInv s.pixcap s.blk.df ∧ s.blk.df.dfvalid = true ∧ s.blk.df.row ≠ s.blk.df.height ∧
      s.blk.df.fill = 0#32 ∧ filterOfByte 4#8 = some .paeth ∧ ([10#8, 20#8] : List Byte).length = s.blk.df.stride.toNat :=
  ⟨rfl, good_rowStart, rfl, by decide, rfl, rfl, by decide⟩

theorem witness_FinishedRowsStay : Inv busy ∧ Instr.dfByte 5#8 ≠ .dfConfig ∧ Instr.dfByte 5#8 ≠ .blkReset ∧
    ∃ t, exec (.dfByte 5#8) busy = .next t := ⟨good_busy, by decide, by decide, _, rfl⟩

theorem witness_ResetStateIsGood : (1#32 : Word) ≠ 0#32 := by decide

theorem witness_GoodStatesStepToGoodStates : Inv (offered busy 0x3262#16) := { cap := by decide, blk := good_busyBlock }

/-- Two machines that differ in a byte of `LINE` and a byte of `PIX` that hold no value. -/
theorem witness_UnwrittenBytesHaveNoEffect :
    let d : Defilt := { midImage with line := [(0, 4#8), (1, 251#8), (2, 9#8)], pix := [(0, 15#8), (1, 20#8), (3, 7#8)] }
    let s := offered busy 0x4205#16
    let s' : State := { s with blk := { s.blk with df := d } }
    Inv s ∧ Inv s' ∧ SameReadable s s' ∧ s' ≠ s ∧ ∃ t, step s = .next t :=
  ⟨{ cap := by decide, blk := good_busyBlock },
    { cap := by decide
      blk := { good_busyBlock with
        defilt :=
          { hcnt := by decide
            valid := fun _ =>
              { size := by decide, format := by decide, bpp := by decide, stride := by decide, psize := by decide
                fits := by decide, row := by decide, fill := by decide }
            idle := fun h => by cases h
            line := ⟨by decide, by decide⟩
            pix := ⟨by decide, by decide, by decide⟩ } } },
    { rest := rfl, line := by decide, pix := by decide }, by decide, _, rfl⟩

end Sys2Proof.Tests
end

/-! ## The proofs: the scope of the machine (00_scope.md)

Every command keeps the machine's invariant: each unit's own law says what its command leaves, the rules below
lift that to the block (`KeepsGood`), to a whole command (`LandsGood`) and to a step. -/

namespace Sys2Proof.Machine

open Sys2Proof.Safety

/-! ### What a step does with its next input -/

section
variable {s : State} {w : CmdWord} {rest : List Input}

theorem step_idle (h : s.inputs = []) : step s = .next s := by
  simp only [step, h]

theorem step_powerOn (h : s.inputs = .powerOn :: rest) :
    step s = .next (resetBlock { s with inputs := rest }) := by
  simp only [step, h]

theorem step_command {i : Instr} (h : s.inputs = .command w :: rest) (hd : decode w = .ok i) :
    step s = exec i { s with inputs := rest } := by
  simp only [step, h, hd]

theorem step_illegal {e : Illegal} (h : s.inputs = .command w :: rest) (hd : decode w = .error e) :
    step s = illegalWord e { s with inputs := rest } := by
  simp only [step, h, hd]

end

/-- Settles O4: the step on a command word, as `step_command` states it. -/
theorem stepRunsTheDecodedCommand : Obligations.StepRunsTheDecodedCommand :=
  fun _ _ _ _ h hd => step_command h hd

/-- Settles O5: the step on no input and on a power-on reset. -/
theorem idleAndPowerOn : Obligations.IdleAndPowerOn :=
  ⟨fun _ h => step_idle h, fun _ _ h => step_powerOn h⟩

/-! ### The reset state is good -/

theorem huffInv_reset : HuffInv Huff.reset where
  build := rfl
  lastBits := by decide
  tables t := by simp [Huff.reset, tableOk_nil]
  candidate := by decide
  midSymbol h := absurd rfl h

theorem defiltInv_reset (cap : Word) : DefiltInv cap Defilt.reset where
  hcnt := by decide
  valid h := by cases h
  idle _ := ⟨rfl, rfl⟩
  line := ⟨rfl, fun _ h => absurd h (Nat.not_lt_zero _)⟩
  pix := ⟨rfl, fun _ h => absurd h List.not_mem_nil, fun _ h => absurd h (Nat.not_lt_zero _)⟩

/-- The reset values of INFL are those that `IN_RESET` gives in a unit fresh from reset. -/
theorem infl_reset_good : InflRanges Infl.reset ∧ EngineOk Infl.reset ∧ Waiting Infl.reset :=
  inReset_meets (i := Infl.reset)

/-- The block after reset is good for any size of the pixel memory (R37). -/
theorem blockInv_reset (cap : Word) : BlockInv cap Block.reset where
  faultPair := .inl ⟨rfl, rfl⟩
  huff := huffInv_reset
  ranges := infl_reset_good.1
  defilt := defiltInv_reset cap
  engine _ := infl_reset_good.2

/-- The unknown `PIXCAP` is in the range of R7. -/
theorem pixCap_ne_zero : Config.pixCap ≠ 0#32 := by
  have := Config.pixCapIndex.isLt
  rw [Config.pixCap, ne_eq, ← BitVec.toNat_inj, BitVec.toNat_ofNat, BitVec.toNat_ofNat]
  omega

/-- Settles O58: the reset block is good for every `PIXCAP`, and the model's own is not zero. -/
theorem resetStateIsGood : Obligations.ResetStateIsGood :=
  ⟨{ cap := pixCap_ne_zero, blk := blockInv_reset _ }, fun cap h => { cap := h, blk := blockInv_reset cap }⟩

/-! ### A piece of a command keeps the block good -/

/-- What a command leaves of the block's invariant where it raises a fault: the units' own invariants, while
the engine may be in the middle of its work (R264, R277). -/
structure UnitsInv (cap : Word) (b : Block) : Prop where
  /-- HUFF is in a good state. -/
  huff : HuffInv b.huff
  /-- INFL's registers are in range. -/
  ranges : InflRanges b.infl
  /-- DEFILT is in a good state. -/
  defilt : DefiltInv cap b.df

/-- A piece of a command does not stop, and leaves a good block or raises a fault with good units. -/
def KeepsGood (cap : Word) (r : Res Block Rsp) : Prop :=
  r.Meets (fun _ c => BlockInv cap c) (fun _ c => UnitsInv cap c)

theorem unitsInv_of_blockInv {cap : Word} {b : Block} (h : BlockInv cap b) : UnitsInv cap b :=
  { huff := h.huff, ranges := h.ranges, defilt := h.defilt }

theorem trap_cause_ne_zero (t : Trap) : t.cause ≠ 0#8 := by
  cases t <;> decide

/-- Writing the fault pair makes the block good again: a faulted block asks nothing more of the engine. -/
theorem blockInv_raise {cap : Word} {b : Block} (t : Trap) (h : UnitsInv cap b) :
    BlockInv cap { b with fault := t.cause, fsub := t.sub } where
  faultPair := .inr ⟨t, rfl, rfl⟩
  huff := h.huff
  ranges := h.ranges
  defilt := h.defilt
  engine h0 := absurd h0 (trap_cause_ne_zero t)

section
variable {cap : Word} {b : Block}

theorem keepsGood_trap (t : Trap) (hb : BlockInv cap b) : KeepsGood cap (.trap t b) :=
  unitsInv_of_blockInv hb

/-- `PIXA` is in no invariant. -/
theorem keepsGood_pixa (r : Rsp) (a : Word) (hb : BlockInv cap b) : KeepsGood cap (.ok r { b with pixa := a }) :=
  show BlockInv cap { b with pixa := a } from { hb with }

theorem keepsGood_onHuff {f : Huff → Res Huff Rsp} (hb : BlockInv cap b)
    (hf : (f b.huff).Meets (fun _ g => HuffInv g) (fun _ g => g = b.huff)) : KeepsGood cap (onHuff f b) :=
  meets_within hf (fun _ _ hg => { hb with huff := hg })
    fun _ _ hg => { unitsInv_of_blockInv hb with huff := hg ▸ hb.huff }

/-- No invariant speaks of CRC: its commands only must not stop. -/
theorem keepsGood_onCrc {f : Crc → Res Crc Rsp} (hb : BlockInv cap b)
    (hf : (f b.crc).Meets (fun _ _ => True) (fun _ _ => True)) : KeepsGood cap (onCrc f b) :=
  meets_within hf (fun _ _ _ => { hb with }) fun _ _ _ => { unitsInv_of_blockInv hb with }

theorem keepsGood_onInfl {f : Infl → Res Infl Rsp} (hb : BlockInv cap b)
    (hf : (f b.infl).Meets (fun _ j => InflRanges j ∧ EngineOk j ∧ Waiting j) (fun _ j => j = b.infl)) :
    KeepsGood cap (onInfl f b) :=
  meets_within hf (fun _ _ hj => { hb with ranges := hj.1, engine := fun _ => hj.2 })
    fun _ _ hj => { unitsInv_of_blockInv hb with ranges := hj ▸ hb.ranges }

theorem keepsGood_onDefilt {f : Defilt → Res Defilt Rsp} (hb : BlockInv cap b)
    (hf : (f b.df).Meets (fun _ d => DefiltInv cap d) (fun _ d => DefiltInv cap d)) :
    KeepsGood cap (onDefilt f b) :=
  meets_within hf (fun _ _ hd => { hb with defilt := hd })
    fun _ _ hd => { unitsInv_of_blockInv hb with defilt := hd }

theorem keepsGood_onPipe {f : Pipe → Res Pipe Rsp} (hb : BlockInv cap b)
    (hf : (f { infl := b.infl, out := b.out, df := b.df }).Meets (fun _ q => Good cap q ∧ Waiting q.infl)
      (fun _ q => Kept cap q)) : KeepsGood cap (onPipe f b) :=
  meets_within hf
    (fun _ _ ⟨⟨hi, he, hd⟩, hw⟩ => { hb with ranges := hi, defilt := hd, engine := fun _ => ⟨he, hw⟩ })
    fun _ _ ⟨hi, hd⟩ => { unitsInv_of_blockInv hb with ranges := hi, defilt := hd }

theorem keepsGood_pixRd (hb : BlockInv cap b) : KeepsGood cap (pixRdBody cap b) :=
  meets_imp (pixRd_meets hb.defilt) (fun _ _ ⟨_, hc, _⟩ => hc ▸ { hb with })
    fun _ _ ⟨_, _, hc⟩ => hc ▸ unitsInv_of_blockInv hb

theorem crcCheck_meets (c : Crc) : (crcCheckBody c).Meets (fun _ _ => True) (fun _ _ => True) := by
  unfold crcCheckBody
  split_ifs
  · trivial
  · trivial

end

/-! ### A whole command lands in a good state -/

/-- The machine goes on to a good state. -/
def LandsGood (o : Host.Outcome State Fault Refusal) : Prop := ∃ t, o = .next t ∧ Inv t

section
variable {s : State}

theorem inv_respond (r : Rsp) (h : Inv s) : Inv (respond s r) := { cap := h.cap, blk := h.blk }

theorem inv_inputs (rest : List Input) (h : Inv s) : Inv { s with inputs := rest } :=
  { cap := h.cap, blk := h.blk }

theorem inv_resetBlock (h : Inv s) : Inv (resetBlock s) := { cap := h.cap, blk := blockInv_reset _ }

/-- A command whose body keeps the block good lands in a good state, be it refused, completed or faulted. -/
theorem command_landsGood {body : Block → Res Block Rsp} (hs : Inv s)
    (hbody : s.blk.fault = 0#8 → KeepsGood s.pixcap (body s.blk)) : LandsGood (command s body) := by
  by_cases hf : s.blk.fault = 0#8
  · rcases command_meets hf (hbody hf) with ⟨r, b, hb, e⟩ | ⟨t, b, hb, e⟩
    · exact ⟨_, e, inv_respond r { cap := hs.cap, blk := hb }⟩
    · exact ⟨_, e, inv_respond _ { cap := hs.cap, blk := blockInv_raise t hb }⟩
  · exact ⟨_, command_faulted body hf, inv_respond _ hs⟩

theorem illegalWord_landsGood (e : Illegal) (hs : Inv s) : LandsGood (illegalWord e s) :=
  command_landsGood hs fun _ => keepsGood_trap _ hs.blk

theorem execStRead_landsGood (sel : Byte) (hs : Inv s) : LandsGood (execStRead sel s) := by
  unfold execStRead
  cases statusView s.blk sel with
  | some v => exact ⟨_, rfl, inv_respond _ hs⟩
  | none => exact command_landsGood hs fun _ => keepsGood_trap _ hs.blk

theorem execPaShift_landsGood (d : Byte) (hs : Inv s) : LandsGood (execPaShift d s) :=
  command_landsGood hs fun _ => keepsGood_pixa _ _ hs.blk

theorem execHtSel_landsGood (t : Byte) (hs : Inv s) : LandsGood (execHtSel t s) := by
  refine command_landsGood hs fun _ => ?_
  cases slotOperand t with
  | some slot => exact keepsGood_onHuff hs.blk (htSel_meets hs.blk.huff)
  | none => exact keepsGood_trap _ hs.blk

theorem execHdBit_landsGood (b : Byte) (hs : Inv s) : LandsGood (execHdBit b s) := by
  refine command_landsGood hs fun _ => ?_
  cases bitOperand b with
  | some bit => exact keepsGood_onHuff hs.blk (hdBit_meets hs.blk.huff)
  | none => exact keepsGood_trap _ hs.blk

theorem execInRoute_landsGood (r : Byte) (hs : Inv s) : LandsGood (execInRoute r s) := by
  refine command_landsGood hs fun hf => ?_
  obtain ⟨he, hw⟩ := hs.blk.engine hf
  cases bitOperand r with
  | some bit => exact keepsGood_onInfl hs.blk (inRoute_meets hs.blk.ranges he hw)
  | none => exact keepsGood_trap _ hs.blk

theorem execInByte_landsGood (d : Byte) (hs : Inv s) : LandsGood (execInByte d s) := by
  refine command_landsGood hs fun hf => ?_
  obtain ⟨he, hw⟩ := hs.blk.engine hf
  exact keepsGood_onPipe hs.blk (inByte_meets hs.blk.ranges he hw hs.blk.defilt)

/-- Every command, from every good state, goes on to a good state. -/
theorem exec_landsGood (i : Instr) (hs : Inv s) : LandsGood (exec i s) := by
  have hb := hs.blk
  cases i with
  | nop => exact ⟨_, rfl, inv_respond _ hs⟩
  | blkReset => exact ⟨_, rfl, inv_respond _ (inv_resetBlock hs)⟩
  | stRead sel => exact execStRead_landsGood sel hs
  | paShift d => exact execPaShift_landsGood d hs
  | pixRd => exact command_landsGood hs fun _ => keepsGood_pixRd hb
  | htSel t => exact execHtSel_landsGood t hs
  | htBegin => exact command_landsGood hs fun _ => keepsGood_onHuff hb (htBegin_meets hb.huff)
  | htCnt n => exact command_landsGood hs fun _ => keepsGood_onHuff hb (htCnt_meets hb.huff)
  | htSym p => exact command_landsGood hs fun _ => keepsGood_onHuff hb (htSym_meets hb.huff)
  | hdReset => exact command_landsGood hs fun _ => keepsGood_onHuff hb (hdReset_meets hb.huff)
  | hdBit b => exact execHdBit_landsGood b hs
  | crcReset => exact command_landsGood hs fun _ => keepsGood_onCrc hb trivial
  | crcByte d => exact command_landsGood hs fun _ => keepsGood_onCrc hb trivial
  | crcExpb d => exact command_landsGood hs fun _ => keepsGood_onCrc hb trivial
  | crcRead => exact command_landsGood hs fun _ => keepsGood_onCrc hb trivial
  | crcCheck => exact command_landsGood hs fun _ => keepsGood_onCrc hb (crcCheck_meets _)
  | inReset => exact command_landsGood hs fun _ => keepsGood_onInfl hb inReset_meets
  | inRoute r => exact execInRoute_landsGood r hs
  | inByte d => exact execInByte_landsGood d hs
  | dfHdrb d => exact command_landsGood hs fun _ => keepsGood_onDefilt hb (dfHdrb_meets d hb.defilt)
  | dfConfig => exact command_landsGood hs fun _ => keepsGood_onDefilt hb (dfConfig_meets hb.defilt)
  | dfByte d => exact command_landsGood hs fun _ => keepsGood_onDefilt hb (dfByte_meets d hb.defilt)

/-- Every step, from every good state, goes on to a good state. -/
theorem step_landsGood (hs : Inv s) : LandsGood (step s) := by
  cases hin : s.inputs with
  | nil => exact ⟨s, step_idle hin, hs⟩
  | cons input rest =>
    have hrest := inv_inputs rest hs
    cases input with
    | powerOn => exact ⟨_, step_powerOn hin, inv_resetBlock hrest⟩
    | command w =>
      cases hd : decode w with
      | ok i => exact step_command hin hd ▸ exec_landsGood i hrest
      | error e => exact step_illegal hin hd ▸ illegalWord_landsGood e hrest

end

/-- Settles O59: each input of the queue, and no input, takes a good state to a good state. -/
theorem goodStatesStepToGoodStates : Obligations.GoodStatesStepToGoodStates :=
  fun _ hs => step_landsGood hs

end Sys2Proof.Machine

/-! ## The proofs: the state of the block (10_state.md)

Which part of the block each command may write, what the status registers show, and the reset values. -/

namespace Sys2Proof.Machine

open Sys2Proof.Safety

/-! ### What a piece leaves behind

`Res.Meets` says that a piece does not stop; the frame of a command also holds in states where the model might,
so it is stated of what a piece leaves, if it leaves anything. -/

/-- Where a piece completes or raises a fault, what it leaves satisfies `P`. -/
def Res.Leaves {σ α : Type} (r : Res σ α) (P : σ → Prop) : Prop :=
  match r with
  | .ok _ s => P s
  | .trap _ s => P s
  | .stop _ => True

section
variable {σ τ α β : Type}

theorem leaves_imp {r : Res σ α} {P Q : σ → Prop} (h : r.Leaves P) (hpq : ∀ s, P s → Q s) : r.Leaves Q := by
  cases r with
  | ok a s => exact hpq s h
  | trap t s => exact hpq s h
  | stop e => trivial

theorem leaves_bind {r : Res σ α} {f : α → σ → Res σ β} {P Q : σ → Prop} (h : r.Leaves P)
    (hpq : ∀ s, P s → Q s) (hf : ∀ a s, P s → (f a s).Leaves Q) : (r.bind f).Leaves Q := by
  cases r with
  | ok a s => exact hf a s h
  | trap t s => exact hpq s h
  | stop e => trivial

theorem leaves_within {r : Res σ α} {put : σ → τ} {P : σ → Prop} {Q : τ → Prop} (h : r.Leaves P)
    (hpq : ∀ s, P s → Q (put s)) : (r.within put).Leaves Q := by
  cases r with
  | ok a s => exact hpq s h
  | trap t s => exact hpq s h
  | stop e => trivial

theorem leaves_true (r : Res σ α) : r.Leaves fun _ => True := by
  cases r <;> trivial

end

section
variable {s t : State} {body : Block → Res Block Rsp}

/-- A command whose body raises no fault leaves the block as it was, in a faulted block, or as its body says. -/
theorem command_completes {r : Rsp} {b : Block} (h : command s body = .next t) (hb : body s.blk = .ok r b) :
    t.blk = s.blk ∨ t.blk = b := by
  rcases command_next h with ⟨-, rfl⟩ | ⟨-, _, _, e, rfl⟩ | ⟨-, _, _, e, -⟩
  · exact .inl rfl
  · cases hb.symm.trans e
    exact .inr rfl
  · cases hb.symm.trans e

/-- A command leaves a block that its body may leave, but for the fault pair (R264, R265). -/
theorem command_leaves {P : Block → Prop} (h : command s body = .next t) (hb : (body s.blk).Leaves P)
    (hs : P s.blk) : ∃ b, P b ∧ t.blk = { b with fault := t.blk.fault, fsub := t.blk.fsub } := by
  rcases command_next h with ⟨-, rfl⟩ | ⟨-, r, b, e, rfl⟩ | ⟨-, c, b, e, rfl⟩
  · exact ⟨_, hs, rfl⟩
  · rw [e] at hb
    exact ⟨b, hb, rfl⟩
  · rw [e] at hb
    exact ⟨b, hb, rfl⟩

/-- A command that works on one unit, put into the block by `put`, writes that unit and the fault pair. -/
theorem command_within {σ : Type} {put : σ → Block} {P : σ → Prop} {u : σ} {r : Res σ Rsp}
    (h : command s body = .next t) (hr : r.Leaves P) (hb : body s.blk = r.within put) (hput : put u = s.blk)
    (hu : P u) : ∃ v, P v ∧ t.blk = { put v with fault := t.blk.fault, fsub := t.blk.fsub } := by
  obtain ⟨_, ⟨v, hv, rfl⟩, e⟩ := command_leaves (P := fun b => ∃ v, P v ∧ b = put v) h
    (hb ▸ leaves_within hr fun v hv => ⟨v, hv, rfl⟩) ⟨u, hu, hput.symm⟩
  exact ⟨v, hv, e⟩

/-- A command of HUFF writes HUFF and the fault pair. -/
theorem command_huff_frame {r : Res Huff Rsp} (h : command s body = .next t)
    (hb : body s.blk = r.within fun g => { s.blk with huff := g }) :
    t.blk = { s.blk with huff := t.blk.huff, fault := t.blk.fault, fsub := t.blk.fsub } := by
  obtain ⟨g, -, e⟩ := command_within (u := s.blk.huff) h (leaves_true r) hb rfl trivial
  rw [e]

end

/-! ### What one `IN_BYTE` leaves unchanged -/

/-- What an `IN_BYTE` that finds the pipe `p` may make of it: `ROUTE` stays, and of `OUT` and the defilter only
the one that `ROUTE` names is written (R148). -/
structure Routed (p q : Pipe) : Prop where
  /-- `ROUTE`. -/
  route : q.infl.route = p.infl.route
  /-- With `ROUTE = 1`, `OUT` stays. -/
  out : p.infl.route = true → q.out = p.out
  /-- With `ROUTE = 0`, the defilter stays. -/
  df : p.infl.route = false → q.df = p.df

section
variable {p q : Pipe}

theorem routed_refl (p : Pipe) : Routed p p := ⟨rfl, fun _ => rfl, fun _ => rfl⟩

theorem Routed.trans {r : Pipe} (h : Routed p q) (h' : Routed q r) : Routed p r where
  route := h'.route.trans h.route
  out e := (h'.out (h.route.trans e)).trans (h.out e)
  df e := (h'.df (h.route.trans e)).trans (h.df e)

/-- A write to the engine alone, `ROUTE` apart. -/
theorem routed_of_engine (hr : q.infl.route = p.infl.route) (ho : q.out = p.out) (hd : q.df = p.df) :
    Routed p q := ⟨hr, fun _ => ho, fun _ => hd⟩

/-- The block around the later pipe, with `OUT` and the defilter as `ROUTE` selects them. -/
theorem Routed.block_eq {b : Block} (h : Routed { infl := b.infl, out := b.out, df := b.df } q) :
    { b with infl := q.infl, out := q.out, df := q.df } =
      { b with
        infl := { q.infl with route := b.infl.route }
        out := if b.infl.route then b.out else q.out
        df := if b.infl.route then q.df else b.df } := by
  obtain ⟨hr, ho, hd⟩ := h
  dsimp only at hr ho hd
  rw [← hr] at ho hd ⊢
  by_cases e : q.infl.route = true
  · rw [if_pos e, if_pos e, ← ho e]
  · rw [if_neg e, if_neg e, ← hd (Bool.eq_false_iff.2 e)]

/-- A piece that works on the pipe after a write to the engine alone. -/
theorem routed_after_engine {α : Type} {r : Res Pipe α} (h : r.Leaves (Routed q))
    (hr : q.infl.route = p.infl.route) (ho : q.out = p.out) (hd : q.df = p.df) : r.Leaves (Routed p) :=
  leaves_imp h fun _ => (routed_of_engine hr ho hd).trans

theorem routed_bind {α β : Type} {r : Res Pipe α} {f : α → Pipe → Res Pipe β} (h : r.Leaves (Routed p))
    (hf : ∀ a q, (f a q).Leaves (Routed q)) : (r.bind f).Leaves (Routed p) :=
  leaves_bind h (fun _ hq => hq) fun a q hq => leaves_imp (hf a q) fun _ => hq.trans

end

section
variable (cap : Word) (p : Pipe)

theorem emit_routed (b : Byte) : (emit cap b p).Leaves (Routed p) := by
  unfold emit
  dsimp only
  split_ifs with h
  · exact leaves_within (leaves_true _) fun _ _ => ⟨rfl, fun _ => rfl, fun e => by simp [h] at e⟩
  · exact ⟨rfl, fun e => absurd e h, fun _ => rfl⟩

theorem hstep_routed {w : Nat} (tab : Table w) (maxlen : Nat) : (hstep tab maxlen p).Leaves (Routed p) := by
  unfold hstep
  dsimp only
  split <;> exact routed_of_engine rfl rfl rfl

theorem blockEnd_routed : (Res.ok () (blockEnd p)).Leaves (Routed p) := by
  unfold blockEnd
  split_ifs <;> exact routed_of_engine rfl rfl rfl

theorem lensDone_routed : (lensDone p).Leaves (Routed p) := by
  unfold lensDone
  dsimp only
  split_ifs with hl
  · split
    · trivial
    · split_ifs
      · exact routed_refl p
      · split
        · exact routed_refl p
        · split <;> exact routed_of_engine rfl rfl rfl
  · exact routed_refl p

theorem copyMatch_routed (dist n : Nat) : (copyMatch cap dist n p).Leaves (Routed p) := by
  induction n generalizing p with
  | zero => exact routed_refl p
  | succ n ih =>
    unfold copyMatch
    split
    · trivial
    · exact routed_bind (emit_routed cap p _) fun _ q => ih q

/-! The transitions, in the order of `transition`. -/

theorem stepZhCmf_routed : (stepZhCmf p).Leaves (Routed p) := by
  unfold stepZhCmf
  dsimp only
  split_ifs <;> exact routed_of_engine rfl rfl rfl

theorem stepZhFlg_routed : (stepZhFlg p).Leaves (Routed p) := by
  unfold stepZhFlg
  dsimp only
  split_ifs <;> exact routed_of_engine rfl rfl rfl

theorem stepBlkHdr_routed : (stepBlkHdr p).Leaves (Routed p) := by
  unfold stepBlkHdr
  dsimp only
  split_ifs
  · exact routed_of_engine rfl rfl rfl
  · split <;> exact routed_of_engine rfl rfl rfl
  · exact routed_of_engine rfl rfl rfl
  · exact routed_of_engine rfl rfl rfl

theorem stepStLen_routed : (stepStLen p).Leaves (Routed p) := by
  unfold stepStLen
  dsimp only
  split_ifs
  · exact routed_of_engine rfl rfl rfl
  · exact routed_after_engine (blockEnd_routed _) rfl rfl rfl
  · exact routed_of_engine rfl rfl rfl

theorem stepStCopy_routed : (stepStCopy cap p).Leaves (Routed p) := by
  unfold stepStCopy
  refine routed_after_engine (routed_bind (emit_routed cap _ _) fun _ q => ?_) rfl rfl rfl
  dsimp only
  split_ifs
  · exact routed_after_engine (blockEnd_routed _) rfl rfl rfl
  · exact routed_of_engine rfl rfl rfl

theorem stepDynHdr_routed : (stepDynHdr p).Leaves (Routed p) := by
  unfold stepDynHdr
  dsimp only
  split_ifs <;> exact routed_of_engine rfl rfl rfl

theorem stepDynClen_routed : (stepDynClen p).Leaves (Routed p) := by
  unfold stepDynClen
  dsimp only
  split
  · trivial
  · split_ifs
    · split <;> exact routed_of_engine rfl rfl rfl
    · exact routed_of_engine rfl rfl rfl

theorem stepDynLens_routed : (stepDynLens p).Leaves (Routed p) := by
  refine routed_bind (hstep_routed p _ _) fun r q => ?_
  cases r with
  | none => exact routed_refl q
  | some s =>
    dsimp only
    split_ifs
    · exact routed_after_engine (lensDone_routed _) rfl rfl rfl
    · exact routed_refl q
    · exact routed_of_engine rfl rfl rfl

theorem stepDynRep_routed : (stepDynRep p).Leaves (Routed p) := by
  unfold stepDynRep
  dsimp only
  split
  · trivial
  · split_ifs
    · exact routed_of_engine rfl rfl rfl
    · exact routed_after_engine (lensDone_routed _) rfl rfl rfl

theorem stepSym_routed : (stepSym cap p).Leaves (Routed p) := by
  refine routed_bind (hstep_routed p _ _) fun r q => ?_
  cases r with
  | none => exact routed_refl q
  | some s =>
    dsimp only
    split
    · exact emit_routed cap q _
    · split
      · exact blockEnd_routed q
      · generalize s.toNat - 257 = k
        split
        · exact routed_of_engine rfl rfl rfl
        · exact routed_refl q

theorem stepLenExtra_routed : (stepLenExtra p).Leaves (Routed p) := routed_of_engine rfl rfl rfl

theorem stepDistSym_routed : (stepDistSym p).Leaves (Routed p) := by
  refine routed_bind (hstep_routed p _ _) fun r q => ?_
  cases r with
  | none => exact routed_refl q
  | some s =>
    dsimp only
    split_ifs
    · exact routed_of_engine rfl rfl rfl
    · exact routed_refl q

theorem stepDistExtra_routed : (stepDistExtra cap p).Leaves (Routed p) := by
  unfold stepDistExtra
  dsimp only
  split_ifs
  · exact routed_of_engine rfl rfl rfl
  · exact routed_after_engine
      (routed_bind (copyMatch_routed cap _ _ _) fun _ r => routed_of_engine rfl rfl rfl) rfl rfl rfl

theorem stepTrailer_routed : (stepTrailer p).Leaves (Routed p) := by
  unfold stepTrailer
  dsimp only
  split_ifs <;> exact routed_of_engine rfl rfl rfl

/-- Every transition keeps `ROUTE` and what `ROUTE` does not name (R146, R148). -/
theorem transition_routed : (transition cap p).Leaves (Routed p) := by
  unfold transition
  cases p.infl.instate with
  | zhCmf => exact stepZhCmf_routed p
  | zhFlg => exact stepZhFlg_routed p
  | blkHdr => exact stepBlkHdr_routed p
  | stLen => exact stepStLen_routed p
  | stCopy => exact stepStCopy_routed cap p
  | dynHdr => exact stepDynHdr_routed p
  | dynClen => exact stepDynClen_routed p
  | dynLens => exact stepDynLens_routed p
  | dynRep => exact stepDynRep_routed p
  | sym => exact stepSym_routed cap p
  | lenExtra => exact stepLenExtra_routed p
  | distSym => exact stepDistSym_routed p
  | distExtra => exact stepDistExtra_routed cap p
  | trailer => exact stepTrailer_routed p
  | done => exact routed_refl p

theorem run_routed (n : Nat) : (run cap n p).Leaves (Routed p) := by
  induction n generalizing p with
  | zero => trivial
  | succ n ih =>
    unfold run
    split_ifs
    · exact routed_bind (transition_routed cap p) fun _ q => ih q
    · exact routed_refl p

theorem inByteBody_routed (d : Byte) : (inByteBody cap d p).Leaves (Routed p) := by
  unfold inByteBody
  split_ifs
  · exact routed_refl p
  · exact routed_after_engine (routed_bind (run_routed cap _ _) fun _ q => routed_refl q) rfl rfl rfl

end

/-! ### What a command of DEFILT leaves unchanged -/

section
variable (cap : Word) (d : Byte) (u : Defilt)

theorem dfHdrbBody_leaves :
    (dfHdrbBody d u).Leaves fun v => v = { u with hdr := v.hdr, hcnt := v.hcnt } := by
  unfold dfHdrbBody
  split_ifs
  · exact rfl
  · exact rfl

theorem dfConfigBody_leaves :
    (dfConfigBody cap u).Leaves fun v => v = { v with hdr := u.hdr, line := u.line, pix := u.pix } := by
  unfold dfConfigBody
  split_ifs
  · split
    · exact rfl
    · split <;> exact rfl
  · exact rfl

/-- What `df_push` may write: the scanline, the image, and their counters (R208). -/
def Gathers (u v : Defilt) : Prop := v = { u with line := v.line, pix := v.pix, row := v.row, fill := v.fill }

theorem finishRow_gathers : (finishRow cap u).Leaves (Gathers u) := by
  unfold finishRow
  split
  · trivial
  · split
    · exact rfl
    · split
      · trivial
      · exact rfl

theorem dfPush_gathers : (dfPush cap d u).Leaves (Gathers u) := by
  rcases dfPush_cases (cap := cap) (b := d) (u := u) rfl with
    ⟨-, e⟩ | ⟨-, -, e⟩ | ⟨-, -, -, e⟩ | ⟨-, -, -, e⟩ | ⟨-, -, -, e⟩
  · rw [e]; exact rfl
  · rw [e]; exact rfl
  · rw [e]; trivial
  · rw [e]; exact rfl
  · rw [e]
    exact leaves_imp (finishRow_gathers cap _) fun _ h => h

theorem dfByteBody_gathers : (dfByteBody cap d u).Leaves (Gathers u) :=
  leaves_bind (dfPush_gathers cap d u) (fun _ h => h) fun _ _ h => h

end

/-! ### What a system command, `CRC_CHECK` and `IN_ROUTE` leave unchanged -/

theorem pixRdBody_leaves (cap : Word) (b : Block) :
    (pixRdBody cap b).Leaves fun c => c = { b with pixa := c.pixa } := by
  unfold pixRdBody
  split_ifs
  · split
    · exact rfl
    · trivial
  · exact rfl

theorem crcCheckBody_leaves (c : Crc) : (crcCheckBody c).Leaves (· = c) := by
  unfold crcCheckBody
  split_ifs <;> exact rfl

theorem inRouteBody_leaves (r : Bool) (i : Infl) :
    (inRouteBody r i).Leaves fun j => j = { i with route := j.route } := rfl

/-- Settles O13, command by command: those that raise no fault by what they complete with, the others by what
their unit's body leaves. -/
theorem commandsWriteOnlyTheirUnit : Obligations.CommandsWriteOnlyTheirUnit := by
  intro i s t h
  cases i with
  | nop => cases h; rfl
  | blkReset => cases h; rfl
  | crcRead => rcases command_completes h rfl with e | e <;> exact e
  | htBegin | hdReset | crcReset | inReset | crcByte d | crcExpb d =>
    rcases command_completes h rfl with e | e <;> dsimp only <;> rw [e]
  | paShift d =>
    simp only [exec, execPaShift] at h
    rcases command_completes h rfl with e | e <;> dsimp only <;> rw [e]
  | stRead sel =>
    simp only [exec, execStRead] at h
    split at h
    · cases h; rfl
    · obtain ⟨_, rfl, e⟩ := command_leaves (P := (· = s.blk)) h rfl rfl
      exact e
  | pixRd =>
    obtain ⟨b, hb, e⟩ := command_leaves h (pixRdBody_leaves s.pixcap s.blk) rfl
    dsimp only; rw [e, hb]
  | htSel x =>
    simp only [exec, execHtSel] at h
    cases hx : slotOperand x with
    | some slot => exact command_huff_frame h (by rw [hx]; rfl)
    | none => exact command_huff_frame (r := .trap .operandRange s.blk.huff) h (by rw [hx]; rfl)
  | htCnt n => exact command_huff_frame h rfl
  | htSym p => exact command_huff_frame h rfl
  | hdBit x =>
    simp only [exec, execHdBit] at h
    cases hx : bitOperand x with
    | some bit => exact command_huff_frame h (by rw [hx]; rfl)
    | none => exact command_huff_frame (r := .trap .operandRange s.blk.huff) h (by rw [hx]; rfl)
  | crcCheck =>
    obtain ⟨_, rfl, e⟩ := command_within h (crcCheckBody_leaves s.blk.crc) rfl rfl rfl
    exact e
  | inRoute x =>
    simp only [exec, execInRoute] at h
    cases hx : bitOperand x with
    | some bit =>
      obtain ⟨v, hv, e⟩ := command_within h (inRouteBody_leaves bit s.blk.infl) (by rw [hx]; rfl) rfl rfl
      dsimp only; rw [e, hv]
    | none =>
      obtain ⟨_, rfl, e⟩ := command_leaves (P := (· = s.blk)) h (by rw [hx]; rfl) rfl
      dsimp only; rw [e]
  | inByte d =>
    obtain ⟨q, hq, e⟩ := command_within h (inByteBody_routed s.pixcap _ d) rfl rfl (routed_refl _)
    dsimp only
    rw [e]
    exact congrArg (fun b : Block => { b with fault := t.blk.fault, fsub := t.blk.fsub }) hq.block_eq
  | dfHdrb d =>
    obtain ⟨v, hv, e⟩ := command_within h (dfHdrbBody_leaves d s.blk.df) rfl rfl rfl
    dsimp only; rw [e, hv]
  | dfConfig =>
    obtain ⟨v, hv, e⟩ := command_within h (dfConfigBody_leaves s.pixcap s.blk.df) rfl rfl rfl
    dsimp only; rw [e, hv]
  | dfByte d =>
    obtain ⟨v, hv, e⟩ := command_within h (dfByteBody_gathers s.pixcap d s.blk.df) rfl rfl rfl
    dsimp only; rw [e, hv]

/-! ### A fault with nothing else changed -/

/-- The number two fields side by side are. -/
theorem toNat_append_fields {m n : Nat} (x : BitVec m) (y : BitVec n) :
    (x ++ y).toNat = y.toNat + 2 ^ n * x.toNat := by
  rw [BitVec.toNat_append, Nat.shiftLeft_eq, Nat.mul_comm, ← Nat.two_pow_add_eq_or_of_lt y.isLt, Nat.add_comm]

/-- The data of a `FAULT` response of a block that was not faulted (R78). -/
theorem rspFault_false (fault sub : Byte) :
    rspFault false fault sub = rsp 0xF#4 (BitVec.ofNat 32 (fault.toNat + 256 * sub.toNat)) := by
  rw [rspFault, ← BitVec.ofNat_toNat, toNat_append_fields, toNat_append_fields]
  simp

section
variable {s : State} {body : Block → Res Block Rsp} {t : Trap}

/-- A command that raises a fault before it writes anything leaves the fault pair and the response (R264). -/
theorem command_raises (hf : s.blk.fault = 0#8) (hb : body s.blk = .trap t s.blk) :
    command s body = .next (raised t.cause.toNat t.sub.toNat s) := by
  rw [command_runs body hf, hb]
  simp only [finish, takeFault, rspFault_false, raised, answered, BitVec.ofNat_toNat, BitVec.setWidth_eq]

theorem illegalWord_raises (e : Illegal) (hf : s.blk.fault = 0#8) :
    illegalWord e s = .next (raised (illegalTrap e).cause.toNat (illegalTrap e).sub.toNat s) :=
  command_raises hf rfl

end

/-! ### The words of a Format I command -/

theorem opField_toNat (w : CmdWord) : (opField w).toNat = w.toNat / 256 := by
  have := w.isLt
  simp only [opField, BitVec.extractLsb'_toNat, Nat.shiftRight_eq_div_pow]
  omega

theorem immField_eq (w : CmdWord) : immField w = BitVec.ofNat 8 (w.toNat % 256) := by
  apply BitVec.eq_of_toNat_eq
  simp [immField]

/-- A Format I opcode of the decoder meets `EncodedI` with the operands its check accepts (R71, R74 (c)). -/
theorem encodedI_of_formatI {op : Nat} {i : Byte → Instr} {legal : Nat → Prop} {check : Byte → Bool}
    (hdec : ∀ w : CmdWord, (opField w).toNat = op → decode w = formatI (check (immField w)) (i (immField w)))
    (hcheck : ∀ b : Byte, check b = true ↔ legal b.toNat) : EncodedI op i legal := by
  intro w hop
  have himm : (immField w).toNat = w.toNat % 256 := by rw [immField_eq, BitVec.toNat_ofNat]; omega
  have hd := hdec w ((opField_toNat w).trans hop)
  rw [← himm, ← hcheck, BitVec.ofNat_toNat, BitVec.setWidth_eq]
  refine ⟨fun h => by rw [hd, h]; rfl, fun h => ?_⟩
  have herr : decode w = .error .operandRange := by rw [hd, Bool.eq_false_iff.2 h]; rfl
  exact ⟨herr, fun s rest hin hf => (step_illegal hin herr).trans (illegalWord_raises .operandRange hf)⟩

theorem selLegal_iff (sel : Byte) : selLegal sel = true ↔ sel.toNat ∈ statusSelectors := by
  simp only [selLegal, statusSelectors, Bool.or_eq_true, Bool.and_eq_true, decide_eq_true_eq, List.mem_cons,
    List.not_mem_nil, or_false]
  omega

/-! ### The fields of the status registers -/

/-- A whole register as its own view. -/
theorem word_of_toNat (v : Word) : v = BitVec.ofNat 32 v.toNat := by
  rw [BitVec.ofNat_toNat, BitVec.setWidth_eq]

section
variable (h : Huff) (i : Infl) (d : Defilt)

theorem readyBits_toNat (r : Vector Bool 8) :
    (readyBits r).toNat = ((List.finRange 8).map fun t => 2 ^ t.val * r[t].toNat).sum := by
  rw [← Fin.sum_univ_def, Fin.sum_univ_eight]
  simp only [readyBits, toNat_append_fields, BitVec.toNat_ofBool, Fin.getElem_fin, Fin.coe_ofNat_eq_mod,
    Nat.zero_mod, Nat.one_mod, Nat.reduceMod]
  ring

theorem viewFaultr_fields (b : Block) :
    viewFaultr b = BitVec.ofNat 32 (b.fault.toNat + 2 ^ 8 * b.fsub.toNat) := by
  rw [viewFaultr, ← BitVec.ofNat_toNat, toNat_append_fields]

theorem viewHtCtrl_fields :
    viewHtCtrl h = BitVec.ofNat 32 ((bphaseCode h.bphase).toNat + 2 ^ 2 * h.tsel.val + 2 ^ 5 * h.cidx.toNat +
      2 ^ 10 * h.curl.toNat + ((List.finRange 8).map fun t => 2 ^ (15 + t.val) * h.ready[t].toNat).sum) := by
  have hready : ((List.finRange 8).map fun t => 2 ^ (15 + t.val) * h.ready[t].toNat).sum =
      2 ^ 15 * (readyBits h.ready).toNat := by
    simp only [readyBits_toNat, pow_add, mul_assoc, List.sum_map_mul_left]
  have htsel : (BitVec.ofNat 3 h.tsel.val).toNat = h.tsel.val := Nat.mod_eq_of_lt h.tsel.isLt
  rw [hready, viewHtCtrl, ← BitVec.ofNat_toNat]
  simp only [toNat_append_fields, htsel]
  congr 1
  ring

theorem viewHdState_fields : viewHdState h = BitVec.ofNat 32 (h.hdcand.toNat + 2 ^ 16 * h.hdn.toNat) := by
  rw [viewHdState, ← BitVec.ofNat_toNat, toNat_append_fields]

/-- The six bits of `IN_STAT[11:6]` hold the number of bits in `BITQ` (R26, R32). -/
theorem viewInStat_fields (hq : i.bitq.length ≤ 39) :
    viewInStat i = BitVec.ofNat 32 ((instateCode i.instate).toNat + 2 ^ 4 * i.route.toNat +
      2 ^ 5 * i.final.toNat + 2 ^ 6 * i.bitq.length) := by
  have hlen : (BitVec.ofNat 6 i.bitq.length).toNat = i.bitq.length := Nat.mod_eq_of_lt (by omega)
  rw [viewInStat, ← BitVec.ofNat_toNat]
  simp only [toNat_append_fields, BitVec.toNat_ofBool, hlen]
  congr 1
  ring

theorem viewInAdler_fields : viewInAdler i = BitVec.ofNat 32 (i.s1.toNat + 2 ^ 16 * i.s2.toNat) := by
  rw [← toNat_append_fields]
  exact word_of_toNat _

theorem viewDfStat_fields :
    viewDfStat d = BitVec.ofNat 32 (d.dfvalid.toNat + 2 ^ 1 * d.hcnt.toNat + 2 ^ 5 * d.psize.toNat +
      2 ^ 8 * d.bpp.toNat + 2 ^ 14 * d.depth.toNat + 2 ^ 22 * d.ctype.toNat) := by
  rw [viewDfStat, ← BitVec.ofNat_toNat]
  simp only [toNat_append_fields, BitVec.toNat_ofBool]
  congr 1
  ring

end

/-- `ST_READ` responds with the view of its register, faulted or not, and changes nothing (R242). -/
theorem execStRead_view {s : State} {sel : Byte} {v v' : Word} (hv : statusView s.blk sel = some v)
    (e : v = v') : exec (.stRead sel) s = .next (answered (rspOk v') s.blk s) := by
  subst e
  simp only [exec, execStRead, hv]
  rfl

/-- Settles O17: the words by `encodedI_of_formatI`; each register by the fields of its view. -/
theorem statusRegisterViews : Obligations.StatusRegisterViews := by
  refine ⟨encodedI_of_formatI (fun w h => by simp only [decode, h]) selLegal_iff, ?_⟩
  rintro s b rfl hq
  simp only [List.forall_mem_cons, List.not_mem_nil, false_imp_iff, implies_true, and_true]
  refine ⟨execStRead_view rfl rfl, execStRead_view rfl (viewFaultr_fields _),
    execStRead_view rfl ((viewHtCtrl_fields _).trans ?_), execStRead_view rfl (word_of_toNat _),
    execStRead_view rfl (BitVec.ofNat_toNat ..).symm, execStRead_view rfl (BitVec.ofNat_toNat ..).symm,
    execStRead_view rfl (viewHdState_fields _), execStRead_view rfl (word_of_toNat _),
    execStRead_view rfl (word_of_toNat _), execStRead_view rfl ((viewInStat_fields _ hq).trans ?_),
    execStRead_view rfl (word_of_toNat _), execStRead_view rfl (viewInAdler_fields _),
    execStRead_view rfl (viewDfStat_fields _), execStRead_view rfl (word_of_toNat _),
    execStRead_view rfl (word_of_toNat _), execStRead_view rfl (word_of_toNat _),
    execStRead_view rfl (word_of_toNat _), execStRead_view rfl (word_of_toNat _),
    execStRead_view rfl (word_of_toNat _)⟩
  · cases s.blk.huff.bphase <;> rfl
  · cases s.blk.infl.instate <;> rfl

/-! ### The reset values -/

/-- What every way to reset leaves (R37, R290). -/
theorem blk_of_reset {t : State}
    (h : t = State.reset ∨ (∃ s, exec .blkReset s = .next t) ∨
      ∃ s rest, s.inputs = .powerOn :: rest ∧ step s = .next t) : t.blk = Block.reset := by
  obtain rfl | ⟨s, h⟩ | ⟨s, rest, hin, h⟩ := h
  · rfl
  · cases h; rfl
  · cases (step_powerOn hin).symm.trans h; rfl

/-- `PIX_RD` of a byte that no rule lets it read (R244). -/
theorem execPixRd_raises {s : State} (hf : s.blk.fault = 0#8) (hr : pixReadable s.blk = false) :
    exec .pixRd s = .next (raised 7 8 s) :=
  command_raises (t := .pixelRange) hf (by simp [pixRdBody, hr])

/-- `DF_BYTE` with no configuration in force (R208). -/
theorem execDfByte_raises {s : State} (d : Byte) (hf : s.blk.fault = 0#8) (hv : s.blk.df.dfvalid = false) :
    exec (.dfByte d) s = .next (raised 7 7 s) :=
  command_raises (t := .notConfigured) hf (by simp [onDefilt, dfByteBody, dfPush, hv])

/-- Settles O6: each register by its value in `Block.reset`; the faults of the two unreadable memories by the
preconditions of `PIX_RD` and `df_push`. -/
theorem resetValues : Obligations.ResetValues := by
  intro t h
  have hb := blk_of_reset h
  refine ⟨?fault, ?huff, ?crc, ?infl, ?defilt, ?host, fun a => execPixRd_raises ?_ ?_,
    fun d => execDfByte_raises d ?_ ?_⟩
  case fault => rw [hb]; decide
  case huff => rw [hb]; decide
  case crc => rw [hb]; decide
  case infl => rw [hb]; decide
  case defilt => rw [hb]; decide
  case host => rw [hb]; decide
  all_goals simp only [hb]; rfl

end Sys2Proof.Machine

/-! ## The proofs: the encoding (30_encoding.md)

How the decoder reads each word by its opcode and format, what an illegal word does, and the one response that
every command word gets. -/

namespace Sys2Proof.Machine

open Sys2Proof.Safety Sys2Proof.Laws.EncodesFields

/-! ### The two fields of a word -/

@[simp] theorem opField_word (op imm : Byte) : opField (word op imm) = op :=
  BitVec.extractLsb'_append_eq_left

@[simp] theorem immField_word (op imm : Byte) : immField (word op imm) = imm :=
  BitVec.extractLsb'_append_eq_right

theorem word_fields (w : CmdWord) : word (opField w) (immField w) = w := by
  apply BitVec.eq_of_toNat_eq
  rw [word_toNat, opField_toNat, immField_eq, BitVec.toNat_ofNat]
  omega

theorem immField_toNat (w : CmdWord) : (immField w).toNat = w.toNat % 256 := by
  rw [immField_eq, BitVec.toNat_ofNat]
  omega

theorem encode_toNat (i : Instr) : (encode i).toNat = opcode i * 256 + (operand i).toNat := by
  cases i <;> exact word_toNat _ _

theorem fields_of_encode {w : CmdWord} {i : Instr} (h : encode i = w) :
    w.toNat / 256 = opcode i ∧ w.toNat % 256 = (operand i).toNat := by
  have := encode_toNat i
  rw [h] at this
  omega

/-! ### How the decoder reads a word -/

/-- The Format Z opcodes of R72. -/
def formatZOpcodes : List Nat := [0x00, 0x01, 0x04, 0x11, 0x14, 0x20, 0x23, 0x24, 0x30, 0x41]

/-- The Format I opcodes of R72. -/
def formatIOpcodes : List Nat := [0x02, 0x03, 0x10, 0x12, 0x13, 0x15, 0x21, 0x22, 0x31, 0x32, 0x40, 0x42]

/-- What reading the word `w` by the table of R72 may give. -/
inductive Reads (w : CmdWord) : Except Illegal Instr → Prop where
  /-- A Format Z opcode: the command of that opcode, if `imm8` is zero. -/
  | formatZ {i : Instr} (hop : w.toNat / 256 ∈ formatZOpcodes) (hwf : i.wellFormed = true)
      (henc : encode i = word (opField w) 0#8) : Reads w (formatZ (immField w) i)
  /-- A Format I opcode: the command of that opcode with `imm8` as operand, if it is well formed. -/
  | formatI {i : Instr} {legal : Bool} (hop : w.toNat / 256 ∈ formatIOpcodes) (hlegal : legal = i.wellFormed)
      (henc : encode i = w) : Reads w (formatI legal i)
  /-- An opcode that is not in the table. -/
  | unknown (hz : w.toNat / 256 ∉ formatZOpcodes) (hi : w.toNat / 256 ∉ formatIOpcodes) :
      Reads w (.error .unknownOpcode)

section
variable {w : CmdWord} {i : Instr}

theorem reads_formatZ (op : Byte) (h : (opField w).toNat = op.toNat) (hop : op.toNat ∈ formatZOpcodes)
    (hwf : i.wellFormed = true) (henc : encode i = word op 0#8) : Reads w (formatZ (immField w) i) :=
  .formatZ (by rwa [← opField_toNat, h]) hwf (by rw [henc, BitVec.eq_of_toNat_eq h])

theorem reads_formatI {legal : Bool} (op : Byte) (h : (opField w).toNat = op.toNat)
    (hop : op.toNat ∈ formatIOpcodes) (hlegal : legal = i.wellFormed)
    (henc : encode i = word op (immField w)) : Reads w (formatI legal i) :=
  .formatI (by rwa [← opField_toNat, h]) hlegal (by rw [henc, ← BitVec.eq_of_toNat_eq h, word_fields])

end

theorem selLegal_eq_wellFormed (sel : Byte) : selLegal sel = (Instr.stRead sel).wellFormed := by
  rw [Bool.eq_iff_iff, selLegal_iff, Instr.wellFormed, List.contains_iff_mem]

theorem slotLegal_eq_wellFormed (t : Byte) : slotLegal t = (Instr.htSel t).wellFormed :=
  decide_eq_decide.2 Nat.lt_succ_iff

theorem bitLegal_eq_decide (b : Byte) : bitLegal b = decide (b.toNat ≤ 1) :=
  decide_eq_decide.2 Nat.lt_succ_iff

/-- The decoder reads every word by the row of R72 its opcode stands in, or by none. -/
theorem decode_reads (w : CmdWord) : Reads w (decode w) := by
  unfold decode
  dsimp only
  split
  next h => exact reads_formatZ 0x00#8 h (by decide) rfl rfl
  next h => exact reads_formatZ 0x01#8 h (by decide) rfl rfl
  next h => exact reads_formatI 0x02#8 h (by decide) (selLegal_eq_wellFormed _) rfl
  next h => exact reads_formatI 0x03#8 h (by decide) rfl rfl
  next h => exact reads_formatZ 0x04#8 h (by decide) rfl rfl
  next h => exact reads_formatI 0x10#8 h (by decide) (slotLegal_eq_wellFormed _) rfl
  next h => exact reads_formatZ 0x11#8 h (by decide) rfl rfl
  next h => exact reads_formatI 0x12#8 h (by decide) rfl rfl
  next h => exact reads_formatI 0x13#8 h (by decide) rfl rfl
  next h => exact reads_formatZ 0x14#8 h (by decide) rfl rfl
  next h => exact reads_formatI 0x15#8 h (by decide) (bitLegal_eq_decide _) rfl
  next h => exact reads_formatZ 0x20#8 h (by decide) rfl rfl
  next h => exact reads_formatI 0x21#8 h (by decide) rfl rfl
  next h => exact reads_formatI 0x22#8 h (by decide) rfl rfl
  next h => exact reads_formatZ 0x23#8 h (by decide) rfl rfl
  next h => exact reads_formatZ 0x24#8 h (by decide) rfl rfl
  next h => exact reads_formatZ 0x30#8 h (by decide) rfl rfl
  next h => exact reads_formatI 0x31#8 h (by decide) (bitLegal_eq_decide _) rfl
  next h => exact reads_formatI 0x32#8 h (by decide) rfl rfl
  next h => exact reads_formatI 0x40#8 h (by decide) rfl rfl
  next h => exact reads_formatZ 0x41#8 h (by decide) rfl rfl
  next h => exact reads_formatI 0x42#8 h (by decide) rfl rfl
  next => refine .unknown ?_ ?_ <;> simp [← opField_toNat, formatZOpcodes, formatIOpcodes] <;> tauto

@[simp] theorem formatZ_eq_ok {imm : Byte} {i j : Instr} : formatZ imm i = .ok j ↔ imm = 0#8 ∧ i = j := by
  unfold formatZ
  split_ifs <;> simp [*]

@[simp] theorem formatZ_eq_error {imm : Byte} {i : Instr} {e : Illegal} :
    formatZ imm i = .error e ↔ imm ≠ 0#8 ∧ .nonzeroImm = e := by
  unfold formatZ
  split_ifs <;> simp [*]

@[simp] theorem formatI_eq_ok {legal : Bool} {i j : Instr} :
    formatI legal i = .ok j ↔ legal = true ∧ i = j := by
  cases legal <;> simp [formatI]

@[simp] theorem formatI_eq_error {legal : Bool} {i : Instr} {e : Illegal} :
    formatI legal i = .error e ↔ legal = false ∧ .operandRange = e := by
  cases legal <;> simp [formatI]

/-! ### Decoder and encoder -/

theorem encode_of_decode {w : CmdWord} {i : Instr} (h : decode w = .ok i) :
    i.wellFormed = true ∧ encode i = w := by
  generalize hd : decode w = d at h
  cases hd ▸ decode_reads w with
  | formatZ _ hwf henc =>
    obtain ⟨himm, rfl⟩ := formatZ_eq_ok.1 h
    exact ⟨hwf, by rw [henc, ← himm, word_fields]⟩
  | formatI _ hlegal henc =>
    obtain ⟨hok, rfl⟩ := formatI_eq_ok.1 h
    exact ⟨hlegal ▸ hok, henc⟩
  | unknown => cases h

theorem decode_encode {i : Instr} (h : i.wellFormed = true) : decode (encode i) = .ok i := by
  cases i with
  | nop | blkReset | pixRd | htBegin | hdReset | crcReset | crcRead | crcCheck | inReset | dfConfig =>
    simp [decode, encode]
  | paShift | htCnt | htSym | crcByte | crcExpb | inByte | dfHdrb | dfByte => simp [decode, encode]
  | stRead sel => simpa [decode, encode, selLegal_eq_wellFormed] using h
  | htSel t => simpa [decode, encode, slotLegal_eq_wellFormed] using h
  | hdBit b | inRoute b => simpa [decode, encode, bitLegal_eq_decide, Instr.wellFormed] using h

/-- Settles O1: the decoder's reading of a word gives the forward direction, the fields of a command's word the
other. -/
theorem decodeAndEncodeAgree : Obligations.DecodeAndEncodeAgree := by
  refine fun w i => ⟨encode_of_decode, ?_⟩
  rintro ⟨hwf, rfl⟩
  exact decode_encode hwf

/-! ### Illegal words -/

/-- The operand of a command is outside its legal values: the third reason of R74. -/
def IllegalOperand (op imm : Nat) : Prop :=
  (op = 0x02 ∧ imm ∉ statusSelectors) ∨ (op = 0x10 ∧ 7 < imm) ∨ (op = 0x15 ∧ 1 < imm) ∨ (op = 0x31 ∧ 1 < imm)

theorem illFormed_iff (i : Instr) :
    i.wellFormed = false ↔ IllegalOperand (opcode i) (operand i).toNat := by
  cases i <;> simp [Instr.wellFormed, IllegalOperand, opcode, operand]

/-- An operand can be illegal in Format I only. -/
theorem formatI_of_illegalOperand {op imm : Nat} (h : IllegalOperand op imm) : op ∈ formatIOpcodes := by
  obtain ⟨rfl, -⟩ | ⟨rfl, -⟩ | ⟨rfl, -⟩ | ⟨rfl, -⟩ := h <;> decide

theorem formatIOpcodes_disjoint : ∀ op ∈ formatIOpcodes, op ∉ formatZOpcodes := by decide

theorem decode_illegal_iff (w : CmdWord) :
    (decode w = .error .unknownOpcode ↔
      w.toNat / 256 ∉ formatZOpcodes ∧ w.toNat / 256 ∉ formatIOpcodes) ∧
    (decode w = .error .nonzeroImm ↔ w.toNat / 256 ∈ formatZOpcodes ∧ w.toNat % 256 ≠ 0) ∧
    (decode w = .error .operandRange ↔ IllegalOperand (w.toNat / 256) (w.toNat % 256)) := by
  have himm : immField w = 0#8 ↔ w.toNat % 256 = 0 := by rw [← immField_toNat, ← BitVec.toNat_inj]; rfl
  generalize hd : decode w = d
  cases hd ▸ decode_reads w with
  | formatZ hop =>
    have hi := fun h => formatIOpcodes_disjoint _ h hop
    have hlegal := mt (formatI_of_illegalOperand (imm := w.toNat % 256)) hi
    simp [hop, himm, hlegal]
  | formatI hop hlegal henc =>
    have hz := formatIOpcodes_disjoint _ hop
    obtain ⟨hopcode, hoperand⟩ := fields_of_encode henc
    simp [hop, hz, hlegal, illFormed_iff, ← hopcode, ← hoperand]
  | unknown hz hi =>
    have hlegal := mt (formatI_of_illegalOperand (imm := w.toNat % 256)) hi
    simp [hz, hi, hlegal]

/-- Settles O2: the reasons by the decoder's reading of the word, the effect by the step on an illegal word. -/
theorem illegalWordsRaiseCauseSix : Obligations.IllegalWordsRaiseCauseSix := by
  refine ⟨fun w => ?_, fun s w rest e hin hd => ⟨fun hf => ?_, fun hf => ?_⟩⟩
  · obtain ⟨hu, hz, hi⟩ := decode_illegal_iff w
    refine ⟨hu.trans ?_, hz, hi⟩
    simp only [formatZOpcodes, formatIOpcodes, List.mem_cons, List.not_mem_nil, or_false, not_or]
    tauto
  · refine (step_illegal hin hd).trans ((illegalWord_raises (s := { s with inputs := rest }) e hf).trans ?_)
    cases e <;> rfl
  · exact ⟨_, (step_illegal hin hd).trans (command_faulted _ hf)⟩

/-- Settles O3: the decoder evaluated on each word. -/
theorem writtenOutWordsDecode : Obligations.WrittenOutWordsDecode := by
  unfold Obligations.WrittenOutWordsDecode
  decide

/-! ### Response words -/

theorem rsp_toNat (code : BitVec 4) (data : Word) :
    (rsp code data).toNat = code.toNat * 2 ^ 32 + data.toNat := by
  rw [rsp, toNat_append_fields]
  omega

theorem rspOk_toNat (d : Word) : (rspOk d).toNat = d.toNat := by
  rw [rspOk, rsp_toNat]
  exact Nat.zero_add _

theorem rspPending_toNat (n : BitVec 5) (c : BitVec 16) :
    (rspPending n c).toNat = 1 * 2 ^ 32 + n.toNat * 2 ^ 16 + c.toNat := by
  rw [rspPending, rsp_toNat, BitVec.toNat_setWidth_of_le (by decide), toNat_append_fields]
  change 1 * 2 ^ 32 + _ = _
  ring

theorem rspHit_toNat (n : BitVec 5) (y : Byte) :
    (rspHit n y).toNat = 2 * 2 ^ 32 + n.toNat * 256 + y.toNat := by
  rw [rspHit, rsp_toNat, BitVec.toNat_setWidth_of_le (by decide), toNat_append_fields]
  change 2 * 2 ^ 32 + _ = _
  ring

theorem rspFault_toNat (r : Bool) (f u : Byte) :
    (rspFault r f u).toNat = 15 * 2 ^ 32 + r.toNat * 2 ^ 16 + u.toNat * 256 + f.toNat := by
  rw [rspFault, rsp_toNat, BitVec.toNat_setWidth_of_le (by decide), toNat_append_fields, toNat_append_fields,
    BitVec.toNat_ofBool]
  change 15 * 2 ^ 32 + _ = _
  ring

/-- The code of the response is `OK`, `PENDING` or `HIT` (R77). -/
def Completion (r : Rsp) : Prop := r.toNat / 2 ^ 32 ∈ [0, 1, 2]

theorem completion_rsp {code : BitVec 4} (data : Word) (h : code.toNat ∈ [0, 1, 2]) :
    Completion (rsp code data) := by
  have := data.isLt
  have hcode : (rsp code data).toNat / 2 ^ 32 = code.toNat := by rw [rsp_toNat]; omega
  rwa [Completion, hcode]

theorem completion_rspOk (d : Word) : Completion (rspOk d) := completion_rsp d (by decide)

theorem completion_rspPending (n : BitVec 5) (c : BitVec 16) : Completion (rspPending n c) :=
  completion_rsp _ (by decide)

theorem completion_rspHit (n : BitVec 5) (y : Byte) : Completion (rspHit n y) := completion_rsp _ (by decide)

/-! ### What a piece of a command completes with -/

/-- Where a piece completes, its answer and what it leaves satisfy `P`. -/
def Res.Completes {σ α : Type} (r : Res σ α) (P : α → σ → Prop) : Prop :=
  match r with
  | .ok a s => P a s
  | .trap _ _ => True
  | .stop _ => True

/-- A command of one unit completes with a response that is no `FAULT`. -/
def Res.Answers {σ : Type} (r : Res σ Rsp) : Prop := r.Completes fun a _ => Completion a

section
variable {σ α : Type}

theorem answers_bind {r : Res σ α} {f : α → σ → Res σ Rsp} (hf : ∀ a s, (f a s).Answers) :
    (r.bind f).Answers := by
  cases r with
  | ok a s => exact hf a s
  | trap t s => trivial
  | stop e => trivial

end

/-- A command on the block completes with a response that is no `FAULT`, and leaves the fault pair
alone (R264). -/
def CompletesIn (b : Block) (r : Res Block Rsp) : Prop :=
  r.Completes fun a c => Completion a ∧ c.fault = b.fault

theorem completes_within {σ : Type} {r : Res σ Rsp} {put : σ → Block} {b : Block} (h : r.Answers)
    (hput : ∀ u, (put u).fault = b.fault) : CompletesIn b (r.within put) := by
  cases r with
  | ok a s => exact ⟨h, hput s⟩
  | trap t s => trivial
  | stop e => trivial

section
variable {b : Block}

theorem onHuff_completes {f : Huff → Res Huff Rsp} (h : (f b.huff).Answers) : CompletesIn b (onHuff f b) :=
  completes_within h fun _ => rfl

theorem onCrc_completes {f : Crc → Res Crc Rsp} (h : (f b.crc).Answers) : CompletesIn b (onCrc f b) :=
  completes_within h fun _ => rfl

theorem onInfl_completes {f : Infl → Res Infl Rsp} (h : (f b.infl).Answers) : CompletesIn b (onInfl f b) :=
  completes_within h fun _ => rfl

theorem onDefilt_completes {f : Defilt → Res Defilt Rsp} (h : (f b.df).Answers) :
    CompletesIn b (onDefilt f b) :=
  completes_within h fun _ => rfl

theorem onPipe_completes {f : Pipe → Res Pipe Rsp}
    (h : (f { infl := b.infl, out := b.out, df := b.df }).Answers) : CompletesIn b (onPipe f b) :=
  completes_within h fun _ => rfl

end

theorem pixRdBody_completes (cap : Word) (b : Block) :
    CompletesIn b (pixRdBody cap b) := by
  unfold pixRdBody
  split_ifs
  · split
    · exact ⟨completion_rspOk _, rfl⟩
    · trivial
  · trivial

section
variable (h : Huff)

theorem htSelBody_answers (t : Fin 8) : (htSelBody t h).Answers := by
  unfold htSelBody
  split_ifs
  · exact completion_rspOk _
  · trivial

theorem htCntBody_answers (n : Byte) : (htCntBody n h).Answers := by
  unfold htCntBody
  dsimp only
  split_ifs
  · split
    · exact completion_rspOk _
    · trivial
  · exact completion_rspOk _
  · trivial
  · trivial

theorem htSymBody_answers (p : Byte) : (htSymBody p h).Answers := by
  unfold htSymBody
  dsimp only
  split_ifs
  · split
    · exact completion_rspOk _
    · trivial
  · trivial
  · trivial

theorem hdBitBody_answers (b : Bool) : (hdBitBody b h).Answers := by
  unfold hdBitBody
  split_ifs
  · split
    · exact completion_rspHit _ _
    · exact completion_rspPending _ _
    · trivial
  · trivial

end

theorem crcCheckBody_answers (c : Crc) : (crcCheckBody c).Answers := by
  unfold crcCheckBody
  split_ifs
  · exact completion_rspOk _
  · trivial

theorem inByteBody_answers (cap : Word) (d : Byte) (p : Pipe) : (inByteBody cap d p).Answers := by
  unfold inByteBody
  split_ifs
  · trivial
  · exact answers_bind fun _ _ => completion_rspOk _

section
variable (cap : Word) (d : Byte) (u : Defilt)

theorem dfHdrbBody_answers : (dfHdrbBody d u).Answers := by
  unfold dfHdrbBody
  split_ifs
  · exact completion_rspOk _
  · trivial

theorem dfConfigBody_answers : (dfConfigBody cap u).Answers := by
  unfold dfConfigBody
  split_ifs
  · split
    · trivial
    · split
      · trivial
      · exact completion_rspOk _
  · trivial

theorem dfByteBody_answers : (dfByteBody cap d u).Answers := answers_bind fun _ _ => completion_rspOk _

end

/-! ### The one response to a command word -/

/-- `r` is a response of a block that goes from `b` to `c`: a completion that leaves no fault behind or changes
nothing, or a `FAULT` with the pair as it stands in `c` (R76 to R78). -/
def Response (b c : Block) (r : Rsp) : Prop :=
  (Completion r ∧ (c.fault = 0#8 ∨ c = b)) ∨
    (c.fault ≠ 0#8 ∧
      r.toNat = 15 * 2 ^ 32 + (if b.fault = 0#8 then 0 else 2 ^ 16) + c.fsub.toNat * 256 + c.fault.toNat)

theorem response_takeFault {b : Block} (c : Block) (t : Trap) (hf : b.fault = 0#8) :
    Response b { c with fault := t.cause, fsub := t.sub } (rspFault false t.cause t.sub) :=
  .inr ⟨trap_cause_ne_zero t, by rw [rspFault_toNat, if_pos hf]; rfl⟩

theorem response_refuse {b : Block} (hf : b.fault ≠ 0#8) : Response b b (rspFault true b.fault b.fsub) :=
  .inr ⟨hf, by rw [rspFault_toNat, if_neg hf]; rfl⟩

/-- What `f` does in a machine with the block `b` and the parameter `cap`, whatever its inputs and responses
are: it gives one response and a block, or the model stops. -/
inductive Responds (cap : Word) (b : Block) (f : State → Host.Outcome State Fault Refusal) : Prop where
  /-- One response, and nothing but the block changes. -/
  | answers (r : Rsp) (c : Block) (hr : Response b c r)
      (hf : ∀ s, s.blk = b → s.pixcap = cap → f s = .next (answered r c s))
  /-- The model stops. -/
  | stops (e : Fault) (hf : ∀ s, s.blk = b → s.pixcap = cap → f s = .fault e)

section
variable {cap : Word} {b : Block} {f : State → Host.Outcome State Fault Refusal}

/-- A command that is refused in a faulted block and otherwise runs its body responds as the body completes. -/
theorem responds_command (body : Block → Res Block Rsp) (hbody : CompletesIn b (body b))
    (hf : ∀ s, s.blk = b → s.pixcap = cap → f s = command s body) : Responds cap b f := by
  by_cases h0 : b.fault = 0#8
  · have hrun : ∀ s, s.blk = b → s.pixcap = cap → f s = finish s (body b) := by
      rintro s rfl hp
      exact (hf s rfl hp).trans (command_runs body h0)
    cases hr : body b with
    | ok r c =>
      rw [hr] at hbody hrun
      exact .answers r c (.inl ⟨hbody.1, .inl (hbody.2.trans h0)⟩) hrun
    | trap t c =>
      rw [hr] at hrun
      exact .answers _ _ (response_takeFault c t h0) hrun
    | stop e =>
      rw [hr] at hrun
      exact .stops e hrun
  · refine .answers _ b (response_refuse h0) ?_
    rintro s rfl hp
    exact (hf s rfl hp).trans (command_faulted body h0)

/-- A command that raises a fault at once. -/
theorem responds_trap (t : Trap)
    (hf : ∀ s, s.blk = b → s.pixcap = cap → f s = command s fun b => .trap t b) : Responds cap b f :=
  responds_command (fun b => .trap t b) trivial hf

theorem illegalWord_responds (e : Illegal) : Responds cap b (illegalWord e) :=
  responds_trap (illegalTrap e) fun _ _ _ => rfl

theorem stRead_responds (sel : Byte) : Responds cap b (exec (.stRead sel)) := by
  cases hv : statusView b sel with
  | some v =>
    exact .answers (rspOk v) b (.inl ⟨completion_rspOk v, .inr rfl⟩) fun _ h _ =>
      h ▸ execStRead_view (h ▸ hv) rfl
  | none => exact responds_trap .operandRange fun _ h _ => by simp only [exec, execStRead, h, hv]

theorem htSel_responds (t : Byte) : Responds cap b (exec (.htSel t)) := by
  cases ht : slotOperand t with
  | some slot =>
    exact responds_command _ (onHuff_completes (htSelBody_answers _ slot)) fun _ _ _ => by
      simp only [exec, execHtSel, ht]
  | none => exact responds_trap .operandRange fun _ _ _ => by simp only [exec, execHtSel, ht]

theorem hdBit_responds (x : Byte) : Responds cap b (exec (.hdBit x)) := by
  cases hx : bitOperand x with
  | some bit =>
    exact responds_command _ (onHuff_completes (hdBitBody_answers _ bit)) fun _ _ _ => by
      simp only [exec, execHdBit, hx]
  | none => exact responds_trap .operandRange fun _ _ _ => by simp only [exec, execHdBit, hx]

theorem inRoute_responds (x : Byte) : Responds cap b (exec (.inRoute x)) := by
  cases hx : bitOperand x with
  | some bit =>
    exact responds_command (onInfl (inRouteBody bit)) (onInfl_completes (completion_rspOk _)) fun _ _ _ => by
      simp only [exec, execInRoute, hx]
  | none => exact responds_trap .operandRange fun _ _ _ => by simp only [exec, execInRoute, hx]

/-- Every command gives one response, or the model stops. -/
theorem exec_responds (i : Instr) : Responds cap b (exec i) := by
  have ok := completion_rspOk
  cases i with
  | nop => exact .answers (rspOk 0#32) b (.inl ⟨ok _, .inr rfl⟩) fun _ h _ => h ▸ rfl
  | blkReset => exact .answers (rspOk 0#32) Block.reset (.inl ⟨ok _, .inl rfl⟩) fun _ _ _ => rfl
  | stRead sel => exact stRead_responds sel
  | paShift d =>
    exact responds_command (fun b => .ok (rspOk (shiftInByte b.pixa d)) { b with pixa := shiftInByte b.pixa d })
      ⟨ok _, rfl⟩ fun _ _ _ => rfl
  | pixRd => exact responds_command _ (pixRdBody_completes cap b) fun _ _ h => h ▸ rfl
  | htSel t => exact htSel_responds t
  | htBegin => exact responds_command (onHuff htBeginBody) (onHuff_completes (ok _)) fun _ _ _ => rfl
  | htCnt n => exact responds_command _ (onHuff_completes (htCntBody_answers _ n)) fun _ _ _ => rfl
  | htSym p => exact responds_command _ (onHuff_completes (htSymBody_answers _ p)) fun _ _ _ => rfl
  | hdReset => exact responds_command (onHuff hdResetBody) (onHuff_completes (ok _)) fun _ _ _ => rfl
  | hdBit x => exact hdBit_responds x
  | crcReset => exact responds_command (onCrc crcResetBody) (onCrc_completes (ok _)) fun _ _ _ => rfl
  | crcByte d => exact responds_command (onCrc (crcByteBody d)) (onCrc_completes (ok _)) fun _ _ _ => rfl
  | crcExpb d => exact responds_command (onCrc (crcExpbBody d)) (onCrc_completes (ok _)) fun _ _ _ => rfl
  | crcRead => exact responds_command (onCrc crcReadBody) (onCrc_completes (ok _)) fun _ _ _ => rfl
  | crcCheck => exact responds_command _ (onCrc_completes (crcCheckBody_answers _)) fun _ _ _ => rfl
  | inReset => exact responds_command (onInfl inResetBody) (onInfl_completes (ok _)) fun _ _ _ => rfl
  | inRoute x => exact inRoute_responds x
  | inByte d => exact responds_command _ (onPipe_completes (inByteBody_answers cap d _)) fun _ _ h => h ▸ rfl
  | dfHdrb d => exact responds_command _ (onDefilt_completes (dfHdrbBody_answers d _)) fun _ _ _ => rfl
  | dfConfig => exact responds_command _ (onDefilt_completes (dfConfigBody_answers cap _)) fun _ _ h => h ▸ rfl
  | dfByte d => exact responds_command _ (onDefilt_completes (dfByteBody_answers cap d _)) fun _ _ h => h ▸ rfl

/-- The step on a command word responds, on the state from which the word has been taken. -/
theorem step_responds (w : CmdWord) : ∃ f, Responds cap b f ∧
    ∀ (s : State) (rest : List Input), s.inputs = .command w :: rest → step s = f { s with inputs := rest } := by
  cases hd : decode w with
  | ok i => exact ⟨exec i, exec_responds i, fun _ _ h => step_command h hd⟩
  | error e => exact ⟨illegalWord e, illegalWord_responds e, fun _ _ h => step_illegal h hd⟩

end

/-- A command word that steps to a next state gives one response, and the same response and block in every
machine with the same block and `PIXCAP`. -/
theorem step_answers {s t : State} {w : CmdWord} {rest : List Input} (hin : s.inputs = .command w :: rest)
    (h : step s = .next t) : ∃ r c, Response s.blk c r ∧
      ∀ (s' : State) (rest' : List Input), s'.blk = s.blk → s'.pixcap = s.pixcap →
        s'.inputs = .command w :: rest' → step s' = .next (answered r c { s' with inputs := rest' }) := by
  obtain ⟨f, hresp, hstep⟩ := step_responds (cap := s.pixcap) (b := s.blk) w
  rw [hstep s rest hin] at h
  cases hresp with
  | answers r c hr hf =>
    exact ⟨r, c, hr, fun s' rest' hb hp hin' => (hstep s' rest' hin').trans (hf { s' with inputs := rest' } hb hp)⟩
  | stops e hf => cases (hf { s with inputs := rest } rfl rfl).symm.trans h

/-- Settles O7: the layouts by the fields of each response, the response by `step_answers`. -/
theorem responseWords : Obligations.ResponseWords := by
  refine ⟨⟨rspOk_toNat, rspPending_toNat, rspHit_toNat, rspFault_toNat⟩, fun s t w rest hin h => ?_⟩
  obtain ⟨r, c, hr, hall⟩ := step_answers hin h
  cases (hall s rest rfl rfl hin).symm.trans h
  exact ⟨rfl, rfl, r, rfl, hr⟩

/-- Settles O8: `step_answers`, in the one machine and in the other. -/
theorem responseDependsOnBlockAndWord : Obligations.ResponseDependsOnBlockAndWord := by
  intro s s' t w rest rest' hb hp hin hin' h
  obtain ⟨r, c, -, hall⟩ := step_answers hin h
  cases (hall s rest rfl rfl hin).symm.trans h
  exact ⟨r, rfl, hall s' rest' hb hp hin'⟩

end Sys2Proof.Machine

/-! ## The proofs: HUFF (40_huffman.md)

The next code of a build and the bound on `LASTCODE`, the commands of the builder, the lookup bit by bit, and
what a whole build leaves in the table. -/

namespace Sys2Proof.Machine

open Sys2Proof.Safety

/-! ### The words of a Format Z command -/

/-- A Format Z opcode of the decoder meets `EncodedZ` (R71, R74 (b)). -/
theorem encodedZ_of_formatZ {op : Nat} {i : Instr}
    (hdec : ∀ w : CmdWord, (opField w).toNat = op → decode w = formatZ (immField w) i) : EncodedZ op i := by
  intro w hop
  have hd := hdec w ((opField_toNat w).trans hop)
  rw [← immField_toNat]
  refine ⟨fun h => by rw [hd, BitVec.eq_of_toNat_eq (y := 0#8) h]; rfl, fun h => ?_⟩
  have herr : decode w = .error .nonzeroImm := by
    rw [hd, formatZ_eq_error]
    exact ⟨fun h0 => h (by rw [h0]; rfl), rfl⟩
  exact ⟨herr, fun s rest hin hf => (step_illegal hin herr).trans (illegalWord_raises .nonzeroImm hf)⟩

/-! ### A command of HUFF in a block that is not faulted -/

section
variable {s : State} {f : Huff → Res Huff Rsp}

theorem onHuff_answers {r : Rsp} {g : Huff} (hf : s.blk.fault = 0#8) (h : f s.blk.huff = .ok r g) :
    command s (onHuff f) = .next (answered r { s.blk with huff := g } s) := by
  rw [command_runs _ hf, onHuff, h]
  rfl

theorem onHuff_raises {t : Trap} (hf : s.blk.fault = 0#8) (h : f s.blk.huff = .trap t s.blk.huff) :
    command s (onHuff f) = .next (raised t.cause.toNat t.sub.toNat s) :=
  command_raises hf (by rw [onHuff, h]; rfl)

theorem exec_htSel {x : Byte} {t : Fin 8} (h : slotOperand x = some t) :
    exec (.htSel x) s = command s (onHuff (htSelBody t)) := by
  simp only [exec, execHtSel, h]

theorem exec_hdBit {x : Byte} {b : Bool} (h : bitOperand x = some b) :
    exec (.hdBit x) s = command s (onHuff (hdBitBody b)) := by
  simp only [exec, execHdBit, h]

end

theorem slotOperand_ofNat (t : Fin 8) : slotOperand (BitVec.ofNat 8 t.val) = some t := by
  revert t
  decide

theorem bitOperand_ofNat (b : Bool) : bitOperand (BitVec.ofNat 8 b.toNat) = some b := by
  cases b <;> rfl

/-- An entry of a vector, read after a write to an entry. -/
theorem getElem_set_fin {α : Type} {n : Nat} (v : Vector α n) (i j : Fin n) (x : α) :
    (v.set i x)[j] = if j = i then x else v[j] := by
  simp only [Fin.getElem_fin, Vector.getElem_set, Fin.ext_iff, eq_comm]

/-! ### Selecting a slot and beginning a build -/

/-- Settles O21: the words by `encodedI_of_formatI`, the two cases by the precondition of R101. -/
theorem selectSlot : Obligations.SelectSlot := by
  refine ⟨encodedI_of_formatI (check := slotLegal) (fun w h => by simp only [decode, h])
    (fun b => decide_eq_true_iff.trans Nat.lt_succ_iff), fun s t hf => ⟨fun hp hn => ?_, fun hbusy => ?_⟩⟩
  · exact (exec_htSel (slotOperand_ofNat t)).trans (onHuff_answers hf (if_pos ⟨hp, hn⟩))
  · exact (exec_htSel (slotOperand_ofNat t)).trans
      (onHuff_raises (t := .selectBusy) hf (if_neg fun ⟨hp, hn⟩ => hbusy.elim (· hp) (· hn)))

/-- Settles O22: the words by `encodedZ_of_formatZ`, the registers and slots by the body of `HT_BEGIN`. -/
theorem beginBuild : Obligations.BeginBuild := by
  refine ⟨encodedZ_of_formatZ fun w h => by simp only [decode, h], fun s hf =>
    ⟨_, onHuff_answers hf rfl, rfl, ?_, ?_, fun t ht => ⟨?_, ?_⟩, fun k => ?_, rfl, rfl, rfl, rfl, rfl, rfl,
      rfl, rfl⟩⟩
  · exact (getElem_set_fin _ _ _ _).trans (if_pos rfl)
  · exact (getElem_set_fin _ _ _ _).trans (if_pos rfl)
  · exact (getElem_set_fin _ _ _ _).trans (if_neg ht)
  · exact (getElem_set_fin _ _ _ _).trans (if_neg ht)
  · exact Vector.getElem_replicate ..

/-! ### The registers during a build -/

/-- What a good unit relies on in phase `COUNTS` (R102, R103). -/
structure Counting (h : Huff) : Prop where
  cidx : h.cidx.toNat < 16
  curl : h.curl = 0#5
  remain : h.remain.toNat = countSum h.cnt
  lastCode : h.lastCode = 0xFFFFFFFF#32
  lastBits : h.lastBits = 0#5
  table : h.tab[h.tsel] = []
  later : ∀ k : Fin 16, h.cidx.toNat ≤ k.val → h.cnt[k] = 0#8

/-- What a good unit relies on in phase `SYMS`, with `CURL = k + 1` (R103, R104). -/
structure Inserting (h : Huff) (k : Fin 16) : Prop where
  curl : h.curl.toNat = k.val + 1
  remain : h.remain.toNat = countSum h.cnt
  remain_ne : h.remain ≠ 0#12
  lastBits : h.lastBits.toNat ≤ k.val + 1
  before : ∀ j : Fin 16, j < k → h.cnt[j] = 0#8
  current : h.cnt[k] ≠ 0#8

theorem counting_of_inv {h : Huff} (hi : HuffInv h) (hp : h.bphase = .counts) : Counting h := by
  have hb := hi.build
  simp only [BuildOk, hp] at hb
  obtain ⟨hcidx, hcurl, hrem, hcode, hbits, -, htab, hlater⟩ := hb
  exact ⟨hcidx, hcurl, hrem, hcode, hbits, htab, hlater⟩

theorem inserting_of_inv {h : Huff} (hi : HuffInv h) (hp : h.bphase = .syms) : ∃ k, Inserting h k := by
  have hb := hi.build
  simp only [BuildOk, hp] at hb
  obtain ⟨-, hlo, hhi, hne, hrem, -, -, hbits, hbefore, hcur⟩ := hb
  have hk : h.curl.toNat - 1 + 1 = h.curl.toNat := Nat.sub_add_cancel hlo
  refine ⟨⟨h.curl.toNat - 1, by omega⟩, hk.symm, hrem, hne, by rwa [hk], fun j hj => ?_, hcur _ hk⟩
  exact hbefore j (by simp only [Fin.lt_def] at hj; omega)

/-! ### The next length of a build -/

/-- `g` is `h` when its build has come to its end, or has gone on to the least length from `lo` up that has a
code (R103, R104). -/
structure NextLength (lo : Nat) (h g : Huff) : Prop where
  /-- The phase, the length and the readiness are all that changes. -/
  frame : g = { h with bphase := g.bphase, curl := g.curl, ready := g.ready }
  /-- The other slots stay as ready as they were. -/
  others : ∀ t : Fin 8, t ≠ h.tsel → g.ready[t] = h.ready[t]
  /-- With no code left the slot is ready. -/
  done : h.remain = 0#12 → g.bphase = .idle ∧ g.ready[h.tsel] = true ∧ g.curl = 0#5
  /-- With a code left the insertions go on at its length. -/
  more : h.remain ≠ 0#12 → g.bphase = .syms ∧ g.ready = h.ready ∧
    ∃ k : Fin 16, g.curl.toNat = k.val + 1 ∧ lo ≤ k.val + 1 ∧ h.cnt[k] ≠ 0#8 ∧
      ∀ j : Fin 16, lo ≤ j.val + 1 → j < k → h.cnt[j] = 0#8

section
variable {lo : Nat} {h g : Huff} (hg : NextLength lo h g)
include hg

theorem NextLength.tsel : g.tsel = h.tsel := by rw [hg.frame]
theorem NextLength.cnt : g.cnt = h.cnt := by rw [hg.frame]
theorem NextLength.cidx : g.cidx = h.cidx := by rw [hg.frame]
theorem NextLength.remain : g.remain = h.remain := by rw [hg.frame]
theorem NextLength.lastCode : g.lastCode = h.lastCode := by rw [hg.frame]
theorem NextLength.lastBits : g.lastBits = h.lastBits := by rw [hg.frame]
theorem NextLength.tab : g.tab = h.tab := by rw [hg.frame]
theorem NextLength.table : g.tab[g.tsel] = h.tab[h.tsel] := by rw [hg.frame]
theorem NextLength.hdn : g.hdn = h.hdn := by rw [hg.frame]
theorem NextLength.hdcand : g.hdcand = h.hdcand := by rw [hg.frame]

end

theorem nextLength_finish {lo : Nat} {h : Huff} (h0 : h.remain = 0#12) : NextLength lo h (finishBuild h) where
  frame := rfl
  others _ ht := (getElem_set_fin _ _ _ _).trans (if_neg ht)
  done _ := ⟨rfl, (getElem_set_fin _ _ _ _).trans (if_pos rfl), rfl⟩
  more hne := absurd h0 hne

theorem nextLength_continue {lo l : Nat} {h : Huff} (hne : h.remain ≠ 0#12) (hl : firstLength h.cnt lo = some l) :
    NextLength lo h { h with bphase := .syms, curl := BitVec.ofNat 5 l } where
  frame := rfl
  others _ _ := rfl
  done h0 := absurd h0 hne
  more _ := by
    obtain ⟨hlo, h1, h16, hcur, hbefore⟩ := firstLength_some hl
    have hk : l - 1 + 1 = l := Nat.sub_add_cancel h1
    refine ⟨rfl, rfl, ⟨l - 1, by omega⟩, ?_, by rwa [hk], hcur _ hk, fun j hj hjk => hbefore j hj ?_⟩
    · rw [hk]
      exact Nat.mod_eq_of_lt (by omega)
    · simp only [Fin.lt_def] at hjk
      omega

/-- With `REMAIN` the sum of the counts and no code below `lo`, the build ends or goes on. -/
theorem nextLength_ok {lo : Nat} {h : Huff} (hr : h.remain.toNat = countSum h.cnt)
    (hlo : ∀ k : Fin 16, k.val + 1 < lo → h.cnt[k] = 0#8) :
    ∃ g, nextLength lo h = .ok g ∧ NextLength lo h g := by
  obtain ⟨h0, e⟩ | ⟨hne, l, hl, e⟩ := nextLength_runs hr hlo
  · exact ⟨_, e, nextLength_finish h0⟩
  · exact ⟨_, e, nextLength_continue hne hl⟩

/-! ### Loading a count -/

/-- The registers once `HT_CNT n` has loaded `CNT[k + 1]`, before it looks for a length (R103). -/
def loaded (k : Fin 16) (n : Byte) (h : Huff) : Huff :=
  { h with
    cidx := BitVec.ofNat 5 (k.val + 1)
    cnt := h.cnt.set k n
    remain := BitVec.ofNat 12 (h.remain.toNat + n.toNat) }

theorem loaded_cidx (k : Fin 16) (n : Byte) (h : Huff) : (loaded k n h).cidx.toNat = k.val + 1 :=
  Nat.mod_eq_of_lt (by omega)

section
variable {h : Huff} {n : Byte} {k : Fin 16}

/-- The count loaded is one that was zero: `REMAIN` stays the sum of the counts. -/
theorem loaded_remain (hc : Counting h) (hk : k.val = h.cidx.toNat) :
    (loaded k n h).remain.toNat = h.remain.toNat + n.toNat ∧
      h.remain.toNat + n.toNat = countSum (loaded k n h).cnt := by
  have hz : h.cnt[k].toNat = 0 := by rw [hc.later k hk.ge]; rfl
  have hsum : countSum (h.cnt.set k n) + h.cnt[k].toNat = countSum h.cnt + n.toNat := countSum_set h.cnt k.isLt n
  have hle := countSum_le (h.cnt.set k n)
  have hrem := hc.remain
  simp only [Config.htCap] at hle
  simp only [loaded, BitVec.toNat_ofNat]
  omega

/-- `HT_CNT` in phase `COUNTS` (R103). -/
theorem htCntBody_counts (n : Byte) (hi : HuffInv h) (hp : h.bphase = .counts) :
    ∃ (k : Fin 16) (g : Huff), k.val = h.cidx.toNat ∧
      htCntBody n h = .ok (rspOk (BitVec.ofNat 32 (h.remain.toNat + n.toNat))) g ∧
      (k.val + 1 ≠ 16 → g = loaded k n h) ∧ (k.val + 1 = 16 → NextLength 1 (loaded k n h) g) := by
  have hc := counting_of_inv hi hp
  obtain ⟨k, hk⟩ : ∃ k : Fin 16, k.val = h.cidx.toNat := ⟨⟨_, hc.cidx⟩, rfl⟩
  obtain ⟨hrem, hsum⟩ := loaded_remain (n := n) hc hk
  have hrsp : (loaded k n h).remain.setWidth 32 = BitVec.ofNat 32 (h.remain.toNat + n.toNat) := by
    rw [← hrem, BitVec.ofNat_toNat]
  by_cases h16 : k.val + 1 = 16
  · obtain ⟨g, e, hg⟩ := nextLength_ok (lo := 1) (hrem.trans hsum) fun j hj => absurd hj (by omega)
    refine ⟨k, g, hk, ?_, absurd h16, fun _ => hg⟩
    rw [← hrsp, ← hg.remain]
    simp only [loaded, hp] at e
    simp only [htCntBody, hp, if_true, ← hk, Nat.add_sub_cancel, k.isLt, dif_pos, if_pos h16, e]
  · refine ⟨k, _, hk, ?_, fun _ => rfl, (absurd · h16)⟩
    rw [← hrsp]
    simp only [htCntBody, hp, if_true, ← hk, Nat.add_sub_cancel, k.isLt, dif_pos, if_neg h16, loaded]

end

/-- Settles O23: the words by `encodedI_of_formatI`, the fault by R103's precondition, the load by
`htCntBody_counts`. -/
theorem loadCount : Obligations.LoadCount := by
  refine ⟨encodedI_of_formatI (check := fun _ => true) (fun w h => by simp only [decode, h]) (fun _ => by simp),
    fun s n hf hp => onHuff_raises (t := .countPhase) hf (if_neg hp), ?_⟩
  rintro s n h hf rfl hi hp
  have hc := counting_of_inv hi hp
  obtain ⟨k, g, hk, hbody, hmore, hlast⟩ := htCntBody_counts n hi hp
  obtain ⟨hrem, -⟩ := loaded_remain (n := n) hc hk
  have hcidx := loaded_cidx k n s.blk.huff
  have hcnt : ∀ j : Fin 16, (loaded k n s.blk.huff).cnt[j] = if j.val = k.val then n else s.blk.huff.cnt[j] :=
    fun j => by simp only [loaded, getElem_set_fin, Fin.ext_iff]
  refine ⟨g, onHuff_answers hf hbody, ?_⟩
  rw [← hk]
  by_cases h16 : k.val + 1 = 16
  · have hg := hlast h16
    have hzero : g.remain.toNat = 0 ↔ (loaded k n s.blk.huff).remain = 0#12 := by
      rw [hg.remain, ← BitVec.toNat_inj]; rfl
    have hgcidx : g.cidx.toNat = 16 := by rw [hg.cidx, hcidx, h16]
    rw [hg.cnt]
    refine ⟨by rw [hg.cidx, hcidx], hcnt, by rw [hg.remain, hrem], ?_, hg.others,
      fun hlt => absurd hgcidx hlt.ne, fun _ h0 => hg.done (hzero.1 h0), fun _ h0 => ?_⟩
    · rw [hg.frame]; rfl
    · obtain ⟨hphase, hready, j, hj, -, hcur, hbefore⟩ := hg.more (mt hzero.2 h0)
      exact ⟨hphase, by rw [hready]; rfl, j, hj, hcur, fun i hij => hbefore i (Nat.le_add_left 1 _) hij⟩
  · obtain rfl := hmore h16
    exact ⟨hcidx, hcnt, hrem, rfl, fun _ _ => rfl, fun _ => ⟨hp, rfl, rfl⟩,
      fun hlast => absurd (hcidx.symm.trans hlast) h16, fun hlast => absurd (hcidx.symm.trans hlast) h16⟩

/-! ### The codes of `assign` -/

/-- Each call strictly increases the code (R106 (a)). -/
theorem lt_assign {c : Int} (n l : Nat) (hc : -1 ≤ c) : c < (assign c n l).1 := by
  obtain ⟨k, -, e⟩ := assign_code c n l
  have hpow : (1 : Int) ≤ 2 ^ k := one_le_pow₀ (by norm_num)
  rw [e]
  nlinarith

/-- At an unchanged length the codes are consecutive (R106 (c)). -/
theorem assign_same_length (c : Int) (l : Nat) : (assign c l l).1 = c + 1 := by
  obtain ⟨k, hk, e⟩ := assign_code c l l
  obtain rfl : k = 0 := by omega
  rw [e, pow_zero, mul_one]

/-- The code space up to the new code grows by at most one code of its length (R106 (b)). -/
theorem assign_space {c : Int} {n l : Nat} (hc : -1 ≤ c) (hn : n ≤ l) (hl : l ≤ 16) :
    ((assign c n l).1 + 1) * 2 ^ (16 - l) ≤ (c + 1) * 2 ^ (16 - n) + 2 ^ (16 - l) := by
  obtain ⟨k, hk, e⟩ := assign_code c n l
  have hpow : (2 : Int) ^ k * 2 ^ (16 - l) ≤ 2 ^ (16 - n) := by
    rw [← pow_add]
    exact pow_le_pow_right₀ (by norm_num) (by omega)
  have := mul_le_mul_of_nonneg_left hpow (by omega : 0 ≤ c + 1)
  rw [e, add_mul, one_mul, mul_assoc]
  omega

/-- `assign` on natural numbers, as R105 writes its four lines. -/
theorem assign_eq_nat {c : Int} {n l inc bits code : Nat} (hinc : (inc : Int) = c + 1)
    (hbits : bits = if inc / 2 ^ n % 2 = 1 then n + 1 else n)
    (hcode : code = if bits < l then inc * 2 ^ (l - bits) else inc) : (assign c n l).1 = code := by
  have htest : ((inc : Int) >>> n) % 2 = 1 ↔ inc / 2 ^ n % 2 = 1 := by
    rw [Int.shiftRight_eq_div_pow]
    norm_cast
  simp only [assign, ← hinc, htest, ← hbits, hcode]
  split_ifs
  · push_cast; rfl
  · rfl

/-! ### The code space still to come -/

theorem codesLeft_eq_sum (cnt : Vector Byte 16) :
    codesLeft cnt = ∑ k : Fin 16, cnt[k].toNat * 2 ^ (15 - k.val) := Fin.sum_univ_def _ |>.symm

theorem codesLeft_le (cnt : Vector Byte 16) : codesLeft cnt ≤ 255 * (2 ^ 16 - 1) := by
  rw [codesLeft_eq_sum]
  calc ∑ k : Fin 16, cnt[k].toNat * 2 ^ (15 - k.val)
      ≤ ∑ k : Fin 16, 255 * 2 ^ (15 - k.val) :=
        Finset.sum_le_sum fun k _ => Nat.mul_le_mul_right _ (Nat.le_of_lt_succ cnt[k].isLt)
    _ = 255 * (2 ^ 16 - 1) := by decide

/-- Changing one count changes the code space by its codes. -/
theorem codesLeft_set (cnt : Vector Byte 16) (k : Fin 16) (v : Byte) :
    codesLeft (cnt.set k v) + cnt[k].toNat * 2 ^ (15 - k.val) = codesLeft cnt + v.toNat * 2 ^ (15 - k.val) := by
  have hrest : ∑ j ∈ Finset.univ.erase k, (cnt.set k v)[j].toNat * 2 ^ (15 - j.val) =
      ∑ j ∈ Finset.univ.erase k, cnt[j].toNat * 2 ^ (15 - j.val) :=
    Finset.sum_congr rfl fun j hj => by rw [getElem_set_fin, if_neg (Finset.ne_of_mem_erase hj)]
  rw [codesLeft_eq_sum, codesLeft_eq_sum, ← Finset.add_sum_erase _ _ (Finset.mem_univ k),
    ← Finset.add_sum_erase _ _ (Finset.mem_univ k), hrest, getElem_set_fin, if_pos rfl]
  omega

/-! ### Inserting a code -/

/-- The registers once `HT_SYM` has inserted `code` at length `k + 1`, before it looks for a length (R104). -/
def inserted (k : Fin 16) (code : Nat) (p : Byte) (h : Huff) : Huff :=
  { h with
    lastCode := BitVec.ofNat 32 code
    lastBits := BitVec.ofNat 5 (k.val + 1)
    tab := h.tab.set h.tsel (Table.insert h.tab[h.tsel] (k.val + 1, code) p)
    cnt := h.cnt.set k (h.cnt[k] - 1#8)
    remain := h.remain - 1#12 }

/-- `code` is the code that `HT_SYM` gives next, at length `k + 1` (R105), and the register holds it
(R106 (b)). -/
structure NextCode (h : Huff) (k : Fin 16) (code : Nat) : Prop where
  assigned : (assign h.lastCode.toInt h.lastBits.toNat (k.val + 1)).1 = code
  fits : code < 2 ^ 24

section
variable {h g : Huff} {k : Fin 16} {code : Nat} {p : Byte}

theorem lastCode_lt (hb : CodeBound h) : h.lastCode.toInt < 2 ^ 24 := by
  have hstart := hb.start
  have hspace := hb.space
  have hpow : (1 : Int) ≤ 2 ^ (16 - h.lastBits.toNat) := one_le_pow₀ (by norm_num)
  nlinarith

theorem inserted_lastCode (hc : NextCode h k code) :
    (inserted k code p h).lastCode.toNat = code ∧ (inserted k code p h).lastCode.toInt = code := by
  have hlt := hc.fits
  have hnat : (inserted k code p h).lastCode.toNat = code := Nat.mod_eq_of_lt (by omega)
  exact ⟨hnat, (BitVec.toInt_eq_toNat_of_lt (by rw [hnat]; omega)).trans (congrArg _ hnat)⟩

theorem inserted_lastBits : (inserted k code p h).lastBits.toNat = k.val + 1 :=
  Nat.mod_eq_of_lt (by omega)

theorem inserted_table : (inserted k code p h).tab[h.tsel] = Table.insert h.tab[h.tsel] (k.val + 1, code) p :=
  (getElem_set_fin _ _ _ _).trans (if_pos rfl)

theorem inserted_cnt_current (hs : Inserting h k) : (h.cnt[k] - 1#8).toNat + 1 = h.cnt[k].toNat := by
  have hne := hs.current
  have hlt := h.cnt[k].isLt
  bv_omega

theorem inserted_cnt (hs : Inserting h k) (j : Fin 16) :
    (inserted k code p h).cnt[j].toNat = h.cnt[j].toNat - if j.val + 1 = k.val + 1 then 1 else 0 := by
  have hcur := inserted_cnt_current hs
  simp only [inserted, getElem_set_fin, Nat.add_right_cancel_iff, ← Fin.ext_iff]
  split_ifs with hj
  · rw [hj]; omega
  · rfl

/-- One code less is still to come, in `REMAIN` and in the counts. -/
theorem inserted_remain (hs : Inserting h k) :
    (inserted k code p h).remain.toNat + 1 = h.remain.toNat ∧
      (inserted k code p h).remain.toNat = countSum (inserted k code p h).cnt := by
  have hcur := inserted_cnt_current hs
  have hsum : countSum (h.cnt.set k (h.cnt[k] - 1#8)) + h.cnt[k].toNat =
    countSum h.cnt + (h.cnt[k] - 1#8).toNat := countSum_set h.cnt k.isLt _
  have hdec : (h.remain - 1#12).toNat + 1 = h.remain.toNat := by
    have hne := hs.remain_ne
    bv_omega
  have hrem := hs.remain
  simp only [inserted]
  omega

/-- The code space up to the next code and what is still to come (R106 (b)). -/
theorem nextCode_space (hb : CodeBound h) (hs : Inserting h k) :
    ((assign h.lastCode.toInt h.lastBits.toNat (k.val + 1)).1 + 1) * 2 ^ (16 - (k.val + 1)) +
      codesLeft (inserted k code p h).cnt ≤ 255 * (2 ^ 16 - 1) := by
  have hassign := assign_space hb.start hs.lastBits k.isLt
  have hleft : codesLeft (inserted k code p h).cnt + 2 ^ (15 - k.val) = codesLeft h.cnt := by
    have hset := codesLeft_set h.cnt k (h.cnt[k] - 1#8)
    rw [← inserted_cnt_current hs, add_mul, one_mul] at hset
    simp only [inserted]
    omega
  have hspace := hb.space
  rw [← hleft] at hspace
  push_cast at hspace
  rw [show 16 - (k.val + 1) = 15 - k.val by omega] at *
  omega

theorem nextCode_of_assign (hb : CodeBound h) (hs : Inserting h k)
    (hcode : (assign h.lastCode.toInt h.lastBits.toNat (k.val + 1)).1 = code) : NextCode h k code := by
  have hspace := nextCode_space (code := 0) (p := 0#8) hb hs
  have hpow : (1 : Int) ≤ 2 ^ (16 - (k.val + 1)) := one_le_pow₀ (by norm_num)
  rw [hcode] at hspace
  refine ⟨hcode, ?_⟩
  zify
  nlinarith

theorem nextCode_exists (hb : CodeBound h) (hs : Inserting h k) : ∃ code, NextCode h k code := by
  obtain ⟨code, hcode⟩ := Int.eq_ofNat_of_zero_le (assign_nonneg h.lastBits.toNat (k.val + 1) hb.start)
  exact ⟨code, nextCode_of_assign hb hs hcode⟩

/-- Every key of the table is below the next one (R106). -/
theorem lastCode_lt_nextCode (hb : CodeBound h) (hc : NextCode h k code) : h.lastCode.toInt < code :=
  hc.assigned ▸ lt_assign h.lastBits.toNat (k.val + 1) hb.start

/-- `HT_SYM` in phase `SYMS` (R104). -/
theorem htSymBody_inserts (p : Byte) (hp : h.bphase = .syms) (hs : Inserting h k) (hc : NextCode h k code) :
    ∃ g, htSymBody p h = .ok (rspOk (BitVec.ofNat 32 ((k.val + 1) * 2 ^ 24 + code))) g ∧
      NextLength (k.val + 1) (inserted k code p h) g := by
  obtain ⟨-, hsum⟩ := inserted_remain (code := code) (p := p) hs
  obtain ⟨g, e, hg⟩ := nextLength_ok (lo := k.val + 1) hsum fun j hj => by
    have hjk : j < k := Nat.lt_of_add_lt_add_right hj
    exact (getElem_set_fin _ _ _ _).trans ((if_neg hjk.ne).trans (hs.before j hjk))
  obtain ⟨hcode, -⟩ := inserted_lastCode (p := p) hc
  refine ⟨g, ?_, hg⟩
  have hrange : 1 ≤ k.val + 1 ∧ k.val < 16 := by omega
  simp only [inserted, hp, Fin.getElem_fin] at hcode e
  simp only [htSymBody, hp, if_true, hs.curl, Nat.add_sub_cancel, dif_pos hrange, hc.assigned, assign_bits,
    BitVec.ofInt_natCast, hcode, Fin.getElem_fin, e]

/-- The next code makes a key that is not there (R106 (a)). -/
theorem find_nextCode (hb : CodeBound h) (hp : h.bphase = .syms) (hc : NextCode h k code) (l : Nat) :
    Table.find h.tab[h.tsel] (l, code) = none := by
  rw [Option.eq_none_iff_forall_ne_some]
  intro y hy
  have hkey := hb.keys hp _ (table_find_mem hy)
  exact absurd (lastCode_lt_nextCode hb hc) (not_lt.2 hkey)

end

/-- Settles O24: the words by `encodedI_of_formatI`, the fault by R104's precondition, the insertion by
`htSymBody_inserts`. -/
theorem insertCode : Obligations.InsertCode := by
  refine ⟨encodedI_of_formatI (check := fun _ => true) (fun w h => by simp only [decode, h]) (fun _ => by simp),
    fun s p hf hp => onHuff_raises (t := .symbolPhase) hf (if_neg hp), ?_⟩
  rintro s p h len inc bits code hf rfl hi hb hp hlen hinc hbits hcode
  obtain ⟨k, hs⟩ := inserting_of_inv hi hp
  obtain rfl := hlen.trans hs.curl
  have hc := nextCode_of_assign hb hs (assign_eq_nat hinc hbits hcode)
  obtain ⟨g, hbody, hg⟩ := htSymBody_inserts p hp hs hc
  obtain ⟨hrem, -⟩ := inserted_remain (code := code) (p := p) hs
  have hzero : g.remain.toNat = 0 ↔ (inserted k code p s.blk.huff).remain = 0#12 := by
    rw [hg.remain, ← BitVec.toNat_inj]; rfl
  refine ⟨g, onHuff_answers hf hbody, hc.fits, ?_⟩
  rw [hg.lastCode, hg.lastBits, hg.tab, hg.cnt, hg.remain, inserted_table]
  refine ⟨(inserted_lastCode hc).1, inserted_lastBits, find_nextCode hb hp hc _,
    fun key => table_find_insert _ _ key p,
    fun t ht => ⟨(getElem_set_fin _ _ _ _).trans (if_neg ht), hg.others t ht⟩, inserted_cnt hs, hrem, hg.tsel,
    hg.cidx, hg.hdn, hg.hdcand, fun h0 => hg.done (hzero.1 (hg.remain ▸ h0)), fun h0 => ?_⟩
  obtain ⟨hphase, hready, hnext⟩ := hg.more (mt hzero.2 (hg.remain ▸ h0))
  exact ⟨hphase, by rw [hready]; rfl, hnext⟩

/-! ### Every step keeps the bound on `LASTCODE` -/

/-- HUFF in a good state, with the bound on `LASTCODE`. -/
def HuffGood (h : Huff) : Prop := HuffInv h ∧ CodeBound h

section
variable {h g : Huff} {k : Fin 16} {code lo : Nat} {p : Byte}

/-- Before the first code of a build all the code space is still to come. -/
theorem codeBound_start (hcode : h.lastCode = 0xFFFFFFFF#32) (htab : h.tab[h.tsel] = []) : CodeBound h where
  start := by rw [hcode]; decide
  space := by
    have hneg : h.lastCode.toInt + 1 = 0 := by rw [hcode]; decide
    have hle := codesLeft_le h.cnt
    rw [hneg, zero_mul]
    omega
  keys _ e he := by rw [htab] at he; cases he

theorem codeBound_reset : CodeBound Huff.reset := codeBound_start rfl rfl

theorem codeBound_inserted (hb : CodeBound h) (hp : h.bphase = .syms) (hs : Inserting h k)
    (hc : NextCode h k code) : CodeBound (inserted k code p h) where
  start := by
    rw [(inserted_lastCode hc).2]
    omega
  space := by
    rw [(inserted_lastCode hc).2, inserted_lastBits, ← hc.assigned]
    exact nextCode_space hb hs
  keys _ e he := by
    rw [(inserted_lastCode hc).2]
    obtain rfl | he := table_insert_mem (inserted_table ▸ he)
    · exact le_rfl
    · exact (hb.keys hp e he).trans (lastCode_lt_nextCode hb hc).le

theorem codeBound_nextLength (hb : CodeBound h) (hp : h.bphase = .syms) (hg : NextLength lo h g) :
    CodeBound g := by
  rw [hg.frame]
  exact { start := hb.start, space := hb.space, keys := fun _ => hb.keys hp }

/-- The bound once the phase has left `SYMS`, or without a change to what it speaks of. -/
theorem codeBound_idle (hb : CodeBound h) (hp : g.bphase = .idle)
    (hg : g = { h with bphase := g.bphase, tsel := g.tsel, hdn := g.hdn, hdcand := g.hdcand }) :
    CodeBound g where
  start := by rw [hg]; exact hb.start
  space := by rw [hg]; exact hb.space
  keys hsyms := by rw [hp] at hsyms; cases hsyms

theorem leaves_good {r : Res Huff Rsp} (hgood : HuffGood h)
    (hi : r.Meets (fun _ g => HuffInv g) (fun _ g => g = h)) (hb : r.Completes fun _ g => CodeBound g) :
    r.Leaves HuffGood := by
  cases r with
  | ok a g => exact ⟨hi, hb⟩
  | trap t g => exact hi ▸ hgood
  | stop e => trivial

end

section
variable {h : Huff}

theorem htSelBody_good (t : Fin 8) (hgood : HuffGood h) : (htSelBody t h).Leaves HuffGood := by
  refine leaves_good hgood (htSel_meets hgood.1) ?_
  unfold htSelBody
  split_ifs with hc
  · exact codeBound_idle hgood.2 hc.1 rfl
  · trivial

theorem htBeginBody_good (hgood : HuffGood h) : (htBeginBody h).Leaves HuffGood :=
  leaves_good hgood (htBegin_meets hgood.1)
    (codeBound_start rfl ((getElem_set_fin _ _ _ _).trans (if_pos rfl)))

theorem htCntBody_good (n : Byte) (hgood : HuffGood h) : (htCntBody n h).Leaves HuffGood := by
  refine leaves_good hgood (htCnt_meets hgood.1) ?_
  by_cases hp : h.bphase = .counts
  · have hc := counting_of_inv hgood.1 hp
    obtain ⟨k, g, -, hbody, hmore, hlast⟩ := htCntBody_counts n hgood.1 hp
    rw [hbody]
    by_cases h16 : k.val + 1 = 16
    · have hg := hlast h16
      exact codeBound_start (hg.lastCode.trans hc.lastCode) (hg.table.trans hc.table)
    · rw [hmore h16]
      exact codeBound_start hc.lastCode hc.table
  · rw [htCntBody, if_neg hp]
    trivial

theorem htSymBody_good (p : Byte) (hgood : HuffGood h) : (htSymBody p h).Leaves HuffGood := by
  refine leaves_good hgood (htSym_meets hgood.1) ?_
  by_cases hp : h.bphase = .syms
  · obtain ⟨k, hs⟩ := inserting_of_inv hgood.1 hp
    obtain ⟨code, hc⟩ := nextCode_exists hgood.2 hs
    obtain ⟨g, hbody, hg⟩ := htSymBody_inserts p hp hs hc
    rw [hbody]
    exact codeBound_nextLength (codeBound_inserted hgood.2 hp hs hc) hp hg
  · rw [htSymBody, if_neg hp]
    trivial

/-- `HDN` and `HDCAND` are not in the bound. -/
theorem codeBound_candidate (hb : CodeBound h) (n : BitVec 5) (c : BitVec 16) :
    CodeBound { h with hdn := n, hdcand := c } := { hb with }

theorem hdResetBody_good (hgood : HuffGood h) : (hdResetBody h).Leaves HuffGood :=
  leaves_good hgood (hdReset_meets hgood.1) (codeBound_candidate hgood.2 _ _)

theorem hdBitBody_good (b : Bool) (hgood : HuffGood h) : (hdBitBody b h).Leaves HuffGood := by
  refine leaves_good hgood (hdBit_meets hgood.1) ?_
  unfold hdBitBody
  split_ifs
  · split
    · exact codeBound_candidate hgood.2 _ _
    · exact codeBound_candidate hgood.2 _ _
    · trivial
  · trivial

end

section
variable {s t : State}

/-- What a command of HUFF may leave in HUFF, if a refusal may leave it too. -/
theorem command_huff_leaves {P : Huff → Prop} {r : Res Huff Rsp} {body : Block → Res Block Rsp}
    (h : command s body = .next t) (hr : r.Leaves P)
    (hb : body s.blk = r.within fun g => { s.blk with huff := g }) (hs : P s.blk.huff) : P t.blk.huff := by
  obtain ⟨g, hg, e⟩ := command_within (u := s.blk.huff) h hr hb rfl hs
  rw [e]
  exact hg

/-- Every command keeps HUFF good: those of HUFF by what their bodies leave, the others write no HUFF. -/
theorem exec_huffGood {i : Instr} (h : exec i s = .next t) (hs : HuffGood s.blk.huff) :
    HuffGood t.blk.huff := by
  have hw := commandsWriteOnlyTheirUnit i s t h
  cases i with
  | blkReset => rw [hw]; exact ⟨huffInv_reset, codeBound_reset⟩
  | htSel x =>
    cases hx : slotOperand x with
    | some slot => exact command_huff_leaves (exec_htSel hx ▸ h) (htSelBody_good slot hs) rfl hs
    | none =>
      simp only [exec, execHtSel, hx] at h
      exact command_huff_leaves (r := .trap .operandRange s.blk.huff) h hs rfl hs
  | htBegin => exact command_huff_leaves h (htBeginBody_good hs) rfl hs
  | htCnt n => exact command_huff_leaves h (htCntBody_good n hs) rfl hs
  | htSym p => exact command_huff_leaves h (htSymBody_good p hs) rfl hs
  | hdReset => exact command_huff_leaves h (hdResetBody_good hs) rfl hs
  | hdBit x =>
    cases hx : bitOperand x with
    | some bit => exact command_huff_leaves (exec_hdBit hx ▸ h) (hdBitBody_good bit hs) rfl hs
    | none =>
      simp only [exec, execHdBit, hx] at h
      exact command_huff_leaves (r := .trap .operandRange s.blk.huff) h hs rfl hs
  | nop | stRead | paShift | pixRd | crcReset | crcByte | crcExpb | crcRead | crcCheck | inReset | inRoute
  | inByte | dfHdrb | dfConfig | dfByte =>
    dsimp only at hw
    have hhuff : t.blk.huff = s.blk.huff := by rw [hw]
    rwa [hhuff]

theorem step_huffGood (h : step s = .next t) (hs : HuffGood s.blk.huff) : HuffGood t.blk.huff := by
  cases hin : s.inputs with
  | nil => cases (step_idle hin).symm.trans h; exact hs
  | cons input rest =>
    cases input with
    | powerOn =>
      cases (step_powerOn hin).symm.trans h
      exact ⟨huffInv_reset, codeBound_reset⟩
    | command w =>
      cases hd : decode w with
      | ok i => exact exec_huffGood ((step_command hin hd).symm.trans h) hs
      | error e =>
        exact command_huff_leaves (r := .trap (illegalTrap e) s.blk.huff) ((step_illegal hin hd).symm.trans h) hs
          rfl hs

end

/-- Settles O28: the increase by `lt_assign`, the bound by the invariant that every step keeps. -/
theorem lastCodeIncreasesAndStaysBounded : Obligations.LastCodeIncreasesAndStaysBounded := by
  refine ⟨fun c n l hc _ _ => ⟨lt_assign n l hc, assign_bits c n l, ?_⟩, fun s t hi hb h => ?_⟩
  · rintro rfl
    exact assign_same_length c n
  · obtain ⟨hi', hb'⟩ := step_huffGood h ⟨hi, hb⟩
    exact ⟨hi', hb', hb'.start, lastCode_lt hb'⟩

/-! ### The lookup bit by bit -/

section
variable {h : Huff} {b : Bool} {n c : Nat}

theorem rspHit_ofNat (y : Byte) (hn : n < 32) :
    rspHit (BitVec.ofNat 5 n) y = rsp 2#4 (BitVec.ofNat 32 (n * 2 ^ 8 + y.toNat)) := by
  rw [rspHit, ← BitVec.ofNat_toNat, toNat_append_fields, BitVec.toNat_ofNat, Nat.mod_eq_of_lt hn, Nat.add_comm,
    Nat.mul_comm]

theorem rspPending_ofNat (hn : n < 32) (hc : c < 2 ^ 16) :
    rspPending (BitVec.ofNat 5 n) (BitVec.ofNat 16 c) = rsp 1#4 (BitVec.ofNat 32 (n * 2 ^ 16 + c)) := by
  rw [rspPending, ← BitVec.ofNat_toNat, toNat_append_fields, BitVec.toNat_ofNat, BitVec.toNat_ofNat,
    Nat.mod_eq_of_lt hn, Nat.mod_eq_of_lt hc, Nat.add_comm, Nat.mul_comm]

/-- The unit after `n` bits of a symbol, which make the candidate `c` (R24). -/
def midSymbol (n c : Nat) (h : Huff) : Huff := { h with hdn := BitVec.ofNat 5 n, hdcand := BitVec.ofNat 16 c }

theorem midSymbol_hdn (hn : n ≤ 16) : (midSymbol n c h).hdn.toNat = n := Nat.mod_eq_of_lt (by omega)

theorem candidate_lt_register (hc : c < 2 ^ n) (hn : n ≤ 16) : c < 2 ^ 16 :=
  hc.trans_le (Nat.pow_le_pow_right (by norm_num) hn)

theorem midSymbol_hdcand (hc : c < 2 ^ n) (hn : n ≤ 16) : (midSymbol n c h).hdcand.toNat = c :=
  Nat.mod_eq_of_lt (candidate_lt_register hc hn)

/-- No key of a good table is longer than 16 bits. -/
theorem length_le_of_find (hi : HuffInv h) {y : Byte} (hy : Table.find h.tab[h.tsel] (n, c) = some y) :
    1 ≤ n ∧ n ≤ 16 :=
  (hi.tables h.tsel).1.lengths _ (table_find_mem hy)

theorem hdBitBody_notReady (hbusy : h.bphase ≠ .idle ∨ h.ready[h.tsel] = false) :
    hdBitBody b h = .trap .tableNotReady h :=
  if_neg fun ⟨hp, hr⟩ => hbusy.elim (· hp) fun hr' => by simp [hr] at hr'

section
variable (hp : h.bphase = .idle) (hr : h.ready[h.tsel] = true) (hn : h.hdn.toNat = n) (hc : h.hdcand.toNat = c)
include hp hr hn hc

theorem hdBitBody_hit {y : Byte} (hy : Table.find h.tab[h.tsel] (n + 1, c * 2 + b.toNat) = some y)
    (h16 : n + 1 ≤ 16) :
    hdBitBody b h =
      .ok (rsp 2#4 (BitVec.ofNat 32 ((n + 1) * 256 + y.toNat))) { h with hdn := 0#5, hdcand := 0#16 } := by
  rw [hdBitBody, if_pos ⟨hp, hr⟩, hn, hc, lookupStep, hy]
  exact congrArg (Res.ok · _) (rspHit_ofNat y (by omega))

theorem hdBitBody_pending (hlt : c < 2 ^ n)
    (hnone : Table.find h.tab[h.tsel] (n + 1, c * 2 + b.toNat) = none) (h16 : n + 1 ≤ 16) :
    hdBitBody b h =
      .ok (rsp 1#4 (BitVec.ofNat 32 ((n + 1) * 2 ^ 16 + (c * 2 + b.toNat))))
        (midSymbol (n + 1) (c * 2 + b.toNat) h) := by
  have hcand := candidate_lt_register (candidate_lt hlt (Bool.toNat_le b)) h16
  rw [hdBitBody, if_pos ⟨hp, hr⟩, hn, hc, lookupStep, hnone]
  dsimp only
  rw [if_neg (show ¬ Config.maxLen < n + 1 from not_lt.2 h16)]
  exact congrArg (Res.ok · _) (rspPending_ofNat (by omega) hcand)

theorem hdBitBody_miss (hnone : Table.find h.tab[h.tsel] (n + 1, c * 2 + b.toNat) = none) (h16 : 16 < n + 1) :
    hdBitBody b h = .trap .huffMiss h := by
  rw [hdBitBody, if_pos ⟨hp, hr⟩, hn, hc, lookupStep, hnone]
  dsimp only
  rw [if_pos (show Config.maxLen < n + 1 from h16)]

end

end

/-- Settles O25: the words by `encodedZ_of_formatZ` and `encodedI_of_formatI`, one bit by the three answers of a
lookup. -/
theorem lookUpOneBit : Obligations.LookUpOneBit := by
  refine ⟨encodedZ_of_formatZ fun w h => by simp only [decode, h],
    encodedI_of_formatI (check := bitLegal) (fun w h => by simp only [decode, h])
      (fun b => decide_eq_true_iff.trans Nat.lt_succ_iff), fun s hf => onHuff_answers hf rfl, ?_⟩
  rintro s b h n c hf rfl hi rfl rfl
  have hexec := exec_hdBit (s := s) (bitOperand_ofNat b)
  obtain ⟨hn, hc⟩ := hi.candidate
  rw [hexec]
  refine ⟨fun hbusy => onHuff_raises (t := .tableNotReady) hf (hdBitBody_notReady hbusy), fun hp hr =>
    ⟨fun y hy => ?_, fun hnone h16 => ?_, fun h17 => ?_⟩⟩
  · exact onHuff_answers hf (hdBitBody_hit hp hr rfl rfl hy (length_le_of_find hi hy).2)
  · exact ⟨_, rfl, midSymbol_hdn h16, midSymbol_hdcand (candidate_lt hc (Bool.toNat_le b)) h16,
      onHuff_answers hf (hdBitBody_pending hp hr rfl rfl hc hnone h16)⟩
  · refine onHuff_raises (t := .huffMiss) hf (hdBitBody_miss hp hr rfl rfl ?_ (by omega))
    rw [Option.eq_none_iff_forall_ne_some]
    intro y hy
    have := (length_le_of_find hi hy).2
    omega

/-! ### A code word sent bit by bit -/

/-- A command that answers a next state hands it to the rest of the list. -/
theorem execAll_cons {i : Instr} {is : List Instr} {s t : State} (h : exec i s = .next t) :
    execAll (i :: is) s = execAll is t := by
  rw [execAll, h]

theorem execAll_append {is js : List Instr} {s t : State} (h : execAll is s = .next t) :
    execAll (is ++ js) s = execAll js t := by
  induction is generalizing s with
  | nil => cases h; rfl
  | cons i is ih =>
    rw [execAll] at h
    rw [List.cons_append, execAll]
    split at h
    next => exact ih h
    next => cases h
    next => cases h

/-- The first `k` bits of a code of `len` bits, as a number. -/
def codePrefix (len code k : Nat) : Nat := code / 2 ^ (len - k)

/-- Bit `k` of a code of `len` bits, the first the most significant (R109). -/
def codeBit (len code k : Nat) : Bool := code.testBit (len - 1 - k)

section
variable {len code k : Nat}

theorem codeBit_toNat (len code k : Nat) : (codeBit len code k).toNat = code / 2 ^ (len - 1 - k) % 2 :=
  Nat.toNat_testBit ..

theorem codePrefix_succ (hk : k < len) :
    codePrefix len code k * 2 + (codeBit len code k).toNat = codePrefix len code (k + 1) := by
  have hlen : len - k = len - (k + 1) + 1 := by omega
  rw [codeBit_toNat, codePrefix, codePrefix, Nat.sub_sub, Nat.add_comm 1 k, hlen, pow_succ,
    ← Nat.div_div_eq_div_mul]
  omega

theorem codePrefix_lt (hk : k ≤ len) (hcode : code < 2 ^ len) : codePrefix len code k < 2 ^ k := by
  rw [codePrefix, Nat.div_lt_iff_lt_mul (by positivity), ← pow_add]
  rwa [Nat.add_sub_cancel' hk]

theorem codePrefix_len : codePrefix len code len = code := by
  rw [codePrefix, Nat.sub_self, pow_zero, Nat.div_one]

end

/-- The answers to the first `k` bits of a code that begins with no shorter entry. -/
def pendings (len code k : Nat) : List Rsp :=
  (List.range k).map fun j => rsp 1#4 (BitVec.ofNat 32 ((j + 1) * 2 ^ 16 + codePrefix len code (j + 1)))

theorem pendings_succ (len code k : Nat) :
    pendings len code (k + 1) = pendings len code k ++
      [rsp 1#4 (BitVec.ofNat 32 ((k + 1) * 2 ^ 16 + codePrefix len code (k + 1)))] := by
  simp only [pendings, List.range_succ, List.map_append, List.map_singleton]

/-- The machine in the middle of a symbol, `n` bits of which made the candidate `c` and were answered `rs`. -/
def State.midSymbol (n c : Nat) (rs : List Rsp) (s : State) : State :=
  { s with
    blk := { s.blk with huff := Machine.midSymbol n c s.blk.huff }
    responses := s.responses ++ rs }

/-- One more answer in the middle of a symbol. -/
theorem answered_midSymbol (s : State) (n c m d : Nat) (rs : List Rsp) (r : Rsp) :
    answered r { s.blk with huff := midSymbol m d s.blk.huff } (s.midSymbol n c rs) =
      s.midSymbol m d (rs ++ [r]) := by
  simp only [State.midSymbol, answered, respond, List.append_assoc]

section
variable {s : State} (hf : s.blk.fault = 0#8) (hp : s.blk.huff.bphase = .idle)
  (hr : s.blk.huff.ready[s.blk.huff.tsel] = true)
include hf hp hr

theorem exec_hdBit_pending {n c : Nat} {b : Bool} (rs : List Rsp) (hc : c < 2 ^ n)
    (hnone : Table.find s.blk.huff.tab[s.blk.huff.tsel] (n + 1, c * 2 + b.toNat) = none) (h16 : n + 1 ≤ 16) :
    exec (.hdBit (BitVec.ofNat 8 b.toNat)) (s.midSymbol n c rs) =
      .next (s.midSymbol (n + 1) (c * 2 + b.toNat)
        (rs ++ [rsp 1#4 (BitVec.ofNat 32 ((n + 1) * 2 ^ 16 + (c * 2 + b.toNat)))])) := by
  have hbody := hdBitBody_pending (h := (s.midSymbol n c rs).blk.huff) (b := b) hp hr (midSymbol_hdn (by omega))
    (midSymbol_hdcand hc (by omega)) hc hnone h16
  exact (exec_hdBit (bitOperand_ofNat b)).trans ((onHuff_answers (s := s.midSymbol n c rs) hf hbody).trans
    (congrArg _ (answered_midSymbol s n c (n + 1) _ rs _)))

theorem exec_hdBit_hit {n c : Nat} {b : Bool} {y : Byte} (rs : List Rsp) (hc : c < 2 ^ n)
    (hy : Table.find s.blk.huff.tab[s.blk.huff.tsel] (n + 1, c * 2 + b.toNat) = some y) (h16 : n + 1 ≤ 16) :
    exec (.hdBit (BitVec.ofNat 8 b.toNat)) (s.midSymbol n c rs) =
      .next (s.midSymbol 0 0 (rs ++ [rsp 2#4 (BitVec.ofNat 32 ((n + 1) * 256 + y.toNat))])) := by
  have hbody := hdBitBody_hit (h := (s.midSymbol n c rs).blk.huff) (b := b) hp hr (midSymbol_hdn (by omega))
    (midSymbol_hdcand hc (by omega)) hy h16
  exact (exec_hdBit (bitOperand_ofNat b)).trans ((onHuff_answers (s := s.midSymbol n c rs) hf hbody).trans
    (congrArg _ (answered_midSymbol s n c 0 0 rs _)))

/-- The bits of a code that begins with no shorter entry are pending, one after another (R109, R110). -/
theorem execAll_hdBit_pending {len code k : Nat} (hcode : code < 2 ^ len) (hlen : len ≤ 16)
    (hnone : ∀ j < len, Table.find s.blk.huff.tab[s.blk.huff.tsel] (j, codePrefix len code j) = none) (hk : k < len) :
    execAll ((List.range k).map fun j => .hdBit (BitVec.ofNat 8 (codeBit len code j).toNat))
        (s.midSymbol 0 0 []) =
      .next (s.midSymbol k (codePrefix len code k) (pendings len code k)) := by
  induction k with
  | zero =>
    have hzero : codePrefix len code 0 = 0 := Nat.lt_one_iff.1 (codePrefix_lt (Nat.zero_le _) hcode)
    rw [hzero]
    rfl
  | succ k ih =>
    have hsucc := codePrefix_succ (code := code) (show k < len by omega)
    rw [List.range_succ, List.map_append, execAll_append (ih (by omega)), List.map_singleton,
      execAll_cons (exec_hdBit_pending hf hp hr _ (codePrefix_lt (by omega) hcode) (hsucc ▸ hnone (k + 1) hk)
        (by omega)), hsucc, ← pendings_succ, execAll]

end

/-- At a symbol boundary the machine is in the middle of no symbol. -/
theorem midSymbol_zero {s : State} (rs : List Rsp) (hn : s.blk.huff.hdn = 0#5) (hc : s.blk.huff.hdcand = 0#16) :
    s.midSymbol 0 0 rs = { s with responses := s.responses ++ rs } := by
  have hhuff : midSymbol 0 0 s.blk.huff = s.blk.huff := by rw [midSymbol, ← hn, ← hc]
  rw [State.midSymbol, hhuff]

/-- Settles O26: the bits before the last by `execAll_hdBit_pending`, the last by the hit of a lookup. -/
theorem codeWordDecodes : Obligations.CodeWordDecodes := by
  intro s len code y hf hi hp hr hn hc hcode hy hnone
  obtain ⟨h1, h16⟩ := length_le_of_find hi hy
  obtain ⟨m, rfl⟩ : ∃ m, len = m + 1 := ⟨len - 1, by omega⟩
  have hm : m < m + 1 := Nat.lt_succ_self m
  have hlast : Table.find s.blk.huff.tab[s.blk.huff.tsel]
      (m + 1, codePrefix (m + 1) code m * 2 + (codeBit (m + 1) code m).toNat) = some y := by
    rwa [codePrefix_succ hm, codePrefix_len]
  have hrun := execAll_append (js := [.hdBit (BitVec.ofNat 8 (codeBit (m + 1) code m).toNat)])
    (execAll_hdBit_pending hf hp hr hcode h16 hnone hm)
  rw [execAll_cons (exec_hdBit_hit hf hp hr _ (codePrefix_lt (Nat.le_succ m) hcode) hlast h16), execAll,
    midSymbol_zero _ hn hc, midSymbol_zero _ hn hc, List.append_nil] at hrun
  simp only [← codeBit_toNat]
  rw [List.range_succ, List.map_append, List.append_assoc]
  refine hrun.trans ?_
  simp only [pendings, codePrefix, Nat.add_sub_cancel, Nat.add_sub_add_right]

/-! ### The codes of a whole list of lengths -/

/-- The code space the first `k` lengths take, as multiples of `2^-16` (R111). -/
def spaceTo (lens : List Nat) (k : Nat) : Nat := ((lens.take k).map fun l => 2 ^ (16 - l)).sum

section
variable {lens : List Nat} {k l : Nat}

theorem spaceTo_cons (l : Nat) (lens : List Nat) (k : Nat) :
    spaceTo (l :: lens) (k + 1) = 2 ^ (16 - l) + spaceTo lens k := by
  rw [spaceTo, List.take_succ_cons, List.map_cons, List.sum_cons, spaceTo]

theorem spaceTo_succ (h : lens[k]? = some l) : spaceTo lens (k + 1) = spaceTo lens k + 2 ^ (16 - l) := by
  rw [spaceTo, List.take_add_one, h, List.map_append, List.sum_append, spaceTo]
  rfl

theorem spaceTo_mono (lens : List Nat) : Monotone (spaceTo lens) := fun _ _ h =>
  ((List.take_sublist_take_left h).map _).sum_le_sum fun _ _ => Nat.zero_le _

theorem spaceTo_le (lens : List Nat) (k : Nat) : spaceTo lens k ≤ (lens.map fun l => 2 ^ (16 - l)).sum :=
  ((List.take_sublist k lens).map _).sum_le_sum fun _ _ => Nat.zero_le _

theorem codesFrom_length (c : Int) (n : Nat) (lens : List Nat) : (codesFrom c n lens).length = lens.length := by
  induction lens generalizing c n with
  | nil => rfl
  | cons l lens ih => exact congrArg (· + 1) (ih _ _)

end

/-- `c` is the last code of a list that is not over-subscribed so far: the code space up to it is used, and the
next code, of any length from `n` up, begins there (R111). -/
theorem assign_canonical {c : Int} {n l used : Nat} (hc : (c + 1) * 2 ^ (16 - n) = used) (hn : n ≤ l) (hl : l ≤ 16)
    (hused : used < 2 ^ 16) : ∃ code : Nat, (assign c n l).1 = code ∧ code * 2 ^ (16 - l) = used := by
  have hpos : (0 : Int) < 2 ^ (16 - n) := by positivity
  obtain ⟨inc, hinc⟩ := Int.eq_ofNat_of_zero_le (a := c + 1) (by nlinarith)
  rw [hinc] at hc
  replace hc : inc * 2 ^ (16 - n) = used := by exact_mod_cast hc
  have hfits : inc < 2 ^ n := by
    have hsplit : 2 ^ n * 2 ^ (16 - n) = 2 ^ 16 := by rw [← pow_add, Nat.add_sub_cancel' (hn.trans hl)]
    exact Nat.lt_of_mul_lt_mul_right (hc.trans_lt hused |>.trans_eq hsplit.symm)
  refine ⟨inc * 2 ^ (l - n), assign_eq_nat (bits := n) hinc.symm ?_ ?_, ?_⟩
  · rw [Nat.div_eq_of_lt hfits]
    rfl
  · split_ifs with h
    · rfl
    · rw [Nat.sub_eq_zero_of_le (not_lt.1 h), pow_zero, mul_one]
  · rw [mul_assoc, ← pow_add, ← hc]
    congr 2
    omega

/-- Each code is the code space before it, for a list that goes on from the used space (R111). -/
theorem codesFrom_canonical {c : Int} {n used : Nat} {lens : List Nat} (hc : (c + 1) * 2 ^ (16 - n) = used)
    (hn : ∀ l ∈ lens, n ≤ l) (hsorted : lens.Pairwise (· ≤ ·)) (hl : ∀ l ∈ lens, l ≤ 16)
    (hsum : used + (lens.map fun l => 2 ^ (16 - l)).sum ≤ 2 ^ 16) {k l d : Nat} (hk : lens[k]? = some l)
    (hd : (codesFrom c n lens)[k]? = some d) : d * 2 ^ (16 - l) = used + spaceTo lens k := by
  induction lens generalizing c n used k with
  | nil => cases hk
  | cons m lens ih =>
    rw [List.map_cons, List.sum_cons] at hsum
    obtain ⟨hm, hsorted⟩ := List.pairwise_cons.1 hsorted
    have hpow : 1 ≤ 2 ^ (16 - m) := Nat.one_le_two_pow
    have hm16 := hl m List.mem_cons_self
    obtain ⟨code, hcode, hspace⟩ := assign_canonical hc (hn m List.mem_cons_self) hm16 (by omega)
    cases k with
    | zero =>
      cases hk
      rw [codesFrom, hcode] at hd
      cases hd
      exact hspace
    | succ k =>
      have hnext : ((assign c n m).1 + 1) * 2 ^ (16 - (assign c n m).2) = ((used + 2 ^ (16 - m) : Nat) : Int) := by
        rw [hcode, assign_bits, add_mul, one_mul]
        exact_mod_cast congrArg (· + 2 ^ (16 - m)) hspace
      rw [spaceTo_cons, ← add_assoc]
      exact ih hnext hm hsorted (fun l h => hl l (List.mem_cons_of_mem _ h)) (by omega) hk hd

/-- Settles O29: each code by `codesFrom_canonical`; it fits and begins no later code, because the code space
before a later code holds all of its own. -/
theorem canonicalCodes : Obligations.CanonicalCodes := by
  intro lens hsorted hrange hsum
  have hspace : ∀ {k l c : Nat}, lens[k]? = some l → (codesFrom (-1) 0 lens)[k]? = some c →
      c * 2 ^ (16 - l) = spaceTo lens k := fun hk hc =>
    (codesFrom_canonical (used := 0) (by norm_num) (fun _ _ => Nat.zero_le _) hsorted (fun l h => (hrange l h).2)
      (by rwa [Nat.zero_add]) hk hc).trans (Nat.zero_add _)
  have hlen : ∀ {k l : Nat}, lens[k]? = some l → l ≤ 16 := fun h => (hrange _ (List.mem_of_getElem? h)).2
  refine ⟨codesFrom_length _ _ _, fun k l c hk hc => ⟨hspace hk hc, ?_⟩,
    fun j k l m c d hjk hj hk hc hd heq => ?_⟩
  · have hle := (spaceTo_le lens (k + 1)).trans hsum
    have hpow : 0 < 2 ^ (16 - l) := by positivity
    have hsplit : 2 ^ l * 2 ^ (16 - l) = 2 ^ 16 := by rw [← pow_add, Nat.add_sub_cancel' (hlen hk)]
    rw [spaceTo_succ hk, ← hspace hk hc, ← hsplit] at hle
    exact Nat.lt_of_mul_lt_mul_right (a := 2 ^ (16 - l)) (by omega)
  · have hlm : l ≤ m := by
      obtain ⟨hj', rfl⟩ := List.getElem?_eq_some_iff.1 hj
      obtain ⟨hk', rfl⟩ := List.getElem?_eq_some_iff.1 hk
      exact List.pairwise_iff_getElem.1 hsorted j k hj' hk' hjk
    have hmono := spaceTo_mono lens (Nat.succ_le_of_lt hjk)
    have hsplit : 2 ^ (16 - l) = 2 ^ (m - l) * 2 ^ (16 - m) := by
      rw [← pow_add]
      congr 1
      have := hlen hk
      omega
    rw [spaceTo_succ hj, ← hspace hj hc, ← hspace hk hd, ← Nat.succ_mul, hsplit, ← mul_assoc] at hmono
    have hd' := Nat.le_of_mul_le_mul_right hmono (by positivity)
    have := (Nat.le_div_iff_mul_le (by positivity)).2 hd'
    omega

/-! ### The lengths still to come -/

/-- The length of each code still to be inserted, shortest first (R104). -/
def lengthsLeft (cnt : Vector Byte 16) : List Nat :=
  (List.finRange 16).flatMap fun k => List.replicate cnt[k].toNat (k.val + 1)

theorem lengthsLeft_length (cnt : Vector Byte 16) : (lengthsLeft cnt).length = countSum cnt := by
  have hlist : cnt.toList = (List.finRange 16).map fun k => cnt[k] := List.ext_getElem (by simp) (by simp)
  simp only [lengthsLeft, List.length_flatMap, List.length_replicate, countSum, hlist, List.map_map]
  rfl

/-- The next length is the first of them, and its code then is no longer to come. -/
theorem lengthsLeft_cons {h : Huff} {k : Fin 16} (hs : Inserting h k) :
    lengthsLeft h.cnt = (k.val + 1) :: lengthsLeft (h.cnt.set k (h.cnt[k] - 1#8)) := by
  obtain ⟨before, after, hsplit⟩ := List.append_of_mem (List.mem_finRange k)
  have hsorted := List.pairwise_lt_finRange 16
  rw [hsplit] at hsorted
  obtain ⟨-, hafter, hbefore⟩ := List.pairwise_append.1 hsorted
  have hlow : ∀ j ∈ before, j < k := fun j hj => hbefore j hj k List.mem_cons_self
  have hnil : before.flatMap (fun j => List.replicate h.cnt[j].toNat (j.val + 1)) = [] :=
    List.flatMap_eq_nil_iff.2 fun j hj => by rw [hs.before j (hlow j hj)]; rfl
  have hsame : ∀ j, j ≠ k → (h.cnt.set k (h.cnt[k] - 1#8))[j] = h.cnt[j] := fun j hj =>
    (getElem_set_fin _ _ _ _).trans (if_neg hj)
  have hrest : ∀ l : List (Fin 16), (∀ j ∈ l, j ≠ k) →
      l.flatMap (fun j => List.replicate (h.cnt.set k (h.cnt[k] - 1#8))[j].toNat (j.val + 1)) =
        l.flatMap fun j => List.replicate h.cnt[j].toNat (j.val + 1) := fun l hl =>
    List.flatMap_congr fun j hj => by rw [hsame j (hl j hj)]
  rw [lengthsLeft, lengthsLeft, hsplit, List.flatMap_append, List.flatMap_append, List.flatMap_cons,
    List.flatMap_cons, hrest before fun j hj => (hlow j hj).ne,
    hrest after fun j hj => ((List.pairwise_cons.1 hafter).1 j hj).ne', hnil, getElem_set_fin, if_pos rfl,
    ← inserted_cnt_current hs, List.replicate_succ]
  rfl

/-! ### A whole build -/

/-- `g` has the same slot selected as `h`, and nothing else in the other slots. -/
structure SameSlots (h g : Huff) : Prop where
  tsel : g.tsel = h.tsel
  others : ∀ t : Fin 8, t ≠ h.tsel → g.tab[t] = h.tab[t] ∧ g.ready[t] = h.ready[t]

theorem SameSlots.trans {f g h : Huff} (hfg : SameSlots f g) (hgh : SameSlots g h) : SameSlots f h where
  tsel := hgh.tsel.trans hfg.tsel
  others t ht := by
    obtain ⟨htab, hready⟩ := hgh.others t (hfg.tsel ▸ ht)
    exact ⟨htab.trans (hfg.others t ht).1, hready.trans (hfg.others t ht).2⟩

theorem sameSlots_refl (h : Huff) : SameSlots h h := ⟨rfl, fun _ _ => ⟨rfl, rfl⟩⟩

theorem sameSlots_loaded (k : Fin 16) (n : Byte) (h : Huff) : SameSlots h (loaded k n h) :=
  ⟨rfl, fun _ _ => ⟨rfl, rfl⟩⟩

theorem sameSlots_inserted (k : Fin 16) (code : Nat) (p : Byte) (h : Huff) : SameSlots h (inserted k code p h) :=
  ⟨rfl, fun _ ht => ⟨(getElem_set_fin _ _ _ _).trans (if_neg ht), rfl⟩⟩

/-- A build that has its sixteen counts: it inserts codes until none is left (R103, R104). -/
structure Building (h : Huff) : Prop where
  /-- The unit's invariants. -/
  good : HuffGood h
  /-- `REMAIN` is the sum of the counts. -/
  remain : h.remain.toNat = countSum h.cnt
  /-- With no code left the slot is ready. -/
  done : h.remain = 0#12 → h.bphase = .idle ∧ h.ready[h.tsel] = true
  /-- With a code left the phase is `SYMS`. -/
  more : h.remain ≠ 0#12 → h.bphase = .syms
  /-- No entry is longer than the last code. -/
  short : ∀ e ∈ h.tab[h.tsel], e.1.1 ≤ h.lastBits.toNat

section
variable {h g : Huff} {lo : Nat}

theorem building_of_nextLength (hg : NextLength lo h g) (hgood : HuffGood g) (hr : h.remain.toNat = countSum h.cnt)
    (hshort : ∀ e ∈ h.tab[h.tsel], e.1.1 ≤ h.lastBits.toNat) : Building g where
  good := hgood
  remain := by rw [hg.remain, hg.cnt, hr]
  done h0 := by
    obtain ⟨hp, hready, -⟩ := hg.done (hg.remain ▸ h0)
    exact ⟨hp, by simpa only [hg.tsel] using hready⟩
  more hne := (hg.more (hg.remain ▸ hne)).1
  short := by rwa [hg.table, hg.lastBits]

theorem sameSlots_of_nextLength (hg : NextLength lo h g) : SameSlots h g where
  tsel := hg.tsel
  others t ht := ⟨by rw [hg.tab], hg.others t ht⟩

theorem remain_eq_zero_iff (hb : Building h) : h.remain = 0#12 ↔ countSum h.cnt = 0 := by
  rw [← hb.remain, ← BitVec.toNat_inj]
  rfl

/-- What the sixteen counts leave: nothing inserted yet, the counts in place. -/
structure Counted (h : Huff) (ns : List Byte) (g : Huff) : Prop where
  building : Building g
  slots : SameSlots h g
  table : g.tab[g.tsel] = []
  lastCode : g.lastCode.toInt = -1
  lastBits : g.lastBits.toNat = 0
  counts : g.cnt.toList = h.cnt.toList.take h.cidx.toNat ++ ns

theorem loaded_take (k : Fin 16) (n : Byte) (h : Huff) :
    (loaded k n h).cnt.toList.take (k.val + 1) = h.cnt.toList.take k.val ++ [n] := by
  have hk : k.val < h.cnt.toList.length := by simp
  rw [loaded, Vector.toList_set, List.take_add_one, List.getElem?_set_self hk, List.take_set_of_le le_rfl]
  rfl

/-- The sixteenth count ends the loading. -/
theorem counted_of_sixteenth {k : Fin 16} {n : Byte} (hc : Counting h) (hk : k.val = h.cidx.toNat)
    (h16 : k.val + 1 = 16) (hg : NextLength 1 (loaded k n h) g) (hgood : HuffGood g) : Counted h [n] g := by
  obtain ⟨hrem, hsum⟩ := loaded_remain (n := n) hc hk
  have hempty : (loaded k n h).tab[(loaded k n h).tsel] = [] := hc.table
  exact
    { building := building_of_nextLength hg hgood (hrem.trans hsum) (by simp [hempty])
      slots := (sameSlots_loaded k n h).trans (sameSlots_of_nextLength hg)
      table := hg.table.trans hempty
      lastCode := (congrArg BitVec.toInt (hg.lastCode.trans hc.lastCode)).trans (by decide)
      lastBits := congrArg BitVec.toNat (hg.lastBits.trans hc.lastBits)
      counts := by rw [hg.cnt, ← hk, ← loaded_take, h16, List.take_of_length_le (by simp)] }

/-- A count before the sixteenth stands before those that follow it. -/
theorem counted_of_loaded {k : Fin 16} {n : Byte} {ns : List Byte} (hk : k.val = h.cidx.toNat)
    (hct : Counted (loaded k n h) ns g) : Counted h (n :: ns) g :=
  { hct with
    slots := (sameSlots_loaded k n h).trans hct.slots
    counts := by rw [hct.counts, loaded_cidx, loaded_take, hk, List.append_assoc, List.singleton_append] }

/-- The counts from the next one on, to the sixteenth. -/
theorem execAll_htCnt {s : State} {ns : List Byte} (hf : s.blk.fault = 0#8) (hgood : HuffGood s.blk.huff)
    (hp : s.blk.huff.bphase = .counts) (hlen : s.blk.huff.cidx.toNat + ns.length = 16) :
    ∃ t, execAll (ns.map .htCnt) s = .next t ∧ t.blk.fault = 0#8 ∧ Counted s.blk.huff ns t.blk.huff := by
  induction ns generalizing s with
  | nil => exact absurd hlen (counting_of_inv hgood.1 hp).cidx.ne
  | cons n ns ih =>
    obtain ⟨k, g, hk, hbody, hmore, hlast⟩ := htCntBody_counts n hgood.1 hp
    have hggood : HuffGood g := by
      have := htCntBody_good n hgood
      rwa [hbody] at this
    have hexec : exec (.htCnt n) s = _ := onHuff_answers hf hbody
    rw [List.map_cons, execAll_cons hexec]
    rw [List.length_cons] at hlen
    by_cases h16 : k.val + 1 = 16
    · obtain rfl : ns = [] := List.length_eq_zero_iff.1 (by omega)
      exact ⟨_, rfl, hf, counted_of_sixteenth (counting_of_inv hgood.1 hp) hk h16 (hlast h16) hggood⟩
    · obtain rfl := hmore h16
      have hcidx := loaded_cidx k n s.blk.huff
      obtain ⟨t, ht, htf, hct⟩ := ih (s := answered _ { s.blk with huff := loaded k n s.blk.huff } s) hf hggood hp
        (show (loaded k n s.blk.huff).cidx.toNat + _ = 16 by omega)
      exact ⟨t, ht, htf, counted_of_loaded hk hct⟩

/-- A key above all others is inserted at the head. -/
theorem table_insert_head {w : Nat} {t : Table w} {key : Nat × Nat} (v : BitVec w)
    (h : ∀ e ∈ t, keyLt e.1 key = true) : Table.insert t key v = (key, v) :: t := by
  cases t with
  | nil => rfl
  | cons e t => exact if_pos (h e List.mem_cons_self)

/-- The entries that the payloads `ps` make (R104, R105). -/
def newEntries (h : Huff) (ps : List Byte) : List ((Nat × Nat) × Byte) :=
  ((lengthsLeft h.cnt).zip (codesFrom h.lastCode.toInt h.lastBits.toNat (lengthsLeft h.cnt))).zip ps

section
variable {h : Huff} {ps : List Byte}

theorem newEntries_payloads (hlen : ps.length = countSum h.cnt) : (newEntries h ps).map (fun e => e.2) = ps := by
  have hlens := lengthsLeft_length h.cnt
  exact List.map_snd_zip (by rw [List.length_zip, codesFrom_length]; omega)

theorem newEntries_keys (hlen : ps.length = countSum h.cnt) :
    (newEntries h ps).map (fun e => e.1) =
      (lengthsLeft h.cnt).zip (codesFrom h.lastCode.toInt h.lastBits.toNat (lengthsLeft h.cnt)) := by
  have hlens := lengthsLeft_length h.cnt
  exact List.map_fst_zip (by rw [List.length_zip, codesFrom_length]; omega)

theorem newEntries_lengths (hlen : ps.length = countSum h.cnt) :
    (newEntries h ps).map (fun e => e.1.1) = lengthsLeft h.cnt := by
  rw [← Function.comp_def Prod.fst fun e : (Nat × Nat) × Byte => e.1, ← List.map_map, newEntries_keys hlen]
  exact List.map_fst_zip (codesFrom_length ..).ge

theorem newEntries_codes (hlen : ps.length = countSum h.cnt) :
    (newEntries h ps).map (fun e => e.1.2) = codesFrom h.lastCode.toInt h.lastBits.toNat (lengthsLeft h.cnt) := by
  rw [← Function.comp_def Prod.snd fun e : (Nat × Nat) × Byte => e.1, ← List.map_map, newEntries_keys hlen]
  exact List.map_snd_zip (codesFrom_length ..).le

end

/-- What the payloads `ps` leave in slot `j`. -/
structure Filled (j : Fin 8) (h : Huff) (ps : List Byte) (g : Huff) : Prop where
  phase : g.bphase = .idle
  ready : g.ready[j] = true
  slots : SameSlots h g
  table : g.tab[j].reverse = h.tab[j].reverse ++ newEntries h ps

/-- The next key is above all others of the table (R106). -/
theorem inserted_table_head {k : Fin 16} {code : Nat} {p : Byte} (hb : Building h) (hp : h.bphase = .syms)
    (hs : Inserting h k) (hc : NextCode h k code) :
    (inserted k code p h).tab[h.tsel] = ((k.val + 1, code), p) :: h.tab[h.tsel] := by
  rw [inserted_table]
  refine table_insert_head p fun e he => ?_
  have hcode := (hb.good.2.keys hp e he).trans_lt (lastCode_lt_nextCode hb.good.2 hc)
  have hlen := (hb.short e he).trans hs.lastBits
  simp only [keyLt, Bool.or_eq_true, Bool.and_eq_true, decide_eq_true_eq]
  omega

/-- One payload of a build puts its entry in front of the table. -/
theorem htSymBody_builds {p : Byte} (hb : Building h) (hne : h.remain ≠ 0#12) :
    ∃ (r : Rsp) (g : Huff) (e : (Nat × Nat) × Byte), htSymBody p h = .ok r g ∧ Building g ∧ SameSlots h g ∧
      g.tab[h.tsel] = e :: h.tab[h.tsel] ∧ countSum g.cnt + 1 = countSum h.cnt ∧
      ∀ ps, newEntries h (p :: ps) = e :: newEntries g ps := by
  have hp := hb.more hne
  obtain ⟨k, hs⟩ := inserting_of_inv hb.good.1 hp
  obtain ⟨code, hc⟩ := nextCode_exists hb.good.2 hs
  obtain ⟨g, hbody, hg⟩ := htSymBody_inserts p hp hs hc
  obtain ⟨hrem, hsum⟩ := inserted_remain (code := code) (p := p) hs
  have hgood : HuffGood g := by
    have := htSymBody_good p hb.good
    rwa [hbody] at this
  have htab := inserted_table_head (p := p) hb hp hs hc
  have hshort : ∀ e ∈ (inserted k code p h).tab[h.tsel], e.1.1 ≤ (inserted k code p h).lastBits.toNat := by
    rw [htab, inserted_lastBits]
    intro e he
    obtain rfl | he := List.mem_cons.1 he
    · exact le_rfl
    · exact (hb.short e he).trans hs.lastBits
  refine ⟨_, g, _, hbody, building_of_nextLength hg hgood hsum hshort,
    (sameSlots_inserted k code p h).trans (sameSlots_of_nextLength hg), by rw [hg.tab, htab], ?_, fun ps => ?_⟩
  · rw [hg.cnt, ← hsum, hrem, hb.remain]
  · rw [newEntries, newEntries, hg.cnt, hg.lastCode, hg.lastBits, (inserted_lastCode hc).2, inserted_lastBits,
      lengthsLeft_cons hs, codesFrom, hc.assigned, assign_bits, Int.toNat_natCast]
    rfl

/-- The payloads of a build, to the last. -/
theorem execAll_htSym {s : State} {ps : List Byte} {j : Fin 8} (hf : s.blk.fault = 0#8)
    (hb : Building s.blk.huff) (hj : s.blk.huff.tsel = j) (hlen : ps.length = countSum s.blk.huff.cnt) :
    ∃ t, execAll (ps.map .htSym) s = .next t ∧ t.blk.fault = 0#8 ∧ Filled j s.blk.huff ps t.blk.huff := by
  induction ps generalizing s with
  | nil =>
    obtain ⟨hp, hready⟩ := hb.done ((remain_eq_zero_iff hb).2 hlen.symm)
    subst hj
    exact ⟨s, rfl, hf, hp, hready, sameSlots_refl _, by simp [newEntries]⟩
  | cons p ps ih =>
    rw [List.length_cons] at hlen
    obtain ⟨r, g, e, hbody, hbg, hslots, htab, hsum, hentries⟩ :=
      htSymBody_builds (p := p) hb (mt (remain_eq_zero_iff hb).1 (by omega))
    have hexec : exec (.htSym p) s = _ := onHuff_answers hf hbody
    obtain ⟨t, ht, htf, hfill⟩ := ih (s := answered r { s.blk with huff := g } s) hf hbg (hslots.tsel.trans hj)
      (show _ = countSum g.cnt by omega)
    subst hj
    refine ⟨t, ?_, htf, hfill.phase, hfill.ready, hslots.trans hfill.slots, ?_⟩
    · rw [List.map_cons, execAll_cons hexec, ht]
    · have htable : _ = g.tab[s.blk.huff.tsel].reverse ++ newEntries g ps := hfill.table
      rw [htable, htab, List.reverse_cons, List.append_assoc, hentries, List.singleton_append]

end

/-- Settles O27: `HT_BEGIN` by `beginBuild`, the counts by `execAll_htCnt`, the payloads by `execAll_htSym`. -/
theorem wholeBuildFillsSlot : Obligations.WholeBuildFillsSlot := by
  intro s counts payloads hf hi hlen
  obtain ⟨h, hbegin, htsel, htab, -, hothers, -, hcidx, -, -, hcode, -, -, -, hp⟩ := beginBuild.2 s hf
  have hinv : (htBeginBody s.blk.huff).Leaves HuffInv := htBegin_meets hi
  have hgood : HuffGood h :=
    ⟨command_huff_leaves hbegin hinv rfl hi, codeBound_start (BitVec.eq_of_toInt_eq hcode) htab⟩
  obtain ⟨t, ht, htf, hct⟩ := execAll_htCnt (s := answered (rspOk 0#32) { s.blk with huff := h } s)
    (ns := counts.toList) hf hgood hp (show h.cidx.toNat + _ = 16 by simp [hcidx])
  have hcounts : t.blk.huff.cnt = counts := by
    apply Vector.toList_inj.1
    rw [hct.counts]
    change h.cnt.toList.take h.cidx.toNat ++ _ = _
    rw [hcidx]
    rfl
  obtain ⟨u, hu, huf, hfill⟩ := execAll_htSym (ps := payloads) (j := s.blk.huff.tsel) htf hct.building
    (hct.slots.tsel.trans htsel) (hlen.trans (by rw [hcounts]))
  have hslots := hct.slots.trans hfill.slots
  have hpayloads : payloads.length = countSum t.blk.huff.cnt := by rw [hcounts, hlen]
  have hempty : t.blk.huff.tab[s.blk.huff.tsel] = [] := by
    simpa only [hct.slots.tsel.trans htsel] using hct.table
  have htable := hfill.table
  rw [hempty, List.reverse_nil, List.nil_append] at htable
  refine ⟨u, ?_, huf, hfill.phase, hslots.tsel.trans htsel, hfill.ready, ?_, ?_, ?_, fun k hk => ?_⟩
  · rw [execAll_cons hbegin, execAll_append ht, hu]
  · rw [htable, newEntries_payloads hpayloads]
  · rw [htable, newEntries_lengths hpayloads, hcounts, lengthsLeft]
  · rw [htable, newEntries_codes hpayloads, hcounts, hct.lastCode, hct.lastBits, lengthsLeft]
  · obtain ⟨htab', hready'⟩ := hslots.others k (htsel ▸ hk)
    obtain ⟨htab'', hready''⟩ := hothers k (htsel ▸ hk)
    exact ⟨htab'.trans htab'', hready'.trans hready''⟩

end Sys2Proof.Machine

/-! ## The proofs: CRC (41_crc.md)

The update function as iterated rounds, which are linear and injective, the commands of the unit, and what a
changed byte of a message does to its digest. -/

namespace Sys2Proof.Machine

open Sys2Proof.Safety

/-! ### The update function -/

/-- One round as R126 writes it, with the least significant bit read as a remainder. -/
theorem crcRound_eq (a : Word) :
    crcRound a = if a.toNat % 2 = 1 then (a >>> 1) ^^^ 0xEDB88320#32 else a >>> 1 := by
  simp only [crcRound, BitVec.getLsbD, Nat.testBit_zero, decide_eq_true_eq]

theorem crcRounds_eq_iterate (n : Nat) (a : Word) : crcRounds n a = crcRound^[n] a := by
  induction n generalizing a with
  | zero => rfl
  | succ n ih => exact ih (crcRound a)

/-- A round is the shift, and the polynomial where the bit shifted out is set. -/
theorem crcRound_eq_xor (a : Word) :
    crcRound a = (a >>> 1) ^^^ (if a.getLsbD 0 then 0xEDB88320#32 else 0#32) := by
  rw [crcRound]
  split
  · rfl
  · exact BitVec.xor_zero.symm

/-- A round is linear over exclusive or. -/
theorem crcRound_xor (a b : Word) : crcRound (a ^^^ b) = crcRound a ^^^ crcRound b := by
  simp only [crcRound_eq_xor, BitVec.ushiftRight_xor_distrib, BitVec.getLsbD_xor]
  have hpoly : ∀ p q : Bool, (if p ^^ q then 0xEDB88320#32 else 0#32) =
      (if p then 0xEDB88320#32 else 0#32) ^^^ (if q then 0xEDB88320#32 else 0#32) := by decide
  rw [hpoly]
  ac_rfl

theorem crcRounds_xor (n : Nat) (a b : Word) : crcRounds n (a ^^^ b) = crcRounds n a ^^^ crcRounds n b := by
  induction n generalizing a b with
  | zero => rfl
  | succ n ih => rw [crcRounds, crcRound_xor, ih]; rfl

/-- Rounds on a value whose low bits are clear only shift it. -/
theorem crcRounds_of_low_clear (n : Nat) (a : Word) (h : ∀ k < n, a.getLsbD k = false) :
    crcRounds n a = a >>> n := by
  induction n generalizing a with
  | zero => rfl
  | succ n ih =>
    have hround : crcRound a = a >>> 1 := if_neg (by rw [h 0 n.succ_pos]; decide)
    have hlow : ∀ k < n, (a >>> 1).getLsbD k = false := fun k hk => by
      rw [BitVec.getLsbD_ushiftRight, Nat.add_comm]
      exact h (k + 1) (by omega)
    rw [crcRounds, hround, ih _ hlow, ← BitVec.shiftRight_add, Nat.add_comm]

/-- The table form of the update (R126): the high bytes move down, the low byte and `d` index the table. -/
theorem crcUpdate_eq_table (acc : Word) (d : Byte) :
    crcUpdate acc d = (acc >>> 8) ^^^ crcUpdate 0#32 (acc.setWidth 8 ^^^ d) := by
  have hhigh : crcRounds 8 (acc ^^^ (acc.setWidth 8).setWidth 32) = acc >>> 8 := by
    rw [crcRounds_of_low_clear]
    · ext k hk
      simp
    · intro k hk
      simp [hk, show k < 32 by omega]
  have hsplit : acc ^^^ d.setWidth 32 =
      (acc ^^^ (acc.setWidth 8).setWidth 32) ^^^ (acc.setWidth 8 ^^^ d).setWidth 32 := by
    rw [BitVec.setWidth_xor, BitVec.xor_assoc, ← BitVec.xor_assoc _ _ (d.setWidth 32), BitVec.xor_self,
      BitVec.zero_xor]
  rw [crcUpdate, hsplit, crcRounds_xor, hhigh, crcUpdate, BitVec.zero_xor]

/-- Settles O32: the rounds by `crcRounds_eq_iterate`, the table by `crcUpdate_eq_table`, the values by
evaluation. -/
theorem checksumUpdate : Obligations.ChecksumUpdate := by
  refine ⟨fun acc d => ⟨?_, crcUpdate_eq_table acc d⟩, by decide, by decide, by decide, ?_, ?_⟩
  · rw [crcUpdate, crcRounds_eq_iterate, funext crcRound_eq]
  · simp [crcUpdate, crcRounds, crcRound]
  · simp [crcUpdate, crcRounds, crcRound]

/-! ### A changed byte changes the digest -/

/-- The polynomial has its highest bit set, so that bit tells whether a round added it. -/
theorem crcRound_high (a : Word) : (crcRound a).getLsbD 31 = a.getLsbD 0 := by
  rw [crcRound_eq_xor]
  cases a.getLsbD 0 <;> simp

theorem crcRound_injective : Function.Injective crcRound := by
  intro a b h
  have hlow : a.getLsbD 0 = b.getLsbD 0 := by rw [← crcRound_high, h, crcRound_high]
  have hshift : a >>> 1 = b >>> 1 := by
    rw [crcRound_eq_xor, crcRound_eq_xor, hlow] at h
    exact (BitVec.xor_left_inj _).1 h
  apply BitVec.eq_of_getLsbD_eq
  rintro (_ | k) hk
  · exact hlow
  · simpa [Nat.add_comm] using congrArg (·.getLsbD k) hshift

theorem crcRounds_injective (n : Nat) : Function.Injective (crcRounds n) := by
  rw [funext (crcRounds_eq_iterate n)]
  exact crcRound_injective.iterate n

theorem crcUpdate_left_inj {a b : Word} (d : Byte) : crcUpdate a d = crcUpdate b d ↔ a = b :=
  (crcRounds_injective 8).eq_iff.trans (BitVec.xor_left_inj _)

theorem crcUpdate_right_inj (a : Word) {d e : Byte} : crcUpdate a d = crcUpdate a e ↔ d = e := by
  refine (crcRounds_injective 8).eq_iff.trans ((BitVec.xor_right_inj _).trans ⟨fun h => ?_, congrArg _⟩)
  simpa using congrArg (BitVec.setWidth 8) h

theorem foldl_crcUpdate_inj {a b : Word} (bs : List Byte) :
    bs.foldl crcUpdate a = bs.foldl crcUpdate b ↔ a = b := by
  induction bs generalizing a b with
  | nil => rfl
  | cons c bs ih => exact ih.trans (crcUpdate_left_inj c)

/-- Two messages that differ in one byte at most have the same remainder only if they are the same (R127). -/
theorem foldl_crcUpdate_changed (acc : Word) (front back : List Byte) {d e : Byte} :
    (front ++ e :: back).foldl crcUpdate acc = (front ++ d :: back).foldl crcUpdate acc ↔ e = d := by
  simp only [List.foldl_append, List.foldl_cons, foldl_crcUpdate_inj, crcUpdate_right_inj]

/-! ### The expected digest -/

theorem shiftInByte_toNat (r : Word) (d : Byte) :
    (shiftInByte r d).toNat = (r.toNat * 2 ^ 8 + d.toNat) % 2 ^ 32 := by
  have hor : r.toNat * 2 ^ 8 + d.toNat = r.toNat <<< 8 ||| d.toNat := by
    rw [← Nat.shiftLeft_add_eq_or_of_lt d.isLt, Nat.shiftLeft_eq]
  rw [hor, Nat.or_mod_two_pow]
  simp only [shiftInByte, BitVec.toNat_or, BitVec.toNat_shiftLeft, BitVec.toNat_setWidth]

/-- Four bytes shifted in push out what the register held (R123). -/
theorem foldl_shiftInByte_four (r : Word) (e0 e1 e2 e3 : Byte) :
    [e0, e1, e2, e3].foldl shiftInByte r = e0 ++ e1 ++ e2 ++ e3 := by
  apply BitVec.eq_of_toNat_eq
  simp only [List.foldl_cons, List.foldl_nil, shiftInByte_toNat, toNat_append_fields]
  omega

/-! ### A command of CRC in a block that is not faulted -/

/-- Commands that each fold their operand into one register of the block fold a whole list into it. -/
theorem execAll_register {i : Byte → Instr} {g : Word → Byte → Word} {put : Word → Block} {s : State} {r : Word}
    (ds : List Byte) (hs : s.blk = put r)
    (hexec : ∀ u r d, u.blk = put r → ∃ p, exec (i d) u = .next (answered p (put (g r d)) u)) :
    ∃ t, execAll (ds.map i) s = .next t ∧ t.blk = put (ds.foldl g r) := by
  induction ds generalizing s r with
  | nil => exact ⟨s, rfl, hs⟩
  | cons d ds ih =>
    obtain ⟨p, hp⟩ := hexec s r d hs
    rw [List.map_cons, execAll_cons hp]
    exact ih rfl

section
variable {s : State} (hf : s.blk.fault = 0#8)
include hf

theorem onCrc_answers {f : Crc → Res Crc Rsp} {r : Rsp} {c : Crc} (h : f s.blk.crc = .ok r c) :
    command s (onCrc f) = .next (answered r { s.blk with crc := c } s) := by
  rw [command_runs _ hf, onCrc, h]
  rfl

theorem exec_crcReset :
    exec .crcReset s =
      .next (answered (rspOk 0#32) { s.blk with crc := { acc := 0xFFFFFFFF#32, exp := 0#32 } } s) :=
  onCrc_answers hf rfl

theorem exec_crcByte (d : Byte) :
    exec (.crcByte d) s = .next (answered (rspOk (BitVec.ofNat 32 d.toNat))
      { s.blk with crc := { s.blk.crc with acc := crcUpdate s.blk.crc.acc d } } s) := by
  rw [BitVec.ofNat_toNat]
  exact onCrc_answers hf rfl

theorem exec_crcExpb (d : Byte) :
    exec (.crcExpb d) s = .next (answered (rspOk (shiftInByte s.blk.crc.exp d))
      { s.blk with crc := { s.blk.crc with exp := shiftInByte s.blk.crc.exp d } } s) :=
  onCrc_answers hf rfl

theorem exec_crcRead :
    exec .crcRead s = .next (answered (rspOk (s.blk.crc.acc ^^^ 0xFFFFFFFF#32)) s.blk s) :=
  onCrc_answers hf rfl

theorem exec_crcCheck_match (h : s.blk.crc.acc ^^^ 0xFFFFFFFF#32 = s.blk.crc.exp) :
    exec .crcCheck s = .next (answered (rspOk (s.blk.crc.acc ^^^ 0xFFFFFFFF#32)) s.blk s) :=
  onCrc_answers hf (if_pos h)

theorem exec_crcCheck_mismatch (h : s.blk.crc.acc ^^^ 0xFFFFFFFF#32 ≠ s.blk.crc.exp) :
    exec .crcCheck s = .next (raised 3 1 s) :=
  have hbody : crcCheckBody s.blk.crc = .trap .crcMismatch s.blk.crc := if_neg h
  command_raises (t := .crcMismatch) hf (by rw [onCrc, hbody]; rfl)

/-- A message given to `CRC_BYTE` (R122). -/
theorem execAll_crcByte (bs : List Byte) :
    ∃ t, execAll (bs.map .crcByte) s = .next t ∧
      t.blk = { s.blk with crc := { s.blk.crc with acc := bs.foldl crcUpdate s.blk.crc.acc } } :=
  execAll_register (put := fun a => { s.blk with crc := { s.blk.crc with acc := a } }) bs rfl
    fun u a d hu => ⟨_, by rw [exec_crcByte (by rw [hu]; exact hf), hu]⟩

/-- A four byte digest given to `CRC_EXPB` (R123). -/
theorem execAll_crcExpb (e0 e1 e2 e3 : Byte) :
    ∃ t, execAll [.crcExpb e0, .crcExpb e1, .crcExpb e2, .crcExpb e3] s = .next t ∧
      t.blk = { s.blk with crc := { s.blk.crc with exp := e0 ++ e1 ++ e2 ++ e3 } } := by
  rw [← foldl_shiftInByte_four s.blk.crc.exp]
  exact execAll_register (put := fun e => { s.blk with crc := { s.blk.crc with exp := e } }) [e0, e1, e2, e3] rfl
    fun u e d hu => ⟨_, by rw [exec_crcExpb (by rw [hu]; exact hf), hu]⟩

/-- A whole chunk before its `CRC_CHECK` (R127). -/
theorem execAll_crcChunk (bs : List Byte) (g0 g1 g2 g3 : Byte) :
    ∃ t, execAll (.crcReset :: (bs.map .crcByte ++ [.crcExpb g0, .crcExpb g1, .crcExpb g2, .crcExpb g3])) s =
        .next t ∧
      t.blk = { s.blk with
        crc := { acc := bs.foldl crcUpdate 0xFFFFFFFF#32, exp := g0 ++ g1 ++ g2 ++ g3 } } := by
  obtain ⟨t, ht, hblk⟩ := execAll_crcByte
    (s := answered (rspOk 0#32) { s.blk with crc := { acc := 0xFFFFFFFF#32, exp := 0#32 } } s) hf bs
  obtain ⟨u, hu, hblk'⟩ := execAll_crcExpb (s := t) (by rw [hblk]; exact hf) g0 g1 g2 g3
  refine ⟨u, ?_, by rw [hblk', hblk]; rfl⟩
  rw [execAll_cons (exec_crcReset hf), execAll_append ht, hu]

end

/-- Settles O30: the words by `encodedZ_of_formatZ` and `encodedI_of_formatI`, each command by its equation, the
four bytes by `execAll_crcExpb`. -/
theorem checksumCommands : Obligations.ChecksumCommands := by
  refine ⟨encodedZ_of_formatZ fun w h => by simp only [decode, h],
    encodedI_of_formatI (check := fun _ => true) (fun w h => by simp only [decode, h]) (by simp),
    encodedI_of_formatI (check := fun _ => true) (fun w h => by simp only [decode, h]) (by simp),
    encodedZ_of_formatZ fun w h => by simp only [decode, h],
    fun s hf => ⟨exec_crcReset hf, exec_crcRead hf⟩,
    fun s d hf => ⟨exec_crcByte hf d, _, shiftInByte_toNat _ d, exec_crcExpb hf d⟩,
    fun s e0 e1 e2 e3 hf => ?_⟩
  obtain ⟨t, ht, hblk⟩ := execAll_crcExpb hf e0 e1 e2 e3
  refine ⟨t, ht, by rw [hblk], ?_⟩
  rw [hblk]
  simp only [toNat_append_fields]
  omega

/-- Settles O31: the word by `encodedZ_of_formatZ`, the two outcomes by the comparison of R125. -/
theorem checksumCompare : Obligations.ChecksumCompare :=
  ⟨encodedZ_of_formatZ fun w h => by simp only [decode, h],
    fun _ hf => ⟨exec_crcCheck_match hf, exec_crcCheck_mismatch hf⟩⟩

/-- Settles O33: the commands before `CRC_CHECK` by `execAll_crcChunk`; the digests agree exactly when the byte is
the original one, by `foldl_crcUpdate_changed`. -/
theorem changedByteFailsCheck : Obligations.ChangedByteFailsCheck := by
  intro s front back d e g0 g1 g2 g3 hf hdigest
  obtain ⟨t, ht, hblk⟩ := execAll_crcChunk hf (front ++ e :: back) g0 g1 g2 g3
  have htf : t.blk.fault = 0#8 := by rw [hblk]; exact hf
  have hrun := execAll_append (js := [.crcCheck]) ht
  rw [List.cons_append, List.append_assoc] at hrun
  have hiff : t.blk.crc.acc ^^^ 0xFFFFFFFF#32 = t.blk.crc.exp ↔ e = d := by
    rw [hblk]
    dsimp only
    rw [hdigest]
    exact (BitVec.xor_left_inj _).trans (foldl_crcUpdate_changed _ front back)
  by_cases he : e = d
  · have hmatch := hiff.2 he
    refine ⟨_, hrun.trans (execAll_cons (exec_crcCheck_match htf hmatch)), fun _ => ⟨htf, ?_⟩, absurd he⟩
    rw [hmatch, hblk]
    exact List.getLast?_concat
  · exact ⟨_, hrun.trans (execAll_cons (exec_crcCheck_mismatch htf (mt hiff.1 he))), fun h => absurd h he,
      fun _ => ⟨rfl, rfl⟩⟩

end Sys2Proof.Machine

/-! ## The proofs: INFL (42_inflate.md)

The fields of bits a transition takes, the run loop as a chain of transitions, each transition on the bits it
takes, the bytes a command emits, and the code tables. -/

namespace Sys2Proof.Machine

open Sys2Proof.Safety

/-! ### Fields of bits -/

theorem bitsOf_eq_byteBits (d : Byte) : bitsOf d = byteBits d := rfl

/-- The recursive value of a field is the sum R144 writes, from any first weight. -/
theorem weighted_eq_bitsValue (q : List Bool) (k : Nat) :
    ((q.zipIdx k).map fun x => x.1.toNat * 2 ^ x.2).sum = 2 ^ k * bitsValue q := by
  induction q generalizing k with
  | nil => rfl
  | cons b q ih =>
    rw [List.zipIdx_cons, List.map_cons, List.sum_cons, ih, bitsValue]
    ring

theorem bitsValue_eq_fieldValue (q : List Bool) : bitsValue q = fieldValue q := by
  rw [fieldValue, weighted_eq_bitsValue, pow_zero, one_mul]

/-- The eight bits of a byte make the byte (R144). -/
theorem bitsValue_byteBits (d : Byte) : bitsValue (byteBits d) = d.toNat := by
  have := d.isLt
  simp only [byteBits, bitsValue, BitVec.getLsbD, Nat.toNat_testBit]
  omega

section
variable {i : Infl} {v rest : List Bool} {k : Nat}

/-- `take(k)` on a queue that begins with the field `v` (R144). -/
theorem takeValue_field (h : i.bitq = v ++ rest) (hv : v.length = k) : takeValue k i = fieldValue v := by
  rw [takeValue, h, ← hv, List.take_left, bitsValue_eq_fieldValue]

theorem dropBits_field (h : i.bitq = v ++ rest) (hv : v.length = k) : dropBits k i = { i with bitq := rest } := by
  rw [dropBits, h, ← hv, List.drop_left]

theorem takeValue_byte {d : Byte} (h : i.bitq = bitsOf d ++ rest) : takeValue 8 i = d.toNat := by
  rw [takeValue_field (k := 8) h rfl, ← bitsValue_eq_fieldValue, bitsOf_eq_byteBits, bitsValue_byteBits]

theorem dropBits_byte {d : Byte} (h : i.bitq = bitsOf d ++ rest) : dropBits 8 i = { i with bitq := rest } :=
  dropBits_field h rfl

theorem dropBits_dropBits (j k : Nat) (i : Infl) : dropBits j (dropBits k i) = dropBits (k + j) i := by
  rw [dropBits, dropBits_bitq, List.drop_drop]
  rfl

end

/-! ### The run loop as a chain of transitions -/

/-- Where a run from `p` ends: at an engine that waits, or at the fault of a transition (R146). -/
def EndsRun (cap : Word) (p : Pipe) : Res Pipe Unit → Prop
  | .ok _ q => Relation.ReflTransGen (Turn cap) p q ∧ canProceed q.infl = false
  | .trap c r => ∃ q, Relation.ReflTransGen (Turn cap) p q ∧ canProceed q.infl = true ∧ transition cap q = .trap c r
  | .stop _ => True

section
variable {cap : Word} {p q r : Pipe} {c : Trap}

theorem endsRun_of_turn (h : Turn cap p q) {o : Res Pipe Unit} (ho : EndsRun cap q o) : EndsRun cap p o := by
  cases o with
  | ok a r => exact ⟨ho.1.head h, ho.2⟩
  | trap c r =>
    obtain ⟨m, hm, hlast⟩ := ho
    exact ⟨m, hm.head h, hlast⟩
  | stop e => trivial

theorem run_ends (cap : Word) (n : Nat) (p : Pipe) : EndsRun cap p (run cap n p) := by
  induction n generalizing p with
  | zero => trivial
  | succ n ih =>
    rw [run]
    split_ifs with hp
    · cases ht : transition cap p with
      | ok a q => exact endsRun_of_turn ⟨hp, ht⟩ (ih q)
      | trap c r => exact ⟨p, .refl, hp, ht⟩
      | stop e => trivial
    · exact ⟨.refl, Bool.eq_false_iff.2 hp⟩

/-- A run of one transition. -/
theorem run_one_turn (n : Nat) (h : Turn cap p q) (hq : canProceed q.infl = false) : run cap (n + 2) p = .ok () q := by
  rw [run, if_pos h.1, h.2, bind_ok, run, hq]
  rfl

theorem run_traps (n : Nat) (hp : canProceed p.infl = true) (ht : transition cap p = .trap c r) :
    run cap (n + 1) p = .trap c r := by
  rw [run, if_pos hp, ht, bind_trap]

end

/-! ### `IN_BYTE` in a block that is not faulted -/

/-- What `IN_BYTE` works on. -/
def Block.pipe (b : Block) : Pipe := { infl := b.infl, out := b.out, df := b.df }

/-- The block with another pipe. -/
def Block.setPipe (b : Block) (p : Pipe) : Block := { b with infl := p.infl, out := p.out, df := p.df }

/-- A fault of a command that has written the block before is `raised` on what it wrote (R264, R277). -/
theorem takeFault_eq_raised (c : Trap) (s : State) : takeFault c s = raised c.cause.toNat c.sub.toNat s := by
  simp only [takeFault, rspFault_false, raised, answered, BitVec.ofNat_toNat, BitVec.setWidth_eq]

/-- The run that `IN_BYTE d` makes of the pipe `p` (R143). -/
def runFed (cap : Word) (d : Byte) (p : Pipe) : Res Pipe Unit := run cap (runTurns (feedByte d p).infl) (feedByte d p)

section
variable {s : State} {d : Byte} (hf : s.blk.fault = 0#8)
include hf

theorem exec_inByte_done (hd : s.blk.infl.instate = .done) : exec (.inByte d) s = .next (raised 1 12 s) :=
  command_raises (t := .afterDone) hf (by rw [onPipe, inByteBody, if_pos hd]; rfl)

/-- `IN_BYTE` as its run ends (R143). -/
theorem exec_inByte (hd : s.blk.infl.instate ≠ .done) :
    exec (.inByte d) s = finish s ((((runFed s.pixcap d s.blk.pipe).bind fun _ q =>
      .ok (rspOk (inByteData s.blk.infl q.infl)) q)).within s.blk.setPipe) := by
  have hbody : inByteBody s.pixcap d s.blk.pipe = _ := if_neg hd
  exact (command_runs _ hf).trans (congrArg (fun r => finish s (r.within s.blk.setPipe)) hbody)

theorem exec_inByte_ok (hd : s.blk.infl.instate ≠ .done) {q : Pipe} (h : runFed s.pixcap d s.blk.pipe = .ok () q) :
    exec (.inByte d) s =
      .next (answered (rspOk (inByteData s.blk.infl q.infl)) (s.blk.setPipe q) s) := by
  rw [exec_inByte hf hd, h]
  rfl

theorem exec_inByte_trap (hd : s.blk.infl.instate ≠ .done) {c : Trap} {q : Pipe}
    (h : runFed s.pixcap d s.blk.pipe = .trap c q) :
    exec (.inByte d) s = .next (raised c.cause.toNat c.sub.toNat { s with blk := s.blk.setPipe q }) := by
  rw [exec_inByte hf hd, h, ← takeFault_eq_raised]
  rfl

end

/-- In a good block the run of an `IN_BYTE` does not stop the model. -/
theorem runFed_meets {cap : Word} {b : Block} (d : Byte) (hb : BlockInv cap b) (hf : b.fault = 0#8)
    (hd : b.infl.instate ≠ .done) :
    (runFed cap d b.pipe).Meets (fun _ q => Good cap q ∧ Waiting q.infl) (fun _ q => Kept cap q) := by
  obtain ⟨he, hw⟩ := hb.engine hf
  refine run_meets (feedByte_good hb.ranges he hw hb.defilt hd) ?_
  have := workLeft_bounds (feedByte d b.pipe).infl
  rw [runTurns]
  omega

/-- Settles O35: the word by `encodedI_of_formatI`, the bits by `bitsNeeded`, the chain of transitions by
`run_ends`, which in a good block is no stop by `runFed_meets`. -/
theorem feedByteRunsToRest : Obligations.FeedByteRunsToRest := by
  refine ⟨encodedI_of_formatI (check := fun _ => true) (fun w h => by simp only [decode, h]) (fun _ => by simp),
    fun i => ?_, fun st => by cases st <;> rfl, fun i => canProceed_iff, fun s d hf =>
    ⟨fun hd => exec_inByte_done hf hd, fun hd hb => ?_⟩⟩
  · cases hs : i.instate with
    | dynRep =>
      simp only [bitsNeeded, hs, repeatBits]
      split_ifs <;> rfl
    | _ => simp only [bitsNeeded, hs]
  · have hends : EndsRun s.pixcap (feedByte d s.blk.pipe) (runFed s.pixcap d s.blk.pipe) := run_ends _ _ _
    have hmeets := runFed_meets d hb hf hd
    cases hr : runFed s.pixcap d s.blk.pipe with
    | ok a q =>
      rw [hr] at hends
      exact ⟨q, hends.1, .inl ⟨hends.2, exec_inByte_ok hf hd hr⟩⟩
    | trap c r =>
      rw [hr] at hends
      obtain ⟨q, hq, hp, ht⟩ := hends
      exact ⟨q, hq, .inr ⟨c, r, hp, ht, exec_inByte_trap hf hd hr⟩⟩
    | stop e =>
      rw [hr] at hmeets
      exact hmeets.elim

/-! ### The transition of each state -/

section
variable {cap : Word} {p : Pipe}

theorem transition_zhCmf (h : p.infl.instate = .zhCmf) : transition cap p = stepZhCmf p := by
  rw [transition, h]

theorem transition_zhFlg (h : p.infl.instate = .zhFlg) : transition cap p = stepZhFlg p := by
  rw [transition, h]

theorem transition_blkHdr (h : p.infl.instate = .blkHdr) : transition cap p = stepBlkHdr p := by
  rw [transition, h]

theorem transition_stLen (h : p.infl.instate = .stLen) : transition cap p = stepStLen p := by
  rw [transition, h]

theorem transition_stCopy (h : p.infl.instate = .stCopy) : transition cap p = stepStCopy cap p := by
  rw [transition, h]

theorem transition_dynHdr (h : p.infl.instate = .dynHdr) : transition cap p = stepDynHdr p := by
  rw [transition, h]

theorem transition_dynClen (h : p.infl.instate = .dynClen) : transition cap p = stepDynClen p := by
  rw [transition, h]

theorem transition_dynLens (h : p.infl.instate = .dynLens) : transition cap p = stepDynLens p := by
  rw [transition, h]

theorem transition_dynRep (h : p.infl.instate = .dynRep) : transition cap p = stepDynRep p := by
  rw [transition, h]

theorem transition_sym (h : p.infl.instate = .sym) : transition cap p = stepSym cap p := by
  rw [transition, h]

theorem transition_lenExtra (h : p.infl.instate = .lenExtra) : transition cap p = stepLenExtra p := by
  rw [transition, h]

theorem transition_distSym (h : p.infl.instate = .distSym) : transition cap p = stepDistSym p := by
  rw [transition, h]

theorem transition_distExtra (h : p.infl.instate = .distExtra) : transition cap p = stepDistExtra cap p := by
  rw [transition, h]

theorem transition_trailer (h : p.infl.instate = .trailer) : transition cap p = stepTrailer p := by
  rw [transition, h]

end

/-! ### The zlib header -/

/-- The response of an `IN_BYTE` that emits nothing (R143). -/
theorem inByteData_of_total {i j : Infl} (h : j.total = i.total) :
    inByteData i j = BitVec.ofNat 32 ((instateCode j.instate).toNat * 2 ^ 16) := by
  rw [inByteData, h, BitVec.sub_self, BitVec.toNat_zero, Nat.add_zero]

section
variable {cap : Word} {p : Pipe} {d : Byte} {rest : List Bool}

theorem stepZhCmf_byte (h : p.infl.bitq = bitsOf d ++ rest) :
    stepZhCmf p =
      if d.toNat % 16 = 8 ∧ d.toNat / 16 ≤ 7 then
        .ok () { p with infl := { p.infl with bitq := rest, cmf := d, instate := .zhFlg } }
      else .trap .zlibHeader { p with infl := { p.infl with bitq := rest, cmf := d } } := by
  have hd : BitVec.ofNat 8 d.toNat = d := by rw [BitVec.ofNat_toNat, BitVec.setWidth_eq]
  unfold stepZhCmf
  rw [takeValue_byte h, dropBits_byte h, hd]
  dsimp only
  by_cases hok : d.toNat % 16 = 8 ∧ d.toNat / 16 ≤ 7
  · rw [if_pos hok, if_neg (by omega)]
    rfl
  · rw [if_neg hok, if_pos (by omega)]
    rfl

theorem testBit_five (d : Byte) : d.toNat / 32 % 2 = 1 ↔ d.getLsbD 5 = true := by
  rw [BitVec.getLsbD, Nat.testBit_eq_decide_div_mod_eq, decide_eq_true_iff]

theorem stepZhFlg_byte {c : Byte} (hc : p.infl.cmf = c) (h : p.infl.bitq = bitsOf d ++ rest) :
    stepZhFlg p =
      if (c.toNat * 256 + d.toNat) % 31 ≠ 0 then
        .trap .zlibHeader { p with infl := { p.infl with bitq := rest } }
      else if d.getLsbD 5 = true then .trap .presetDictionary { p with infl := { p.infl with bitq := rest } }
      else .ok () { p with infl := { p.infl with bitq := rest, instate := .blkHdr } } := by
  simp only [stepZhFlg, takeValue_byte h, dropBits_byte h, testBit_five, hc]
  rfl

end

section
variable {s : State} {d : Byte} {c : Trap} {q : Pipe} (hf : s.blk.fault = 0#8) (hq : s.blk.infl.bitq = [])
  (hneed : bitsNeeded s.blk.infl = some 8)

include hq in
theorem feedByte_empty : (feedByte d s.blk.pipe).infl.bitq = bitsOf d ++ [] := by
  rw [List.append_nil]
  exact congrArg (· ++ byteBits d) hq

include hq hneed in
theorem canProceed_feedByte : canProceed (feedByte d s.blk.pipe).infl = true :=
  canProceed_iff.2 ⟨8, hneed, by rw [feedByte_empty hq]; rfl⟩

include hneed in
theorem instate_ne_done : s.blk.infl.instate ≠ .done := by
  intro hd
  rw [bitsNeeded, hd] at hneed
  cases hneed

include hf hq hneed

/-- One transition takes the whole byte, and the engine waits again. -/
theorem exec_inByte_one_turn (ht : transition s.pixcap (feedByte d s.blk.pipe) = .ok () q)
    (hrest : canProceed q.infl = false) (htotal : q.infl.total = s.blk.infl.total) {st : InState} {r : Word}
    (hst : q.infl.instate = st) (hr : BitVec.ofNat 32 ((instateCode st).toNat * 2 ^ 16) = r) :
    exec (.inByte d) s = .next (answered (rspOk r) (s.blk.setPipe q) s) := by
  rw [← hr, ← hst, ← inByteData_of_total htotal]
  exact exec_inByte_ok hf (instate_ne_done hneed) (run_one_turn _ ⟨canProceed_feedByte hq hneed, ht⟩ hrest)

theorem exec_inByte_first_traps (ht : transition s.pixcap (feedByte d s.blk.pipe) = .trap c q) :
    exec (.inByte d) s = .next (raised c.cause.toNat c.sub.toNat { s with blk := s.blk.setPipe q }) :=
  exec_inByte_trap hf (instate_ne_done hneed) (run_traps _ (canProceed_feedByte hq hneed) ht)

end

/-- Settles O36: each byte is one transition, with the outcomes of `stepZhCmf_byte` and `stepZhFlg_byte`. -/
theorem zlibHeaderBytes : Obligations.ZlibHeaderBytes := by
  intro s d hf hq
  refine ⟨fun hs => ?_, fun hs => ?_⟩
  · have hneed : bitsNeeded s.blk.infl = some 8 := by rw [bitsNeeded, hs]
    have ht := (transition_zhCmf (cap := s.pixcap) (p := feedByte d s.blk.pipe) hs).trans
      (stepZhCmf_byte (feedByte_empty hq))
    rw [← hq] at ht
    refine ⟨fun h => ?_, fun h => ?_⟩
    · rw [if_pos h] at ht
      exact exec_inByte_one_turn (st := .zhFlg) hf hq hneed ht (by rw [hq]; rfl) rfl rfl (by decide)
    · rw [if_neg h] at ht
      exact exec_inByte_first_traps (c := .zlibHeader) hf hq hneed ht
  · have hneed : bitsNeeded s.blk.infl = some 8 := by rw [bitsNeeded, hs]
    have ht := (transition_zhFlg (cap := s.pixcap) (p := feedByte d s.blk.pipe) hs).trans
      (stepZhFlg_byte (c := s.blk.infl.cmf) rfl (feedByte_empty hq))
    rw [← hq] at ht
    refine ⟨fun h => ?_, fun h h5 => ?_, fun h h5 => ?_⟩
    · rw [if_pos h] at ht
      exact exec_inByte_first_traps (c := .zlibHeader) hf hq hneed ht
    · rw [if_neg (not_not.2 h), if_pos h5] at ht
      exact exec_inByte_first_traps (c := .presetDictionary) hf hq hneed ht
    · rw [if_neg (not_not.2 h), if_neg (by rw [h5]; decide)] at ht
      exact exec_inByte_one_turn (st := .blkHdr) hf hq hneed ht (by rw [hq]; rfl) rfl rfl (by decide)

/-! ### `IN_RESET` and `IN_ROUTE` -/

theorem onInfl_answers {s : State} {f : Infl → Res Infl Rsp} {r : Rsp} {i : Infl} (hf : s.blk.fault = 0#8)
    (h : f s.blk.infl = .ok r i) : command s (onInfl f) = .next (answered r { s.blk with infl := i } s) := by
  rw [command_runs _ hf, onInfl, h]
  rfl

theorem exec_inRoute {s : State} {x : Byte} {r : Bool} (h : bitOperand x = some r) :
    exec (.inRoute x) s = command s (onInfl (inRouteBody r)) := by
  simp only [exec, execInRoute, h]

/-- Settles O34: the words by `encodedZ_of_formatZ` and `encodedI_of_formatI`, the commands by their bodies. -/
theorem inflateResetAndRoute : Obligations.InflateResetAndRoute := by
  refine ⟨encodedZ_of_formatZ fun w h => by simp only [decode, h],
    encodedI_of_formatI (check := bitLegal) (fun w h => by simp only [decode, h])
      (fun b => decide_eq_true_iff.trans Nat.lt_succ_iff), fun s hf => ⟨onInfl_answers hf rfl, fun r => ?_⟩⟩
  exact (exec_inRoute (bitOperand_ofNat r)).trans (onInfl_answers hf rfl)

/-! ### Block header and stored blocks -/

theorem bitsValue_append (u v : List Bool) : bitsValue (u ++ v) = bitsValue u + 2 ^ u.length * bitsValue v := by
  induction u with
  | nil => simp [bitsValue]
  | cons b u ih =>
    rw [List.cons_append, bitsValue, ih, bitsValue, List.length_cons]
    ring

theorem fieldValue_lt (v : List Bool) : fieldValue v < 2 ^ v.length :=
  bitsValue_eq_fieldValue v ▸ bitsValue_lt v

/-- Two bytes make a 16-bit field, the first byte the low one (R144). -/
theorem fieldValue_twoBytes (l h : Byte) : fieldValue (bitsOf l ++ bitsOf h) = l.toNat + 256 * h.toNat := by
  rw [← bitsValue_eq_fieldValue, bitsValue_append, bitsOf_eq_byteBits, bitsOf_eq_byteBits, bitsValue_byteBits,
    bitsValue_byteBits, byteBits_length]
  rfl

section
variable {i : Infl} {u v rest : List Bool} {j k : Nat}

/-- `take(k)` after `j` bits have been taken. -/
theorem takeValue_later (h : i.bitq = u ++ v ++ rest) (hu : u.length = j) (hv : v.length = k) :
    takeValue k (dropBits j i) = fieldValue v := by
  rw [List.append_assoc] at h
  rw [dropBits_field h hu]
  exact takeValue_field rfl hv

theorem takeValue_one {b : Bool} (h : i.bitq = b :: rest) : takeValue 1 i = b.toNat := by
  rw [takeValue, h, List.take_succ_cons, List.take_zero, bitsValue, bitsValue, Nat.mul_zero, Nat.add_zero]

theorem dropBits_one {b : Bool} (h : i.bitq = b :: rest) : dropBits 1 i = { i with bitq := rest } := by
  rw [dropBits, h, List.drop_succ_cons, List.drop_zero]

end

/-- The tables of the fixed block exist (R150). -/
theorem fixedTables_exist : ∃ lt dt, tableFromLengths 9 fixedLitLen 15 = some lt ∧
    tableFromLengths 5 fixedDist 15 = some dt :=
  ⟨_, _, if_neg fixed_not_overSubscribed.1, if_neg fixed_not_overSubscribed.2⟩

section
variable {p : Pipe} {rest : List Bool}

/-- The three bits of a block header, as `BLK_HDR` reads them (R153). -/
theorem blkHdr_fields {f t0 t1 : Bool} (h : p.infl.bitq = f :: t0 :: t1 :: rest) :
    decide (takeValue 1 p.infl = 1) = f ∧ takeValue 2 (dropBits 1 p.infl) = t0.toNat + 2 * t1.toNat ∧
      dropBits 3 p.infl = { p.infl with bitq := rest } := by
  have h3 : p.infl.bitq = [f, t0, t1] ++ rest := h
  refine ⟨?_, ?_, dropBits_field h3 rfl⟩
  · rw [takeValue_one h]
    cases f <;> rfl
  · rw [takeValue_later (u := [f]) (v := [t0, t1]) (j := 1) (k := 2) h3 rfl rfl, ← bitsValue_eq_fieldValue]
    simp only [bitsValue, Nat.mul_zero, Nat.add_zero]

/-- `NLEN` is the complement of `LEN` byte by byte (R154). -/
theorem complement_iff (l0 l1 n0 n1 : Byte) :
    BitVec.ofNat 16 (l0.toNat + 256 * l1.toNat) = BitVec.ofNat 16 (n0.toNat + 256 * n1.toNat) ^^^ 0xFFFF#16 ↔
      n0 = ~~~l0 ∧ n1 = ~~~l1 := by
  have hones : (0xFFFF#16 : BitVec 16) = BitVec.allOnes 16 := by decide
  have h0 := l0.isLt
  have h1 := l1.isLt
  have h2 := n0.isLt
  have h3 := n1.isLt
  rw [hones, BitVec.xor_allOnes]
  simp only [← BitVec.toNat_inj, BitVec.toNat_not, BitVec.toNat_ofNat]
  omega

theorem stepStLen_bytes {l0 l1 n0 n1 : Byte}
    (h : p.infl.bitq = bitsOf l0 ++ bitsOf l1 ++ bitsOf n0 ++ bitsOf n1 ++ rest) :
    stepStLen p =
      if n0 = ~~~l0 ∧ n1 = ~~~l1 then
        let q : Pipe := { p with infl := { p.infl with
          bitq := rest, rem := BitVec.ofNat 16 (l0.toNat + 256 * l1.toNat) } }
        .ok () (if BitVec.ofNat 16 (l0.toNat + 256 * l1.toNat) = 0#16 then blockEnd q else q.goto .stCopy)
      else .trap .storedLen { p with infl := { p.infl with bitq := rest } } := by
  have hfields : p.infl.bitq = (bitsOf l0 ++ bitsOf l1) ++ (bitsOf n0 ++ bitsOf n1) ++ rest := by
    rw [h, List.append_assoc (bitsOf l0 ++ bitsOf l1)]
  have hlen : takeValue 16 p.infl = l0.toNat + 256 * l1.toNat := by
    rw [takeValue_field (k := 16) (hfields.trans (List.append_assoc ..)) rfl, fieldValue_twoBytes]
  have hnlen : takeValue 16 (dropBits 16 p.infl) = n0.toNat + 256 * n1.toNat := by
    rw [takeValue_later (j := 16) (k := 16) hfields rfl rfl, fieldValue_twoBytes]
  unfold stepStLen
  rw [hlen, hnlen, dropBits_field (k := 32) hfields rfl]
  simp only [ne_eq, complement_iff, ite_not]
  rfl

/-- The copy of one stored byte, and the end of the block after the last (R155). -/
theorem stepStCopy_byte {cap : Word} {d : Byte} (h : p.infl.bitq = bitsOf d ++ rest) :
    stepStCopy cap p = (emit cap d { p with infl := { p.infl with bitq := rest } }).bind fun _ q =>
      .ok () (if q.infl.rem = 1#16 then blockEnd { q with infl := { q.infl with rem := 0#16 } }
        else { q with infl := { q.infl with rem := q.infl.rem - 1#16 } }) := by
  unfold stepStCopy
  rw [takeValue_byte h, dropBits_byte h, BitVec.ofNat_toNat, BitVec.setWidth_eq]
  congr 1
  funext _ q
  have hlast : q.infl.rem - 1#16 = 0#16 ↔ q.infl.rem = 1#16 := sub_eq_zero
  by_cases h1 : q.infl.rem = 1#16
  · have h0 := hlast.2 h1
    rw [if_pos h1]
    exact congrArg _ ((if_pos h0).trans (by rw [h0]; rfl))
  · rw [if_neg h1]
    exact congrArg _ (if_neg (mt hlast.1 h1))

end

/-- Settles O37: the header by `blkHdr_fields`, the length by `stepStLen_bytes`, the copy by what `emit` gives. -/
theorem blockHeaderAndStored : Obligations.BlockHeaderAndStored := by
  intro cap p rest
  refine ⟨fun f t0 t1 hs hq => ?_, fun l0 l1 n0 n1 hs hq => ?_, fun d hs hq => ?_, fun hfin => ?_, fun hfin => ?_⟩
  · obtain ⟨hf, ht, hd⟩ := blkHdr_fields hq
    obtain ⟨lt, dt, hlt, hdt⟩ := fixedTables_exist
    rw [transition_blkHdr hs]
    unfold stepBlkHdr
    rw [hf, ht, hd]
    refine ⟨?_, ?_, ?_, ?_⟩
    · rintro rfl rfl
      rfl
    · rintro rfl rfl
      exact ⟨lt, dt, hlt, hdt, by rw [hlt, hdt]; rfl⟩
    · rintro rfl rfl
      rfl
    · rintro rfl rfl
      rfl
  · rw [transition_stLen hs, stepStLen_bytes hq]
    refine ⟨fun hok => ?_, fun hbad => if_neg hbad⟩
    have h0 := l0.isLt
    have h1 := l1.isLt
    refine ⟨BitVec.ofNat 16 (l0.toNat + 256 * l1.toNat), Nat.mod_eq_of_lt (by omega), fun hne => ?_, fun hz => ?_⟩
    · rw [if_pos hok]
      dsimp only
      rw [if_neg hne]
      rfl
    · rw [if_pos hok]
      dsimp only
      rw [if_pos hz]
  · rw [transition_stCopy hs, stepStCopy_byte hq]
    refine ⟨fun q he => ⟨fun hne => ?_, fun hone => ?_⟩, fun c q he => ?_⟩
    · rw [he, bind_ok, if_neg hne]
    · rw [he, bind_ok, if_pos hone]
    · rw [he, bind_trap]
  · rw [blockEnd, if_pos hfin]
    rfl
  · rw [blockEnd, hfin]
    rfl
/-! ### Dynamic blocks: the counts and the code-length lengths -/

theorem setIfInBounds_fin {α : Type} {n : Nat} (v : Vector α n) (k : Fin n) (x : α) :
    v.setIfInBounds k x = v.set k x := by
  ext j hj
  rw [Vector.getElem_setIfInBounds, Vector.getElem_set]

section
variable {p : Pipe} {rest : List Bool}

/-- The three counts of a dynamic block, as `DYN_HDR` reads them (R157). -/
theorem dynHdr_fields {a b c : List Bool} (ha : a.length = 5) (hb : b.length = 5) (hc : c.length = 4)
    (h : p.infl.bitq = a ++ b ++ c ++ rest) :
    takeValue 5 p.infl = fieldValue a ∧ takeValue 5 (dropBits 5 p.infl) = fieldValue b ∧
      takeValue 4 (dropBits 10 p.infl) = fieldValue c ∧ dropBits 14 p.infl = { p.infl with bitq := rest } := by
  have hab : (a ++ b).length = 10 := by rw [List.length_append, ha, hb]
  have habc : (a ++ b ++ c).length = 14 := by rw [List.length_append, hab, hc]
  have ha' : p.infl.bitq = a ++ (b ++ (c ++ rest)) := by rw [h, List.append_assoc, List.append_assoc]
  have hb' : p.infl.bitq = a ++ b ++ (c ++ rest) := by rw [h, List.append_assoc (a ++ b)]
  exact ⟨takeValue_field ha' ha, takeValue_later hb' ha hb, takeValue_later h hab hc, dropBits_field h habc⟩

/-- `DYN_CLEN` on the three bits it takes (R158). -/
theorem stepDynClen_field {v : List Bool} {pos : Fin 19} {i : Infl} (hv : v.length = 3)
    (h : p.infl.bitq = v ++ rest) (hpos : clOrder[p.infl.idx.toNat]? = some pos.val)
    (hi : i = { p.infl with
      cll := p.infl.cll.set pos (BitVec.ofNat 3 (fieldValue v)), idx := p.infl.idx + 1#5, bitq := rest }) :
    stepDynClen p =
      if i.idx = i.hclen then
        match tableFromLengths 5 (i.cll.toList.map BitVec.toNat) 7 with
        | none => .trap .overSubscribed { p with infl := i }
        | some ct => .ok () { p with infl := { i with ct := ct, lens := [], instate := .dynLens } }
      else .ok () { p with infl := i } := by
  rw [← setIfInBounds_fin] at hi
  subst hi
  unfold stepDynClen
  rw [hpos, takeValue_field h hv, dropBits_field h hv]
  rfl

end

/-- Settles O38: the counts by `dynHdr_fields`, one length by `stepDynClen_field`. -/
theorem dynamicBlockCounts : Obligations.DynamicBlockCounts := by
  intro cap p rest
  refine ⟨fun a b c hs ha hb hc hq => ?_, fun v pos i hs hv hq hpos hi => ?_⟩
  · obtain ⟨hlit, hdist, hclen, hdrop⟩ := dynHdr_fields ha hb hc hq
    have hla := fieldValue_lt a
    have hlb := fieldValue_lt b
    have hlc := fieldValue_lt c
    rw [ha] at hla
    rw [hb] at hlb
    rw [hc] at hlc
    rw [transition_dynHdr hs]
    unfold stepDynHdr
    rw [hlit, hdist, hclen, hdrop]
    refine ⟨fun hok => ?_, fun hbad => ?_⟩
    · exact ⟨_, if_neg (by omega), Nat.mod_eq_of_lt (by omega), Nat.mod_eq_of_lt (by omega),
        Nat.mod_eq_of_lt (by omega), fun k => Vector.getElem_replicate .., rfl⟩
    · exact ⟨_, if_pos hbad, Nat.mod_eq_of_lt (by omega), Nat.mod_eq_of_lt (by omega), rfl⟩
  · rw [transition_dynClen hs, stepDynClen_field hv hq hpos hi]
    refine ⟨fun hne => if_neg hne, fun he => ⟨fun ct hct => ?_, fun hct => ?_⟩⟩
    · rw [if_pos he, hct]
    · rw [if_pos he, hct]

/-! ### One bit of a symbol -/

section
variable {p : Pipe} {rest : List Bool} {b : Bool} {w maxlen n c : Nat} {tab : Table w}

/-- The engine after a bit that completes a symbol (R147). -/
def symbolRead (rest : List Bool) (i : Infl) : Infl := { i with bitq := rest, hn := 0#5, hcand := 0#15 }

section
variable (hq : p.infl.bitq = b :: rest) (hn : n = p.infl.hn.toNat + 1) (hc : c = p.infl.hcand.toNat * 2 + b.toNat)
include hq hn hc

theorem hstep_hit {y : BitVec w} (hy : Table.find tab (n, c) = some y) :
    hstep tab maxlen p = .ok (some y) { p with infl := symbolRead rest p.infl } := by
  subst hn hc
  unfold hstep
  rw [takeValue_one hq, dropBits_one hq, lookupStep, hy]
  rfl

theorem hstep_miss (hnone : Table.find tab (n, c) = none) (hlen : maxlen < n) :
    hstep tab maxlen p = .trap .inflMiss { p with infl := { p.infl with bitq := rest } } := by
  subst hn hc
  unfold hstep
  rw [takeValue_one hq, dropBits_one hq, lookupStep, hnone]
  dsimp only
  rw [if_pos hlen]
  rfl

/-- No entry yet: the candidate grows by the bit, and fits its register (R147). -/
theorem hstep_pending (hi : InflRanges p.infl) (h15 : maxlen ≤ 15) (hnone : Table.find tab (n, c) = none)
    (hlen : n ≤ maxlen) :
    ∃ j : Infl, hstep tab maxlen p = .ok none { p with infl := j } ∧ j.hn.toNat = n ∧ j.hcand.toNat = c ∧
      j = { symbolRead rest p.infl with hn := j.hn, hcand := j.hcand } := by
  have hcand : c < 2 ^ 15 := by
    have hlt := candidate_lt hi.candidate.2 (Bool.toNat_le b)
    rw [← hn, ← hc] at hlt
    exact hlt.trans_le (Nat.pow_le_pow_right (by norm_num) (hlen.trans h15))
  refine ⟨{ p.infl with bitq := rest, hn := BitVec.ofNat 5 n, hcand := BitVec.ofNat 15 c }, ?_,
    Nat.mod_eq_of_lt (by omega), Nat.mod_eq_of_lt hcand, rfl⟩
  subst hn hc
  unfold hstep
  rw [takeValue_one hq, dropBits_one hq, lookupStep, hnone]
  dsimp only
  rw [if_neg (not_lt.2 hlen)]
  rfl

end
end

/-! ### Dynamic blocks: the code lengths -/

section
variable {p : Pipe} {rest : List Bool}

/-- `DYN_REP` on the bits it takes (R160). -/
theorem stepDynRep_field {x : List Bool} {v : BitVec 4} {n : Nat} (h : p.infl.bitq = x ++ rest)
    (hx : (p.infl.repsym = 16#5 ∧ x.length = 2 ∧ p.infl.lens.getLast? = some v ∧ n = 3 + fieldValue x) ∨
      (p.infl.repsym = 17#5 ∧ x.length = 3 ∧ v = 0#4 ∧ n = 3 + fieldValue x) ∨
      (p.infl.repsym = 18#5 ∧ x.length = 7 ∧ v = 0#4 ∧ n = 11 + fieldValue x)) :
    stepDynRep p =
      if lensWanted p.infl < p.infl.lens.length + n then
        .trap .repeatPastEnd { p with infl := { p.infl with bitq := rest } }
      else lensDone { p with infl := { p.infl with
        bitq := rest, lens := p.infl.lens ++ List.replicate n v, instate := .dynLens } } := by
  have hrun : repeatRun p.infl = some (v, n) ∧ repeatBits p.infl.repsym = x.length := by
    unfold repeatRun repeatBits
    obtain ⟨hr, hl, hv, rfl⟩ | ⟨hr, hl, rfl, rfl⟩ | ⟨hr, hl, rfl, rfl⟩ := hx
    · simp [hr, hl, hv, takeValue_field h hl]
    · simp [hr, hl, takeValue_field h hl]
    · simp [hr, hl, takeValue_field h hl]
  unfold stepDynRep
  rw [hrun.1, hrun.2, dropBits_field h rfl]
  rfl

/-- `lens_done()` once the list is complete (R161). -/
theorem lensDone_complete {ll dl : List (BitVec 4)} {e : BitVec 4} (h : p.infl.lens = ll ++ dl)
    (hll : ll.length = p.infl.hlit.toNat) (hdl : dl.length = p.infl.hdist.toNat) (he : ll[256]? = some e) :
    lensDone p =
      if e = 0#4 then .trap .noEndOfBlock p
      else match tableFromLengths 9 (ll.map BitVec.toNat) 15 with
        | none => .trap .overSubscribed p
        | some lt => match tableFromLengths 5 (dl.map BitVec.toNat) 15 with
          | none => .trap .overSubscribed { p with infl := { p.infl with lt := lt } }
          | some dt => .ok () { p with infl := { p.infl with lt := lt, dt := dt, instate := .sym } } := by
  have hlen : p.infl.lens.length = lensWanted p.infl := by
    rw [h, List.length_append, hll, hdl, lensWanted]
  have htake : p.infl.lens.take p.infl.hlit.toNat = ll := by rw [h, ← hll, List.take_left]
  have hdrop : p.infl.lens.drop p.infl.hlit.toNat = dl := by rw [h, ← hll, List.drop_left]
  unfold lensDone
  rw [if_pos hlen, htake, hdrop]
  dsimp only
  rw [he]
  dsimp only
  by_cases h0 : e = 0#4
  · rw [if_pos h0, if_pos h0]
  · rw [if_neg h0, if_neg h0]
    cases tableFromLengths 9 (ll.map BitVec.toNat) 15 with
    | none => rfl
    | some lt =>
      cases tableFromLengths 5 (dl.map BitVec.toNat) 15 with
      | none => rfl
      | some dt => rfl

end

/-- Settles O39: a symbol by the three outcomes of `hstep`, a repeat by `stepDynRep_field`, the end of the list by
`lensDone_complete`. -/
theorem dynamicBlockLengths : Obligations.DynamicBlockLengths := by
  intro cap p rest
  refine ⟨fun b n c i hs hq hr hn hc hi => ?_, fun x v n hs hq hx => ?_, fun hne => if_neg hne,
    fun ll dl hl hll hdl => ⟨fun he => ?_, fun e he hne => ⟨fun hlt => ?_, fun lt hlt => ⟨fun hdt => ?_,
      fun dt hdt => ?_⟩⟩⟩⟩
  · subst hi
    rw [transition_dynLens hs]
    unfold stepDynLens
    refine ⟨fun hnone hlen => ?_, fun hnone hlen => ?_, fun y hy hle => ?_, fun y hy hge => ⟨fun h16 hnil => ?_,
      fun hrep => ?_⟩⟩
    · obtain ⟨j, hj, hrest⟩ := hstep_pending hq hn hc hr (by norm_num) hnone hlen
      exact ⟨j, by rw [hj]; rfl, hrest⟩
    · rw [hstep_miss hq hn hc hnone hlen]
      rfl
    · rw [hstep_hit hq hn hc hy]
      exact if_pos hle
    · rw [hstep_hit hq hn hc hy]
      exact (if_neg (by omega)).trans (if_pos ⟨h16, hnil⟩)
    · rw [hstep_hit hq hn hc hy]
      exact (if_neg (by omega)).trans (if_neg fun ⟨h16, hnil⟩ => hrep.elim (· h16) (· hnil))
  · rw [transition_dynRep hs, stepDynRep_field hq hx]
    exact ⟨fun hlt => if_pos hlt, fun hle => if_neg (not_lt.2 hle)⟩
  · rw [lensDone_complete hl hll hdl he, if_pos rfl]
  · rw [lensDone_complete hl hll hdl he, if_neg hne, hlt]
  · rw [lensDone_complete hl hll hdl he, if_neg hne, hlt]
    dsimp only
    rw [hdt]
  · rw [lensDone_complete hl hll hdl he, if_neg hne, hlt]
    dsimp only
    rw [hdt]

/-! ### Symbols and matches -/

/-- The table of R168. -/
theorem length_table (k : Fin 29) :
    [(3, 0), (4, 0), (5, 0), (6, 0), (7, 0), (8, 0), (9, 0), (10, 0), (11, 1), (13, 1), (15, 1), (17, 1),
      (19, 2), (23, 2), (27, 2), (31, 2), (35, 3), (43, 3), (51, 3), (59, 3), (67, 4), (83, 4), (99, 4),
      (115, 4), (131, 5), (163, 5), (195, 5), (227, 5), (258, 0)][k.val]? = some (lBase[k], lExt[k]) := by
  revert k
  decide

/-- The table of R169. -/
theorem distance_table (k : Fin 30) :
    [(1, 0), (2, 0), (3, 0), (4, 0), (5, 1), (7, 1), (9, 2), (13, 2), (17, 3), (25, 3), (33, 4), (49, 4),
      (65, 5), (97, 5), (129, 6), (193, 6), (257, 7), (385, 7), (513, 8), (769, 8), (1025, 9), (1537, 9),
      (2049, 10), (3073, 10), (4097, 11), (6145, 11), (8193, 12), (12289, 12), (16385, 13),
      (24577, 13)][k.val]? = some (dBase[k], dExt[k]) := by
  revert k
  decide

section
variable {cap : Word} {p : Pipe} {rest : List Bool} {x : List Bool}

theorem stepLenExtra_field (h : p.infl.bitq = x ++ rest) (hx : x.length = lExt[p.infl.lsym]) :
    stepLenExtra p = .ok () { p with infl := { p.infl with
      bitq := rest, length := BitVec.ofNat 9 (lBase[p.infl.lsym] + fieldValue x), instate := .distSym } } := by
  unfold stepLenExtra
  dsimp only
  rw [takeValue_field h hx, dropBits_field h hx]
  rfl

theorem stepDistExtra_field (h : p.infl.bitq = x ++ rest) (hx : x.length = dExt[p.infl.dsym]) :
    stepDistExtra cap p =
      if p.infl.win.length < dBase[p.infl.dsym] + fieldValue x then
        .trap .distTooFar { p with infl := { p.infl with bitq := rest } }
      else (copyMatch cap (dBase[p.infl.dsym] + fieldValue x) p.infl.length.toNat
        { p with infl := { p.infl with bitq := rest } }).bind fun _ r =>
          .ok () { r with infl := { r.infl with instate := .sym } } := by
  unfold stepDistExtra
  dsimp only
  rw [takeValue_field h hx, dropBits_field h hx]
  rfl

end

/-- Settles O40: a symbol by the three outcomes of `hstep`, the length by `stepLenExtra_field`. -/
theorem literalAndLengthSymbols : Obligations.LiteralAndLengthSymbols := by
  intro cap p rest
  refine ⟨fun b n c i hs hq hr hn hc hi => ?_, fun x base ext hs hq htab hx => ?_⟩
  · subst hi
    rw [transition_sym hs]
    unfold stepSym
    refine ⟨fun hnone hlen => ?_, fun hnone hlen => ?_, fun y hy => ?_⟩
    · obtain ⟨j, hj, hrest⟩ := hstep_pending hq hn hc hr le_rfl hnone hlen
      exact ⟨j, by rw [hj]; rfl, hrest⟩
    · rw [hstep_miss hq hn hc hnone hlen]
      rfl
    · rw [hstep_hit hq hn hc hy, bind_ok]
      dsimp only
      refine ⟨fun hlit => if_pos hlit, fun hend => ?_, fun k hk => ?_, fun hbad => ?_⟩
      · rw [if_neg (by omega), if_pos hend]
        rfl
      · have hk' : y.toNat - 257 = k.val := by omega
        rw [if_neg (by omega), if_neg (by omega), dif_pos (by omega)]
        simp only [hk']
        rfl
      · rw [if_neg (by omega), if_neg (by omega), dif_neg (by omega)]
        rfl
  · rw [length_table] at htab
    obtain ⟨rfl, rfl⟩ := Prod.mk.inj (Option.some.inj htab)
    obtain ⟨hlo, hhi⟩ := length_range p.infl.lsym (hx ▸ fieldValue_lt x)
    have hv : (BitVec.ofNat 9 (lBase[p.infl.lsym] + fieldValue x)).toNat = lBase[p.infl.lsym] + fieldValue x :=
      Nat.mod_eq_of_lt (by omega)
    exact ⟨_, hv, by omega, by omega, (transition_lenExtra hs).trans (stepLenExtra_field hq hx)⟩

/-- Settles O41: a symbol by the three outcomes of `hstep`, the distance by `stepDistExtra_field`. -/
theorem distanceSymbols : Obligations.DistanceSymbols := by
  intro cap p rest
  refine ⟨fun b n c i hs hq hr hn hc hi => ?_, fun x base ext dist hs hq htab hx hdist => ?_⟩
  · subst hi
    rw [transition_distSym hs]
    unfold stepDistSym
    refine ⟨fun hnone hlen => ?_, fun hnone hlen => ?_, fun y hy => ?_⟩
    · obtain ⟨j, hj, hrest⟩ := hstep_pending hq hn hc hr le_rfl hnone hlen
      exact ⟨j, by rw [hj]; rfl, hrest⟩
    · rw [hstep_miss hq hn hc hnone hlen]
      rfl
    · rw [hstep_hit hq hn hc hy, bind_ok]
      dsimp only
      refine ⟨fun k hk => ?_, fun hbad => dif_neg (by omega)⟩
      rw [dif_pos (by omega)]
      simp only [hk]
      rfl
  · rw [distance_table] at htab
    obtain ⟨rfl, rfl⟩ := Prod.mk.inj (Option.some.inj htab)
    obtain ⟨hlo, hhi⟩ := distance_range p.infl.dsym (hx ▸ fieldValue_lt x)
    subst hdist
    rw [transition_distExtra hs, stepDistExtra_field hq hx]
    refine ⟨hlo, hhi, fun hfar => if_pos hfar, fun hnear => ⟨fun q hcopy => ?_, fun c q hcopy => ?_⟩⟩
    · rw [if_neg (not_lt.2 hnear), hcopy, bind_ok]
    · rw [if_neg (not_lt.2 hnear), hcopy, bind_trap]

/-! ### The trailer -/

/-- The four bytes of the trailer, as `TRAILER` reads them (R166). -/
theorem trailerValue_bytes {i : Infl} {a b c d : Byte} {rest : List Bool}
    (h : i.bitq = bitsOf a ++ bitsOf b ++ bitsOf c ++ bitsOf d ++ rest) :
    trailerValue i = (a ++ b ++ c ++ d).toNat ∧ dropBits 32 i = { i with bitq := rest } := by
  have ha : i.bitq = bitsOf a ++ (bitsOf b ++ (bitsOf c ++ (bitsOf d ++ rest))) := by
    simp only [h, List.append_assoc]
  have h8 := dropBits_byte ha
  have h16 : dropBits 16 i = { i with bitq := bitsOf c ++ (bitsOf d ++ rest) } := by
    rw [← dropBits_dropBits 8 8, h8]
    exact dropBits_byte rfl
  have h24 : dropBits 24 i = { i with bitq := bitsOf d ++ rest } := by
    rw [← dropBits_dropBits 8 16, h16]
    exact dropBits_byte rfl
  refine ⟨?_, ?_⟩
  · rw [trailerValue, takeValue_byte ha, h8, h16, h24, takeValue_byte rfl, takeValue_byte rfl, takeValue_byte rfl]
    simp only [toNat_append_fields]
    omega
  · rw [← dropBits_dropBits 8 24, h24]
    exact dropBits_byte rfl

/-- Settles O43: the two sides of the comparison as numbers, by `trailerValue_bytes`. -/
theorem trailerCheck : Obligations.TrailerCheck := by
  intro cap p a b c d rest hs hq
  obtain ⟨hval, hdrop⟩ := trailerValue_bytes hq
  have hsame : trailerValue p.infl = p.infl.s2.toNat * 2 ^ 16 + p.infl.s1.toNat ↔
      p.infl.s2 ++ p.infl.s1 = a ++ b ++ c ++ d := by
    rw [hval, ← BitVec.toNat_inj, toNat_append_fields p.infl.s2]
    omega
  rw [transition_trailer hs]
  unfold stepTrailer
  rw [hdrop]
  exact ⟨fun he => if_neg (not_not.2 (hsame.2 he)), fun hne => if_pos (mt hsame.1 hne)⟩

/-! ### Emitting a list of bytes -/

/-- `emit` of some bytes, one after another, up to the first that raises a fault (R148). -/
def emitAll (cap : Word) : List Byte → Pipe → Res Pipe Unit
  | [], p => .ok () p
  | b :: bs, p => (emit cap b p).bind fun _ q => emitAll cap bs q

/-- The engine's record of some bytes (R148). -/
def recordAll (bs : List Byte) (i : Infl) : Infl := bs.foldl (fun i b => recordByte b i) i

section
variable {cap : Word} {p : Pipe} {b : Byte} {bs pre post : List Byte} {u v : Defilt} {c : Trap}

theorem bind_complete {σ : Type} (r : Res σ Unit) : (r.bind fun _ s => .ok () s) = r := by
  cases r <;> rfl

theorem emitAll_singleton (cap : Word) (b : Byte) (p : Pipe) : emitAll cap [b] p = emit cap b p :=
  bind_complete _

theorem emit_toOut (hr : p.infl.route = false) :
    emit cap b p = .ok () { p with infl := recordByte b p.infl, out := p.out ++ [b] } := by
  unfold emit
  rw [hr]
  rfl

theorem emit_toDefilt (hr : p.infl.route = true) :
    emit cap b p = (dfPush cap b p.df).within fun d => { p with infl := recordByte b p.infl, df := d } := by
  unfold emit
  rw [hr]
  rfl

theorem emitAll_toOut (hr : p.infl.route = false) :
    emitAll cap bs p = .ok () { p with infl := recordAll bs p.infl, out := p.out ++ bs } := by
  induction bs generalizing p with
  | nil => simp only [emitAll, recordAll, List.foldl_nil, List.append_nil]
  | cons b bs ih =>
    rw [emitAll, emit_toOut hr, bind_ok, ih (by exact hr)]
    simp only [recordAll, List.foldl_cons, List.append_assoc, List.singleton_append]

/-- With `ROUTE = 1` the engine's record does not depend on the defilter, which takes the bytes in order. -/
theorem emitAll_toDefilt (hr : p.infl.route = true) (hu : pushAll cap bs p.df = .ok () u) :
    emitAll cap bs p = .ok () { p with infl := recordAll bs p.infl, df := u } := by
  induction bs generalizing p with
  | nil => cases hu; rfl
  | cons b bs ih =>
    rw [pushAll_cons] at hu
    rw [emitAll, emit_toDefilt hr]
    cases hb : dfPush cap b p.df with
    | ok a d =>
      rw [hb, bind_ok] at hu
      exact ih hr hu
    | trap c d => rw [hb] at hu; cases hu
    | stop e => rw [hb] at hu; cases hu

theorem emitAll_append (cap : Word) (xs ys : List Byte) (p : Pipe) :
    emitAll cap (xs ++ ys) p = (emitAll cap xs p).bind fun _ q => emitAll cap ys q := by
  induction xs generalizing p with
  | nil => rfl
  | cons b xs ih =>
    simp only [List.cons_append, emitAll]
    cases emit cap b p <;> simp [ih]

theorem recordAll_append (xs ys : List Byte) (i : Infl) : recordAll (xs ++ ys) i = recordAll ys (recordAll xs i) :=
  List.foldl_append

theorem recordAll_route (bs : List Byte) (i : Infl) : (recordAll bs i).route = i.route := by
  induction bs generalizing i with
  | nil => rfl
  | cons b bs ih => exact ih _

/-- The byte the defilter refuses is recorded, and no later one (R148, R277). -/
theorem emitAll_refused (hr : p.infl.route = true) (hpre : pushAll cap pre p.df = .ok () u)
    (hb : dfPush cap b u = .trap c v) :
    emitAll cap (pre ++ b :: post) p = .trap c { p with infl := recordAll (pre ++ [b]) p.infl, df := v } := by
  rw [emitAll_append, emitAll_toDefilt hr hpre, bind_ok, emitAll,
    emit_toDefilt (p := { p with infl := recordAll pre p.infl, df := u }) ((recordAll_route _ _).trans hr), hb,
    recordAll_append]
  rfl

theorem emitAll_stops (hr : p.infl.route = true) {e : Fault} (h : pushAll cap bs p.df = .stop e) :
    emitAll cap bs p = .stop e := by
  induction bs generalizing p with
  | nil => cases h
  | cons b bs ih =>
    rw [pushAll_cons] at h
    rw [emitAll, emit_toDefilt hr]
    cases hb : dfPush cap b p.df with
    | ok a d =>
      rw [hb, bind_ok] at h
      exact ih hr h
    | trap c d => rw [hb] at h; cases h
    | stop e => rw [hb] at h; cases h; rfl

/-- A list of bytes that raises a fault raises it at one of them (R208). -/
theorem pushAll_trap_split (h : pushAll cap bs u = .trap c v) :
    ∃ pre b post w, bs = pre ++ b :: post ∧ pushAll cap pre u = .ok () w ∧ dfPush cap b w = .trap c v := by
  induction bs generalizing u with
  | nil => cases h
  | cons b bs ih =>
    rw [pushAll_cons] at h
    cases hb : dfPush cap b u with
    | ok a d =>
      rw [hb, bind_ok] at h
      obtain ⟨pre, x, post, w, rfl, hpre, hx⟩ := ih h
      exact ⟨b :: pre, x, post, w, rfl, by rw [pushAll_cons, hb, bind_ok, hpre], hx⟩
    | trap c' d =>
      rw [hb] at h
      cases h
      exact ⟨[], b, bs, u, rfl, rfl, hb⟩
    | stop e => rw [hb] at h; cases h

end

/-! ### The bytes of a match -/

/-- The `n` bytes a match copies: the last `dist` bytes of the window, round and round (R165). -/
def matchBytes (win : List Byte) (dist n : Nat) : List Byte :=
  (List.range n).map fun j => win.getD (win.length - dist + j % dist) 0#8

section
variable {win : List Byte} {dist : Nat} (h1 : 1 ≤ dist) (h2 : dist ≤ win.length)
include h1 h2

theorem matchBytes_getElem? {n j : Nat} (hj : j < n) :
    (matchBytes win dist n)[j]? = win[win.length - dist + j % dist]? := by
  have hmod := Nat.mod_lt j h1
  have hlt : win.length - dist + j % dist < win.length := by omega
  rw [matchBytes, List.getElem?_map, List.getElem?_range hj, Option.map_some, List.getD_eq_getElem _ _ hlt,
    List.getElem?_eq_getElem hlt]

omit h1 in
/-- The last bytes of the window after one more byte. -/
theorem pushWindow_getD (b : Byte) (r : Nat) :
    (pushWindow win b).getD ((pushWindow win b).length - dist + r) 0#8 =
      (win ++ [b]).getD (win.length + 1 - dist + r) 0#8 := by
  unfold pushWindow
  split_ifs
  · have hlen : (win ++ [b]).tail.length = win.length := by simp
    rw [hlen, ← List.drop_one, List.getD_eq_getElem?_getD, List.getElem?_drop, ← List.getD_eq_getElem?_getD]
    congr 1
    omega
  · rw [List.length_append, List.length_singleton]

/-- Once the first byte of a match is emitted, the rest is a match in the window as it then is. -/
theorem matchBytes_succ (n : Nat) :
    matchBytes win dist (n + 1) = win.getD (win.length - dist) 0#8 ::
      matchBytes (pushWindow win (win.getD (win.length - dist) 0#8)) dist n := by
  rw [matchBytes, List.range_succ_eq_map, List.map_cons, List.map_map, Nat.zero_mod, Nat.add_zero, matchBytes]
  congr 1
  refine List.map_congr_left fun j _ => ?_
  have hmod := Nat.mod_lt j h1
  rw [pushWindow_getD h2, Function.comp_apply, Nat.succ_eq_add_one, ← Nat.mod_add_mod]
  obtain hlt | heq : j % dist + 1 < dist ∨ j % dist + 1 = dist := by omega
  · rw [Nat.mod_eq_of_lt hlt, List.getD_append _ _ _ _ (by omega)]
    congr 1
    omega
  · rw [heq, Nat.mod_self, List.getD_append_right _ _ _ _ (by omega), show _ - win.length = 0 by omega]
    rfl

end

/-- A match copy emits the bytes of the match (R165). -/
theorem copyMatch_eq_emitAll {cap : Word} {dist : Nat} (n : Nat) {p : Pipe} (h1 : 1 ≤ dist)
    (h2 : dist ≤ p.infl.win.length) : copyMatch cap dist n p = emitAll cap (matchBytes p.infl.win dist n) p := by
  induction n generalizing p with
  | zero => rfl
  | succ n ih =>
    have hlt : p.infl.win.length - dist < p.infl.win.length := by omega
    have hb : windowBack p.infl.win dist = some (p.infl.win.getD (p.infl.win.length - dist) 0#8) := by
      rw [windowBack, if_pos ⟨h1, h2⟩, List.getD_eq_getElem _ _ hlt, List.getElem?_eq_getElem hlt]
    rw [copyMatch, hb, matchBytes_succ h1 h2, emitAll]
    generalize p.infl.win.getD (p.infl.win.length - dist) 0#8 = b
    dsimp only
    have hemit : (emit cap b p).Leaves fun q => q.infl.win = pushWindow p.infl.win b := by
      unfold emit
      dsimp only
      split_ifs
      · exact leaves_within (leaves_true _) fun _ _ => rfl
      · exact rfl
    cases he : emit cap b p with
    | ok a q =>
      rw [he] at hemit
      have hlen := pushWindow_length p.infl.win b
      rw [bind_ok, bind_ok, ih (by rw [hemit, hlen]; split_ifs <;> omega), hemit]
    | trap c q => rfl
    | stop e => rfl

/-- Settles O42: the copy emits `matchBytes`, which `ROUTE` sends to `OUT` or, one by one, to the defilter. -/
theorem matchCopyRepeats : Obligations.MatchCopyRepeats := by
  intro cap p dist n _ h1 h2
  have hcopy := copyMatch_eq_emitAll (cap := cap) n h1 h2
  refine ⟨matchBytes p.infl.win dist n, by rw [matchBytes, List.length_map, List.length_range],
    fun j hj => matchBytes_getElem? h1 h2 hj, fun hr => hcopy.trans (emitAll_toOut hr), fun hr =>
    ⟨fun u hu => hcopy.trans (emitAll_toDefilt hr hu), fun pre post b u v c hbs hpre hb => ?_⟩⟩
  rw [hcopy, hbs]
  exact emitAll_refused hr hpre hb

/-! ### What a piece of a command emits -/

/-- The defilter takes the bytes one after another (R200). -/
def Takes (cap : Word) (bs : List Byte) (u v : Defilt) : Prop := pushAll cap bs u = .ok () v

/-- The defilter takes the bytes, or raises the fault `c` on the last of them (R277). -/
def TakesUpTo (cap : Word) (c : Trap) (bs : List Byte) (u v : Defilt) : Prop :=
  Takes cap bs u v ∨ ∃ pre b w, bs = pre ++ [b] ∧ Takes cap pre u w ∧ dfPush cap b w = .trap c v

/-- The bytes `bs` are emitted from `p` to `q`: recorded once each, and sent where `ROUTE` says; `T` is what the
defilter makes of them (R148). -/
structure Emits (T : List Byte → Defilt → Defilt → Prop) (bs : List Byte) (p q : Pipe) : Prop where
  recorded : Recorded bs p.infl q.infl
  route : q.infl.route = p.infl.route
  toOut : p.infl.route = false → q.out = p.out ++ bs ∧ q.df = p.df
  toDefilt : p.infl.route = true → q.out = p.out ∧ T bs p.df q.df

/-- Nothing is emitted from `p` to `q`. -/
def Silent (p q : Pipe) : Prop :=
  q = { infl := { q.infl with
          route := p.infl.route, win := p.infl.win, s1 := p.infl.s1, s2 := p.infl.s2, total := p.infl.total }
        out := p.out, df := p.df }

theorem takes_append {cap : Word} {xs ys : List Byte} {u v w : Defilt} (h : Takes cap xs u v)
    (h' : Takes cap ys v w) : Takes cap (xs ++ ys) u w := by
  unfold Takes at *
  rw [pushAll_append, h, bind_ok, h']

theorem takesUpTo_append {cap : Word} {c : Trap} {xs ys : List Byte} {u v w : Defilt} (h : Takes cap xs u v)
    (h' : TakesUpTo cap c ys v w) : TakesUpTo cap c (xs ++ ys) u w := by
  obtain hall | ⟨pre, b, x, rfl, hpre, hb⟩ := h'
  · exact .inl (takes_append h hall)
  · exact .inr ⟨xs ++ pre, b, x, (List.append_assoc ..).symm, takes_append h hpre, hb⟩

/-- The window of a record is never above its size (R27). -/
theorem recorded_win_length {bs : List Byte} {i j : Infl} (h : Recorded bs i j) : j.win.length ≤ 32768 := by
  rw [h.win, List.length_drop]
  omega

/-- One emitted byte, from any registers whose window is in range (R148). -/
theorem recorded_recordByte (b : Byte) {i : Infl} (h : i.win.length ≤ 32768) : Recorded [b] i (recordByte b i) where
  win := by
    simp only [recordByte, pushWindow, Config.winSz, List.length_append, List.length_singleton]
    split
    · rw [show i.win.length + 1 - 32768 = 1 by omega, List.drop_one]
    · rw [show i.win.length + 1 - 32768 = 0 by omega, List.drop_zero]
  total := by simp [recordByte]
  adler := by
    have h1 : (adlerS1 i.s1 b).toNat = (i.s1.toNat + b.toNat) % 65521 := Nat.mod_eq_of_lt (by omega)
    have h2 : (adlerS2 i.s2 (adlerS1 i.s1 b)).toNat = (i.s2.toNat + (adlerS1 i.s1 b).toNat) % 65521 :=
      Nat.mod_eq_of_lt (by omega)
    simp only [recordByte, List.foldl_cons, List.foldl_nil, h1, h2]

theorem recorded_nil {i j : Infl} (h : i.win.length ≤ 32768) (hw : j.win = i.win) (ht : j.total = i.total)
    (h1 : j.s1 = i.s1) (h2 : j.s2 = i.s2) : Recorded [] i j where
  win := by rw [hw, List.append_nil, Nat.sub_eq_zero_of_le h, List.drop_zero]
  total := by rw [ht]; exact (Nat.mod_eq_of_lt i.total.isLt).symm
  adler := by rw [h1, h2]; rfl

theorem recorded_recordAll (bs : List Byte) {i : Infl} (h : i.win.length ≤ 32768) :
    Recorded bs i (recordAll bs i) := by
  induction bs generalizing i with
  | nil => exact recorded_nil h rfl rfl rfl rfl
  | cons b bs ih =>
    have hb := recorded_recordByte b h
    exact recorded_trans hb (ih (recorded_win_length hb))

section
variable {T : List Byte → Defilt → Defilt → Prop} {cap : Word} {xs ys : List Byte} {p q r : Pipe}

theorem emits_trans (h : Emits (Takes cap) xs p q) (h' : Emits T ys q r)
    (hT : ∀ u v w, Takes cap xs u v → T ys v w → T (xs ++ ys) u w) : Emits T (xs ++ ys) p r where
  recorded := recorded_trans h.recorded h'.recorded
  route := h'.route.trans h.route
  toOut hr := by
    obtain ⟨hout, hdf⟩ := h.toOut hr
    obtain ⟨hout', hdf'⟩ := h'.toOut (h.route.trans hr)
    exact ⟨by rw [hout', hout, List.append_assoc], hdf'.trans hdf⟩
  toDefilt hr := by
    obtain ⟨hout, hdf⟩ := h.toDefilt hr
    obtain ⟨hout', hdf'⟩ := h'.toDefilt (h.route.trans hr)
    exact ⟨hout'.trans hout, hT _ _ _ hdf hdf'⟩

theorem emits_of_silent (hw : p.infl.win.length ≤ 32768) (h : Silent p q) : Emits (Takes cap) [] p q where
  recorded := recorded_nil hw (congrArg (·.infl.win) h) (congrArg (·.infl.total) h) (congrArg (·.infl.s1) h)
    (congrArg (·.infl.s2) h)
  route := congrArg (·.infl.route) h
  toOut _ := ⟨(congrArg (·.out) h).trans (List.append_nil _).symm, congrArg (·.df) h⟩
  toDefilt _ := ⟨congrArg (·.out) h, congrArg (Res.ok ()) (congrArg (·.df) h).symm⟩

theorem emits_upTo {c : Trap} (h : Emits (Takes cap) xs p q) : Emits (TakesUpTo cap c) xs p q :=
  { h with toDefilt := fun hr => ⟨(h.toDefilt hr).1, .inl (h.toDefilt hr).2⟩ }

end

/-- What `emitAll` emits: all of its bytes, or those up to and including one that the defilter refuses. -/
def EmitsAll (cap : Word) (bs : List Byte) (p : Pipe) : Res Pipe Unit → Prop
  | .ok _ q => Emits (Takes cap) bs p q ∧ q.infl = recordAll bs p.infl
  | .trap c q => ∃ pre post, bs = pre ++ post ∧ Emits (TakesUpTo cap c) pre p q
  | .stop _ => True

theorem emitAll_emits (cap : Word) (bs : List Byte) {p : Pipe} (hw : p.infl.win.length ≤ 32768) :
    EmitsAll cap bs p (emitAll cap bs p) := by
  have hrec := fun xs => recorded_recordAll xs hw
  have hroute := fun xs => recordAll_route xs p.infl
  cases hr : p.infl.route with
  | false =>
    rw [emitAll_toOut hr]
    exact ⟨⟨hrec bs, hroute bs, fun _ => ⟨rfl, rfl⟩, fun h => by simp [hr] at h⟩, rfl⟩
  | true =>
    cases hp : pushAll cap bs p.df with
    | ok a u =>
      rw [emitAll_toDefilt hr hp]
      exact ⟨⟨hrec bs, hroute bs, fun h => by simp [hr] at h, fun _ => ⟨rfl, hp⟩⟩, rfl⟩
    | trap c v =>
      obtain ⟨pre, b, post, u, rfl, hpre, hb⟩ := pushAll_trap_split hp
      rw [emitAll_refused hr hpre hb]
      exact ⟨pre ++ [b], post, by simp, hrec _, hroute _, fun h => by simp [hr] at h,
        fun _ => ⟨rfl, .inr ⟨pre, b, u, rfl, hpre, hb⟩⟩⟩
    | stop e =>
      rw [emitAll_stops hr hp]
      trivial

/-! ### How many bytes a run can still emit

A match takes at least two bits, one of its length symbol and one of its distance symbol, and emits at most 258
bytes, so 129 bytes per bit bound what a run emits from state `SYM`; in the other states a first group of bits
emits nothing, and a match under way is owed. -/

/-- The waiting bits that a state takes before any of them can emit a byte; in `ST_COPY` the last of the eight
emits it. -/
def spareBits (i : Infl) : Nat :=
  match i.instate with
  | .zhCmf => 8
  | .zhFlg => 8
  | .blkHdr => 3
  | .stLen => 32
  | .stCopy => 7
  | .dynHdr => 14
  | .dynClen => 3
  | .dynRep => repeatBits i.repsym
  | .lenExtra => lExt[i.lsym]
  | .distSym => 1
  | .distExtra => dExt[i.dsym]
  | .trailer => 32
  | _ => 0

/-- The bytes that the symbols already read will emit. -/
def owedBytes (i : Infl) : Nat :=
  match i.instate with
  | .lenExtra => 129
  | .distSym => if i.bitq = [] then 0 else i.length.toNat
  | .distExtra => i.length.toNat
  | _ => 0

/-- A bound on the bytes a run can emit. -/
def budget (i : Infl) : Nat := 129 * (i.bitq.length - spareBits i) + owedBytes i

/-- What a transition from `p` emits, within the budget. -/
def Emission (cap : Word) (p : Pipe) : Res Pipe Unit → Prop
  | .ok _ q => ∃ bs, Emits (Takes cap) bs p q ∧ bs.length + budget q.infl ≤ budget p.infl
  | .trap c q => ∃ bs, Emits (TakesUpTo cap c) bs p q ∧ bs.length ≤ budget p.infl
  | .stop _ => True

section
variable {cap : Word} {p q : Pipe} (hw : p.infl.win.length ≤ 32768)

/-- A state that owes no byte can emit no more than its bits do. -/
theorem budget_le_of_no_debt {i j : Infl} (hj : owedBytes j = 0) (hb : j.bitq.length ≤ i.bitq.length - spareBits i) :
    budget j ≤ budget i := by
  rw [budget, budget, hj]
  omega

include hw

theorem emission_ok (h : Silent p q) (hb : budget q.infl ≤ budget p.infl) : Emission cap p (.ok () q) :=
  ⟨[], emits_of_silent hw h, by simpa using hb⟩

theorem emission_trap {c : Trap} (h : Silent p q) : Emission cap p (.trap c q) :=
  ⟨[], emits_upTo (emits_of_silent hw h), Nat.zero_le _⟩

/-- A piece that emits `bs` after and before pieces that emit nothing. -/
theorem emission_emitAll (h : Silent p q) {bs : List Byte} (hle : bs.length ≤ budget p.infl) {g : Pipe → Pipe}
    (hg : ∀ r, Silent r (g r))
    (hbudget : ∀ r : Pipe, r.infl = recordAll bs q.infl → bs.length + budget (g r).infl ≤ budget p.infl) :
    Emission cap p ((emitAll cap bs q).bind fun _ r => .ok () (g r)) := by
  have hpq := emits_of_silent (cap := cap) hw h
  have hall := emitAll_emits cap bs (recorded_win_length hpq.recorded)
  cases he : emitAll cap bs q with
  | ok a r =>
    rw [he] at hall
    obtain ⟨hqr, hr⟩ := hall
    have hrg := emits_of_silent (cap := cap) (recorded_win_length hqr.recorded) (hg r)
    have hpr := emits_trans hpq hqr fun _ _ _ => takes_append
    have := emits_trans hpr hrg fun _ _ _ => takes_append
    rw [List.nil_append, List.append_nil] at this
    exact ⟨bs, this, hbudget r hr⟩
  | trap c r =>
    rw [he] at hall
    obtain ⟨pre, post, rfl, hqr⟩ := hall
    rw [List.length_append] at hle
    exact ⟨pre, emits_trans hpq hqr fun _ _ _ => takesUpTo_append, by omega⟩
  | stop e => trivial

end

/-! ### What each transition emits -/

theorem blockEnd_silent (p : Pipe) : Silent p (blockEnd p) := by
  unfold blockEnd
  split_ifs <;> exact rfl

/-- The end of a block leaves a state that owes nothing, with no more bits. -/
theorem blockEnd_bits (p : Pipe) :
    owedBytes (blockEnd p).infl = 0 ∧ (blockEnd p).infl.bitq.length ≤ p.infl.bitq.length := by
  unfold blockEnd
  split_ifs
  · exact ⟨rfl, (alignBits_whole p.infl).2⟩
  · exact ⟨rfl, le_rfl⟩

theorem budget_le_bits {j : Infl} {n : Nat} (hj : owedBytes j = 0) (hb : j.bitq.length ≤ n) : budget j ≤ 129 * n := by
  rw [budget, hj]
  omega

/-- Emitting `e` bytes and going on from no more than `n` bits. -/
theorem spend_le {j : Infl} {n e m : Nat} (hj : owedBytes j = 0) (hb : j.bitq.length ≤ n) (h : e + 129 * n ≤ m) :
    e + budget j ≤ m :=
  (Nat.add_le_add_left (budget_le_bits hj hb) e).trans h

theorem recordAll_bitq (bs : List Byte) (i : Infl) : (recordAll bs i).bitq = i.bitq := by
  induction bs generalizing i with
  | nil => rfl
  | cons b bs ih => exact ih _

theorem hstep_leaves {w : Nat} (tab : Table w) (maxlen : Nat) (p : Pipe) : (hstep tab maxlen p).Leaves fun q =>
    ∃ n c, q = { p with infl := { dropBits 1 p.infl with hn := n, hcand := c } } := by
  unfold hstep
  dsimp only
  split <;> exact ⟨_, _, rfl⟩

section
variable {cap : Word} {p : Pipe} (hw : p.infl.win.length ≤ 32768)
include hw

theorem stepZhCmf_emission (hs : p.infl.instate = .zhCmf) : Emission cap p (stepZhCmf p) := by
  unfold stepZhCmf
  dsimp only
  split_ifs
  · exact emission_trap hw rfl
  · exact emission_ok hw rfl (budget_le_of_no_debt rfl (by simp [spareBits, hs]))

theorem stepZhFlg_emission (hs : p.infl.instate = .zhFlg) : Emission cap p (stepZhFlg p) := by
  unfold stepZhFlg
  dsimp only
  split_ifs
  · exact emission_trap hw rfl
  · exact emission_trap hw rfl
  · exact emission_ok hw rfl (budget_le_of_no_debt rfl (by simp [spareBits, hs]))

theorem stepBlkHdr_emission (hs : p.infl.instate = .blkHdr) : Emission cap p (stepBlkHdr p) := by
  unfold stepBlkHdr
  dsimp only
  split_ifs
  · refine emission_ok hw rfl (budget_le_of_no_debt rfl ?_)
    have := (alignBits_whole { dropBits 3 p.infl with final := decide (takeValue 1 p.infl = 1) }).2
    simp [spareBits, hs] at this ⊢
    omega
  · split
    · exact emission_ok hw rfl (budget_le_of_no_debt rfl (by simp [spareBits, hs]))
    · exact emission_trap hw rfl
  · exact emission_ok hw rfl (budget_le_of_no_debt rfl (by simp [spareBits, hs]))
  · exact emission_trap hw rfl

theorem stepStLen_emission (hs : p.infl.instate = .stLen) : Emission cap p (stepStLen p) := by
  unfold stepStLen
  dsimp only
  split_ifs
  · exact emission_trap hw rfl
  · obtain ⟨hdebt, hbits⟩ := blockEnd_bits ((p.setInfl (dropBits 32 p.infl)).setInfl
      { (p.setInfl (dropBits 32 p.infl)).infl with rem := BitVec.ofNat 16 (takeValue 16 p.infl) })
    exact emission_ok hw (blockEnd_silent _) (budget_le_of_no_debt hdebt (hbits.trans (by simp [spareBits, hs])))
  · exact emission_ok hw rfl (budget_le_of_no_debt rfl (by simp [spareBits, hs]))

theorem stepDynHdr_emission (hs : p.infl.instate = .dynHdr) : Emission cap p (stepDynHdr p) := by
  unfold stepDynHdr
  dsimp only
  split_ifs
  · exact emission_trap hw rfl
  · exact emission_ok hw rfl (budget_le_of_no_debt rfl (by simp [spareBits, hs]))

theorem stepDynClen_emission (hs : p.infl.instate = .dynClen) : Emission cap p (stepDynClen p) := by
  unfold stepDynClen
  split
  · trivial
  · dsimp only
    split_ifs
    · split
      · exact emission_trap hw rfl
      · exact emission_ok hw rfl (budget_le_of_no_debt rfl (by simp [spareBits, hs]))
    · exact emission_ok hw rfl (budget_le_of_no_debt (by simp [owedBytes, hs]) (by simp [spareBits, hs]))

/-- `lens_done()` on an engine that has taken its bits in a state that reads code lengths. -/
theorem lensDone_emission {q : Pipe} (h : Silent p q) (hs : q.infl.instate = .dynLens)
    (hb : q.infl.bitq.length ≤ p.infl.bitq.length - spareBits p.infl) : Emission cap p (lensDone q) := by
  unfold lensDone
  dsimp only
  split_ifs
  · split
    · trivial
    · split_ifs
      · exact emission_trap hw h
      · split
        · exact emission_trap hw h
        · split
          · exact emission_trap hw (by rw [h]; rfl)
          · exact emission_ok hw (by rw [h]; rfl) (budget_le_of_no_debt rfl hb)
  · exact emission_ok hw h (budget_le_of_no_debt (by rw [owedBytes, hs]) hb)

/-- A piece that goes on from one bit of a symbol (R147). -/
theorem emission_hstep {w maxlen : Nat} {tab : Table w} {f : Option (BitVec w) → Pipe → Res Pipe Unit}
    (hf : ∀ r n c, Emission cap p (f r { p with infl := { dropBits 1 p.infl with hn := n, hcand := c } })) :
    Emission cap p ((hstep tab maxlen p).bind f) := by
  have hleaves := hstep_leaves tab maxlen p
  cases hr : hstep tab maxlen p with
  | ok r q =>
    rw [hr] at hleaves
    obtain ⟨n, c, rfl⟩ := hleaves
    exact hf r n c
  | trap t q =>
    rw [hr] at hleaves
    obtain ⟨n, c, rfl⟩ := hleaves
    exact emission_trap hw rfl
  | stop e => trivial

theorem stepDynLens_emission (hs : p.infl.instate = .dynLens) : Emission cap p (stepDynLens p) := by
  refine emission_hstep hw fun r n c => ?_
  cases r with
  | none => exact emission_ok hw rfl (budget_le_of_no_debt (by simp [owedBytes, hs]) (by simp [spareBits, hs]))
  | some s =>
    dsimp only
    split_ifs
    · exact lensDone_emission hw rfl hs (by simp [spareBits, hs])
    · exact emission_trap hw rfl
    · exact emission_ok hw rfl (budget_le_of_no_debt rfl (by simp [spareBits, hs]))

theorem stepDynRep_emission (hs : p.infl.instate = .dynRep) : Emission cap p (stepDynRep p) := by
  unfold stepDynRep
  split
  · trivial
  · dsimp only
    split_ifs
    · exact emission_trap hw rfl
    · exact lensDone_emission hw rfl rfl (by simp [spareBits, hs])

theorem stepTrailer_emission (hs : p.infl.instate = .trailer) : Emission cap p (stepTrailer p) := by
  unfold stepTrailer
  dsimp only
  split_ifs
  · exact emission_trap hw rfl
  · exact emission_ok hw rfl (budget_le_of_no_debt rfl (by simp [spareBits, hs]))

theorem stepStCopy_emission (hs : p.infl.instate = .stCopy) (hk : 8 ≤ p.infl.bitq.length) :
    Emission cap p (stepStCopy cap p) := by
  have hbudget : budget p.infl = 129 * (p.infl.bitq.length - 7) := by simp [budget, spareBits, owedBytes, hs]
  unfold stepStCopy
  rw [← emitAll_singleton]
  refine emission_emitAll (q := p.setInfl (dropBits 8 p.infl)) hw rfl
    (by rw [hbudget, List.length_singleton]; omega) (fun r => ?_) fun r hr => ?_
  · dsimp only
    split_ifs
    · exact blockEnd_silent _
    · exact rfl
  · have hbits : r.infl.bitq.length = p.infl.bitq.length - 8 := by rw [hr]; exact List.length_drop
    have hstate : r.infl.instate = .stCopy := by rw [hr]; exact hs
    rw [hbudget, List.length_singleton]
    dsimp only
    split_ifs
    · obtain ⟨hdebt, hle⟩ := blockEnd_bits (r.setInfl { r.infl with rem := r.infl.rem - 1#16 })
      exact spend_le hdebt (hle.trans hbits.le) (by omega)
    · exact spend_le (by rw [owedBytes, setInfl_infl, hstate]) hbits.le (by omega)

theorem stepSym_emission (hs : p.infl.instate = .sym) (hk : 1 ≤ p.infl.bitq.length) :
    Emission cap p (stepSym cap p) := by
  have hbudget : budget p.infl = 129 * p.infl.bitq.length := by simp [budget, spareBits, owedBytes, hs]
  refine emission_hstep hw fun r n c => ?_
  cases r with
  | none => exact emission_ok hw rfl (budget_le_of_no_debt (by simp [owedBytes, hs]) (by simp [spareBits, hs]))
  | some s =>
    dsimp only
    by_cases hlit : s.toNat < 256
    · rw [if_pos hlit]
      have hemit : Emission cap p ((emitAll cap [BitVec.ofNat 8 s.toNat]
          { p with infl := { dropBits 1 p.infl with hn := n, hcand := c } }).bind fun _ r => .ok () r) := by
        refine emission_emitAll (q := { p with infl := { dropBits 1 p.infl with hn := n, hcand := c } }) (g := id) hw
          rfl (by rw [hbudget, List.length_singleton]; omega) (fun _ => rfl)
          fun r hr => ?_
        have hbits : r.infl.bitq.length = p.infl.bitq.length - 1 := by rw [hr]; exact List.length_drop
        have hstate : r.infl.instate = .sym := by rw [hr]; exact hs
        rw [hbudget, List.length_singleton]
        exact spend_le (by rw [owedBytes, id, hstate]) hbits.le (by omega)
      rwa [emitAll_singleton, bind_complete] at hemit
    · rw [if_neg hlit]
      by_cases hend : s.toNat = 256
      · rw [if_pos hend]
        obtain ⟨hdebt, hle⟩ := blockEnd_bits { p with infl := { dropBits 1 p.infl with hn := n, hcand := c } }
        exact emission_ok hw (blockEnd_silent _) (budget_le_of_no_debt hdebt (hle.trans (by simp [spareBits, hs])))
      · rw [if_neg hend]
        generalize s.toNat - 257 = k
        by_cases hlen : k < 29
        · rw [dif_pos hlen]
          refine emission_ok hw rfl ?_
          rw [hbudget]
          simp only [budget, owedBytes, goto_infl, setInfl_infl, dropBits_bitq, List.length_drop]
          omega
        · rw [dif_neg hlen]
          exact emission_trap hw rfl

theorem stepLenExtra_emission (hs : p.infl.instate = .lenExtra) : Emission cap p (stepLenExtra p) := by
  have hbudget : budget p.infl = 129 * (p.infl.bitq.length - lExt[p.infl.lsym]) + 129 := by
    simp [budget, spareBits, owedBytes, hs]
  have hlen := (length_range p.infl.lsym (takeValue_lt lExt[p.infl.lsym] p.infl)).2
  refine emission_ok hw rfl ?_
  have hmod := Nat.mod_le (lBase[p.infl.lsym] + takeValue lExt[p.infl.lsym] p.infl) (2 ^ 9)
  rw [hbudget]
  simp only [budget, spareBits, owedBytes, goto_infl, setInfl_infl, dropBits_bitq, List.length_drop,
    BitVec.toNat_ofNat, List.drop_eq_nil_iff]
  split_ifs <;> omega

omit hw in
theorem budget_distSym_le {i : Infl} (hs : i.instate = .distSym) :
    budget i ≤ 129 * (i.bitq.length - 1) + i.length.toNat := by
  simp only [budget, spareBits, owedBytes, hs]
  split_ifs <;> omega

theorem stepDistSym_emission (hs : p.infl.instate = .distSym) (hk : 1 ≤ p.infl.bitq.length) :
    Emission cap p (stepDistSym p) := by
  have hbudget : budget p.infl = 129 * (p.infl.bitq.length - 1) + p.infl.length.toNat := by
    simp only [budget, spareBits, owedBytes, hs]
    rw [if_neg (List.ne_nil_of_length_pos hk)]
  refine emission_hstep hw fun r n c => ?_
  cases r with
  | none =>
    refine emission_ok hw rfl ((budget_distSym_le (i := { dropBits 1 p.infl with hn := n, hcand := c }) hs).trans ?_)
    simp only [hbudget, dropBits_bitq, dropBits_length, List.length_drop]
    omega
  | some s =>
    dsimp only
    split_ifs
    · refine emission_ok hw rfl ?_
      rw [hbudget]
      simp only [budget, owedBytes, goto_infl, setInfl_infl, dropBits_bitq, dropBits_length, List.length_drop]
      omega
    · exact emission_trap hw rfl

theorem stepDistExtra_emission (hs : p.infl.instate = .distExtra) : Emission cap p (stepDistExtra cap p) := by
  have hbudget : budget p.infl =
      129 * (p.infl.bitq.length - dExt[p.infl.dsym]) + p.infl.length.toNat := by
    simp [budget, spareBits, owedBytes, hs]
  have hdist := (distance_range p.infl.dsym (takeValue_lt dExt[p.infl.dsym] p.infl)).1
  unfold stepDistExtra
  dsimp only
  split_ifs with hfar
  · exact emission_trap hw rfl
  · rw [copyMatch_eq_emitAll _ hdist (not_lt.1 hfar)]
    refine emission_emitAll (q := p.setInfl (dropBits dExt[p.infl.dsym] p.infl)) hw rfl ?_ (fun _ => rfl)
      fun r hr => ?_
    · rw [hbudget, matchBytes, List.length_map, List.length_range]
      exact Nat.le_add_left _ _
    · have hbits : r.infl.bitq.length = p.infl.bitq.length - dExt[p.infl.dsym] := by
        rw [hr, recordAll_bitq]
        exact List.length_drop
      rw [hbudget, matchBytes, List.length_map, List.length_range]
      exact spend_le rfl hbits.le (by rw [setInfl_infl, dropBits_length, Nat.add_comm])

/-- What every transition emits, within the budget (R148, R172). -/
theorem transition_emission (hp : canProceed p.infl = true) : Emission cap p (transition cap p) := by
  obtain ⟨k, hk, hle⟩ := canProceed_iff.1 hp
  unfold transition
  unfold bitsNeeded at hk
  cases hs : p.infl.instate with
  | zhCmf => exact stepZhCmf_emission hw hs
  | zhFlg => exact stepZhFlg_emission hw hs
  | blkHdr => exact stepBlkHdr_emission hw hs
  | stLen => exact stepStLen_emission hw hs
  | stCopy =>
    rw [hs] at hk
    cases hk
    exact stepStCopy_emission hw hs hle
  | dynHdr => exact stepDynHdr_emission hw hs
  | dynClen => exact stepDynClen_emission hw hs
  | dynLens => exact stepDynLens_emission hw hs
  | dynRep => exact stepDynRep_emission hw hs
  | sym =>
    rw [hs] at hk
    cases hk
    exact stepSym_emission hw hs hle
  | lenExtra => exact stepLenExtra_emission hw hs
  | distSym =>
    rw [hs] at hk
    cases hk
    exact stepDistSym_emission hw hs hle
  | distExtra => exact stepDistExtra_emission hw hs
  | trailer => exact stepTrailer_emission hw hs
  | done => exact emission_ok hw rfl le_rfl

/-! ### What an `IN_BYTE` emits -/

theorem chain_emits {q : Pipe} (h : Relation.ReflTransGen (Turn cap) p q) :
    ∃ bs, Emits (Takes cap) bs p q ∧ bs.length + budget q.infl ≤ budget p.infl := by
  induction h with
  | refl => exact ⟨[], emits_of_silent hw rfl, by simp⟩
  | tail _ hturn ih =>
    obtain ⟨xs, hxs, hle⟩ := ih
    have hlast := transition_emission (cap := cap) (recorded_win_length hxs.recorded) hturn.1
    rw [hturn.2] at hlast
    obtain ⟨ys, hys, hle'⟩ := hlast
    exact ⟨xs ++ ys, emits_trans hxs hys fun _ _ _ => takes_append, by rw [List.length_append]; omega⟩

theorem endsRun_emission {o : Res Pipe Unit} (h : EndsRun cap p o) : Emission cap p o := by
  cases o with
  | ok a q => exact chain_emits hw h.1
  | trap c r =>
    obtain ⟨q, hq, hp, ht⟩ := h
    obtain ⟨xs, hxs, hle⟩ := chain_emits hw hq
    have hlast := transition_emission (cap := cap) (recorded_win_length hxs.recorded) hp
    rw [ht] at hlast
    obtain ⟨ys, hys, hle'⟩ := hlast
    exact ⟨xs ++ ys, emits_trans hxs hys fun _ _ _ => takesUpTo_append, by rw [List.length_append]; omega⟩
  | stop e => trivial

end
/-- What one `IN_BYTE` from `s` to `t` does with the bytes it emits (R143, R148, R277). -/
structure InByteEmits (bs : List Byte) (s t : State) : Prop where
  recorded : Recorded bs s.blk.infl t.blk.infl
  toOut : s.blk.infl.route = false → t.blk.out = s.blk.out ++ bs ∧ t.blk.df = s.blk.df
  toDefilt : s.blk.infl.route = true → t.blk.out = s.blk.out ∧
    (Takes s.pixcap bs s.blk.df t.blk.df ∨ ∃ (pre : List Byte) (b : Byte) (u : Defilt) (c : Trap), bs = pre ++ [b] ∧
      Takes s.pixcap pre s.blk.df u ∧ dfPush s.pixcap b u = .trap c t.blk.df ∧
      t.blk.fault = c.cause ∧ t.blk.fsub = c.sub)
  response : t.blk.fault = 0#8 → t.responses = s.responses ++
    [rspOk (BitVec.ofNat 32 ((instateCode t.blk.infl.instate).toNat * 2 ^ 16 + bs.length % 2 ^ 32))]

/-- The growth of `TOTAL` is the number of bytes, modulo 2^32 (R148; notes/assumptions/14.md). -/
theorem total_growth {bs : List Byte} {i j : Infl} (h : Recorded bs i j) :
    (j.total - i.total).toNat = bs.length % 2 ^ 32 := by
  have htotal := h.total
  have hi := i.total.isLt
  rw [BitVec.toNat_sub, htotal]
  omega

section
variable {s t : State} {d : Byte} {bs : List Byte} {q : Pipe}

theorem inByteEmits_nothing (hw : s.blk.infl.win.length ≤ 32768) (hf : t.blk.fault ≠ 0#8) (hi : t.blk.infl = s.blk.infl)
    (ho : t.blk.out = s.blk.out) (hd : t.blk.df = s.blk.df) : InByteEmits [] s t where
  recorded := by rw [hi]; exact recorded_nil hw rfl rfl rfl rfl
  toOut _ := ⟨by rw [ho, List.append_nil], hd⟩
  toDefilt _ := ⟨ho, .inl (by rw [hd]; rfl)⟩
  response h0 := absurd h0 hf

/-- The bits fed are in no record. -/
theorem recorded_of_fed {p : Pipe} {j : Infl} (h : Recorded bs (feedByte d p).infl j) : Recorded bs p.infl j :=
  ⟨h.win, h.total, h.adler⟩

theorem inByteEmits_ok (h : Emits (Takes s.pixcap) bs (feedByte d s.blk.pipe) q) :
    InByteEmits bs s (answered (rspOk (inByteData s.blk.infl q.infl)) (s.blk.setPipe q) s) where
  recorded := recorded_of_fed h.recorded
  toOut := h.toOut
  toDefilt hr := ⟨(h.toDefilt hr).1, .inl (h.toDefilt hr).2⟩
  response _ := by
    rw [← total_growth (recorded_of_fed h.recorded)]
    rfl

theorem inByteEmits_trap {c : Trap} (h : Emits (TakesUpTo s.pixcap c) bs (feedByte d s.blk.pipe) q) :
    InByteEmits bs s (takeFault c { s with blk := s.blk.setPipe q }) where
  recorded := recorded_of_fed h.recorded
  toOut := h.toOut
  toDefilt hr := by
    obtain ⟨ho, hall | ⟨pre, b, u, hbs, hpre, hb⟩⟩ := h.toDefilt hr
    · exact ⟨ho, .inl hall⟩
    · exact ⟨ho, .inr ⟨pre, b, u, c, hbs, hpre, hb, rfl, rfl⟩⟩
  response h0 := absurd h0 (trap_cause_ne_zero c)

/-- What `IN_BYTE` emits in a block that is not faulted, and a bound on it. -/
theorem exec_inByte_emits (hf : s.blk.fault = 0#8) (hw : s.blk.infl.win.length ≤ 32768)
    (h : exec (.inByte d) s = .next t) :
    ∃ bs, InByteEmits bs s t ∧ bs.length ≤ budget (feedByte d s.blk.pipe).infl := by
  by_cases hd : s.blk.infl.instate = .done
  · cases (exec_inByte_done hf hd).symm.trans h
    exact ⟨[], inByteEmits_nothing hw (show (1#8 : Byte) ≠ 0#8 by decide) rfl rfl rfl, Nat.zero_le _⟩
  · have hemit : Emission s.pixcap (feedByte d s.blk.pipe) (runFed s.pixcap d s.blk.pipe) :=
      endsRun_emission hw (run_ends _ _ _)
    cases hr : runFed s.pixcap d s.blk.pipe with
    | ok a q =>
      rw [hr] at hemit
      obtain ⟨bs, hbs, hle⟩ := hemit
      cases (exec_inByte_ok hf hd hr).symm.trans h
      exact ⟨bs, inByteEmits_ok hbs, by omega⟩
    | trap c q =>
      rw [hr] at hemit
      obtain ⟨bs, hbs, hle⟩ := hemit
      rw [exec_inByte_trap hf hd hr, ← takeFault_eq_raised] at h
      cases h
      exact ⟨bs, inByteEmits_trap hbs, hle⟩
    | stop e =>
      rw [exec_inByte hf hd, hr] at h
      cases h

end

/-- Settles O46: the bytes of each transition, one after another, by `exec_inByte_emits`. -/
theorem emittedBytesRecordedOnce : Obligations.EmittedBytesRecordedOnce := by
  intro s t d hf hi h
  obtain ⟨bs, hbs, -⟩ := exec_inByte_emits hf hi.win h
  exact ⟨bs, hbs.recorded, hbs.toOut, hbs.toDefilt, hbs.response⟩

/-- A waiting engine has not the bits its state needs, and all of them but the last can emit nothing. -/
theorem waiting_spare {i : Infl} (he : StateOk i) (hw : Waiting i) : i.bitq.length ≤ spareBits i := by
  unfold Waiting canProceed bitsNeeded at hw
  unfold StateOk at he
  unfold spareBits
  cases hs : i.instate <;> simp only [hs, decide_eq_false_iff_not, not_le] at hw he ⊢
  case done => rw [he, List.length_nil]
  all_goals omega

/-- The length of a match under way (R168). -/
theorem length_le_of_stateOk {i : Infl} (he : StateOk i) (hs : i.instate = .distSym ∨ i.instate = .distExtra) :
    i.length.toNat ≤ 258 := by
  unfold StateOk at he
  rcases hs with hs | hs <;> rw [hs] at he <;> exact he.2

theorem owed_le {i : Infl} (hd : i.instate = .distSym ∨ i.instate = .distExtra → i.length.toNat ≤ 258) :
    owedBytes i ≤ 258 := by
  unfold owedBytes
  split
  next => norm_num
  next hs =>
    have := hd (.inl hs)
    split_ifs <;> omega
  next hs => exact hd (.inr hs)
  next => norm_num

/-- What a waiting engine has in its queue, and one byte more, emit at most 1290 bytes (R172). -/
theorem budget_feedByte_le {p : Pipe} (d : Byte) (he : StateOk p.infl) (hw : Waiting p.infl) :
    budget (feedByte d p).infl ≤ 1290 := by
  have hlen : (feedByte d p).infl.bitq.length = p.infl.bitq.length + 8 := List.length_append
  have hspare : spareBits (feedByte d p).infl = spareBits p.infl := rfl
  have hbits := waiting_spare he hw
  have howed := owed_le (i := (feedByte d p).infl) (length_le_of_stateOk (i := p.infl) he)
  rw [budget, hlen, hspare]
  omega

/-- Settles O48: the bound of `exec_inByte_emits` on a waiting engine is `budget_feedByte_le`. -/
theorem oneByteEmitsAtMost1290 : Obligations.OneByteEmitsAtMost1290 := by
  intro s t d hs h
  have hw : s.blk.infl.win.length ≤ 32768 := hs.blk.ranges.win
  have hemits : ∃ bs, InByteEmits bs s t ∧ bs.length ≤ 1290 := by
    by_cases hf : s.blk.fault = 0#8
    · obtain ⟨he, hwait⟩ := hs.blk.engine hf
      obtain ⟨bs, hbs, hle⟩ := exec_inByte_emits hf hw h
      exact ⟨bs, hbs, hle.trans (budget_feedByte_le d he.state hwait)⟩
    · cases (command_faulted _ hf).symm.trans h
      exact ⟨[], inByteEmits_nothing hw hf rfl rfl rfl, Nat.zero_le _⟩
  obtain ⟨bs, hbs, hle⟩ := hemits
  refine ⟨bs, hle, hbs.recorded, fun hr => (hbs.toOut hr).1, fun hr => ?_⟩
  obtain ⟨-, hall | ⟨pre, b, u, c, rfl, hpre, hb, -⟩⟩ := hbs.toDefilt hr
  · exact .inl hall
  · unfold Takes at hpre
    exact .inr ⟨c, by rw [pushAll_append, hpre, bind_ok, pushAll_cons, hb, bind_trap]⟩

/-! ### The two sums of Adler-32 -/

/-- Each byte weighted by how often the second sum takes it (R171). -/
def weightedSum (bs : List Byte) : Nat := (bs.zipIdx.map fun x => (bs.length - x.2) * x.1.toNat).sum

theorem weightedSum_append (bs : List Byte) (b : Byte) :
    weightedSum (bs ++ [b]) = weightedSum bs + (bs.map BitVec.toNat).sum + b.toNat := by
  have hsum : (bs.zipIdx.map fun x => x.1.toNat).sum = (bs.map BitVec.toNat).sum := by
    conv_rhs => rw [← List.zipIdx_map_fst 0 bs, List.map_map]
    rfl
  have hold : bs.zipIdx.map (fun x => (bs.length + 1 - x.2) * x.1.toNat) =
      bs.zipIdx.map fun x => (bs.length - x.2) * x.1.toNat + x.1.toNat := by
    refine List.map_congr_left fun x hx => ?_
    have hlt := List.snd_lt_of_mem_zipIdx hx
    rw [show bs.length + 1 - x.2 = bs.length - x.2 + 1 by omega, Nat.succ_mul]
  rw [weightedSum, List.zipIdx_append, List.map_append, List.sum_append, List.length_append, List.length_singleton,
    hold, List.sum_map_add, hsum, weightedSum]
  simp

/-- The sums in closed form, after any bytes from the start of a stream (R171). -/
theorem recordAll_sums (bs : List Byte) :
    (recordAll bs Infl.reset).s1.toNat = (1 + (bs.map BitVec.toNat).sum) % 65521 ∧
      (recordAll bs Infl.reset).s2.toNat = (bs.length + weightedSum bs) % 65521 := by
  induction bs using List.reverseRecOn with
  | nil => exact ⟨rfl, rfl⟩
  | append_singleton bs b ih =>
    obtain ⟨h1, h2⟩ := ih
    have hrec : recordAll (bs ++ [b]) Infl.reset = recordByte b (recordAll bs Infl.reset) := recordAll_append ..
    have hs1 : (recordAll (bs ++ [b]) Infl.reset).s1.toNat =
        ((recordAll bs Infl.reset).s1.toNat + b.toNat) % 65521 := by
      rw [hrec]
      exact Nat.mod_eq_of_lt (by omega)
    have hs2 : (recordAll (bs ++ [b]) Infl.reset).s2.toNat =
        ((recordAll bs Infl.reset).s2.toNat + (recordAll (bs ++ [b]) Infl.reset).s1.toNat) % 65521 := by
      rw [hrec]
      exact Nat.mod_eq_of_lt (by omega)
    rw [hs2, hs1, h1, h2, weightedSum_append, List.map_append, List.sum_append, List.length_append,
      List.map_singleton, List.sum_singleton, List.length_singleton]
    omega

/-- Settles O47: the sums by `recordAll_sums`, the two values by evaluation. -/
theorem adlerSums : Obligations.AdlerSums := by
  refine ⟨?_, by decide, by decide⟩
  rintro bs i rfl
  exact recordAll_sums bs

/-! ### What inflating depends on -/

/-- The fault pair of a block that is not faulted (R21, R262). -/
theorem fsub_of_fault {b : Block} (hp : FaultPair b) (hf : b.fault = 0#8) : b.fsub = 0#8 := by
  obtain ⟨-, h⟩ | ⟨c, h, -⟩ := hp
  · exact h
  · exact absurd (h.symm.trans hf) (trap_cause_ne_zero c)

/-- `IN_BYTE` as what its body makes of the pipe. -/
theorem exec_inByte_pipe {s : State} (d : Byte) (hf : s.blk.fault = 0#8) :
    exec (.inByte d) s = finish s ((inByteBody s.pixcap d s.blk.pipe).within s.blk.setPipe) :=
  command_runs _ hf

/-- No command but the four writes INFL (R172). -/
theorem exec_infl {i : Instr} {s t : State} (hreset : i ≠ .blkReset) (hin : i ≠ .inReset) (hroute : ∀ r, i ≠ .inRoute r)
    (hbyte : ∀ d, i ≠ .inByte d) (h : exec i s = .next t) : t.blk.infl = s.blk.infl := by
  have hw := commandsWriteOnlyTheirUnit i s t h
  cases i with
  | blkReset => exact absurd rfl hreset
  | inReset => exact absurd rfl hin
  | inRoute r => exact absurd rfl (hroute r)
  | inByte d => exact absurd rfl (hbyte d)
  | nop | stRead | paShift | pixRd | htSel | htBegin | htCnt | htSym | hdReset | hdBit | crcReset | crcByte | crcExpb
  | crcRead | crcCheck | dfHdrb | dfConfig | dfByte =>
    dsimp only at hw
    rw [hw]

/-- Settles O49: the same body runs on the same pipe, by `exec_inByte_pipe`; the other commands by `exec_infl`. -/
theorem inflateSeesOnlyItsBytes : Obligations.InflateSeesOnlyItsBytes := by
  refine ⟨fun s s' t d hp hp' hf hf' hi ho hd hcap h => ?_, fun i s t hne h =>
    exec_infl hne.1 hne.2.1 hne.2.2.1 hne.2.2.2 h⟩
  have hpipe : s'.blk.pipe = s.blk.pipe := by rw [Block.pipe, hi, ho, hd, Block.pipe]
  have hfault : s'.blk.fault = s.blk.fault := hf'.trans hf.symm
  have hfsub : s'.blk.fsub = s.blk.fsub := (fsub_of_fault hp' hf').trans (fsub_of_fault hp hf).symm
  rw [exec_inByte_pipe d hf] at h
  have hbody : inByteBody s'.pixcap d s'.blk.pipe = inByteBody s.pixcap d s.blk.pipe := by rw [hpipe, hcap]
  rw [exec_inByte_pipe d hf', hbody]
  cases hr : inByteBody s.pixcap d s.blk.pipe with
  | ok r q =>
    rw [hr] at h
    cases h
    refine ⟨r, rfl, ?_⟩
    change finish s' (.ok r (s'.blk.setPipe q)) = .next { s' with
      blk := { s'.blk with infl := q.infl, out := q.out, df := q.df, fault := s.blk.fault, fsub := s.blk.fsub }
      responses := s'.responses ++ [r] }
    rw [← hfault, ← hfsub]
    rfl
  | trap c q =>
    rw [hr] at h
    cases h
    exact ⟨_, rfl, rfl⟩
  | stop e =>
    rw [hr] at h
    cases h

/-! ### The order in which codes are assigned -/

theorem keyLt_iff {x y : Nat × Nat} : keyLt x y = true ↔ x.1 < y.1 ∨ x.1 = y.1 ∧ x.2 < y.2 := by
  simp only [keyLt, Bool.or_eq_true, Bool.and_eq_true, decide_eq_true_eq]

theorem symbolsOfLength_sorted (lens : List Nat) (l : Nat) : (symbolsOfLength lens l).Pairwise (· < ·) := by
  have hsub : (symbolsOfLength lens l).Sublist (lens.zipIdx.map Prod.snd) := List.filter_sublist.map _
  rw [List.zipIdx_map_snd] at hsub
  exact (List.pairwise_lt_range' (s := 0)).sublist hsub

section
variable {lens : List Nat} {maxlen : Nat}

/-- Shorter lengths first, then smaller symbols (R149). -/
theorem codeOrder_sorted (lens : List Nat) (maxlen : Nat) :
    (codeOrder lens maxlen).Pairwise fun x y => keyLt x y = true := by
  refine List.pairwise_flatMap.2 ⟨fun l _ => ?_, ?_⟩
  · rw [List.pairwise_map]
    exact (symbolsOfLength_sorted lens l).imp fun {s r} h =>
      (keyLt_iff (x := (l, s)) (y := (l, r))).2 (.inr ⟨rfl, h⟩)
  · refine (List.pairwise_lt_range' (s := 1)).imp fun {l m} hlm x hx y hy => ?_
    obtain ⟨_, -, rfl⟩ := List.mem_map.1 hx
    obtain ⟨_, -, rfl⟩ := List.mem_map.1 hy
    exact keyLt_iff.2 (.inl hlm)

theorem mem_codeOrder_iff (hmax : ∀ l ∈ lens, l ≤ maxlen) {x : Nat × Nat} :
    x ∈ codeOrder lens maxlen ↔ lens[x.2]? = some x.1 ∧ x.1 ≠ 0 := by
  refine ⟨fun h => ?_, fun ⟨hget, hne⟩ => ?_⟩
  · obtain ⟨hpos, -, -, hget⟩ := codeOrder_mem h
    exact ⟨hget, by omega⟩
  · have hle := hmax _ (List.mem_of_getElem? hget)
    refine List.mem_flatMap.2 ⟨x.1, List.mem_range'_1.2 ⟨by omega, by omega⟩, List.mem_map.2 ⟨x.2, ?_, rfl⟩⟩
    exact List.mem_map.2 ⟨x, List.mem_filter.2 ⟨List.mem_zipIdx_iff_getElem?.2 hget, decide_eq_true rfl⟩, rfl⟩

/-- Every symbol with a code comes once. -/
theorem codeOrder_perm (hmax : ∀ l ∈ lens, l ≤ maxlen) :
    (codeOrder lens maxlen).Perm (lens.zipIdx.filter fun x => decide (x.1 ≠ 0)) := by
  have hnodup : (codeOrder lens maxlen).Nodup := (codeOrder_sorted lens maxlen).imp keyLt_ne
  have hnodup' : lens.zipIdx.Nodup := .of_map Prod.snd (by rw [List.zipIdx_map_snd]; exact List.nodup_range')
  refine (List.perm_ext_iff_of_nodup hnodup (hnodup'.filter _)).2 fun x => ?_
  rw [mem_codeOrder_iff hmax, List.mem_filter, List.mem_zipIdx_iff_getElem?, decide_eq_true_eq]

/-- A sum over the codes to assign, taken in the order of the symbols. -/
theorem codeOrder_sum (hmax : ∀ l ∈ lens, l ≤ maxlen) (f : Nat × Nat → Nat) :
    ((codeOrder lens maxlen).map f).sum = (lens.zipIdx.map fun x => if x.1 = 0 then 0 else f x).sum := by
  rw [((codeOrder_perm hmax).map f).sum_eq]
  induction lens.zipIdx with
  | nil => rfl
  | cons x xs ih =>
    rw [List.map_cons, List.sum_cons, ← ih]
    by_cases hx : x.1 = 0 <;> simp [hx]

theorem codeSpace_eq_sum (lens : List Nat) (maxlen : Nat) :
    codeSpace lens maxlen = ((codeOrder lens maxlen).map fun x => 2 ^ (maxlen - x.1)).sum := by
  have hcount : ∀ l, (symbolsOfLength lens l).length = lens.count l := fun l => by
    conv_rhs => rw [← List.zipIdx_map_fst 0 lens]
    rw [symbolsOfLength, List.length_map, ← List.countP_eq_length_filter, List.count, List.countP_map]
    rfl
  rw [codeSpace, codeOrder, List.map_flatMap, List.flatMap_def, List.sum_flatten, List.map_map]
  simp only [List.map_map, Function.comp_def, List.map_const', List.sum_replicate, hcount, smul_eq_mul]

end

/-! ### The entries of a build -/

/-- What a build has done when it has used `used` of the code space, as multiples of `2^-16` (R149). -/
structure BuiltTo {w : Nat} (used : Nat) (b : Builder w) : Prop where
  code : (b.lastCode + 1) * 2 ^ (16 - b.lastBits) = used
  bits : ∀ e ∈ b.tab, e.1.1 ≤ b.lastBits
  keys : ∀ e ∈ b.tab, (e.1.2 + 1) * 2 ^ (16 - e.1.1) ≤ used

section
variable {w used : Nat} {b : Builder w}

/-- One more code begins where the used space ends, and comes in front of the table. -/
theorem buildOne_builtTo {l s : Nat} (hb : BuiltTo used b) (hn : b.lastBits ≤ l) (hl : l ≤ 16)
    (hused : used + 2 ^ (16 - l) ≤ 2 ^ 16) : BuiltTo (used + 2 ^ (16 - l)) (buildOne b (l, s)) ∧
      ∃ code, code * 2 ^ (16 - l) = used ∧ (buildOne b (l, s)).tab = ((l, code), BitVec.ofNat w s) :: b.tab := by
  have hpos : 0 < 2 ^ (16 - l) := by positivity
  obtain ⟨code, hcode, hspace⟩ := assign_canonical hb.code hn hl (by omega)
  have htab : (buildOne b (l, s)).tab = ((l, code), BitVec.ofNat w s) :: b.tab := by
    simp only [buildOne, hcode, Int.toNat_natCast]
    refine table_insert_head _ fun e he => keyLt_iff.2 ?_
    obtain hlt | heq := ((hb.bits e he).trans hn).lt_or_eq
    · exact .inl hlt
    · have hle := hb.keys e he
      rw [heq, ← hspace] at hle
      exact .inr ⟨heq, Nat.le_of_mul_le_mul_right hle hpos⟩
  refine ⟨⟨?_, ?_, ?_⟩, code, hspace, htab⟩
  · change ((assign b.lastCode b.lastBits l).1 + 1) * 2 ^ (16 - l) = _
    rw [hcode, add_mul, one_mul]
    exact_mod_cast congrArg (· + 2 ^ (16 - l)) hspace
  all_goals
    rw [htab]
    refine List.forall_mem_cons.2 ⟨?_, fun e he => ?_⟩
  · exact le_rfl
  · exact (hb.bits e he).trans hn
  · rw [Nat.succ_mul, hspace]
  · exact (hb.keys e he).trans (Nat.le_add_right _ _)

/-- A build adds one entry for each code, which begins where the space of the codes before it ends (R149). -/
theorem foldl_buildOne_tab {xs : List (Nat × Nat)} (hb : BuiltTo used b) (hn : ∀ x ∈ xs, b.lastBits ≤ x.1)
    (hsorted : xs.Pairwise fun x y => x.1 ≤ y.1) (hl : ∀ x ∈ xs, x.1 ≤ 16)
    (hfits : used + (xs.map fun x => 2 ^ (16 - x.1)).sum ≤ 2 ^ 16) :
    (xs.foldl buildOne b).tab.length = b.tab.length + xs.length ∧
      ∀ l c y, ((l, c), y) ∈ (xs.foldl buildOne b).tab ↔ ((l, c), y) ∈ b.tab ∨
        ∃ k s, xs[k]? = some (l, s) ∧ y = BitVec.ofNat w s ∧
          c * 2 ^ (16 - l) = used + spaceTo (xs.map Prod.fst) k := by
  induction xs generalizing b used with
  | nil => exact ⟨rfl, fun l c y => by simp⟩
  | cons x xs ih =>
    obtain ⟨m, s⟩ := x
    obtain ⟨hm, hsorted⟩ := List.pairwise_cons.1 hsorted
    obtain ⟨hl, hls⟩ := List.forall_mem_cons.1 hl
    rw [List.map_cons, List.sum_cons, ← add_assoc] at hfits
    obtain ⟨hb', code, hspace, htab⟩ := buildOne_builtTo (s := s) hb (hn _ List.mem_cons_self) hl (by omega)
    obtain ⟨hlen, hmem⟩ := ih hb' hm hsorted hls hfits
    refine ⟨by rw [List.foldl_cons, hlen, htab, List.length_cons, List.length_cons]; omega, fun l c y => ?_⟩
    have hnew : ((l, c), y) = ((m, code), BitVec.ofNat w s) ↔
        m = l ∧ y = BitVec.ofNat w s ∧ c * 2 ^ (16 - l) = used := by
      rw [← hspace]
      constructor
      · rintro ⟨rfl, rfl⟩
        exact ⟨rfl, rfl, rfl⟩
      · rintro ⟨rfl, rfl, hc⟩
        rw [Nat.eq_of_mul_eq_mul_right (by positivity) hc]
    rw [List.foldl_cons, hmem, htab, List.mem_cons, hnew, or_comm (b := ((l, c), y) ∈ b.tab), or_assoc]
    refine or_congr_right ⟨?_, ?_⟩
    · rintro (⟨rfl, hy, hc⟩ | ⟨k, s', hk, hy, hc⟩)
      · exact ⟨0, s, rfl, hy, hc⟩
      · exact ⟨k + 1, s', hk, hy, by rw [List.map_cons, spaceTo_cons, hc, add_assoc]⟩
    · rintro ⟨_ | k, s', hk, hy, hc⟩
      · cases hk
        exact .inl ⟨rfl, hy, hc⟩
      · rw [List.map_cons, spaceTo_cons, ← add_assoc] at hc
        exact .inr ⟨k, s', hk, hy, hc⟩

end

/-- The space the codes up to one of a sorted list take is that of the keys below it. -/
theorem spaceTo_sorted {xs : List (Nat × Nat)} (hsorted : xs.Pairwise fun x y => keyLt x y = true) {k : Nat}
    {z : Nat × Nat} (hk : xs[k]? = some z) :
    spaceTo (xs.map Prod.fst) k = (xs.map fun x => if keyLt x z then 2 ^ (16 - x.1) else 0).sum := by
  induction xs generalizing k with
  | nil => cases hk
  | cons x xs ih =>
    obtain ⟨hx, hsorted⟩ := List.pairwise_cons.1 hsorted
    cases k with
    | zero =>
      cases hk
      have hnone : ∀ y ∈ z :: xs, (if keyLt y z then 2 ^ (16 - y.1) else 0) = 0 := by
        refine List.forall_mem_cons.2 ⟨if_neg fun h => keyLt_ne h rfl, fun y hy => if_neg fun h => ?_⟩
        exact keyLt_ne (keyLt_trans h (hx y hy)) rfl
      rw [List.map_congr_left hnone, List.map_const', List.sum_replicate, smul_zero]
      rfl
    | succ k =>
      rw [List.map_cons, spaceTo_cons, List.map_cons, List.sum_cons, if_pos (hx z (List.mem_of_getElem? hk)),
        ih hsorted hk]

/-! ### The tables of R149 -/

section
variable {w maxlen : Nat} {lens : List Nat} {t : Table w}

/-- The length of a code and what is below it make up 16 bits, for a length within `maxlen`. -/
theorem pow_split {l : Nat} (h16 : maxlen ≤ 15) (hl : l ≤ maxlen) :
    2 ^ (16 - l) = 2 ^ (maxlen - l) * 2 ^ (16 - maxlen) := by
  rw [← pow_add]
  congr 1
  omega

theorem tableFromLengths_eq_none_iff (hmax : ∀ l ∈ lens, l ≤ maxlen) : tableFromLengths w lens maxlen = none ↔
    2 ^ maxlen < (lens.map fun l => if l = 0 then 0 else 2 ^ (maxlen - l)).sum := by
  have hsum : codeSpace lens maxlen = (lens.map fun l => if l = 0 then 0 else 2 ^ (maxlen - l)).sum := by
    conv_rhs => rw [← List.zipIdx_map_fst 0 lens, List.map_map]
    exact (codeSpace_eq_sum lens maxlen).trans (codeOrder_sum hmax _)
  rw [tableFromLengths, hsum]
  split_ifs with h
  · exact ⟨fun _ => h, fun _ => rfl⟩
  · exact ⟨nofun, fun h' => absurd h' h⟩

/-- The entries of a table, by the place of each in the order of assignment. -/
theorem tableFromLengths_entries (h16 : maxlen ≤ 15) (h : tableFromLengths w lens maxlen = some t) :
    t.length = (codeOrder lens maxlen).length ∧ ∀ l c y, ((l, c), y) ∈ t ↔
      ∃ k s, (codeOrder lens maxlen)[k]? = some (l, s) ∧ y = BitVec.ofNat w s ∧
        c * 2 ^ (16 - l) = spaceTo ((codeOrder lens maxlen).map Prod.fst) k := by
  have hle : ∀ x ∈ codeOrder lens maxlen, x.1 ≤ maxlen := fun x hx => (codeOrder_mem hx).2.1
  rw [tableFromLengths] at h
  split_ifs at h with hspace
  cases h
  have hfits : 0 + ((codeOrder lens maxlen).map fun x => 2 ^ (16 - x.1)).sum ≤ 2 ^ 16 := by
    rw [codeSpace_eq_sum, not_lt] at hspace
    rw [List.map_congr_left fun x hx => pow_split h16 (hle x hx), List.sum_map_mul_right, zero_add]
    calc _ ≤ 2 ^ maxlen * 2 ^ (16 - maxlen) := Nat.mul_le_mul_right _ hspace
      _ = 2 ^ 16 := by rw [← pow_add, Nat.add_sub_cancel' (by omega)]
  obtain ⟨hlen, hmem⟩ := foldl_buildOne_tab (w := w) (used := 0) (b := { lastCode := -1, lastBits := 0, tab := [] })
    ⟨by norm_num, nofun, nofun⟩ (fun _ _ => Nat.zero_le _)
    ((codeOrder_sorted lens maxlen).imp fun h => (keyLt_iff.1 h).elim le_of_lt fun h => h.1.le)
    (fun x hx => (hle x hx).trans (by omega)) hfits
  refine ⟨hlen.trans (Nat.zero_add _), fun l c y => (hmem l c y).trans ?_⟩
  simp only [List.not_mem_nil, false_or, Nat.zero_add]

/-- In canonical form what is an entry is found. -/
theorem find_iff_mem (ht : Table.wf t = true) {k : Nat × Nat} {y : BitVec w} :
    Table.find t k = some y ↔ (k, y) ∈ t := by
  refine ⟨table_find_mem, fun h => ?_⟩
  rw [table_wf_iff] at ht
  induction t with
  | nil => cases h
  | cons e t ih =>
    obtain ⟨he, ht⟩ := List.pairwise_cons.1 ht
    obtain rfl | h := List.mem_cons.1 h
    · exact if_pos rfl
    · exact (if_neg (keyLt_ne (he _ h)).symm).trans (ih ht h)

/-- The code space that shorter lengths and smaller symbols of the same length take. -/
def spaceBelow (maxlen l s : Nat) (x : Nat × Nat) : Nat :=
  if x.1 ≠ 0 ∧ (x.1 < l ∨ x.1 = l ∧ x.2 < s) then 2 ^ (maxlen - x.1) else 0

theorem spaceTo_codeOrder (h16 : maxlen ≤ 15) (hmax : ∀ l ∈ lens, l ≤ maxlen) {k l s : Nat}
    (hk : (codeOrder lens maxlen)[k]? = some (l, s)) :
    spaceTo ((codeOrder lens maxlen).map Prod.fst) k =
      (lens.zipIdx.map (spaceBelow maxlen l s)).sum * 2 ^ (16 - maxlen) := by
  rw [spaceTo_sorted (codeOrder_sorted lens maxlen) hk, codeOrder_sum hmax, ← List.sum_map_mul_right]
  refine congrArg _ (List.map_congr_left fun x hx => ?_)
  have hle := hmax x.1 (List.mem_of_getElem? (List.mem_zipIdx_iff_getElem?.1 hx))
  by_cases hz : x.1 = 0
  · simp [spaceBelow, hz]
  · simp only [spaceBelow, hz, if_false, keyLt_iff, ne_eq, not_false_eq_true, true_and, pow_split h16 hle, ite_mul,
      zero_mul]

theorem find_tableFromLengths (h16 : maxlen ≤ 15) (hmax : ∀ l ∈ lens, l ≤ maxlen) (hw : lens.length ≤ 2 ^ w)
    (h : tableFromLengths w lens maxlen = some t) {l c : Nat} {y : BitVec w} : Table.find t (l, c) = some y ↔
      lens[y.toNat]? = some l ∧ l ≠ 0 ∧
        c * 2 ^ (maxlen - l) = (lens.zipIdx.map (spaceBelow maxlen l y.toNat)).sum := by
  have hpos : 0 < 2 ^ (16 - maxlen) := by positivity
  rw [find_iff_mem (tableFromLengths_ok h).1.wf, (tableFromLengths_entries h16 h).2]
  constructor
  · rintro ⟨k, s, hk, rfl, hc⟩
    obtain ⟨-, hle, hs, -⟩ := codeOrder_mem (List.mem_of_getElem? hk)
    obtain ⟨hget, hne⟩ := (mem_codeOrder_iff hmax).1 (List.mem_of_getElem? hk)
    rw [BitVec.toNat_ofNat, Nat.mod_eq_of_lt (hs.trans_le hw)]
    rw [pow_split h16 hle, spaceTo_codeOrder h16 hmax hk, ← mul_assoc] at hc
    exact ⟨hget, hne, Nat.eq_of_mul_eq_mul_right hpos hc⟩
  · rintro ⟨hget, hne, hc⟩
    obtain ⟨k, hk⟩ := List.mem_iff_getElem?.1 ((mem_codeOrder_iff hmax (x := (l, y.toNat))).2 ⟨hget, hne⟩)
    refine ⟨k, y.toNat, hk, by rw [BitVec.ofNat_toNat, BitVec.setWidth_eq], ?_⟩
    rw [pow_split h16 (hmax l (List.mem_of_getElem? hget)), spaceTo_codeOrder h16 hmax hk, ← hc, mul_assoc]

end

/-- Settles O44: the refusal by the sum of the code space, the entries by the order of assignment. -/
theorem tablesAreCanonical : Obligations.TablesAreCanonical :=
  fun _ _ _ h16 hmax hw => ⟨tableFromLengths_eq_none_iff hmax, fun _ h _ _ _ => find_tableFromLengths h16 hmax hw h⟩

/-! ### The codes of a fixed block -/

/-- How many of `n` symbols of length `v`, the first of them `k`, have their code before symbol `s` of length `l`. -/
def codesBefore (l s v n k : Nat) : Nat := if v < l then n else if v = l then min n (s - k) else 0

/-- What a run of symbols of one length takes of the code space below a symbol. -/
theorem spaceBelow_replicate {v : Nat} (hv : v ≠ 0) (maxlen l s n k : Nat) :
    (((List.replicate n v).zipIdx k).map (spaceBelow maxlen l s)).sum = codesBefore l s v n k * 2 ^ (maxlen - v) := by
  induction n generalizing k with
  | zero => simp [codesBefore]
  | succ n ih =>
    have hcount : codesBefore l s v (n + 1) k =
        (if v < l ∨ v = l ∧ k < s then 1 else 0) + codesBefore l s v n (k + 1) := by
      simp only [codesBefore]
      split_ifs <;> omega
    rw [List.replicate_succ, List.zipIdx_cons, List.map_cons, List.sum_cons, ih, hcount, add_mul, ite_mul, one_mul,
      zero_mul, spaceBelow]
    simp only [hv, ne_eq, not_false_eq_true, true_and]

/-- A table without absent symbols has an entry for each. -/
theorem length_of_tableFromLengths {w maxlen : Nat} {lens : List Nat} {t : Table w} (h16 : maxlen ≤ 15)
    (hmax : ∀ l ∈ lens, l ≤ maxlen) (hne : ∀ l ∈ lens, l ≠ 0) (h : tableFromLengths w lens maxlen = some t) :
    t.length = lens.length := by
  have hperm := (codeOrder_perm hmax).length_eq
  rw [List.filter_eq_self.2 fun x hx => decide_eq_true (hne _ (List.fst_mem_of_mem_zipIdx hx)),
    List.length_zipIdx] at hperm
  exact (tableFromLengths_entries h16 h).1.trans hperm

theorem fixedLitLen_range : ∀ l ∈ fixedLitLen, 7 ≤ l ∧ l ≤ 9 := by
  simp only [fixedLitLen, List.mem_append, List.mem_replicate]
  omega

theorem fixedDist_eq_five : ∀ l ∈ fixedDist, l = 5 := fun _ h => List.eq_of_mem_replicate h

theorem length_fixedLitLen : fixedLitLen.length = 288 := by
  simp only [fixedLitLen, List.length_append, List.length_replicate]

theorem fixedLitLen_getElem? (s : Nat) : fixedLitLen[s]? =
    if s < 144 then some 8 else if s < 256 then some 9 else if s < 280 then some 7 else if s < 288 then some 8
    else none := by
  simp only [fixedLitLen, List.getElem?_append, List.getElem?_replicate, List.length_append, List.length_replicate]
  grind

theorem fixedLitLen_space (l s : Nat) : (fixedLitLen.zipIdx.map (spaceBelow 15 l s)).sum =
    codesBefore l s 8 144 0 * 2 ^ 7 + codesBefore l s 9 112 144 * 2 ^ 6 + codesBefore l s 7 24 256 * 2 ^ 8 +
      codesBefore l s 8 8 280 * 2 ^ 7 := by
  simp only [fixedLitLen, List.zipIdx_append, List.map_append, List.sum_append, List.length_append,
    List.length_replicate]
  rw [spaceBelow_replicate (by decide), spaceBelow_replicate (by decide), spaceBelow_replicate (by decide),
    spaceBelow_replicate (by decide)]

/-- The code of a literal/length symbol is the count of the codes before it, at its length (R150). -/
theorem find_fixedLit {lt : Table 9} (h : tableFromLengths 9 fixedLitLen 15 = some lt) {l c s : Nat}
    (hget : fixedLitLen[s]? = some l)
    (hc : c * 2 ^ (15 - l) = codesBefore l s 8 144 0 * 2 ^ 7 + codesBefore l s 9 112 144 * 2 ^ 6 +
      codesBefore l s 7 24 256 * 2 ^ 8 + codesBefore l s 8 8 280 * 2 ^ 7) :
    Table.find lt (l, c) = some (BitVec.ofNat 9 s) := by
  obtain ⟨hs, -⟩ := List.getElem?_eq_some_iff.1 hget
  have hl := fixedLitLen_range l (List.mem_of_getElem? hget)
  rw [length_fixedLitLen] at hs
  rw [find_tableFromLengths le_rfl (fun l hl => (fixedLitLen_range l hl).2.trans (by decide))
    (length_fixedLitLen.trans_le (by decide)) h, BitVec.toNat_ofNat, Nat.mod_eq_of_lt (by omega), fixedLitLen_space]
  exact ⟨hget, by omega, hc⟩

theorem find_fixedDist {dt : Table 5} (h : tableFromLengths 5 fixedDist 15 = some dt) {k : Nat} (hk : k < 32) :
    Table.find dt (5, k) = some (BitVec.ofNat 5 k) := by
  rw [find_tableFromLengths le_rfl (fun l hl => (fixedDist_eq_five l hl).trans_le (by decide))
    (List.length_replicate.trans_le (by decide)) h, BitVec.toNat_ofNat, Nat.mod_eq_of_lt hk, fixedDist,
    spaceBelow_replicate (by decide), codesBefore, List.getElem?_replicate_of_lt hk]
  refine ⟨rfl, by decide, ?_⟩
  simp only [lt_irrefl, if_false, if_true]
  omega

/-- Settles O45: the entry of each symbol by `find_fixedLit` and `find_fixedDist`, one run of lengths at a time. -/
theorem fixedBlockCodes : Obligations.FixedBlockCodes := by
  obtain ⟨lt, dt, hlt, hdt⟩ := fixedTables_exist
  refine ⟨lt, dt, hlt, hdt, ?_, ?_, fun k hk => ?_, fun k hk => ?_, fun k hk => ?_, fun k hk => ?_,
    fun k hk => find_fixedDist hdt hk⟩
  · rw [length_of_tableFromLengths le_rfl (fun l hl => ?_) (fun l hl => ?_) hlt, length_fixedLitLen]
    all_goals have := fixedLitLen_range l hl; omega
  · rw [length_of_tableFromLengths le_rfl (fun l hl => ?_) (fun l hl => ?_) hdt]
    · rfl
    all_goals have := fixedDist_eq_five l hl; omega
  all_goals
    refine find_fixedLit hlt ?_ ?_
    · simp (disch := omega) only [fixedLitLen_getElem?, if_pos, if_neg]
    · simp only [codesBefore]
      split_ifs <;> omega

end Sys2Proof.Machine

/-! ## The proofs: DEFILT (43_defilter.md)

The configuration, one pushed byte, the row loop and the five filters, the rows that stay, and the two routes to the
defilter. -/

namespace Sys2Proof.Machine

open Sys2Proof.Safety

/-! ### A command of DEFILT in a block that is not faulted -/

section
variable {s t : State} (hf : s.blk.fault = 0#8)
include hf

theorem onDefilt_answers {f : Defilt → Res Defilt Rsp} {r : Rsp} {v : Defilt} (h : f s.blk.df = .ok r v) :
    command s (onDefilt f) = .next (answered r { s.blk with df := v } s) := by
  rw [command_runs _ hf, onDefilt, h]
  rfl

/-- What a command wrote before it raised its fault stays written (R277). -/
theorem onDefilt_raises {f : Defilt → Res Defilt Rsp} {c : Trap} {v : Defilt} (h : f s.blk.df = .trap c v) :
    command s (onDefilt f) =
      .next (raised c.cause.toNat c.sub.toNat { s with blk := { s.blk with df := v } }) := by
  rw [command_runs _ hf, onDefilt, h, ← takeFault_eq_raised]
  rfl

theorem exec_dfByte_ok {d : Byte} {v : Defilt} (h : dfPush s.pixcap d s.blk.df = .ok () v) :
    exec (.dfByte d) s = .next (answered
      (rspOk ((v.row - s.blk.df.row) + (if v.row = v.height then 2#32 else 0#32))) { s.blk with df := v } s) :=
  onDefilt_answers hf (by rw [dfByteBody, h]; rfl)

theorem exec_dfByte_trap {d : Byte} {c : Trap} {v : Defilt} (h : dfPush s.pixcap d s.blk.df = .trap c v) :
    exec (.dfByte d) s =
      .next (raised c.cause.toNat c.sub.toNat { s with blk := { s.blk with df := v } }) :=
  onDefilt_raises hf (by rw [dfByteBody, h]; rfl)

/-- A `DF_BYTE` that answers a next state hands its byte to `df_push` (R206). -/
theorem dfPush_of_exec {d : Byte} (h : exec (.dfByte d) s = .next t) :
    t.pixcap = s.pixcap ∧
      ((dfPush s.pixcap d s.blk.df = .ok () t.blk.df ∧ t.blk.fault = 0#8) ∨
        ∃ c, dfPush s.pixcap d s.blk.df = .trap c t.blk.df ∧ t.blk.fault = c.cause ∧ t.blk.fsub = c.sub) := by
  cases hp : dfPush s.pixcap d s.blk.df with
  | ok a v =>
    cases (exec_dfByte_ok hf hp).symm.trans h
    exact ⟨rfl, .inl ⟨rfl, hf⟩⟩
  | trap c v =>
    rw [exec_dfByte_trap hf hp, ← takeFault_eq_raised] at h
    cases h
    exact ⟨rfl, .inr ⟨c, rfl, rfl, rfl⟩⟩
  | stop e =>
    have hcmd : exec (.dfByte d) s = finish s (onDefilt (dfByteBody s.pixcap d) s.blk) := command_runs _ hf
    rw [hcmd, onDefilt, dfByteBody, hp] at h
    cases h

end

/-- `DF_BYTE` of some bytes that ends without a fault is `df_push` of them (R200, R206). -/
theorem pushAll_of_execAll {bs : List Byte} {s t : State} (h : execAll (bs.map .dfByte) s = .next t)
    (hf : t.blk.fault = 0#8) :
    s.blk.fault = 0#8 ∧ t.pixcap = s.pixcap ∧ pushAll s.pixcap bs s.blk.df = .ok () t.blk.df := by
  induction bs generalizing s with
  | nil => cases h; exact ⟨hf, rfl, rfl⟩
  | cons b bs ih =>
    rw [List.map_cons, execAll] at h
    cases hx : exec (.dfByte b) s with
    | next u =>
      rw [hx] at h
      obtain ⟨hu, hcap, hrest⟩ := ih h
      have hs : s.blk.fault = 0#8 := by
        by_contra hne
        cases (command_faulted _ hne).symm.trans hx
        exact hne hu
      obtain ⟨hcap', ⟨hb, -⟩ | ⟨c, -, hc, -⟩⟩ := dfPush_of_exec hs hx
      · exact ⟨hs, hcap.trans hcap', by rw [pushAll_cons, hb, bind_ok, ← hcap', hrest]⟩
      · exact absurd (hc.symm.trans hu) (trap_cause_ne_zero c)
    | fault e => rw [hx] at h; cases h
    | refused r => rw [hx] at h; cases h

/-! ### The image header -/

/-- Settles O51: the word by `encodedI_of_formatI`, the command by its two cases (R201). -/
theorem loadHeaderByte : Obligations.LoadHeaderByte := by
  refine ⟨encodedI_of_formatI (check := fun _ => true) (fun w h => by simp only [decode, h]) (by simp),
    fun s d hf => ⟨fun hlt => ?_, fun hge => onDefilt_raises (c := .headerFull) hf (dif_neg (by omega))⟩⟩
  have hcnt : (BitVec.ofNat 4 (s.blk.df.hcnt.toNat + 1)).toNat = s.blk.df.hcnt.toNat + 1 := by
    rw [BitVec.toNat_ofNat]
    omega
  have hdata : BitVec.ofNat 32 (s.blk.df.hcnt.toNat + 1) =
      (BitVec.ofNat 4 (s.blk.df.hcnt.toNat + 1)).setWidth 32 := by rw [← BitVec.ofNat_toNat, hcnt]
  refine ⟨{ s.blk.df with
      hdr := s.blk.df.hdr.set s.blk.df.hcnt.toNat d, hcnt := BitVec.ofNat 4 (s.blk.df.hcnt.toNat + 1) }, ?_, hcnt,
    fun k => ?_, rfl⟩
  · rw [hdata]
    exact onDefilt_answers hf (dif_pos hlt)
  · simpa only [Fin.ext_iff] using getElem_set_fin s.blk.df.hdr ⟨s.blk.df.hcnt.toNat, hlt⟩ k d

/-! ### The configuration -/

theorem bigEndian32_toNat (b0 b1 b2 b3 : Byte) :
    (bigEndian32 b0 b1 b2 b3).toNat = b0.toNat * 2 ^ 24 + b1.toNat * 2 ^ 16 + b2.toNat * 2 ^ 8 + b3.toNat := by
  simp only [bigEndian32, toNat_append_fields]
  omega

/-- The eight pairs of R204, as numbers. -/
theorem formatAccepted_iff (depth ctype : Byte) : formatAccepted depth ctype = true ↔
    (depth.toNat, ctype.toNat) ∈ [(1, 0), (4, 0), (8, 0), (1, 3), (4, 3), (8, 3), (8, 2), (8, 6)] := by
  have hpairs : [(1, 0), (4, 0), (8, 0), (1, 3), (4, 3), (8, 3), (8, 2), (8, 6)] =
      acceptedFormats.map (Prod.map BitVec.toNat BitVec.toNat) := rfl
  have hinj : Function.Injective (Prod.map (BitVec.toNat (w := 8)) (BitVec.toNat (w := 8))) :=
    Function.Injective.prodMap (fun _ _ => BitVec.eq_of_toNat_eq) fun _ _ => BitVec.eq_of_toNat_eq
  rw [hpairs, formatAccepted, List.contains_iff_mem, ← List.mem_map_of_injective hinj]
  rfl

/-- The channels of an accepted colour type (R205). -/
theorem channels_of_accepted {depth ctype : Byte} (h : formatAccepted depth ctype = true) :
    channels ctype = if ctype.toNat = 2 then 3 else if ctype.toNat = 6 then 4 else 1 := by
  have table : ∀ e ∈ acceptedFormats,
      channels e.2 = if e.2.toNat = 2 then 3 else if e.2.toNat = 6 then 4 else 1 := by
    simp [acceptedFormats, channels]
  exact table _ (List.contains_iff_mem.1 h)

/-- A feature set none of whose first five checks applies is judged by its pair (R204). -/
theorem checkFeatures_pair {depth ctype comp filt inter : Byte} (hd : depth ≠ 16#8) (hc : ctype ≠ 4#8)
    (h10 : comp = 0#8) (h11 : filt = 0#8) (h12 : inter = 0#8) : checkFeatures depth ctype comp filt inter =
      if formatAccepted depth ctype = false then some .pixelFormat else none := by
  simp only [checkFeatures, if_neg hd, if_neg hc, h10, h11, h12, ne_eq, not_true_eq_false, if_false]

/-- The geometry of an image that fits the pixel memory (R205). -/
theorem geometry_of_fits {cap w h : Word} {depth ctype : Byte} (hsize : ¬ (w = 0#32 ∨ h = 0#32))
    (hfits : (w.toNat * (depth.toNat * channels ctype) + 7) / 8 * h.toNat ≤ cap.toNat) :
    geometry cap w h depth ctype = .ok
      { bpp := depth.toNat * channels ctype
        stride := (w.toNat * (depth.toNat * channels ctype) + 7) / 8
        psize := max 1 (depth.toNat * channels ctype / 8) } := by
  rw [geometry, if_neg hsize]
  exact if_neg (not_lt.2 hfits)

section
variable {s : State} (hf : s.blk.fault = 0#8) (h13 : s.blk.df.hcnt.toNat = 13)
include hf h13

theorem exec_dfConfig_rejects {c : Trap} (h : checkFeatures s.blk.df.hdr[8] s.blk.df.hdr[9] s.blk.df.hdr[10]
    s.blk.df.hdr[11] s.blk.df.hdr[12] = some c) :
    exec .dfConfig s = .next (raised c.cause.toNat c.sub.toNat s) :=
  onDefilt_raises hf (by rw [dfConfigBody, if_pos h13, h])

variable (hfeatures : checkFeatures s.blk.df.hdr[8] s.blk.df.hdr[9] s.blk.df.hdr[10] s.blk.df.hdr[11]
  s.blk.df.hdr[12] = none)
include hfeatures

theorem exec_dfConfig_misfits {c : Trap} (h : geometry s.pixcap (hdrWidth s.blk.df.hdr) (hdrHeight s.blk.df.hdr)
    s.blk.df.hdr[8] s.blk.df.hdr[9] = .error c) :
    exec .dfConfig s = .next (raised c.cause.toNat c.sub.toNat s) :=
  onDefilt_raises hf (by rw [dfConfigBody, if_pos h13, hfeatures, h])

theorem exec_dfConfig_ok {g : Geometry} (h : geometry s.pixcap (hdrWidth s.blk.df.hdr) (hdrHeight s.blk.df.hdr)
    s.blk.df.hdr[8] s.blk.df.hdr[9] = .ok g) :
    exec .dfConfig s = .next (answered (rspOk (configured s.blk.df g).stride)
      { s.blk with df := configured s.blk.df g } s) :=
  onDefilt_answers hf (by rw [dfConfigBody, if_pos h13, hfeatures, h]; rfl)

end

/-- Settles O52: the checks of R204 in their order, by `checkFeatures_pair` from the sixth on, then those of R205; the
configuration in force is a good one by `configured_ok`. -/
theorem putConfigurationInForce : Obligations.PutConfigurationInForce := by
  refine ⟨encodedZ_of_formatZ fun w h => by simp only [decode, h],
    fun s hf h13 => onDefilt_raises (c := .headerShort) hf (if_neg h13), ?_⟩
  rintro s hdr w h depth ctype bpp stride hf h13 rfl hw hh rfl rfl hbpp rfl
  have hreject := @exec_dfConfig_rejects s hf h13
  have hw : (hdrWidth s.blk.df.hdr).toNat = w := (bigEndian32_toNat _ _ _ _).trans hw.symm
  have hh : (hdrHeight s.blk.df.hdr).toNat = h := (bigEndian32_toNat _ _ _ _).trans hh.symm
  refine ⟨fun h16 => hreject (c := .depth16) (if_pos (BitVec.eq_of_toNat_eq h16)), fun h16 => ?_⟩
  have h16 : s.blk.df.hdr[8] ≠ 16#8 := fun e => h16 (congrArg BitVec.toNat e)
  refine ⟨fun h4 => hreject (c := .grayAlpha) ?_, fun h4 => ?_⟩
  · rw [checkFeatures, if_neg h16, if_pos (BitVec.eq_of_toNat_eq h4)]
  have h4 : s.blk.df.hdr[9] ≠ 4#8 := fun e => h4 (congrArg BitVec.toNat e)
  refine ⟨fun h10 => hreject (c := .compression) ?_, fun h10 => ⟨fun h11 => hreject (c := .filterMethod) ?_,
    fun h11 => ⟨fun h12 => hreject (c := .interlace) ?_, fun h12 => ?_⟩⟩⟩
  · rw [checkFeatures, if_neg h16, if_neg h4, if_pos h10]
  · rw [checkFeatures, if_neg h16, if_neg h4, if_neg (not_not.2 h10), if_pos h11]
  · rw [checkFeatures, if_neg h16, if_neg h4, if_neg (not_not.2 h10), if_neg (not_not.2 h11), if_pos h12]
  have hpair := checkFeatures_pair h16 h4 h10 h11 h12
  rw [← formatAccepted_iff]
  refine ⟨fun hno => hreject (c := .pixelFormat) (hpair.trans (if_pos (Bool.eq_false_iff.2 hno))), fun hacc => ?_⟩
  have hfeatures := hpair.trans (if_neg (by rw [hacc]; decide))
  rw [← channels_of_accepted hacc] at hbpp
  subst hw hh hbpp
  refine ⟨fun h0 => exec_dfConfig_misfits (c := .zeroDimension) hf h13 hfeatures ?_, fun hw0 hh0 => ?_⟩
  · rw [geometry, if_pos (h0.imp (fun e => BitVec.eq_of_toNat_eq e) fun e => BitVec.eq_of_toNat_eq e)]
  have hsize : ¬ (hdrWidth s.blk.df.hdr = 0#32 ∨ hdrHeight s.blk.df.hdr = 0#32) :=
    not_or.2 ⟨fun e => hw0 (congrArg BitVec.toNat e), fun e => hh0 (congrArg BitVec.toNat e)⟩
  refine ⟨fun hlt => exec_dfConfig_misfits (c := .imageTooLarge) hf h13 hfeatures ?_, fun hle => ?_⟩
  · rw [geometry, if_neg hsize]
    exact if_pos hlt
  have hg := geometry_of_fits hsize hle
  have hok := configured_ok hfeatures hg
  have hbpp := hok.bpp
  exact ⟨configured s.blk.df _, exec_dfConfig_ok hf h13 hfeatures hg, rfl, rfl, rfl, rfl, hbpp,
    by rw [hok.stride, hbpp]; rfl, by rw [hok.psize, hbpp]; rfl, rfl, rfl, rfl, rfl, rfl, rfl, rfl⟩

/-! ### One pushed byte -/

section
variable {cap : Word} {u : Defilt} {b : Byte} (hv : u.dfvalid = true) (hr : u.row ≠ u.height)
include hv hr

/-- A byte within a scanline (R208). -/
theorem dfPush_gather (hlt : u.fill.toNat < u.stride.toNat) : dfPush cap b u =
    .ok () { u with line := Memory.write u.line u.fill.toNat b, fill := u.fill + 1#32 } := by
  rw [dfPush, if_neg (by rw [hv]; decide), if_neg hr, if_neg (by omega)]
  exact if_pos hlt

/-- The last byte of a scanline (R208). -/
theorem dfPush_last (heq : u.fill = u.stride) :
    dfPush cap b u = finishRow cap { u with line := Memory.write u.line u.fill.toNat b } := by
  rw [dfPush, if_neg (by rw [hv]; decide), if_neg hr, if_neg (by rw [heq]; omega)]
  exact if_neg (by rw [heq]; omega)

end

theorem dfPush_surplus {cap : Word} {u : Defilt} {b : Byte} (hv : u.dfvalid = true) (hr : u.row = u.height) :
    dfPush cap b u = .trap .surplusData u := by
  rw [dfPush, if_neg (by rw [hv]; decide), if_pos hr]

section
variable {cap : Word} {u : Defilt} {ft : Byte} (h0 : lineRead u.line 0 = .ok ft)
include h0

theorem finishRow_trap (hft : filterOfByte ft = Option.none) : finishRow cap u = .trap .filterType u := by
  rw [finishRow, h0]
  dsimp only
  rw [hft]

variable {f : Filter} (hft : filterOfByte ft = some f)
include hft

theorem finishRow_ok {pix : Memory} (h : reconRow cap f u = .ok pix) :
    finishRow cap u = .ok () { u with pix := pix, row := u.row + 1#32, fill := 0#32 } := by
  rw [finishRow, h0]
  dsimp only
  rw [hft]
  dsimp only
  rw [h]

theorem finishRow_stop {e : Fault} (h : reconRow cap f u = .error e) : finishRow cap u = .stop e := by
  rw [finishRow, h0]
  dsimp only
  rw [hft]
  dsimp only
  rw [h]

end

/-- The first byte of a scanline is its filter type (R208). -/
theorem lineRead_first {m : Memory} {fill : Nat} {f b : Byte} (h0 : Memory.read m 0 = some f) (hfill : fill ≠ 0) :
    lineRead (Memory.write m fill b) 0 = .ok f := by
  rw [lineRead, memory_read_write_ne _ _ hfill.symm, h0]

theorem filterOfByte_none {f : Byte} (h : 4 < f.toNat) : filterOfByte f = Option.none := by
  unfold filterOfByte
  generalize f.toNat = n at h
  obtain ⟨k, rfl⟩ : ∃ k, n = k + 5 := ⟨n - 5, by omega⟩
  rfl

/-- Settles O53: the word by `encodedI_of_formatI`, each case by its equation for `df_push`. -/
theorem gatherScanline : Obligations.GatherScanline := by
  refine ⟨encodedI_of_formatI (check := fun _ => true) (fun w h => by simp only [decode, h]) (by simp), ?_⟩
  rintro s d u hf rfl
  refine ⟨execDfByte_raises d hf, fun hv hr =>
    exec_dfByte_trap (c := .surplusData) hf (dfPush_surplus hv hr), fun hv hr =>
    ⟨fun hlt => ?_, fun f heq hs h0 h4 => ?_⟩⟩
  · refine ⟨s.blk.df.fill + 1#32, Memory.write s.blk.df.line s.blk.df.fill.toNat d, ?_, toNat_succ_of_lt hlt,
      fun a => memory_read_write _ _ _ _⟩
    rw [exec_dfByte_ok hf (dfPush_gather hv hr hlt), if_neg hr, BitVec.sub_self]
    rfl
  · have hfill : s.blk.df.fill.toNat ≠ 0 := by
      rw [heq]
      exact fun e => hs (BitVec.eq_of_toNat_eq e)
    refine ⟨Memory.write s.blk.df.line s.blk.df.fill.toNat d, exec_dfByte_trap (c := .filterType) hf ?_,
      fun a => memory_read_write _ _ _ _⟩
    exact (dfPush_last hv hr heq).trans (finishRow_trap (lineRead_first h0 hfill) (filterOfByte_none h4))

/-! ### The five filters -/

/-- The predictor of a filter-type byte, as R211 lists them by number. -/
theorem predictor_eq {ft : Byte} {f : Filter} (h : filterOfByte ft = some f) (a b c : Nat) :
    predictor f a b c =
      if ft.toNat = 0 then 0
      else if ft.toNat = 1 then a
      else if ft.toNat = 2 then b
      else if ft.toNat = 3 then (a + b) / 2
      else paeth a b c := by
  unfold filterOfByte at h
  split at h <;> cases h <;> simp [predictor, *]

theorem filterOfByte_some {ft : Byte} (h : ft.toNat ≤ 4) : ∃ f, filterOfByte ft = some f := by
  unfold filterOfByte
  generalize ft.toNat = n at h
  interval_cases n <;> exact ⟨_, rfl⟩

/-- Settles O55: R212 compares the distances of `a + b − c` from its three neighbours. -/
theorem paethTakesNearest : Obligations.PaethTakesNearest := by
  refine ⟨fun a b c => ?_, by decide⟩
  intro dist
  have ha : dist a = ((b : Int) - c).natAbs := by dsimp only [dist]; congr 1; omega
  have hb : dist b = ((a : Int) - c).natAbs := by dsimp only [dist]; congr 1; omega
  have hc : dist c = ((a : Int) + b - 2 * c).natAbs := by dsimp only [dist]; congr 1; omega
  have hpaeth : paeth a b c =
      if dist a ≤ dist b ∧ dist a ≤ dist c then a else if dist b ≤ dist c then b else c := by
    rw [ha, hb, hc]
    rfl
  rw [hpaeth]
  refine ⟨?_, ?_, ?_, ?_, ?_, ?_⟩ <;> split_ifs <;> omega

/-! ### A reconstructed row -/

/-- A neighbour as the rule reads it: the byte of `PIX` where there is one, and else 0 (R209, R210). -/
def IsNeighbour (pix : Memory) (present : Prop) [Decidable present] (a : Nat) (v : Byte) : Prop :=
  if present then Memory.read pix a = some v else v = 0#8

/-- Byte `i` of the row in hand stands in `pix`, reconstructed from its neighbours as they stand there (R209). -/
structure Reconstructed (f : Filter) (u : Defilt) (pix : Memory) (i : Nat) (x v a b c : Byte) : Prop where
  filtered : Memory.read u.line (1 + i) = some x
  stored : Memory.read pix (u.row.toNat * u.stride.toNat + i) = some v
  left : IsNeighbour pix (u.psize.toNat ≤ i) (u.row.toNat * u.stride.toNat + i - u.psize.toNat) a
  above : IsNeighbour pix (0 < u.row.toNat) (u.row.toNat * u.stride.toNat - u.stride.toNat + i) b
  aboveLeft : IsNeighbour pix (0 < u.row.toNat ∧ u.psize.toNat ≤ i)
    (u.row.toNat * u.stride.toNat - u.stride.toNat + i - u.psize.toNat) c
  value : v = reconValue f x a b c

section
variable {cap : Word} {f : Filter} {u : Defilt} {pix pix' : Memory} {i n : Nat}

theorem isNeighbour_of_neighbour {present : Prop} [Decidable present] {a : Nat} {v : Byte}
    (h : neighbour cap pix (decide present) a = .ok v) (hsame : present → Memory.read pix' a = Memory.read pix a) :
    IsNeighbour pix' present a v := by
  unfold IsNeighbour
  split_ifs with hp
  · rw [decide_eq_true hp] at h
    rw [hsame hp]
    exact (pixRead_ok.1 h).2
  · rw [decide_eq_false hp] at h
    exact (Except.ok.inj h).symm

/-- A turn of the row loop, as its byte and its neighbours stand in any later `PIX` (R209). -/
theorem reconByte_reconstructs {mid : Memory} (hp : 1 ≤ u.psize.toNat) (hi : i < u.stride.toNat)
    (h : reconByte cap f u i pix = .ok mid)
    (hlater : ∀ a < u.row.toNat * u.stride.toNat + (i + 1), Memory.read pix' a = Memory.read mid a) :
    ∃ x v a b c, Reconstructed f u pix' i x v a b c := by
  obtain ⟨-, x, a, b, c, hx, ha, hb, hc, rfl⟩ := reconByte_writes h
  have hbase : 0 < u.row.toNat → u.stride.toNat ≤ u.row.toNat * u.stride.toNat :=
    fun h => Nat.le_mul_of_pos_left _ h
  have hsame : ∀ k < u.row.toNat * u.stride.toNat + i, Memory.read pix' k = Memory.read pix k := fun k hk => by
    rw [hlater k (by omega), memory_read_write_ne _ _ (by omega)]
  rw [← Bool.decide_and] at hc
  exact ⟨x, _, a, b, c,
    { filtered := hx
      stored := by rw [hlater _ (by omega), memory_read_write_self]
      left := isNeighbour_of_neighbour ha fun _ => hsame _ (by omega)
      above := isNeighbour_of_neighbour hb fun h => hsame _ (by have := hbase h; omega)
      aboveLeft := isNeighbour_of_neighbour hc fun h => hsame _ (by have := hbase h.1; omega)
      value := rfl }⟩

/-- The row loop reconstructs every byte it goes over (R209). -/
theorem reconFrom_reconstructs (hp : 1 ≤ u.psize.toNat) (hn : i + n ≤ u.stride.toNat)
    (h : reconFrom cap f u n i pix = .ok pix') {j : Nat} (h1 : i ≤ j) (h2 : j < i + n) :
    ∃ x v a b c, Reconstructed f u pix' j x v a b c := by
  induction n generalizing i pix with
  | zero => omega
  | succ n ih =>
    rw [reconFrom] at h
    split at h
    · cases h
    next mid hmid =>
      obtain rfl | hlt := h1.eq_or_lt
      · exact reconByte_reconstructs hp (by omega) hmid fun a ha => (reconFrom_frame h).1 a (.inl ha)
      · exact ih (by omega) h hlt (by omega)

/-- `reconstruct_row` writes its row, and no other byte of `PIX` (R209, R213). -/
theorem reconRow_reconstructs (h : reconRow cap f u = .ok pix') (hp : 1 ≤ u.psize.toNat) :
    (∀ a, a < u.row.toNat * u.stride.toNat ∨ u.row.toNat * u.stride.toNat + u.stride.toNat ≤ a →
        Memory.read pix' a = Memory.read u.pix a) ∧
      ∀ i < u.stride.toNat, ∃ x v a b c, Reconstructed f u pix' i x v a b c :=
  ⟨(reconFrom_frame h).1, fun _ hi => reconFrom_reconstructs hp (Nat.zero_add _).le h (Nat.zero_le _) (by omega)⟩

end

/-- A row of a configuration in force has at least one byte (R204, R205). -/
theorem stride_pos {cap : Word} {u : Defilt} (hc : ConfigOk cap u) : 0 < u.stride.toNat := by
  have hw : 0 < u.width.toNat := Nat.pos_of_ne_zero fun e => hc.size.1 (BitVec.eq_of_toNat_eq e)
  have hb : 0 < u.bpp.toNat := by
    rw [hc.bpp]
    rcases formatAccepted_bpp hc.format with h | h | h | h | h <;> omega
  have := Nat.mul_pos hw hb
  rw [hc.stride]
  omega

/-- In a configuration in force a row that is not past the last is below `HEIGHT` (R28). -/
theorem row_lt_height {cap : Word} {u : Defilt} (hc : ConfigOk cap u) (hr : u.row ≠ u.height) :
    u.row.toNat < u.height.toNat :=
  lt_of_le_of_ne hc.row fun e => hr (BitVec.eq_of_toNat_eq e)

/-- The last byte of a scanline in a good state: its row is reconstructed, and no other (R208, R209, R213). -/
theorem dfPush_row {cap : Word} {u : Defilt} {f : Filter} {ft : Byte} (d : Byte) (hu : DefiltInv cap u)
    (hv : u.dfvalid = true) (hr : u.row ≠ u.height) (heq : u.fill = u.stride) (h0 : Memory.read u.line 0 = some ft)
    (hft : filterOfByte ft = some f) :
    ∃ pix, dfPush cap d u = .ok () { u with
        line := Memory.write u.line u.fill.toNat d, pix := pix, row := u.row + 1#32, fill := 0#32 } ∧
      (∀ a, a < u.row.toNat * u.stride.toNat ∨ u.row.toNat * u.stride.toNat + u.stride.toNat ≤ a →
        Memory.read pix a = Memory.read u.pix a) ∧
      ∀ i < u.stride.toNat, ∃ x v a b c,
        Reconstructed f { u with line := Memory.write u.line u.fill.toNat d } pix i x v a b c := by
  have hfill : u.fill.toNat ≠ 0 := by
    rw [heq]
    exact (stride_pos (hu.valid hv)).ne'
  have hpsize := configOk_psize (hu.valid hv)
  have hfirst := lineRead_first (b := d) h0 hfill
  have hmeets := dfPush_meets d hu
  have hpush := dfPush_last (cap := cap) (b := d) hv hr heq
  cases hrow : reconRow cap f { u with line := Memory.write u.line u.fill.toNat d } with
  | error e =>
    rw [hpush, finishRow_stop hfirst hft hrow] at hmeets
    exact hmeets.elim
  | ok pix =>
    obtain ⟨hframe, hbytes⟩ := reconRow_reconstructs hrow hpsize
    exact ⟨pix, hpush.trans (finishRow_ok hfirst hft hrow), hframe, hbytes⟩

/-- Settles O54, by `dfPush_row`. -/
theorem reconstructRow : Obligations.ReconstructRow := by
  rintro s d u f base hf rfl hu hv hr heq h0 h4 rfl
  obtain ⟨ft, hft, rfl⟩ := Option.map_eq_some_iff.1 h0
  obtain ⟨F, hF⟩ := filterOfByte_some h4
  obtain ⟨pix, hpush, hframe, hrow⟩ := dfPush_row d hu hv hr heq hft hF
  refine ⟨s.blk.df.row + 1#32, Memory.write s.blk.df.line s.blk.df.fill.toNat d, pix, ?_,
    toNat_succ_of_lt (row_lt_height (hu.valid hv) hr), fun a => memory_read_write _ _ _ _, hframe, fun i hi => ?_⟩
  · have hdone : s.blk.df.row + 1#32 - s.blk.df.row = 1#32 := by rw [BitVec.add_comm, BitVec.add_sub_cancel]
    rw [exec_dfByte_ok hf hpush]
    dsimp only
    rw [hdone]
    split_ifs <;> rfl
  · obtain ⟨x, v, a, b, c, h⟩ := hrow i hi
    refine ⟨x, v, a, b, c, h.filtered, h.stored, h.left, h.above, h.aboveLeft, ?_⟩
    rw [h.value, reconValue, BitVec.toNat_ofNat, predictor_eq hF]

/-! ### A whole filtered row -/

section
variable {cap : Word} {u : Defilt}

theorem pushAll_meets (bs : List Byte) (hu : DefiltInv cap u) :
    (pushAll cap bs u).Meets (fun _ v => DefiltInv cap v) (fun _ v => DefiltInv cap v) := by
  induction bs generalizing u with
  | nil => exact hu
  | cons b bs ih => exact meets_bind (dfPush_meets b hu) fun _ _ h => ih h

/-- Bytes that fit the scanline are gathered (R208). -/
theorem pushAll_gather {bs : List Byte} (hv : u.dfvalid = true) (hr : u.row ≠ u.height)
    (hle : u.fill.toNat + bs.length ≤ u.stride.toNat) :
    ∃ fill line, pushAll cap bs u = .ok () { u with fill := fill, line := line } ∧
      fill.toNat = u.fill.toNat + bs.length ∧
      (∀ a < u.fill.toNat, Memory.read line a = Memory.read u.line a) ∧
      ∀ k < bs.length, Memory.read line (u.fill.toNat + k) = bs[k]? := by
  induction bs generalizing u with
  | nil => exact ⟨u.fill, u.line, rfl, rfl, fun _ _ => rfl, fun k hk => absurd hk (Nat.not_lt_zero k)⟩
  | cons b bs ih =>
    rw [List.length_cons] at hle
    have hlt : u.fill.toNat < u.stride.toNat := by omega
    have hfill := toNat_succ_of_lt hlt
    obtain ⟨fill, line, hpush, hlen, hold, hnew⟩ := ih
      (u := { u with line := Memory.write u.line u.fill.toNat b, fill := u.fill + 1#32 }) hv hr
      (by simp only [hfill]; omega)
    simp only [hfill] at hlen hold hnew
    refine ⟨fill, line, by rw [pushAll_cons, dfPush_gather hv hr hlt, bind_ok, hpush],
      by rw [hlen, List.length_cons]; omega,
      fun a ha => by rw [hold a (by omega), memory_read_write_ne _ _ (by omega)], fun k hk => ?_⟩
    cases k with
    | zero => rw [hold _ (by omega), Nat.add_zero, memory_read_write_self]; rfl
    | succ k =>
      rw [List.length_cons] at hk
      have := hnew k (by omega)
      rwa [Nat.add_assoc, Nat.add_comm 1 k] at this

/-- A whole scanline, its filter type first (R200, R208). -/
theorem pushAll_row {f : Filter} {ft : Byte} {xs : List Byte} (hu : DefiltInv cap u) (hv : u.dfvalid = true)
    (hr : u.row ≠ u.height) (hfill : u.fill = 0#32) (hft : filterOfByte ft = some f)
    (hlen : xs.length = u.stride.toNat) :
    ∃ line pix, pushAll cap (ft :: xs) u =
        .ok () { u with line := line, pix := pix, row := u.row + 1#32, fill := 0#32 } ∧
      (∀ k < u.stride.toNat, Memory.read line (1 + k) = xs[k]?) ∧
      (∀ a < u.row.toNat * u.stride.toNat, Memory.read pix a = Memory.read u.pix a) ∧
      ∀ i < u.stride.toNat, ∃ x v a b c, Reconstructed f { u with line := line } pix i x v a b c := by
  have hpos := stride_pos (hu.valid hv)
  obtain ⟨ys, y, rfl⟩ : ∃ ys y, xs = ys ++ [y] :=
    ⟨xs.dropLast, xs.getLast (List.ne_nil_of_length_pos (by omega)), (List.dropLast_append_getLast _).symm⟩
  rw [List.length_append, List.length_singleton] at hlen
  obtain ⟨fill, line, hpush, hcount, -, hline⟩ := pushAll_gather (cap := cap) (bs := ft :: ys) hv hr
    (by rw [hfill, List.length_cons]; simp; omega)
  have hgood := pushAll_meets (ft :: ys) hu
  rw [hpush] at hgood
  rw [hfill] at hcount hline
  have hzero : (0#32 : Word).toNat = 0 := rfl
  simp only [hzero, Nat.zero_add, List.length_cons] at hcount hline
  have hfull : fill = u.stride := BitVec.eq_of_toNat_eq (by omega)
  obtain ⟨pix, hlast, hframe, hrow⟩ := dfPush_row (u := { u with fill := fill, line := line }) y hgood hv hr hfull
    (hline 0 (by omega)) hft
  refine ⟨Memory.write line fill.toNat y, pix, ?_, fun k hk => ?_, fun a ha => hframe a (.inl ha), fun i hi => ?_⟩
  · rw [← List.cons_append, pushAll_append, hpush, bind_ok, pushAll_cons, hlast]
    rfl
  · rw [memory_read_write]
    split_ifs with he
    · rw [List.getElem?_append_right (by omega), show k - ys.length = 0 by omega]
      rfl
    · rw [hline (1 + k) (by omega), List.getElem?_append_left (by omega), Nat.add_comm, List.getElem?_cons_succ]
  · obtain ⟨x, v, a, b, c, h⟩ := hrow i hi
    exact ⟨x, v, a, b, c, h.filtered, h.stored, h.left, h.above, h.aboveLeft, h.value⟩

end

/-- `df_push` of some bytes that runs is `DF_BYTE` of them (R206). -/
theorem execAll_of_pushAll {bs : List Byte} {s : State} {v : Defilt} (hf : s.blk.fault = 0#8)
    (h : pushAll s.pixcap bs s.blk.df = .ok () v) :
    ∃ t, execAll (bs.map .dfByte) s = .next t ∧ t.blk = { s.blk with df := v } := by
  induction bs generalizing s with
  | nil => cases h; exact ⟨s, rfl, rfl⟩
  | cons b bs ih =>
    rw [pushAll_cons] at h
    cases hb : dfPush s.pixcap b s.blk.df with
    | ok a w =>
      rw [hb, bind_ok] at h
      rw [List.map_cons, execAll_cons (exec_dfByte_ok hf hb)]
      exact ih hf h
    | trap c w => rw [hb] at h; cases h
    | stop e => rw [hb] at h; cases h

/-- The reconstruction of a filtered byte is the raw byte, as the sums are modulo 256 (R209, R212). -/
theorem reconValue_filtered (f : Filter) (raw a b c : Byte) :
    reconValue f (raw - BitVec.ofNat 8 (predictor f a.toNat b.toNat c.toNat)) a b c = raw := by
  rw [reconValue, BitVec.ofNat_add, BitVec.ofNat_toNat, BitVec.setWidth_eq, BitVec.sub_add_cancel]

/-- The row above the row in hand, 0 where there is none (R210). -/
def rowAbove (u : Defilt) : List Byte :=
  if u.row = 0#32 then List.replicate u.stride.toNat 0#8
  else (List.range u.stride.toNat).map fun i =>
    (Memory.read u.pix ((u.row.toNat - 1) * u.stride.toNat + i)).getD 0#8

/-- Byte `i` of a raw row, filtered: less the predictor of its raw neighbours, `p` bytes per pixel (R211). -/
def filteredByte (f : Filter) (p : Nat) (raw up : List Byte) (i : Nat) : Byte :=
  raw.getD i 0#8 - BitVec.ofNat 8 (predictor f
    (if p ≤ i then (raw.getD (i - p) 0#8).toNat else 0)
    (up.getD i 0#8).toNat
    (if p ≤ i then (up.getD (i - p) 0#8).toNat else 0))

section
variable {u : Defilt} {pix : Memory} {k : Nat}
  (habove : ∀ a < u.row.toNat * u.stride.toNat, Memory.read pix a = Memory.read u.pix a)
include habove

/-- The neighbour above is the byte of the row above (R209, R210). -/
theorem above_eq {b : Byte} (hk : k < u.stride.toNat)
    (h : IsNeighbour pix (0 < u.row.toNat) (u.row.toNat * u.stride.toNat - u.stride.toNat + k) b) :
    (rowAbove u).getD k 0#8 = b := by
  unfold IsNeighbour at h
  unfold rowAbove
  by_cases h0 : u.row = 0#32
  · rw [if_neg (by rw [h0]; decide)] at h
    rw [if_pos h0, h, List.getD_replicate _ hk]
  · have hpos : 0 < u.row.toNat := Nat.pos_of_ne_zero fun e => h0 (BitVec.eq_of_toNat_eq e)
    have hbase : u.stride.toNat ≤ u.row.toNat * u.stride.toNat := Nat.le_mul_of_pos_left _ hpos
    rw [if_pos hpos, habove _ (by omega)] at h
    rw [if_neg h0, List.getD_eq_getElem?_getD, List.getElem?_map, List.getElem?_range hk, Option.map_some,
      Nat.sub_mul, Nat.one_mul, h]
    rfl

variable {f : Filter} {p : Nat} {raw : List Byte} (hp : p = u.psize.toNat) (h1 : 1 ≤ p)
  (hlen : raw.length = u.stride.toNat)
include hp h1 hlen

/-- A row of filtered bytes is reconstructed as the raw row, from left to right (R209, R211). -/
theorem reconstructed_raw
    (hrow : ∀ i < u.stride.toNat, ∃ x v a b c, Reconstructed f u pix i x v a b c ∧
      x = filteredByte f p raw (rowAbove u) i) {i : Nat} (hi : i < u.stride.toNat) :
    Memory.read pix (u.row.toNat * u.stride.toNat + i) = raw[i]? := by
  induction i using Nat.strong_induction_on with
  | _ i ih =>
    obtain ⟨x, v, a, b, c, h, hx⟩ := hrow i hi
    have hleft : (if p ≤ i then (raw.getD (i - p) 0#8).toNat else 0) = a.toNat := by
      have hl := h.left
      rw [IsNeighbour, ← hp] at hl
      split_ifs at hl ⊢ with hpi
      · rw [Nat.add_sub_assoc hpi, ih (i - p) (by omega) (by omega)] at hl
        rw [List.getD_eq_getElem?_getD, hl]
        rfl
      · rw [hl]
        rfl
    have habove' := above_eq habove hi h.above
    have hcorner : (if p ≤ i then ((rowAbove u).getD (i - p) 0#8).toNat else 0) = c.toNat := by
      have hc := h.aboveLeft
      rw [IsNeighbour, ← hp] at hc
      by_cases hpi : p ≤ i
      · rw [if_pos hpi, above_eq (k := i - p) (b := c) habove (by omega)]
        rw [IsNeighbour]
        simpa only [hpi, and_true, Nat.add_sub_assoc hpi] using hc
      · rw [if_neg fun e => hpi e.2] at hc
        rw [if_neg hpi, hc]
        rfl
    rw [filteredByte, hleft, habove', hcorner] at hx
    have hv := h.value
    rw [hx, reconValue_filtered] at hv
    rw [h.stored, hv, List.getD_eq_getElem _ _ (by omega), List.getElem?_eq_getElem (by omega)]

end

/-- Settles O56: the scanline is gathered and its row reconstructed by `pushAll_row`, to the raw bytes by
`reconstructed_raw`. -/
theorem defilterUndoesFilter : Obligations.DefilterUndoesFilter := by
  rintro s f ft raw up stride p hf hu hv hr hfill hft rfl hp hlen hup
  obtain rfl : up = rowAbove s.blk.df := hup
  obtain ⟨line, pix, hpush, hline, habove, hrow⟩ := pushAll_row hu hv hr hfill hft
    (xs := (List.range s.blk.df.stride.toNat).map (filteredByte f p raw (rowAbove s.blk.df)))
    (by rw [List.length_map, List.length_range])
  obtain ⟨t, ht, hblk⟩ := execAll_of_pushAll hf hpush
  refine ⟨t, ht, by rw [hblk]; exact hf, by rw [hblk], by rw [hblk], fun i hi => ?_⟩
  rw [hblk]
  refine reconstructed_raw (u := { s.blk.df with line := line }) (f := f) habove hp
    (by rw [hp]; exact configOk_psize (hu.valid hv)) hlen (fun k hk => ?_) hi
  obtain ⟨x, v, a, b, c, h⟩ := hrow k hk
  have hx := h.filtered
  rw [hline k hk, List.getElem?_map, List.getElem?_range hk, Option.map_some] at hx
  exact ⟨x, v, a, b, c, h, (Option.some.inj hx).symm⟩

/-! ### Finished rows -/

/-- The rows finished in `u` still stand in `v` (R213). -/
structure KeepsRows (u v : Defilt) : Prop where
  row : u.row.toNat ≤ v.row.toNat
  stride : v.stride = u.stride
  pix : ∀ a < u.row.toNat * u.stride.toNat, Memory.read v.pix a = Memory.read u.pix a

section
variable {cap : Word} {u v w : Defilt} {b : Byte}

theorem keepsRows_refl (u : Defilt) : KeepsRows u u := ⟨le_rfl, rfl, fun _ _ => rfl⟩

theorem KeepsRows.trans (h : KeepsRows u v) (h' : KeepsRows v w) : KeepsRows u w where
  row := h.row.trans h'.row
  stride := h'.stride.trans h.stride
  pix a ha := by
    have hle : u.row.toNat * u.stride.toNat ≤ v.row.toNat * v.stride.toNat := by
      rw [h.stride]
      exact Nat.mul_le_mul_right _ h.row
    rw [h'.pix a (ha.trans_le hle), h.pix a ha]

/-- The end of a scanline writes its own row alone. -/
theorem finishRow_keepsRows (hlt : u.row.toNat < u.height.toNat) : (finishRow cap u).Leaves (KeepsRows u) := by
  unfold finishRow
  split
  · trivial
  · split
    · exact keepsRows_refl u
    next f _ =>
      cases hrow : reconRow cap f u with
      | error e => trivial
      | ok pix => exact ⟨by simp only [toNat_succ_of_lt hlt]; omega, rfl,
          fun a ha => (reconFrom_frame hrow).1 a (.inl ha)⟩

theorem dfPush_keepsRows (b : Byte) (hu : DefiltInv cap u) : (dfPush cap b u).Leaves (KeepsRows u) := by
  rcases dfPush_cases (cap := cap) (b := b) (u := u) rfl with
    ⟨-, e⟩ | ⟨-, -, e⟩ | ⟨-, -, -, e⟩ | ⟨-, -, -, e⟩ | ⟨hv, hr, -, e⟩
  · rw [e]; exact keepsRows_refl u
  · rw [e]; exact keepsRows_refl u
  · rw [e]; trivial
  · rw [e]; exact ⟨le_rfl, rfl, fun _ _ => rfl⟩
  · have hlt := row_lt_height (hu.valid hv) hr
    rw [e]
    exact leaves_imp (finishRow_keepsRows hlt) fun _ h => ⟨h.row, h.stride, h.pix⟩

theorem pushAll_keepsRows (bs : List Byte) (hu : DefiltInv cap u) : (pushAll cap bs u).Leaves (KeepsRows u) := by
  induction bs generalizing u with
  | nil => exact keepsRows_refl u
  | cons b bs ih =>
    have hgood := dfPush_meets b hu
    have hkeeps := dfPush_keepsRows b hu
    rw [pushAll_cons]
    cases hb : dfPush cap b u with
    | ok a v =>
      rw [hb] at hgood hkeeps
      exact leaves_imp (ih hgood) fun _ => hkeeps.trans
    | trap c v =>
      rw [hb] at hkeeps
      exact hkeeps
    | stop e => trivial

theorem dfByteBody_keepsRows (b : Byte) (hu : DefiltInv cap u) : (dfByteBody cap b u).Leaves (KeepsRows u) :=
  leaves_bind (dfPush_keepsRows b hu) (fun _ h => h) fun _ _ h => h

end

/-- An `IN_BYTE` writes the defilter through `df_push` alone, and so keeps the finished rows (R148, R213). -/
theorem exec_inByte_keepsRows {s t : State} {d : Byte} (hs : Inv s) (h : exec (.inByte d) s = .next t) :
    KeepsRows s.blk.df t.blk.df := by
  by_cases hf : s.blk.fault = 0#8
  · obtain ⟨bs, hbs, -⟩ := exec_inByte_emits hf hs.blk.ranges.win h
    cases hr : s.blk.infl.route with
    | false =>
      rw [(hbs.toOut hr).2]
      exact keepsRows_refl _
    | true =>
      have hkeeps := pushAll_keepsRows bs hs.blk.defilt
      obtain ⟨-, hall | ⟨pre, b, u, c, rfl, hpre, hb, -⟩⟩ := hbs.toDefilt hr
      · rwa [hall] at hkeeps
      · unfold Takes at hpre
        rwa [pushAll_append, hpre, bind_ok, pushAll_cons, hb, bind_trap] at hkeeps
  · cases (command_faulted _ hf).symm.trans h
    exact keepsRows_refl _

/-- Every command but `DF_CONFIG` and `BLK_RESET`: those of other units leave the defilter as it was. -/
theorem exec_keepsRows {i : Instr} {s t : State} (hs : Inv s) (hconfig : i ≠ .dfConfig) (hreset : i ≠ .blkReset)
    (h : exec i s = .next t) : KeepsRows s.blk.df t.blk.df := by
  have hw := commandsWriteOnlyTheirUnit i s t h
  cases i with
  | dfConfig => exact absurd rfl hconfig
  | blkReset => exact absurd rfl hreset
  | inByte d => exact exec_inByte_keepsRows hs h
  | dfByte d =>
    obtain ⟨v, hv, e⟩ := command_within h (dfByteBody_keepsRows d hs.blk.defilt) rfl rfl (keepsRows_refl _)
    rw [e]
    exact hv
  | dfHdrb d =>
    dsimp only at hw
    rw [hw]
    exact ⟨le_rfl, rfl, fun _ _ => rfl⟩
  | nop | stRead | paShift | pixRd | htSel | htBegin | htCnt | htSym | hdReset | hdBit | crcReset | crcByte | crcExpb
  | crcRead | crcCheck | inReset | inRoute =>
    dsimp only at hw
    rw [hw]
    exact keepsRows_refl _

/-- Settles O57, by `exec_keepsRows`. -/
theorem finishedRowsStay : Obligations.FinishedRowsStay := by
  intro i s t hs hconfig hreset h
  have hkeeps := exec_keepsRows hs hconfig hreset h
  exact ⟨hkeeps.row, hkeeps.stride, hkeeps.pix⟩

/-! ### One run, two routes

With `ROUTE = 0` no byte is refused, so that run says which bytes there are; the run with `ROUTE = 1` is the same
run up to the first of them that the defilter refuses. -/

/-- The pipe with another `ROUTE`, trace and defilter. -/
def Pipe.sink (r : Bool) (o : List Byte) (d : Defilt) (p : Pipe) : Pipe :=
  { infl := { p.infl with route := r }, out := o, df := d }

/-- At `p` the piece neither reads nor writes `ROUTE`, `OUT` and the defilter. -/
def Oblivious {α : Type} (F : Pipe → Res Pipe α) (p : Pipe) : Prop :=
  ∀ r o d, F (p.sink r o d) = (F p).within (Pipe.sink r o d)

/-- The piece emits `bs` from `p` and ends as `R` does, whatever the route, unless the defilter refuses a byte: then
it ends at that byte, with the fault of the defilter (R148, R277). -/
structure Splits {α : Type} (cap : Word) (F : Pipe → Res Pipe α) (p : Pipe) (bs : List Byte) (R : Res Pipe α) :
    Prop where
  toOut : ∀ o d, F (p.sink false o d) = R.within (Pipe.sink false (o ++ bs) d)
  toDefilt : ∀ o d u, pushAll cap bs d = .ok () u → F (p.sink true o d) = R.within (Pipe.sink true o u)
  refused : ∀ o d pre b post u c v, bs = pre ++ b :: post → pushAll cap pre d = .ok () u →
    dfPush cap b u = .trap c v →
    ∃ i : Infl, Recorded (pre ++ [b]) p.infl i ∧
      F (p.sink true o d) = .trap c { infl := { i with route := true }, out := o, df := v }

section
variable {α : Type} {cap : Word} {p q : Pipe} (r : Bool) (o : List Byte) (d : Defilt) (i : Infl) (k : Nat)

@[simp] theorem sink_infl : (p.sink r o d).infl = { p.infl with route := r } := rfl
@[simp] theorem takeValue_withRoute : takeValue k { i with route := r } = takeValue k i := rfl

/-- An alternative of two values that both come by `f`. The two conditions need only be equal by definition, as they
are where one reads a register of `p.sink r o d` and the other the same register of `p`. -/
theorem ite_eq_apply {σ τ : Type} {c : Prop} [Decidable c] (f : σ → τ) {x y : σ} {x' y' : τ} (hx : x' = f x)
    (hy : y' = f y) : (if c then x' else y') = f (if c then x else y) := by
  rw [hx, hy, apply_ite f]

/-- An alternative of two outcomes of a piece, with another `ROUTE`, trace and defilter. -/
theorem ite_eq_within {r : Bool} {o : List Byte} {d : Defilt} {c : Prop} [Decidable c] {x y x' y' : Res Pipe α}
    (hx : x' = x.within (Pipe.sink r o d)) (hy : y' = y.within (Pipe.sink r o d)) :
    (if c then x' else y') = (if c then x else y).within (Pipe.sink r o d) :=
  ite_eq_apply (Res.within (Pipe.sink r o d)) hx hy

theorem oblivious_bind {β : Type} {F : Pipe → Res Pipe α} {G : α → Pipe → Res Pipe β} (hF : Oblivious F p)
    (hG : ∀ a q, Oblivious (G a) q) : Oblivious (fun p => (F p).bind G) p := by
  intro r o d
  dsimp only
  rw [hF r o d]
  cases F p with
  | ok a q => exact hG a q r o d
  | trap c q => rfl
  | stop e => rfl

theorem blockEnd_sink (p : Pipe) : blockEnd (p.sink r o d) = (blockEnd p).sink r o d :=
  ite_eq_apply (Pipe.sink r o d) rfl rfl

theorem hstep_oblivious {w : Nat} (tab : Table w) (maxlen : Nat) (p : Pipe) : Oblivious (hstep tab maxlen) p := by
  intro r o d
  have hlook : lookupStep tab maxlen (p.sink r o d).infl.hn.toNat (p.sink r o d).infl.hcand.toNat
      (takeValue 1 (p.sink r o d).infl) =
    lookupStep tab maxlen p.infl.hn.toNat p.infl.hcand.toNat (takeValue 1 p.infl) := rfl
  unfold hstep
  rw [hlook]
  dsimp only
  split <;> rfl

theorem stepZhCmf_oblivious (p : Pipe) : Oblivious stepZhCmf p := fun _ _ _ => ite_eq_within rfl rfl

theorem stepZhFlg_oblivious (p : Pipe) : Oblivious stepZhFlg p := fun _ _ _ => ite_eq_within rfl (ite_eq_within rfl rfl)

theorem stepBlkHdr_oblivious (p : Pipe) : Oblivious stepBlkHdr p := by
  intro r o d
  obtain ⟨lt, dt, hlt, hdt⟩ := fixedTables_exist
  refine ite_eq_within rfl (ite_eq_within ?_ (ite_eq_within rfl rfl))
  rw [hlt, hdt]
  rfl

theorem stepStLen_oblivious (p : Pipe) : Oblivious stepStLen p := fun r o d =>
  ite_eq_within rfl
    (congrArg (Res.ok ()) (ite_eq_apply (Pipe.sink r o d) (blockEnd_sink r o d
      (p.setInfl { dropBits 32 p.infl with rem := BitVec.ofNat 16 (takeValue 16 p.infl) })) rfl))

theorem stepDynHdr_oblivious (p : Pipe) : Oblivious stepDynHdr p := fun _ _ _ => ite_eq_within rfl rfl

theorem stepDynClen_oblivious (p : Pipe) : Oblivious stepDynClen p := by
  intro r o d
  unfold stepDynClen
  dsimp only [sink_infl]
  split
  · rfl
  · refine ite_eq_within ?_ rfl
    simp only [setInfl_infl, takeValue_withRoute]
    split <;> rfl

theorem lensDone_oblivious (p : Pipe) : Oblivious lensDone p := by
  intro r o d
  have hlens : (p.sink r o d).infl.lens = p.infl.lens := rfl
  have hlit : (p.sink r o d).infl.hlit = p.infl.hlit := rfl
  unfold lensDone
  refine ite_eq_within ?_ rfl
  rw [hlens, hlit]
  dsimp only
  split
  · rfl
  · split_ifs
    · rfl
    · split
      · rfl
      · split <;> rfl

theorem stepDynLens_oblivious (p : Pipe) : Oblivious stepDynLens p := by
  intro r o d
  refine oblivious_bind (hstep_oblivious p.infl.ct 7 p) (fun a q r o d => ?_) r o d
  cases a with
  | none => rfl
  | some s =>
    exact ite_eq_within
      (lensDone_oblivious (q.setInfl { q.infl with lens := q.infl.lens ++ [BitVec.ofNat 4 s.toNat] }) r o d)
      (ite_eq_within rfl rfl)

theorem stepDynRep_oblivious (p : Pipe) : Oblivious stepDynRep p := by
  intro r o d
  have hrun : repeatRun (p.sink r o d).infl = repeatRun p.infl := rfl
  unfold stepDynRep
  rw [hrun]
  dsimp only
  split
  · rfl
  next v n _ =>
    exact ite_eq_within rfl (lensDone_oblivious
      ((p.setInfl { dropBits (repeatBits p.infl.repsym) p.infl with
        lens := p.infl.lens ++ List.replicate n v }).goto .dynLens) r o d)

theorem stepLenExtra_oblivious (p : Pipe) : Oblivious stepLenExtra p := fun _ _ _ => rfl

theorem stepDistSym_oblivious (p : Pipe) : Oblivious stepDistSym p := by
  intro r o d
  refine oblivious_bind (hstep_oblivious p.infl.dt 15 p) (fun a q r o d => ?_) r o d
  cases a with
  | none => rfl
  | some s =>
    dsimp only
    split_ifs <;> rfl

theorem stepTrailer_oblivious (p : Pipe) : Oblivious stepTrailer p := fun _ _ _ => ite_eq_within rfl rfl

end

section
variable {α : Type} {cap : Word} {p q : Pipe} {bs bs' : List Byte} {F : Pipe → Res Pipe Unit}
  {G : Pipe → Res Pipe α}

theorem splits_congr {F G : Pipe → Res Pipe α} {R : Res Pipe α} (h : ∀ r o d, F (p.sink r o d) = G (p.sink r o d))
    (hG : Splits cap G p bs R) : Splits cap F p bs R where
  toOut o d := (h _ _ _).trans (hG.toOut o d)
  toDefilt o d u hu := (h _ _ _).trans (hG.toDefilt o d u hu)
  refused o d pre b post u c v hbs hpre hb := by
    obtain ⟨i, hi, hG⟩ := hG.refused o d pre b post u c v hbs hpre hb
    exact ⟨i, hi, (h _ _ _).trans hG⟩

/-- A piece that does not look at `ROUTE` emits nothing. -/
theorem splits_silent {R : Res Pipe α} (h : ∀ r o d, G (p.sink r o d) = R.within (Pipe.sink r o d)) :
    Splits cap G p [] R where
  toOut o d := by rw [h, List.append_nil]
  toDefilt o d u hu := by cases hu; exact h _ _ _
  refused _ _ _ _ _ _ _ _ hbs := by simp at hbs

theorem recordAll_withRoute (r : Bool) (i : Infl) :
    recordAll bs { i with route := r } = { recordAll bs i with route := r } := by
  induction bs generalizing i with
  | nil => rfl
  | cons b bs ih => exact ih (recordByte b i)

/-- A piece that emits `bs` between two writes to the engine (R148). -/
theorem splits_emitAll {g : Pipe → Pipe} (hq : Recorded [] p.infl q.infl)
    (hg : ∀ r o d x, g (x.sink r o d) = (g x).sink r o d)
    (hF : ∀ r o d, F (p.sink r o d) = (emitAll cap bs (q.sink r o d)).bind fun _ x => .ok () (g x)) :
    Splits cap F p bs (.ok () (g { q with infl := recordAll bs q.infl })) where
  toOut o d := by
    rw [hF, emitAll_toOut rfl, bind_ok, sink_infl, recordAll_withRoute, within_ok, ← hg]
    rfl
  toDefilt o d u hu := by
    rw [hF, emitAll_toDefilt rfl hu, bind_ok, sink_infl, recordAll_withRoute, within_ok, ← hg]
    rfl
  refused o d pre b post u c v hbs hpre hb := by
    have hrec := recorded_recordAll (pre ++ [b]) (recorded_win_length hq)
    refine ⟨recordAll (pre ++ [b]) q.infl, recorded_trans (xs := []) hq hrec, ?_⟩
    subst hbs
    rw [hF, emitAll_refused rfl hpre hb, bind_trap, sink_infl, recordAll_withRoute]
    rfl

/-- A piece after which nothing more is emitted. -/
theorem splits_bind_oblivious {R : Res Pipe Unit} (hF : Splits cap F p bs R)
    (hG : ∀ q, R = .ok () q → Oblivious G q) :
    Splits cap (fun p => (F p).bind fun _ q => G q) p bs (R.bind fun _ q => G q) := by
  have hbind : ∀ r o d, ((R.within (Pipe.sink r o d)).bind fun _ q => G q) =
      (R.bind fun _ q => G q).within (Pipe.sink r o d) := by
    intro r o d
    cases R with
    | ok a q => exact hG q rfl r o d
    | trap c q => rfl
    | stop e => rfl
  exact
    { toOut := fun o d => by rw [hF.toOut, hbind]
      toDefilt := fun o d u hu => by rw [hF.toDefilt o d u hu, hbind]
      refused := fun o d pre b post u c v hbs hpre hb => by
        obtain ⟨i, hi, hF⟩ := hF.refused o d pre b post u c v hbs hpre hb
        exact ⟨i, hi, by rw [hF, bind_trap]⟩ }

/-- The defilter takes a list when it takes the two parts, one after the other. -/
theorem pushAll_append_ok {d u : Defilt} (h : pushAll cap (bs ++ bs') d = .ok () u) :
    ∃ w, pushAll cap bs d = .ok () w ∧ pushAll cap bs' w = .ok () u := by
  rw [pushAll_append] at h
  cases hw : pushAll cap bs d with
  | ok a w => rw [hw] at h; exact ⟨w, rfl, h⟩
  | trap c w => rw [hw] at h; cases h
  | stop e => rw [hw] at h; cases h

theorem splits_bind {R : Res Pipe α} (hF : Splits cap F p bs (.ok () q)) (hrec : Recorded bs p.infl q.infl)
    (hG : Splits cap G q bs' R) : Splits cap (fun p => (F p).bind fun _ q => G q) p (bs ++ bs') R where
  toOut o d := by rw [hF.toOut, within_ok, bind_ok, hG.toOut, List.append_assoc]
  toDefilt o d u hu := by
    obtain ⟨w, hw, hu⟩ := pushAll_append_ok hu
    rw [hF.toDefilt o d w hw, within_ok, bind_ok, hG.toDefilt o w u hu]
  refused o d pre b post u c v hbs hpre hb := by
    have hsecond : ∀ xs, pre = bs ++ xs → bs' = xs ++ b :: post → ∃ i : Infl, Recorded (pre ++ [b]) p.infl i ∧
        (F (p.sink true o d)).bind (fun _ q => G q) =
          .trap c { infl := { i with route := true }, out := o, df := v } := by
      rintro xs rfl hxs
      obtain ⟨w, hw, hpre⟩ := pushAll_append_ok hpre
      obtain ⟨i, hi, hG⟩ := hG.refused o w xs b post u c v hxs hpre hb
      refine ⟨i, by rw [List.append_assoc]; exact recorded_trans hrec hi, ?_⟩
      rw [hF.toDefilt o d w hw, within_ok, bind_ok, hG]
    obtain ⟨xs, hpre', hxs⟩ | ⟨ys, hys, hpost⟩ := List.append_eq_append_iff.1 hbs
    · exact hsecond xs hpre' hxs
    · cases ys with
      | nil => exact hsecond [] (by rw [hys, List.append_nil, List.append_nil]) hpost.symm
      | cons y ys =>
        obtain ⟨rfl, -⟩ := List.cons.inj hpost
        obtain ⟨i, hi, hF⟩ := hF.refused o d pre b ys u c v hys hpre hb
        exact ⟨i, hi, by rw [hF, bind_trap]⟩

end

/-- The end of a turn of `ST_COPY`, once its byte is emitted (R155). -/
def storedByteDone (q : Pipe) : Pipe :=
  if q.infl.rem - 1#16 = 0#16 then blockEnd (q.setInfl { q.infl with rem := q.infl.rem - 1#16 })
  else q.setInfl { q.infl with rem := q.infl.rem - 1#16 }

section
variable {cap : Word} {p : Pipe} (hw : p.infl.win.length ≤ 32768)
include hw

theorem stepStCopy_splits : ∃ bs R, Splits cap (stepStCopy cap) p bs R := by
  refine ⟨[BitVec.ofNat 8 (takeValue 8 p.infl)], _, splits_emitAll (q := p.setInfl (dropBits 8 p.infl))
    (g := storedByteDone) (recorded_nil hw rfl rfl rfl rfl) (fun r o d x => ?_) fun r o d => ?_⟩
  · exact ite_eq_apply (Pipe.sink r o d)
      (blockEnd_sink r o d (x.setInfl { x.infl with rem := x.infl.rem - 1#16 })) rfl
  · rw [emitAll_singleton]
    rfl

theorem stepSym_splits : ∃ bs R, Splits cap (stepSym cap) p bs R := by
  have hbit : ∀ r o d, hstep (p.sink r o d).infl.lt 15 (p.sink r o d) =
    (hstep p.infl.lt 15 p).within (Pipe.sink r o d) := hstep_oblivious p.infl.lt 15 p
  have hleaves := hstep_leaves p.infl.lt 15 p
  cases hr : hstep p.infl.lt 15 p with
  | ok a q =>
    rw [hr] at hbit hleaves
    obtain ⟨n, c, hq⟩ := hleaves
    cases a with
    | none => exact ⟨[], .ok () q, splits_silent fun r o d => by rw [stepSym, hbit]; rfl⟩
    | some s =>
      by_cases hlit : s.toNat < 256
      · exact ⟨[BitVec.ofNat 8 s.toNat], _, splits_emitAll (q := q) (g := id)
          (by rw [hq]; exact recorded_nil hw rfl rfl rfl rfl) (fun _ _ _ _ => rfl) fun r o d => by
            rw [stepSym, hbit, emitAll_singleton]
            exact (if_pos hlit).trans (bind_complete _).symm⟩
      · refine ⟨[], stepSym cap p, splits_silent fun r o d => ?_⟩
        rw [stepSym, hbit, stepSym, hr, within_ok, bind_ok, bind_ok]
        dsimp only
        split_ifs
        · exact congrArg (Res.ok ()) (blockEnd_sink r o d q)
        · rfl
        · rfl
  | trap c q => exact ⟨[], .trap c q, splits_silent fun r o d => by rw [stepSym, hbit, hr]; rfl⟩
  | stop e => exact ⟨[], .stop e, splits_silent fun r o d => by rw [stepSym, hbit, hr]; rfl⟩

theorem stepDistExtra_splits : ∃ bs R, Splits cap (stepDistExtra cap) p bs R := by
  have hdist := (distance_range p.infl.dsym (takeValue_lt dExt[p.infl.dsym] p.infl)).1
  by_cases hfar : p.infl.win.length < dBase[p.infl.dsym] + takeValue dExt[p.infl.dsym] p.infl
  · exact ⟨[], .trap .distTooFar (p.setInfl (dropBits dExt[p.infl.dsym] p.infl)),
      splits_silent fun r o d => if_pos hfar⟩
  · refine ⟨matchBytes p.infl.win (dBase[p.infl.dsym] + takeValue dExt[p.infl.dsym] p.infl) p.infl.length.toNat, _,
      splits_emitAll (q := p.setInfl (dropBits dExt[p.infl.dsym] p.infl)) (g := fun q => q.goto .sym)
      (recorded_nil hw rfl rfl rfl rfl) (fun _ _ _ _ => rfl) fun r o d => (if_neg hfar).trans ?_⟩
    exact congrArg (Res.bind · _) (copyMatch_eq_emitAll _ hdist (not_lt.1 hfar))

omit hw in
/-- A transition that does not look at `ROUTE`, as its parser state selects it. -/
theorem transition_silent {F : Pipe → Res Pipe Unit}
    (ht : ∀ r o d, transition cap (p.sink r o d) = F (p.sink r o d)) (hF : Oblivious F p) :
    ∃ bs R, Splits cap (transition cap) p bs R :=
  ⟨[], F p, splits_silent fun r o d => (ht r o d).trans (hF r o d)⟩

theorem transition_splits : ∃ bs R, Splits cap (transition cap) p bs R := by
  cases hs : p.infl.instate with
  | zhCmf => exact transition_silent (fun _ _ _ => transition_zhCmf hs) (stepZhCmf_oblivious p)
  | zhFlg => exact transition_silent (fun _ _ _ => transition_zhFlg hs) (stepZhFlg_oblivious p)
  | blkHdr => exact transition_silent (fun _ _ _ => transition_blkHdr hs) (stepBlkHdr_oblivious p)
  | stLen => exact transition_silent (fun _ _ _ => transition_stLen hs) (stepStLen_oblivious p)
  | stCopy =>
    obtain ⟨bs, R, h⟩ := stepStCopy_splits (cap := cap) hw
    exact ⟨bs, R, splits_congr (fun _ _ _ => transition_stCopy hs) h⟩
  | dynHdr => exact transition_silent (fun _ _ _ => transition_dynHdr hs) (stepDynHdr_oblivious p)
  | dynClen => exact transition_silent (fun _ _ _ => transition_dynClen hs) (stepDynClen_oblivious p)
  | dynLens => exact transition_silent (fun _ _ _ => transition_dynLens hs) (stepDynLens_oblivious p)
  | dynRep => exact transition_silent (fun _ _ _ => transition_dynRep hs) (stepDynRep_oblivious p)
  | sym =>
    obtain ⟨bs, R, h⟩ := stepSym_splits (cap := cap) hw
    exact ⟨bs, R, splits_congr (fun _ _ _ => transition_sym hs) h⟩
  | lenExtra => exact transition_silent (fun _ _ _ => transition_lenExtra hs) (stepLenExtra_oblivious p)
  | distSym => exact transition_silent (fun _ _ _ => transition_distSym hs) (stepDistSym_oblivious p)
  | distExtra =>
    obtain ⟨bs, R, h⟩ := stepDistExtra_splits (cap := cap) hw
    exact ⟨bs, R, splits_congr (fun _ _ _ => transition_distExtra hs) h⟩
  | trailer => exact transition_silent (fun _ _ _ => transition_trailer hs) (stepTrailer_oblivious p)
  | done => exact ⟨[], .ok () p, splits_silent fun r o d => by rw [transition, sink_infl]; simp only [hs]; rfl⟩

/-- What a transition records is what it emits (R148). -/
theorem recorded_of_splits {bs : List Byte} {q : Pipe} (hp : canProceed p.infl = true)
    (h : Splits cap (transition cap) p bs (.ok () q)) : Recorded bs p.infl q.infl := by
  have hemit : Emission cap (p.sink false [] p.df) (transition cap (p.sink false [] p.df)) :=
    transition_emission hw hp
  rw [h.toOut] at hemit
  obtain ⟨xs, hxs, -⟩ := hemit
  obtain ⟨hout, -⟩ := hxs.toOut rfl
  obtain rfl : bs = xs := hout
  exact ⟨hxs.recorded.win, hxs.recorded.total, hxs.recorded.adler⟩

/-- A run, as the chain of its transitions (R146). -/
theorem run_splits (n : Nat) : ∃ bs R, Splits cap (run cap n) p bs R := by
  induction n generalizing p with
  | zero => exact ⟨[], .stop .runBound, splits_silent fun _ _ _ => rfl⟩
  | succ n ih =>
    by_cases hp : canProceed p.infl = true
    · have hrun : ∀ {bs R}, Splits cap (fun p => (transition cap p).bind fun _ q => run cap n q) p bs R →
          Splits cap (run cap (n + 1)) p bs R := splits_congr fun _ _ _ => if_pos hp
      obtain ⟨bs, R, h⟩ := transition_splits (cap := cap) hw
      cases R with
      | ok a q =>
        have hrec := recorded_of_splits hw hp h
        obtain ⟨bs', R', h'⟩ := ih (recorded_win_length hrec)
        exact ⟨bs ++ bs', R', hrun (splits_bind h hrec h')⟩
      | trap c q => exact ⟨bs, _, hrun (splits_bind_oblivious (G := run cap n) h fun _ he => nomatch he)⟩
      | stop e => exact ⟨bs, _, hrun (splits_bind_oblivious (G := run cap n) h fun _ he => nomatch he)⟩
    · exact ⟨[], .ok () p, splits_silent fun _ _ _ => if_neg hp⟩

theorem inByteBody_splits (d : Byte) : ∃ bs R, Splits cap (inByteBody cap d) p bs R := by
  by_cases hd : p.infl.instate = .done
  · exact ⟨[], .trap .afterDone p, splits_silent fun _ _ _ => if_pos hd⟩
  · obtain ⟨bs, R, h⟩ := run_splits (cap := cap) (p := feedByte d p) hw (runTurns (feedByte d p).infl)
    have hbody := splits_bind_oblivious (G := fun q => .ok (rspOk (inByteData p.infl q.infl)) q) h
      fun _ _ _ _ _ => rfl
    exact ⟨bs, _,
      { toOut := fun o df => (if_neg hd).trans (hbody.toOut o df)
        toDefilt := fun o df u hu => (if_neg hd).trans (hbody.toDefilt o df u hu)
        refused := fun o df pre b post u c v hbs hpre hb => by
          obtain ⟨i, hi, h⟩ := hbody.refused o df pre b post u c v hbs hpre hb
          exact ⟨i, recorded_of_fed hi, (if_neg hd).trans h⟩ }⟩

end

/-- Settles O50: both commands run the same body, and `inByteBody_splits` says how it ends on either route; the
bytes sent with `DF_BYTE` are those of `df_push` by `pushAll_of_execAll`. -/
theorem routedBytesAreDefilterBytes : Obligations.RoutedBytesAreDefilterBytes := by
  intro s t d bs hs hf hroute h hout
  obtain ⟨bs', R, hsplit⟩ := inByteBody_splits (cap := s.pixcap) (p := s.blk.pipe) hs.blk.ranges.win d
  have hinfl : { s.blk.infl with route := true } = s.blk.infl := by rw [← hroute]
  have hpipe : s.blk.pipe = s.blk.pipe.sink true s.blk.out s.blk.df := by rw [Pipe.sink, Block.pipe, hinfl]
  have hexec := exec_inByte_pipe d hf
  have h0 := h
  rw [exec_inByte_pipe d (by exact hf)] at h0
  change finish _ ((inByteBody s.pixcap d (s.blk.pipe.sink false s.blk.out s.blk.df)).within _) = _ at h0
  rw [hpipe] at hexec
  rw [hsplit.toOut] at h0
  have hbs : bs = bs' := by
    cases R with
    | ok r q => cases h0; exact (List.append_cancel_left hout).symm
    | trap c q => cases h0; exact (List.append_cancel_left hout).symm
    | stop e => cases h0
  subst hbs
  refine ⟨fun u hu hfu => ?_, fun pre post b u v hbs hu hfu hv hfv => ?_⟩
  · obtain ⟨-, -, hpush⟩ := pushAll_of_execAll hu hfu
    rw [hexec, hsplit.toDefilt _ _ _ hpush]
    cases R with
    | ok r q => cases h0; rfl
    | trap c q => cases h0; rfl
    | stop e => cases h0
  · obtain ⟨-, hcap, hpre⟩ := pushAll_of_execAll hu hfu
    obtain ⟨-, ⟨-, hok⟩ | ⟨c, hb, hfault, hfsub⟩⟩ := dfPush_of_exec hfu hv
    · exact absurd hok hfv
    · rw [hcap] at hb
      obtain ⟨i, hi, htrap⟩ := hsplit.refused s.blk.out s.blk.df pre b post _ c _ hbs hpre hb
      refine ⟨{ i with route := true }, ⟨hi.win, hi.total, hi.adler⟩, rfl, ?_⟩
      rw [hexec, htrap, hfault, hfsub, ← takeFault_eq_raised]
      rfl

end Sys2Proof.Machine

/-! ## The proofs: the system commands (44_system.md)

`NOP` and `BLK_RESET` in every state; what no other command does to the fault and to `OUT`; the pixel address and
the bytes read at it. -/

namespace Sys2Proof.Machine

open Sys2Proof.Safety

/-- Settles O15: the words by `encodedZ_of_formatZ`; the command does not look at the block. -/
theorem nopChangesNothing : Obligations.NopChangesNothing :=
  ⟨encodedZ_of_formatZ fun w h => by simp only [decode, h], fun _ => rfl⟩

/-! ### The trace `OUT` only grows -/

/-- `OUT` in `q` is that of `p` with bytes appended. -/
def OutGrows (p q : Pipe) : Prop := ∃ bs, q.out = p.out ++ bs

section
variable {α β : Type} {p q : Pipe}

theorem outGrows_of_eq (h : q.out = p.out) : OutGrows p q := ⟨[], by rw [h, List.append_nil]⟩

theorem OutGrows.trans {r : Pipe} (h : OutGrows p q) (h' : OutGrows q r) : OutGrows p r := by
  obtain ⟨bs, hbs⟩ := h
  obtain ⟨bs', hbs'⟩ := h'
  exact ⟨bs ++ bs', by rw [hbs', hbs, List.append_assoc]⟩

theorem outGrows_bind {r : Res Pipe α} {f : α → Pipe → Res Pipe β} (h : r.Leaves (OutGrows p))
    (hf : ∀ a q, (f a q).Leaves (OutGrows q)) : (r.bind f).Leaves (OutGrows p) :=
  leaves_bind h (fun _ hq => hq) fun a q hq => leaves_imp (hf a q) fun _ => hq.trans

/-- A piece that does not look at `OUT` puts back the one it found. -/
theorem outGrows_of_oblivious {F : Pipe → Res Pipe α} (hF : Oblivious F p) : (F p).Leaves (OutGrows p) := by
  have hsink : F p = (F p).within (Pipe.sink p.infl.route p.out p.df) := hF _ _ _
  rw [hsink]
  exact leaves_within (leaves_true _) fun _ _ => outGrows_of_eq rfl

end

section
variable (cap : Word) (p : Pipe)

theorem blockEnd_outGrows : OutGrows p (blockEnd p) := outGrows_of_eq (congrArg (·.out) (blockEnd_silent p))

theorem emit_outGrows (b : Byte) : (emit cap b p).Leaves (OutGrows p) := by
  unfold emit
  dsimp only
  split_ifs
  · exact leaves_within (leaves_true _) fun _ _ => outGrows_of_eq rfl
  · exact ⟨[b], rfl⟩

theorem copyMatch_outGrows (dist n : Nat) : (copyMatch cap dist n p).Leaves (OutGrows p) := by
  induction n generalizing p with
  | zero => exact outGrows_of_eq rfl
  | succ n ih =>
    unfold copyMatch
    split
    · trivial
    · exact outGrows_bind (emit_outGrows cap p _) fun _ q => ih q

theorem storedByteDone_outGrows : OutGrows p (storedByteDone p) := by
  unfold storedByteDone
  split_ifs
  · exact blockEnd_outGrows (p.setInfl { p.infl with rem := p.infl.rem - 1#16 })
  · exact outGrows_of_eq rfl

theorem stepStCopy_outGrows : (stepStCopy cap p).Leaves (OutGrows p) :=
  outGrows_bind (emit_outGrows cap (p.setInfl (dropBits 8 p.infl)) _) fun _ q => storedByteDone_outGrows q

theorem stepSym_outGrows : (stepSym cap p).Leaves (OutGrows p) := by
  refine outGrows_bind (outGrows_of_oblivious (hstep_oblivious p.infl.lt 15 p)) fun r q => ?_
  cases r with
  | none => exact outGrows_of_eq rfl
  | some s =>
    dsimp only
    generalize s.toNat - 257 = k
    split_ifs
    · exact emit_outGrows cap q _
    · exact blockEnd_outGrows q
    · exact outGrows_of_eq rfl
    · exact outGrows_of_eq rfl

theorem stepDistExtra_outGrows : (stepDistExtra cap p).Leaves (OutGrows p) := by
  unfold stepDistExtra
  dsimp only
  split_ifs
  · exact outGrows_of_eq rfl
  · exact outGrows_bind (copyMatch_outGrows cap (p.setInfl (dropBits dExt[p.infl.dsym] p.infl)) _ _)
      fun _ _ => outGrows_of_eq rfl

/-- Of the transitions only the three that emit write `OUT` (R146, R148). -/
theorem transition_outGrows : (transition cap p).Leaves (OutGrows p) := by
  unfold transition
  cases p.infl.instate with
  | stCopy => exact stepStCopy_outGrows cap p
  | sym => exact stepSym_outGrows cap p
  | distExtra => exact stepDistExtra_outGrows cap p
  | zhCmf => exact outGrows_of_oblivious (stepZhCmf_oblivious p)
  | zhFlg => exact outGrows_of_oblivious (stepZhFlg_oblivious p)
  | blkHdr => exact outGrows_of_oblivious (stepBlkHdr_oblivious p)
  | stLen => exact outGrows_of_oblivious (stepStLen_oblivious p)
  | dynHdr => exact outGrows_of_oblivious (stepDynHdr_oblivious p)
  | dynClen => exact outGrows_of_oblivious (stepDynClen_oblivious p)
  | dynLens => exact outGrows_of_oblivious (stepDynLens_oblivious p)
  | dynRep => exact outGrows_of_oblivious (stepDynRep_oblivious p)
  | lenExtra => exact outGrows_of_oblivious (stepLenExtra_oblivious p)
  | distSym => exact outGrows_of_oblivious (stepDistSym_oblivious p)
  | trailer => exact outGrows_of_oblivious (stepTrailer_oblivious p)
  | done => exact outGrows_of_eq rfl

theorem run_outGrows (n : Nat) : (run cap n p).Leaves (OutGrows p) := by
  induction n generalizing p with
  | zero => trivial
  | succ n ih =>
    unfold run
    split_ifs
    · exact outGrows_bind (transition_outGrows cap p) fun _ q => ih q
    · exact outGrows_of_eq rfl

theorem inByteBody_outGrows (d : Byte) : (inByteBody cap d p).Leaves (OutGrows p) := by
  unfold inByteBody
  split_ifs
  · exact outGrows_of_eq rfl
  · exact outGrows_bind (run_outGrows cap (feedByte d p) _) fun _ _ => outGrows_of_eq rfl

end

/-! ### What `BLK_RESET` alone does -/

section
variable {i : Instr} {s t : State}

/-- `IN_BYTE` appends to `OUT` what it emits; the other commands leave it (R148). -/
theorem exec_out (hi : i ≠ .blkReset) (h : exec i s = .next t) :
    ∃ bs, t.blk.out = s.blk.out ++ bs := by
  have hw := commandsWriteOnlyTheirUnit i s t h
  cases i with
  | blkReset => exact absurd rfl hi
  | inByte d =>
    obtain ⟨q, hq, e⟩ := command_within (put := s.blk.setPipe) h (inByteBody_outGrows s.pixcap s.blk.pipe d) rfl rfl
      (outGrows_of_eq rfl)
    rw [e]
    exact hq
  | nop | stRead | paShift | pixRd | htSel | htBegin | htCnt | htSym | hdReset | hdBit | crcReset | crcByte | crcExpb
  | crcRead | crcCheck | inReset | inRoute | dfHdrb | dfConfig | dfByte =>
    dsimp only at hw
    exact ⟨[], by rw [hw, List.append_nil]⟩

/-- In a faulted block `NOP` and `ST_READ` change nothing and the others are refused (R265). -/
theorem exec_blk_of_faulted (hi : i ≠ .blkReset) (hf : s.blk.fault ≠ 0#8) (h : exec i s = .next t) :
    t.blk = s.blk := by
  cases i with
  | blkReset => exact absurd rfl hi
  | nop => cases h; rfl
  | stRead sel =>
    simp only [exec, execStRead] at h
    split at h
    · cases h; rfl
    · cases (command_faulted _ hf).symm.trans h; rfl
  | paShift | htSel | hdBit | inRoute =>
    simp only [exec, execPaShift, execHtSel, execHdBit, execInRoute] at h
    cases (command_faulted _ hf).symm.trans h
    rfl
  | pixRd | htBegin | htCnt | htSym | hdReset | crcReset | crcByte | crcExpb | crcRead | crcCheck | inReset | inByte
  | dfHdrb | dfConfig | dfByte =>
    cases (command_faulted _ hf).symm.trans h
    rfl

end

/-- Settles O16: the words by `encodedZ_of_formatZ`, the fault by `exec_blk_of_faulted`, `OUT` by `exec_out`. -/
theorem blockReset : Obligations.BlockReset := by
  refine ⟨encodedZ_of_formatZ fun w h => by simp only [decode, h], fun _ => rfl,
    fun s t rest hin h => blk_of_reset (.inr (.inr ⟨s, rest, hin, h⟩)), fun i s t hi h => ⟨fun hf => ?_, exec_out hi h⟩⟩
  rwa [exec_blk_of_faulted hi hf h]

/-! ### The pixel address -/

theorem exec_paShift {s : State} (hf : s.blk.fault = 0#8) (d : Byte) :
    exec (.paShift d) s = .next (answered (rspOk (shiftInByte s.blk.pixa d))
      { s.blk with pixa := shiftInByte s.blk.pixa d } s) :=
  command_runs (fun b => .ok (rspOk (shiftInByte b.pixa d)) { b with pixa := shiftInByte b.pixa d }) hf

/-- Settles O18: the words by `encodedI_of_formatI`, one shift by `shiftInByte_toNat`, four of them by
`foldl_shiftInByte_four`. -/
theorem pixelAddressShift : Obligations.PixelAddressShift := by
  refine ⟨encodedI_of_formatI (check := fun _ => true) (fun w h => by simp only [decode, h]) (by simp),
    fun s d hf => ⟨_, shiftInByte_toNat _ d, exec_paShift hf d⟩, fun s d3 d2 d1 d0 hf => ?_⟩
  obtain ⟨t, ht, hblk⟩ := execAll_register (i := .paShift) (g := shiftInByte)
    (put := fun a => { s.blk with pixa := a }) [d3, d2, d1, d0] rfl
    fun u a d hu => ⟨_, by rw [exec_paShift (by rw [hu]; exact hf), hu]⟩
  rw [foldl_shiftInByte_four] at hblk
  refine ⟨t, ht, by rw [hblk], ?_⟩
  rw [hblk]
  simp only [toNat_append_fields]
  omega

/-! ### Reading the pixels -/

/-- The rows reconstructed lie inside the pixel memory (R205). -/
theorem rows_le_cap {cap : Word} {u : Defilt} (hc : ConfigOk cap u) :
    u.row.toNat * u.stride.toNat ≤ cap.toNat := by
  have hrow := Nat.mul_le_mul_left u.stride.toNat hc.row
  rw [Nat.mul_comm]
  exact hrow.trans hc.fits

theorem pixReadable_iff (b : Block) :
    pixReadable b = true ↔ b.df.dfvalid = true ∧ b.pixa.toNat < b.df.row.toNat * b.df.stride.toNat := by
  rw [pixReadable, Bool.and_eq_true, decide_eq_true_eq]

section
variable {s : State} (hf : s.blk.fault = 0#8) (hd : DefiltInv s.pixcap s.blk.df)
include hf hd

/-- `PIX_RD` of a byte of the rows reconstructed (R244). -/
theorem exec_pixRd_reads (hr : pixReadable s.blk = true) :
    ∃ v, Memory.read s.blk.df.pix s.blk.pixa.toNat = some v ∧
      exec .pixRd s = .next (answered (rspOk (BitVec.ofNat 32 v.toNat))
        { s.blk with pixa := s.blk.pixa + 1#32 } s) := by
  obtain ⟨_, _, ⟨-, rfl, v, hv, rfl⟩, h⟩ | ⟨_, _, ⟨hr', -, -⟩, -⟩ := command_meets hf (pixRd_meets hd)
  · exact ⟨v, hv, by rw [BitVec.ofNat_toNat]; exact h⟩
  · exact absurd (hr.symm.trans hr') (by decide)

/-- Successive `PIX_RD` inside the rows reconstructed, each from the address the one before left (R244). -/
theorem execAll_pixRd {n : Nat} (hv : s.blk.df.dfvalid = true)
    (hn : s.blk.pixa.toNat + n ≤ s.blk.df.row.toNat * s.blk.df.stride.toNat) :
    ∃ (t : State) (vs : List Byte), execAll (List.replicate n .pixRd) s = .next t ∧ vs.length = n ∧
      (∀ k < n, Memory.read s.blk.df.pix (s.blk.pixa.toNat + k) = vs[k]?) ∧
      t.responses = s.responses ++ vs.map (fun v => rspOk (BitVec.ofNat 32 v.toNat)) ∧
      t.blk = { s.blk with pixa := s.blk.pixa + BitVec.ofNat 32 n } := by
  induction n generalizing s with
  | zero => exact ⟨s, [], rfl, rfl, fun k hk => absurd hk k.not_lt_zero, (List.append_nil _).symm, by simp⟩
  | succ n ih =>
    have hlt : s.blk.pixa.toNat < s.blk.df.row.toNat * s.blk.df.stride.toNat := by omega
    have hnext : (s.blk.pixa + 1#32).toNat = s.blk.pixa.toNat + 1 :=
      toNat_succ_of_lt (hlt.trans_le (rows_le_cap (hd.valid hv)))
    have hn' : (s.blk.pixa + 1#32).toNat + n ≤ s.blk.df.row.toNat * s.blk.df.stride.toNat := by omega
    obtain ⟨v, hread, hexec⟩ := exec_pixRd_reads hf hd ((pixReadable_iff _).2 ⟨hv, hlt⟩)
    obtain ⟨t, vs, hall, hlen, hreads, hresp, hblk⟩ := ih (s := answered (rspOk (BitVec.ofNat 32 v.toNat))
      { s.blk with pixa := s.blk.pixa + 1#32 } s) hf hd hv hn'
    refine ⟨t, v :: vs, ?_, congrArg (· + 1) hlen, fun k hk => ?_, ?_, ?_⟩
    · rw [List.replicate_succ, execAll_cons hexec, hall]
    · cases k with
      | zero => exact hread
      | succ k =>
        have hk' : Memory.read s.blk.df.pix ((s.blk.pixa + 1#32).toNat + k) = vs[k]? := hreads k (by omega)
        rwa [hnext, Nat.add_assoc, Nat.add_comm 1] at hk'
    · rw [hresp, List.map_cons]
      exact List.append_assoc ..
    · have hsum : s.blk.pixa + 1#32 + BitVec.ofNat 32 n = s.blk.pixa + BitVec.ofNat 32 (n + 1) := by
        rw [BitVec.add_assoc, BitVec.ofNat_add, BitVec.add_comm (1#32)]
      rw [hblk, ← hsum]
      rfl

end

/-- Settles O19: the word by `encodedZ_of_formatZ`, the two cases by the precondition of R244. -/
theorem pixelRead : Obligations.PixelRead := by
  refine ⟨encodedZ_of_formatZ fun w h => by simp only [decode, h],
    fun s hf => ⟨fun hd hv hlt => ?_, fun hout => ?_⟩⟩
  · obtain ⟨v, hread, hexec⟩ := exec_pixRd_reads hf hd ((pixReadable_iff _).2 ⟨hv, hlt⟩)
    exact ⟨v, _, hread, BitVec.toNat_add .., hexec⟩
  · refine execPixRd_raises hf (Bool.eq_false_iff.2 fun hr => ?_)
    obtain ⟨hv, hlt⟩ := (pixReadable_iff _).1 hr
    obtain hv' | hge := hout
    · exact absurd (hv.symm.trans hv') (by decide)
    · omega

/-- Settles O20, by `execAll_pixRd`. -/
theorem pixelsStreamInOrder : Obligations.PixelsStreamInOrder :=
  fun _ _ hf hd hv hn => execAll_pixRd hf hd hv hn

end Sys2Proof.Machine

/-! ## The proofs: exceptions (60_exceptions.md)

The pairs of the fault registers, what a faulted block answers, how the faulted state is left, and the commands
that fault with nothing else changed. -/

namespace Sys2Proof.Machine

open Sys2Proof.Safety Sys2Proof.Laws.EncodesFields

/-! ### The conditions and their pairs -/

/-- The conditions of R262, row by row. -/
def conditions : List Trap :=
  [.huffMiss, .zlibHeader, .blockType, .storedLen, .overSubscribed, .repeatNoPrevious, .repeatPastEnd, .litLenSymbol,
    .distSymbol, .distTooFar, .inflMiss, .afterDone, .filterType, .surplusData, .dynCounts, .noEndOfBlock,
    .crcMismatch, .adlerMismatch, .depth16, .grayAlpha, .compression, .filterMethod, .interlace, .pixelFormat,
    .presetDictionary, .zeroDimension, .imageTooLarge, .unknownOpcode, .nonzeroImm, .operandRange, .selectBusy,
    .countPhase, .symbolPhase, .tableNotReady, .headerFull, .headerShort, .notConfigured, .pixelRange]

/-- The condition with a given fault pair, if there is one. -/
def conditionOfPair (cause sub : Byte) : Option Trap :=
  conditions.find? fun t => decide (t.cause = cause) && decide (t.sub = sub)

/-- Reading a condition back from its pair. -/
theorem conditionOfPair_pair (t : Trap) : conditionOfPair t.cause t.sub = some t := by
  cases t <;> rfl

theorem eq_of_pair_eq {a b : Trap} (hcause : a.cause = b.cause) (hsub : a.sub = b.sub) : a = b := by
  have h := conditionOfPair_pair a
  rw [hcause, hsub, conditionOfPair_pair b] at h
  exact (Option.some.inj h).symm

/-- Settles O12: the rows by evaluation, the rest because a condition can be read back from its pair. -/
theorem faultPairIdentifiesCondition : Obligations.FaultPairIdentifiesCondition :=
  ⟨by decide, fun _ _ => eq_of_pair_eq⟩

/-! ### What a faulted block answers -/

/-- The data of a `FAULT` response of a block that was faulted before (R78). -/
theorem rspFault_true (fault sub : Byte) :
    rspFault true fault sub = rsp 0xF#4 (BitVec.ofNat 32 (fault.toNat + 256 * sub.toNat + 2 ^ 16)) := by
  rw [rspFault, ← BitVec.ofNat_toNat, toNat_append_fields, toNat_append_fields, BitVec.toNat_ofBool, Bool.toNat_true]
  exact congrArg (fun data => rsp 0xF#4 (BitVec.ofNat 32 data)) (by omega)

theorem refuse_eq_answered (s : State) :
    refuse s =
      answered (rsp 0xF#4 (BitVec.ofNat 32 (s.blk.fault.toNat + 256 * s.blk.fsub.toNat + 2 ^ 16))) s.blk s := by
  rw [← rspFault_true]
  rfl

/-- The command is refused in a faulted block: all but `NOP`, `BLK_RESET` and `ST_READ` (R265). -/
def Refused (i : Instr) : Prop := i ≠ .nop ∧ i ≠ .blkReset ∧ ∀ sel, i ≠ .stRead sel

theorem exec_refused {i : Instr} {s : State} (hi : Refused i) (hf : s.blk.fault ≠ 0#8) :
    exec i s = .next (refuse s) := by
  obtain ⟨hnop, hreset, hread⟩ := hi
  cases i with
  | nop => exact absurd rfl hnop
  | blkReset => exact absurd rfl hreset
  | stRead sel => exact absurd rfl (hread sel)
  | paShift | htSel | hdBit | inRoute =>
    simp only [exec, execPaShift, execHtSel, execHdBit, execInRoute]
    exact command_faulted _ hf
  | pixRd | htBegin | htCnt | htSym | hdReset | crcReset | crcByte | crcExpb | crcRead | crcCheck | inReset | inByte
  | dfHdrb | dfConfig | dfByte => exact command_faulted _ hf

theorem decode_stRead : ∀ sel ∈ statusSelectors,
    decode (BitVec.ofNat 16 (0x0200 + sel)) = .ok (.stRead (BitVec.ofNat 8 sel)) := by decide

theorem statusView_selector (b : Block) : ∀ sel ∈ statusSelectors,
    ∃ v, statusView b (BitVec.ofNat 8 sel) = some v := by
  simp [statusSelectors, statusView]

/-- A legal `ST_READ` has one of the words that name a register. -/
theorem encode_stRead {sel : Byte} (h : (Instr.stRead sel).wellFormed = true) :
    sel.toNat ∈ statusSelectors ∧ encode (.stRead sel) = BitVec.ofNat 16 (0x0200 + sel.toNat) := by
  refine ⟨List.contains_iff_mem.1 h, BitVec.eq_of_toNat_eq ?_⟩
  have hlt := sel.isLt
  rw [encode_toNat, BitVec.toNat_ofNat]
  simp only [opcode, operand]
  omega

/-- A command whose word is in none of the first three rows of R265's table. -/
theorem refused_of_decode {w : CmdWord} {i : Instr} (hd : decode w = .ok i) (hnop : w ≠ 0x0000#16)
    (hreset : w ≠ 0x0100#16) (hread : ∀ sel ∈ statusSelectors, w ≠ BitVec.ofNat 16 (0x0200 + sel)) : Refused i := by
  obtain ⟨hwf, rfl⟩ := encode_of_decode hd
  refine ⟨?_, ?_, ?_⟩
  · rintro rfl
    exact hnop rfl
  · rintro rfl
    exact hreset rfl
  · rintro sel rfl
    obtain ⟨hmem, henc⟩ := encode_stRead hwf
    exact hread _ hmem henc

/-- Settles O9: the accepted words by their commands; the others are illegal or commands that are refused. -/
theorem faultedBlockAnswers : Obligations.FaultedBlockAnswers := by
  intro s w rest hin hf
  refine ⟨?nop, ?reset, fun sel hsel => ?read, fun hnop hreset hread => ?refused⟩
  case nop =>
    rintro rfl
    exact step_command (i := .nop) hin rfl
  case reset =>
    rintro rfl
    exact step_command (i := .blkReset) hin rfl
  case read =>
    rintro rfl
    obtain ⟨v, hv⟩ := statusView_selector s.blk sel hsel
    exact ⟨v, hv, (step_command hin (decode_stRead sel hsel)).trans (execStRead_view hv rfl)⟩
  case refused =>
    have hstep : step s = .next (refuse { s with inputs := rest }) := by
      cases hd : decode w with
      | ok i => exact (step_command hin hd).trans (exec_refused (refused_of_decode hd hnop hreset hread) hf)
      | error e => exact (step_illegal hin hd).trans (command_faulted _ hf)
    rw [hstep, refuse_eq_answered]

/-! ### Leaving the faulted state -/

/-- Settles O10: a command other than `BLK_RESET` leaves a faulted block by `exec_blk_of_faulted`, an illegal word
is refused, and the two resets do not look at the block. -/
theorem faultLeftOnlyByReset : Obligations.FaultLeftOnlyByReset := by
  refine fun s hf => ⟨fun t h => ?_, fun rest hin => ?_⟩
  · cases hin : s.inputs with
    | nil => cases (step_idle hin).symm.trans h; exact .inl rfl
    | cons input rest =>
      cases input with
      | powerOn => cases (step_powerOn hin).symm.trans h; exact .inr ⟨rfl, rest, .inr rfl⟩
      | command w =>
        cases hd : decode w with
        | error e => cases ((step_illegal hin hd).trans (command_faulted _ hf)).symm.trans h; exact .inl rfl
        | ok i =>
          rw [step_command hin hd] at h
          by_cases hi : i = .blkReset
          · subst hi
            obtain ⟨-, rfl⟩ := encode_of_decode hd
            cases h
            exact .inr ⟨rfl, rest, .inl rfl⟩
          · exact .inl (exec_blk_of_faulted (s := { s with inputs := rest }) hi hf h)
  · obtain hin | hin := hin
    · exact ⟨_, step_command (i := .blkReset) hin rfl, rfl⟩
    · exact ⟨_, step_powerOn hin, rfl⟩

/-! ### Every step keeps the fault pair in the table -/

section
variable {s t : State} {body : Block → Res Block Rsp}

/-- A command writes the fault pair only by raising a condition (R264), so its body must leave it alone. -/
theorem command_faultPair (h : command s body = .next t) (hs : FaultPair s.blk)
    (hb : (body s.blk).Leaves FaultPair) : FaultPair t.blk := by
  rcases command_next h with ⟨-, rfl⟩ | ⟨-, r, b, e, rfl⟩ | ⟨-, c, b, -, rfl⟩
  · exact hs
  · rwa [e] at hb
  · exact .inr ⟨c, rfl, rfl⟩

/-- A piece that works on a unit does not write the fault pair. -/
theorem faultPair_within {σ : Type} (r : Res σ Rsp) {put : σ → Block} (h : ∀ u, FaultPair (put u)) :
    (r.within put).Leaves FaultPair :=
  leaves_within (leaves_true r) fun u _ => h u

theorem exec_faultPair {i : Instr} (hs : FaultPair s.blk) (h : exec i s = .next t) : FaultPair t.blk := by
  cases i with
  | nop => cases h; exact hs
  | blkReset => cases h; exact .inl ⟨rfl, rfl⟩
  | stRead sel =>
    simp only [exec, execStRead] at h
    split at h
    · cases h; exact hs
    · exact command_faultPair h hs hs
  | paShift d =>
    simp only [exec, execPaShift] at h
    exact command_faultPair h hs hs
  | pixRd =>
    refine command_faultPair h hs (leaves_imp (pixRdBody_leaves _ _) fun c hc => ?_)
    rw [hc]
    exact hs
  | htSel x | hdBit x | inRoute x =>
    simp only [exec, execHtSel, execHdBit, execInRoute] at h
    refine command_faultPair h hs ?_
    split
    · exact faultPair_within _ fun _ => hs
    · exact hs
  | htBegin | htCnt | htSym | hdReset | crcReset | crcByte | crcExpb | crcRead | crcCheck | inReset | inByte | dfHdrb
  | dfConfig | dfByte => exact command_faultPair h hs (faultPair_within _ fun _ => hs)

end

/-- Settles O11: each input, and no input. -/
theorem faultPairKept : Obligations.FaultPairKept := by
  intro s t hs h
  cases hin : s.inputs with
  | nil => cases (step_idle hin).symm.trans h; exact hs
  | cons input rest =>
    cases input with
    | powerOn => cases (step_powerOn hin).symm.trans h; exact .inl ⟨rfl, rfl⟩
    | command w =>
      cases hd : decode w with
      | ok i => exact exec_faultPair (s := { s with inputs := rest }) hs ((step_command hin hd).symm.trans h)
      | error e =>
        exact command_faultPair (s := { s with inputs := rest }) ((step_illegal hin hd).symm.trans h) hs hs

/-! ### Commands that fault with nothing else changed -/

/-- Where a piece raises a fault, it has not changed the `s` it began with (R277). -/
def Res.RaisesAt {σ α : Type} (r : Res σ α) (s : σ) : Prop :=
  match r with
  | .ok _ _ => True
  | .trap _ u => u = s
  | .stop _ => True

theorem raisesAt_within {σ τ α : Type} {r : Res σ α} {s : σ} {put : σ → τ} (h : r.RaisesAt s) :
    (r.within put).RaisesAt (put s) := by
  cases r with
  | ok a u => trivial
  | trap t u => exact congrArg put h
  | stop e => trivial

section
variable (h : Huff)

theorem htSelBody_raisesAt (t : Fin 8) : (htSelBody t h).RaisesAt h := by
  unfold htSelBody
  split_ifs
  · trivial
  · exact rfl

theorem htCntBody_raisesAt (n : Byte) : (htCntBody n h).RaisesAt h := by
  unfold htCntBody
  dsimp only
  split_ifs
  · split <;> trivial
  · trivial
  · trivial
  · exact rfl

theorem htSymBody_raisesAt (p : Byte) : (htSymBody p h).RaisesAt h := by
  unfold htSymBody
  dsimp only
  split_ifs
  · split <;> trivial
  · trivial
  · exact rfl

theorem hdBitBody_raisesAt (b : Bool) : (hdBitBody b h).RaisesAt h := by
  unfold hdBitBody
  split_ifs
  · split
    · trivial
    · trivial
    · exact rfl
  · exact rfl

end

theorem crcCheckBody_raisesAt (c : Crc) : (crcCheckBody c).RaisesAt c := by
  unfold crcCheckBody
  split_ifs
  · trivial
  · exact rfl

theorem dfHdrbBody_raisesAt (d : Byte) (u : Defilt) : (dfHdrbBody d u).RaisesAt u := by
  unfold dfHdrbBody
  split_ifs
  · trivial
  · exact rfl

/-- `DF_CONFIG` makes all its checks before it writes (R202). -/
theorem dfConfigBody_raisesAt (cap : Word) (u : Defilt) : (dfConfigBody cap u).RaisesAt u := by
  unfold dfConfigBody
  split_ifs
  · split
    · exact rfl
    · split
      · exact rfl
      · trivial
  · exact rfl

theorem pixRdBody_raisesAt (cap : Word) (b : Block) : (pixRdBody cap b).RaisesAt b := by
  unfold pixRdBody
  split_ifs
  · split <;> trivial
  · exact rfl

section
variable {s t : State} {body : Block → Res Block Rsp}

/-- If the block has a fault after the command and had none before, the command raised it with nothing else
changed. -/
def FaultsClean (s t : State) : Prop :=
  s.blk.fault = 0#8 → t.blk.fault ≠ 0#8 → t = raised t.blk.fault.toNat t.blk.fsub.toNat s

theorem faultsClean_raised (c : Trap) : FaultsClean s (raised c.cause.toNat c.sub.toNat s) := by
  intro _ _
  simp only [raised, answered, respond_blk, BitVec.ofNat_toNat, BitVec.setWidth_eq]

/-- A command that completes without a fault, or raises one before it writes anything. -/
theorem command_faultsClean (h : command s body = .next t) (hok : CompletesIn s.blk (body s.blk))
    (hraise : (body s.blk).RaisesAt s.blk) : FaultsClean s t := by
  intro hf
  rcases command_next h with ⟨hne, -⟩ | ⟨-, r, b, e, rfl⟩ | ⟨-, c, b, e, -⟩
  · exact absurd hf hne
  · rw [e] at hok
    obtain ⟨-, hfault⟩ := hok
    exact absurd (hfault.trans hf)
  · rw [e] at hraise
    obtain rfl := hraise
    cases (command_raises hf e).symm.trans h
    exact faultsClean_raised c hf

theorem command_trap_faultsClean {c : Trap} (h : command s (fun b => .trap c b) = .next t) : FaultsClean s t :=
  command_faultsClean h trivial rfl

theorem command_huff_faultsClean {f : Huff → Res Huff Rsp} (h : command s (onHuff f) = .next t)
    (hok : (f s.blk.huff).Answers) (hraise : (f s.blk.huff).RaisesAt s.blk.huff) : FaultsClean s t :=
  command_faultsClean h (onHuff_completes hok) (raisesAt_within hraise)

theorem command_defilt_faultsClean {f : Defilt → Res Defilt Rsp} (h : command s (onDefilt f) = .next t)
    (hok : (f s.blk.df).Answers) (hraise : (f s.blk.df).RaisesAt s.blk.df) : FaultsClean s t :=
  command_faultsClean h (onDefilt_completes hok) (raisesAt_within hraise)

theorem stRead_faultsClean {sel : Byte} (h : exec (.stRead sel) s = .next t) : FaultsClean s t := by
  simp only [exec, execStRead] at h
  split at h
  · cases h
    exact fun hf hne => absurd hf hne
  · exact command_trap_faultsClean h

theorem htSel_faultsClean {x : Byte} (h : exec (.htSel x) s = .next t) : FaultsClean s t := by
  cases hx : slotOperand x with
  | some slot =>
    exact command_huff_faultsClean ((exec_htSel hx).symm.trans h) (htSelBody_answers _ slot) (htSelBody_raisesAt _ slot)
  | none =>
    simp only [exec, execHtSel, hx] at h
    exact command_trap_faultsClean h

theorem hdBit_faultsClean {x : Byte} (h : exec (.hdBit x) s = .next t) : FaultsClean s t := by
  cases hx : bitOperand x with
  | some bit =>
    exact command_huff_faultsClean ((exec_hdBit hx).symm.trans h) (hdBitBody_answers _ bit) (hdBitBody_raisesAt _ bit)
  | none =>
    simp only [exec, execHdBit, hx] at h
    exact command_trap_faultsClean h

end

/-- Settles O14, command by command: each completes without a fault, or raises one before it writes. -/
theorem singleCheckCommandsFaultClean : Obligations.SingleCheckCommandsFaultClean := by
  intro i s t hi hf h hne
  suffices hclean : FaultsClean s t from hclean hf hne
  obtain ⟨x, rfl⟩ | ⟨n, rfl⟩ | ⟨p, rfl⟩ | ⟨x, rfl⟩ | ⟨d, rfl⟩ | rfl | rfl | ⟨sel, rfl⟩ | rfl := hi
  · exact htSel_faultsClean h
  · exact command_huff_faultsClean h (htCntBody_answers _ n) (htCntBody_raisesAt _ n)
  · exact command_huff_faultsClean h (htSymBody_answers _ p) (htSymBody_raisesAt _ p)
  · exact hdBit_faultsClean h
  · exact command_defilt_faultsClean h (dfHdrbBody_answers d _) (dfHdrbBody_raisesAt d _)
  · exact command_faultsClean h (pixRdBody_completes _ _) (pixRdBody_raisesAt _ _)
  · exact command_faultsClean h (onCrc_completes (crcCheckBody_answers _)) (raisesAt_within (crcCheckBody_raisesAt _))
  · exact stRead_faultsClean h
  · exact command_defilt_faultsClean h (dfConfigBody_answers _ _) (dfConfigBody_raisesAt _ _)

end Sys2Proof.Machine

/-! ## The proofs: reset and hazards (70_reset_and_hazards.md)

No result depends on a byte of `LINE` or `PIX` that holds no value. Every piece of a command, run on two parts of the
machine that differ in such bytes alone, ends in the same way on both (`Res.Follows`). -/

namespace Sys2Proof.Machine

open Sys2Proof.Safety

/-! ### Memories that agree below an address -/

/-- The bytes of the two memories below address `n` are the same. -/
def AgreeBelow (n : Nat) (m m' : Memory) : Prop := ∀ a < n, Memory.read m' a = Memory.read m a

section
variable {cap : Word} {m m' : Memory} {n k a : Nat}

theorem AgreeBelow.mono (h : AgreeBelow n m m') (hk : k ≤ n) : AgreeBelow k m m' :=
  fun a ha => h a (ha.trans_le hk)

/-- Writing one byte to both extends what they agree on. -/
theorem AgreeBelow.write (h : AgreeBelow n m m') (v : Byte) :
    AgreeBelow (n + 1) (Memory.write m n v) (Memory.write m' n v) := by
  intro a ha
  rw [memory_read_write, memory_read_write]
  split_ifs with he
  · rfl
  · exact h a (by omega)

theorem AgreeBelow.pixRead_eq (h : AgreeBelow n m m') (ha : a < n) : pixRead cap m' a = pixRead cap m a := by
  rw [pixRead, pixRead, h a ha]

theorem AgreeBelow.lineRead_eq (h : AgreeBelow n m m') (ha : a < n) : lineRead m' a = lineRead m a := by
  rw [lineRead, lineRead, h a ha]

theorem AgreeBelow.neighbour_eq (h : AgreeBelow n m m') {present : Bool} (ha : present = true → a < n) :
    neighbour cap m' present a = neighbour cap m present a := by
  cases present with
  | false => rfl
  | true => exact h.pixRead_eq (ha rfl)

end

/-! ### Two pieces that end in the same way -/

/-- Unless the first piece stops the model, the second ends as it does: with the same answer or the same fault, and in
a state that `R` relates to that of the first. -/
inductive Res.Follows {σ τ α : Type} (R : σ → τ → Prop) : Res σ α → Res τ α → Prop
  | ok (a : α) {s : σ} {t : τ} (h : R s t) : Follows R (.ok a s) (.ok a t)
  | trap (c : Trap) {s : σ} {t : τ} (h : R s t) : Follows R (.trap c s) (.trap c t)
  | stop (e : Fault) (y : Res τ α) : Follows R (.stop e) y

section
variable {σ σ' τ τ' α β : Type} {R : σ → τ → Prop} {R' : σ' → τ' → Prop} {x : Res σ α} {y : Res τ α}

theorem follows_bind {f : α → σ → Res σ β} {g : α → τ → Res τ β} (h : x.Follows R y)
    (hf : ∀ a s t, R s t → (f a s).Follows R (g a t)) : (x.bind f).Follows R (y.bind g) := by
  cases h with
  | ok a h => exact hf a _ _ h
  | trap c h => exact .trap c h
  | stop e y => exact .stop e _

theorem follows_within {put : σ → σ'} {put' : τ → τ'} (h : x.Follows R y)
    (hput : ∀ s t, R s t → R' (put s) (put' t)) : (x.within put).Follows R' (y.within put') := by
  cases h with
  | ok a h => exact .ok a (hput _ _ h)
  | trap c h => exact .trap c (hput _ _ h)
  | stop e y => exact .stop e _

theorem follows_imp {R' : σ → τ → Prop} (h : x.Follows R y) (himp : ∀ s t, R s t → R' s t) : x.Follows R' y := by
  cases h with
  | ok a h => exact .ok a (himp _ _ h)
  | trap c h => exact .trap c (himp _ _ h)
  | stop e y => exact .stop e y

theorem follows_refl (x : Res σ α) : x.Follows Eq x := by
  cases x with
  | ok a s => exact .ok a rfl
  | trap c s => exact .trap c rfl
  | stop e => exact .stop e _

/-- Both pieces take the same branch: the two conditions need only be equal by definition. -/
theorem follows_ite {c : Prop} [Decidable c] {x' : Res σ α} {y' : Res τ α} (h : x.Follows R y)
    (h' : x'.Follows R y') : (if c then x else x').Follows R (if c then y else y') := by
  split_ifs
  · exact h
  · exact h'

/-- One result, put into two larger states. -/
theorem follows_within_same (x : Res σ α) {put : σ → σ'} {put' : σ → τ'} (hput : ∀ s, R' (put s) (put' s)) :
    (x.within put).Follows R' (x.within put') :=
  follows_within (follows_refl x) fun s _ hst => hst ▸ hput s

end

/-! ### The defilter -/

/-- The defilter with other bytes in `LINE` and `PIX`. -/
def Defilt.withBytes (line pix : Memory) (u : Defilt) : Defilt := { u with line := line, pix := pix }

/-- Two defilters that differ only in bytes that hold no value (R29, R292). -/
structure SameBytes (u v : Defilt) : Prop where
  rest : v = u.withBytes v.line v.pix
  line : AgreeBelow u.fill.toNat u.line v.line
  pix : AgreeBelow (u.row.toNat * u.stride.toNat) u.pix v.pix

/-- Two such defilters whose configuration, if one is in force, has a pixel size: the left neighbour of a byte is
another byte, so no byte that holds no value is read (R205, R209). -/
structure Tracks (u v : Defilt) : Prop extends SameBytes u v where
  psize : u.dfvalid = true → 1 ≤ u.psize.toNat

section
variable {cap : Word} {f : Filter} {u v : Defilt} {line pix' : Memory} {n i : Nat} {p p' q : Memory}

theorem toNat_succ_le (x : Word) : (x + 1#32).toNat ≤ x.toNat + 1 := by
  rw [BitVec.toNat_add]
  exact Nat.mod_le _ _

/-- The bytes of the rows finished once one more is. -/
theorem rows_le_succ (u : Defilt) :
    (u.row + 1#32).toNat * u.stride.toNat ≤ u.row.toNat * u.stride.toNat + (0 + u.stride.toNat) :=
  calc (u.row + 1#32).toNat * u.stride.toNat
    _ ≤ (u.row.toNat + 1) * u.stride.toNat := Nat.mul_le_mul_right _ (toNat_succ_le u.row)
    _ = u.row.toNat * u.stride.toNat + (0 + u.stride.toNat) := by rw [Nat.succ_mul, Nat.zero_add]

theorem SameBytes.exists_withBytes (h : SameBytes u v) : ∃ line pix, v = u.withBytes line pix := ⟨_, _, h.rest⟩

theorem tracks_of_good (hu : DefiltInv cap u) (h : SameBytes u v) : Tracks u v :=
  { h with psize := fun hv => configOk_psize (hu.valid hv) }

/-- A turn of the row loop whose bytes can be read (R209); the converse of `reconByte_writes`. -/
theorem reconByte_ok {x a b c : Byte} (hx : Memory.read u.line (1 + i) = some x)
    (ha : neighbour cap p (decide (u.psize.toNat ≤ i)) (u.row.toNat * u.stride.toNat + i - u.psize.toNat) = .ok a)
    (hb : neighbour cap p (decide (0 < u.row.toNat)) (u.row.toNat * u.stride.toNat - u.stride.toNat + i) = .ok b)
    (hc : neighbour cap p (decide (0 < u.row.toNat) && decide (u.psize.toNat ≤ i))
      (u.row.toNat * u.stride.toNat - u.stride.toNat + i - u.psize.toNat) = .ok c)
    (hcap : u.row.toNat * u.stride.toNat + i < cap.toNat) :
    reconByte cap f u i p = .ok (Memory.write p (u.row.toNat * u.stride.toNat + i) (reconValue f x a b c)) := by
  simp only [reconByte, lineRead, hx, ha, hb, hc]
  exact pixWrite_ok.2 ⟨hcap, rfl⟩

/-- One turn of the row loop reads the scanline and the bytes of `PIX` before the one it writes (R209, R210). -/
theorem reconByte_agree (hp : 1 ≤ u.psize.toNat) (hi : i < u.stride.toNat)
    (hline : AgreeBelow (u.stride.toNat + 1) u.line line) (hpix : AgreeBelow (u.row.toNat * u.stride.toNat + i) p p')
    (h : reconByte cap f u i p = .ok q) : ∃ q', reconByte cap f (u.withBytes line pix') i p' = .ok q' ∧
      AgreeBelow (u.row.toNat * u.stride.toNat + (i + 1)) q q' := by
  obtain ⟨hcap, x, a, b, c, hx, ha, hb, hc, rfl⟩ := reconByte_writes h
  have habove : 0 < u.row.toNat → u.stride.toNat ≤ u.row.toNat * u.stride.toNat := Nat.le_mul_of_pos_left _
  rw [← hline _ (by omega)] at hx
  rw [← hpix.neighbour_eq (by simp only [decide_eq_true_eq]; omega)] at ha
  rw [← hpix.neighbour_eq (by simp only [decide_eq_true_eq]; omega)] at hb
  rw [← hpix.neighbour_eq (by simp only [Bool.and_eq_true, decide_eq_true_eq]; omega)] at hc
  exact ⟨_, reconByte_ok (u := u.withBytes line pix') hx ha hb hc hcap, hpix.write _⟩

theorem reconFrom_agree (hp : 1 ≤ u.psize.toNat) (hi : i + n ≤ u.stride.toNat)
    (hline : AgreeBelow (u.stride.toNat + 1) u.line line) (hpix : AgreeBelow (u.row.toNat * u.stride.toNat + i) p p')
    (h : reconFrom cap f u n i p = .ok q) : ∃ q', reconFrom cap f (u.withBytes line pix') n i p' = .ok q' ∧
      AgreeBelow (u.row.toNat * u.stride.toNat + (i + n)) q q' := by
  induction n generalizing i p p' with
  | zero => cases h; exact ⟨p', rfl, hpix⟩
  | succ n ih =>
    rw [reconFrom] at h
    cases hmid : reconByte cap f u i p with
    | error e => rw [hmid] at h; cases h
    | ok mid =>
      rw [hmid] at h
      obtain ⟨mid', hmid', hagree⟩ := reconByte_agree (pix' := pix') hp (by omega) hline hpix hmid
      obtain ⟨q', hq', hagree⟩ := ih (by omega) hagree h
      exact ⟨q', by rw [reconFrom, hmid']; exact hq', hagree.mono (by omega)⟩

/-- The end of a scanline, once its last byte is in `LINE` (R208). -/
theorem finishRow_follows (hv : u.dfvalid = true) (hline : AgreeBelow (u.stride.toNat + 1) u.line v.line)
    (h : Tracks u v) : (finishRow cap u).Follows Tracks (finishRow cap v) := by
  obtain ⟨line, pix, rfl⟩ := h.exists_withBytes
  have hfirst : lineRead line 0 = lineRead u.line 0 := hline.lineRead_eq (Nat.succ_pos _)
  cases h0 : lineRead u.line 0 with
  | error e => rw [finishRow, h0]; exact .stop e _
  | ok ft =>
    cases hft : filterOfByte ft with
    | none =>
      rw [finishRow_trap h0 hft, finishRow_trap (hfirst.trans h0) hft]
      exact .trap _ h
    | some f =>
      cases hrow : reconRow cap f u with
      | error e => rw [finishRow_stop h0 hft hrow]; exact .stop e _
      | ok q =>
        obtain ⟨q', hrow', hq⟩ := reconFrom_agree (line := line) (pix' := pix) (h.psize hv)
          (Nat.zero_add _).le hline h.pix hrow
        rw [finishRow_ok h0 hft hrow, finishRow_ok (hfirst.trans h0) hft hrow']
        exact .ok ()
          { rest := rfl
            line := fun a ha => absurd ha (Nat.not_lt_zero a)
            pix := hq.mono (rows_le_succ u)
            psize := h.psize }

/-- A byte for the defilter (R208). -/
theorem dfPush_follows (b : Byte) (h : Tracks u v) : (dfPush cap b u).Follows Tracks (dfPush cap b v) := by
  obtain ⟨line, pix, rfl⟩ := h.exists_withBytes
  have hline : AgreeBelow (u.fill.toNat + 1) (Memory.write u.line u.fill.toNat b) (Memory.write line u.fill.toNat b) :=
    h.line.write b
  rcases dfPush_cases (cap := cap) (b := b) (u := u) rfl with
    ⟨hv, e⟩ | ⟨hv, hr, e⟩ | ⟨-, -, -, e⟩ | ⟨hv, hr, hlt, e⟩ | ⟨hv, hr, heq, e⟩
  · rw [e, dfPush, if_pos (by exact hv)]
    exact .trap _ h
  · rw [e, dfPush_surplus (by exact hv) (by exact hr)]
    exact .trap _ h
  · rw [e]
    exact .stop _ _
  · rw [e, dfPush_gather (u := u.withBytes line pix) hv hr hlt]
    exact .ok () { rest := rfl, line := hline.mono (toNat_succ_le _), pix := h.pix, psize := h.psize }
  · rw [e, dfPush_last (u := u.withBytes line pix) hv hr (BitVec.eq_of_toNat_eq heq)]
    exact finishRow_follows hv (hline.mono (Nat.succ_le_succ heq.ge))
      { rest := rfl, line := hline.mono (Nat.le_succ _), pix := h.pix, psize := h.psize }

theorem dfByteBody_follows (b : Byte) (h : Tracks u v) :
    (dfByteBody cap b u).Follows Tracks (dfByteBody cap b v) := by
  refine follows_bind (dfPush_follows b h) fun _ s t hst => ?_
  rw [h.rest, hst.rest]
  exact .ok _ (hst.rest ▸ hst)

theorem dfHdrbBody_follows (b : Byte) (h : SameBytes u v) :
    (dfHdrbBody b u).Follows SameBytes (dfHdrbBody b v) := by
  obtain ⟨line, pix, rfl⟩ := h.exists_withBytes
  by_cases hn : u.hcnt.toNat < 13
  · rw [dfHdrbBody, dif_pos hn, dfHdrbBody, dif_pos (by exact hn)]
    exact .ok _ { rest := rfl, line := h.line, pix := h.pix }
  · rw [dfHdrbBody, dif_neg hn, dfHdrbBody, dif_neg (by exact hn)]
    exact .trap _ h

/-- A configuration starts with no row and no byte: whatever the memories hold, none of it is counted (R202). -/
theorem sameBytes_configured (g : Geometry) (line pix : Memory) :
    SameBytes (configured u g) (configured (u.withBytes line pix) g) where
  rest := rfl
  line a ha := absurd ha (Nat.not_lt_zero a)
  pix a ha := by simp [configured] at ha

theorem dfConfigBody_follows (h : SameBytes u v) : (dfConfigBody cap u).Follows SameBytes (dfConfigBody cap v) := by
  obtain ⟨line, pix, rfl⟩ := h.exists_withBytes
  refine follows_ite ?_ (.trap _ h)
  dsimp only [Defilt.withBytes]
  split
  · exact .trap _ h
  · split
    · exact .trap _ h
    · exact .ok _ (sameBytes_configured _ line pix)

end

/-! ### The engine and its defilter -/

/-- Two pipes that differ only in bytes of the defilter that hold no value. -/
structure PipeTracks (p q : Pipe) : Prop where
  rest : q = { p with df := q.df }
  df : Tracks p.df q.df

section
variable {α : Type} {cap : Word} {p q : Pipe}

theorem PipeTracks.exists_df (h : PipeTracks p q) : ∃ d, q = { p with df := d } := ⟨_, h.rest⟩

/-- A piece that does not look at the defilter ends in the same way, whatever bytes the defilter holds. -/
theorem Oblivious.follows {F : Pipe → Res Pipe α} (hF : Oblivious F p) (h : PipeTracks p q) :
    (F p).Follows PipeTracks (F q) := by
  obtain ⟨d, rfl⟩ := h.exists_df
  obtain ⟨R, hR⟩ : ∃ R : Res Pipe α, ∀ r o d, F (p.sink r o d) = R.within (Pipe.sink r o d) := ⟨F p, hF⟩
  have hp : F p = R.within (Pipe.sink p.infl.route p.out p.df) := hR _ _ _
  have hq : F { p with df := d } = R.within (Pipe.sink p.infl.route p.out d) := hR _ _ _
  rw [hp, hq]
  exact follows_within_same R fun x => { rest := rfl, df := h.df }

/-- The engine sees its defilter only in `df_push` (R148). -/
theorem emit_follows (b : Byte) (h : PipeTracks p q) : (emit cap b p).Follows PipeTracks (emit cap b q) := by
  obtain ⟨d, rfl⟩ := h.exists_df
  exact follows_ite (follows_within (dfPush_follows b h.df) fun _ _ hd => { rest := rfl, df := hd })
    (.ok () { rest := rfl, df := h.df })

theorem copyMatch_follows (dist n : Nat) (h : PipeTracks p q) :
    (copyMatch cap dist n p).Follows PipeTracks (copyMatch cap dist n q) := by
  induction n generalizing p q with
  | zero => exact .ok () h
  | succ n ih =>
    obtain ⟨d, rfl⟩ := h.exists_df
    rw [copyMatch, copyMatch]
    dsimp only
    cases windowBack p.infl.win dist with
    | none => exact .stop _ _
    | some b => exact follows_bind (emit_follows b h) fun _ _ _ h => ih h

/-- Another engine in both pipes. -/
theorem PipeTracks.setInfl (h : PipeTracks p q) (i : Infl) : PipeTracks (p.setInfl i) (q.setInfl i) where
  rest := by rw [h.rest]; rfl
  df := h.df

theorem storedByteDone_oblivious : Oblivious (fun x => .ok () (storedByteDone x)) p := fun r o d =>
  congrArg (Res.ok ()) (ite_eq_apply (Pipe.sink r o d)
    (blockEnd_sink r o d (p.setInfl { p.infl with rem := p.infl.rem - 1#16 })) rfl)

theorem stepStCopy_follows (h : PipeTracks p q) : (stepStCopy cap p).Follows PipeTracks (stepStCopy cap q) := by
  obtain ⟨d, rfl⟩ := h.exists_df
  exact follows_bind (emit_follows _ (h.setInfl (dropBits 8 p.infl))) fun _ _ _ h => storedByteDone_oblivious.follows h

/-- Past the literals, a symbol does not reach the defilter (R162). -/
theorem stepSym_follows (h : PipeTracks p q) : (stepSym cap p).Follows PipeTracks (stepSym cap q) := by
  obtain ⟨d, rfl⟩ := h.exists_df
  refine follows_bind ((hstep_oblivious p.infl.lt 15 p).follows h) fun a x y h => ?_
  cases a with
  | none => exact .ok () h
  | some s =>
    dsimp only
    split_ifs with _ _ hl
    · exact emit_follows _ h
    · exact Oblivious.follows (F := fun x => .ok () (blockEnd x))
        (fun r o d => congrArg (Res.ok ()) (blockEnd_sink r o d x)) h
    · exact Oblivious.follows
        (F := fun x => .ok () ((x.setInfl { x.infl with lsym := ⟨s.toNat - 257, hl⟩ }).goto .lenExtra))
        (fun _ _ _ => rfl) h
    · exact .trap _ h

theorem stepDistExtra_follows (h : PipeTracks p q) :
    (stepDistExtra cap p).Follows PipeTracks (stepDistExtra cap q) := by
  obtain ⟨d, rfl⟩ := h.exists_df
  have hq := h.setInfl (dropBits dExt[p.infl.dsym] p.infl)
  exact follows_ite (.trap _ hq) (follows_bind (copyMatch_follows _ _ hq) fun _ x y h =>
    Oblivious.follows (F := fun x => .ok () (x.goto .sym)) (fun _ _ _ => rfl) h)

/-- A transition that does not look at the defilter, as its parser state selects it. -/
theorem transition_follows_of_oblivious (h : PipeTracks p q) {F : Pipe → Res Pipe Unit}
    (ht : ∀ x : Pipe, x.infl.instate = p.infl.instate → transition cap x = F x) (hF : Oblivious F p) :
    (transition cap p).Follows PipeTracks (transition cap q) := by
  rw [ht p rfl, ht q (by rw [h.rest])]
  exact hF.follows h

theorem transition_follows (h : PipeTracks p q) : (transition cap p).Follows PipeTracks (transition cap q) := by
  have hstate : q.infl.instate = p.infl.instate := by rw [h.rest]
  have silent {F} := transition_follows_of_oblivious (cap := cap) (F := F) h
  cases hs : p.infl.instate with
  | zhCmf => exact silent (fun _ hx => transition_zhCmf (hx.trans hs)) (stepZhCmf_oblivious p)
  | zhFlg => exact silent (fun _ hx => transition_zhFlg (hx.trans hs)) (stepZhFlg_oblivious p)
  | blkHdr => exact silent (fun _ hx => transition_blkHdr (hx.trans hs)) (stepBlkHdr_oblivious p)
  | stLen => exact silent (fun _ hx => transition_stLen (hx.trans hs)) (stepStLen_oblivious p)
  | stCopy =>
    rw [transition_stCopy hs, transition_stCopy (hstate.trans hs)]
    exact stepStCopy_follows h
  | dynHdr => exact silent (fun _ hx => transition_dynHdr (hx.trans hs)) (stepDynHdr_oblivious p)
  | dynClen => exact silent (fun _ hx => transition_dynClen (hx.trans hs)) (stepDynClen_oblivious p)
  | dynLens => exact silent (fun _ hx => transition_dynLens (hx.trans hs)) (stepDynLens_oblivious p)
  | dynRep => exact silent (fun _ hx => transition_dynRep (hx.trans hs)) (stepDynRep_oblivious p)
  | sym =>
    rw [transition_sym hs, transition_sym (hstate.trans hs)]
    exact stepSym_follows h
  | lenExtra => exact silent (fun _ hx => transition_lenExtra (hx.trans hs)) (stepLenExtra_oblivious p)
  | distSym => exact silent (fun _ hx => transition_distSym (hx.trans hs)) (stepDistSym_oblivious p)
  | distExtra =>
    rw [transition_distExtra hs, transition_distExtra (hstate.trans hs)]
    exact stepDistExtra_follows h
  | trailer => exact silent (fun _ hx => transition_trailer (hx.trans hs)) (stepTrailer_oblivious p)
  | done => rw [transition, transition]; simp only [hs, hstate]; exact .ok () h

/-- A run, as the chain of its transitions (R146). -/
theorem run_follows (n : Nat) (h : PipeTracks p q) : (run cap n p).Follows PipeTracks (run cap n q) := by
  induction n generalizing p q with
  | zero => exact .stop _ _
  | succ n ih =>
    have hi : q.infl = p.infl := by rw [h.rest]
    rw [run, run, hi]
    exact follows_ite (follows_bind (transition_follows h) fun _ _ _ h => ih h) (.ok () h)

theorem inByteBody_follows (d : Byte) (h : PipeTracks p q) :
    (inByteBody cap d p).Follows PipeTracks (inByteBody cap d q) := by
  obtain ⟨u, rfl⟩ := h.exists_df
  refine follows_ite (.trap _ h) (follows_bind (run_follows _ (h.setInfl _)) fun _ x y h => ?_)
  exact Oblivious.follows (F := fun x => .ok (rspOk (inByteData p.infl x.infl)) x) (fun _ _ _ => rfl) h

end

/-! ### The block -/

/-- Two blocks that differ only in bytes of the defilter that hold no value. -/
structure SameBlock (b c : Block) : Prop where
  rest : c = { b with df := c.df }
  df : SameBytes b.df c.df

theorem sameBytes_refl (u : Defilt) : SameBytes u u where
  rest := rfl
  line _ _ := rfl
  pix _ _ := rfl

section
variable {cap : Word} {b c : Block}

theorem SameBlock.exists_df (h : SameBlock b c) : ∃ v, c = { b with df := v } := ⟨_, h.rest⟩

theorem sameBlock_refl (b : Block) : SameBlock b b where
  rest := rfl
  df := sameBytes_refl b.df

theorem onHuff_follows (f : Huff → Res Huff Rsp) (h : SameBlock b c) : (onHuff f b).Follows SameBlock (onHuff f c) := by
  obtain ⟨v, rfl⟩ := h.exists_df
  exact follows_within_same (f b.huff) fun _ => { rest := rfl, df := h.df }

theorem onCrc_follows (f : Crc → Res Crc Rsp) (h : SameBlock b c) : (onCrc f b).Follows SameBlock (onCrc f c) := by
  obtain ⟨v, rfl⟩ := h.exists_df
  exact follows_within_same (f b.crc) fun _ => { rest := rfl, df := h.df }

theorem onInfl_follows (f : Infl → Res Infl Rsp) (h : SameBlock b c) : (onInfl f b).Follows SameBlock (onInfl f c) := by
  obtain ⟨v, rfl⟩ := h.exists_df
  exact follows_within_same (f b.infl) fun _ => { rest := rfl, df := h.df }

theorem onDefilt_follows {f : Defilt → Res Defilt Rsp} (h : SameBlock b c)
    (hf : (f b.df).Follows SameBytes (f c.df)) : (onDefilt f b).Follows SameBlock (onDefilt f c) := by
  obtain ⟨v, rfl⟩ := h.exists_df
  exact follows_within hf fun _ _ hd => { rest := rfl, df := hd }

theorem onPipe_follows {f : Pipe → Res Pipe Rsp} (h : SameBlock b c)
    (hf : (f b.pipe).Follows PipeTracks (f c.pipe)) : (onPipe f b).Follows SameBlock (onPipe f c) := by
  obtain ⟨v, rfl⟩ := h.exists_df
  exact follows_within hf fun p q hd => { rest := by rw [hd.rest], df := hd.df.toSameBytes }

/-- A pixel that can be read has a value (R244). -/
theorem pixRdBody_follows (h : SameBlock b c) : (pixRdBody cap b).Follows SameBlock (pixRdBody cap c) := by
  obtain ⟨v, rfl⟩ := h.exists_df
  obtain ⟨line, pix, rfl⟩ := h.df.exists_withBytes
  by_cases hr : pixReadable b = true
  · have hlt : b.pixa.toNat < b.df.row.toNat * b.df.stride.toNat := by
      simp only [pixReadable, Bool.and_eq_true, decide_eq_true_eq] at hr
      exact hr.2
    have hread : pixRead cap pix b.pixa.toNat = pixRead cap b.df.pix b.pixa.toNat := h.df.pix.pixRead_eq hlt
    refine follows_ite ?_ (.trap _ h)
    dsimp only [Defilt.withBytes]
    rw [hread]
    cases pixRead cap b.df.pix b.pixa.toNat with
    | ok x => exact .ok _ { rest := rfl, df := h.df }
    | error e => exact .stop e _
  · rw [pixRdBody, pixRdBody, if_neg hr, if_neg (by exact hr)]
    exact .trap _ h

theorem statusView_eq (sel : Byte) (h : SameBlock b c) : statusView c sel = statusView b sel := by
  rw [h.rest, h.df.rest]
  rfl

end

/-! ### The machine -/

section
variable {s s' t : State} {c : Block}

theorem sameReadable_of_block (h : SameBlock s.blk c) : SameReadable s { s with blk := c } where
  rest := congrArg (fun b : Block => { s with blk := b })
    (h.rest.trans (congrArg (fun d : Defilt => { s.blk with df := d }) h.df.rest))
  line := h.df.line
  pix := h.df.pix

theorem block_of_sameReadable (h : SameReadable s s') : ∃ c, SameBlock s.blk c ∧ s' = { s with blk := c } :=
  ⟨s'.blk, { rest := by rw [h.rest], df := { rest := by rw [h.rest]; rfl, line := h.line, pix := h.pix } },
    by rw [h.rest]⟩

/-- The end of a command: the same response, or the same fault (R264). -/
theorem finish_sameReadable {x y : Res Block Rsp} (h : x.Follows SameBlock y) (ht : finish s x = .next t) :
    ∃ t', finish { s with blk := c } y = .next t' ∧ SameReadable t t' := by
  cases h with
  | @ok r b b' h =>
    cases ht
    exact ⟨_, rfl, sameReadable_of_block (s := respond { s with blk := b } r) h⟩
  | @trap k b b' h =>
    cases ht
    have hfaulted : SameBlock { b with fault := k.cause, fsub := k.sub } { b' with fault := k.cause, fsub := k.sub } :=
      { rest := by rw [h.rest], df := h.df }
    exact ⟨_, rfl, sameReadable_of_block (s := takeFault k { s with blk := b }) hfaulted⟩
  | stop e y => cases ht

/-- A faulted block refuses a command with the fault it keeps, which is the same on both machines (R265). -/
theorem command_sameReadable {body : Block → Res Block Rsp} (h : SameBlock s.blk c)
    (hbody : (body s.blk).Follows SameBlock (body c)) (ht : command s body = .next t) :
    ∃ t', command { s with blk := c } body = .next t' ∧ SameReadable t t' := by
  have hfault : c.fault = s.blk.fault := by rw [h.rest]
  by_cases hf : s.blk.fault = 0#8
  · rw [command_runs body hf] at ht
    rw [command_runs body (by exact hfault.trans hf)]
    exact finish_sameReadable hbody ht
  · cases (command_faulted body hf).symm.trans ht
    have hrefuse : refuse { s with blk := c } = { refuse s with blk := c } := by rw [h.rest]; rfl
    exact ⟨_, command_faulted body (hfault.trans_ne hf), hrefuse ▸ sameReadable_of_block (s := refuse s) h⟩

theorem exec_sameReadable {i : Instr} (hs : Inv s) (h : SameBlock s.blk c) (ht : exec i s = .next t) :
    ∃ t', exec i { s with blk := c } = .next t' ∧ SameReadable t t' := by
  have htracks : Tracks s.blk.df c.df := tracks_of_good hs.blk.defilt h.df
  cases i with
  | nop => cases ht; exact ⟨_, rfl, sameReadable_of_block (s := respond s _) h⟩
  | blkReset => cases ht; exact ⟨_, rfl, sameReadable_of_block (s := respond (resetBlock s) _) (sameBlock_refl _)⟩
  | stRead sel =>
    simp only [exec, execStRead] at ht ⊢
    rw [statusView_eq sel h]
    cases hv : statusView s.blk sel with
    | some v =>
      rw [hv] at ht
      cases ht
      exact ⟨_, rfl, sameReadable_of_block (s := respond s _) h⟩
    | none =>
      rw [hv] at ht
      exact command_sameReadable h (.trap _ h) ht
  | paShift d =>
    simp only [exec, execPaShift] at ht ⊢
    refine command_sameReadable h ?_ ht
    rw [h.rest]
    exact .ok _ { rest := rfl, df := h.df }
  | pixRd => exact command_sameReadable h (pixRdBody_follows h) ht
  | htSel x =>
    simp only [exec, execHtSel] at ht ⊢
    refine command_sameReadable h ?_ ht
    cases slotOperand x with
    | some slot => exact onHuff_follows _ h
    | none => exact .trap _ h
  | hdBit x =>
    simp only [exec, execHdBit] at ht ⊢
    refine command_sameReadable h ?_ ht
    cases bitOperand x with
    | some bit => exact onHuff_follows _ h
    | none => exact .trap _ h
  | inRoute x =>
    simp only [exec, execInRoute] at ht ⊢
    refine command_sameReadable h ?_ ht
    cases bitOperand x with
    | some bit => exact onInfl_follows _ h
    | none => exact .trap _ h
  | htBegin | htCnt | htSym | hdReset => exact command_sameReadable h (onHuff_follows _ h) ht
  | crcReset | crcByte | crcExpb | crcRead | crcCheck => exact command_sameReadable h (onCrc_follows _ h) ht
  | inReset => exact command_sameReadable h (onInfl_follows _ h) ht
  | inByte d =>
    have hpipe : PipeTracks s.blk.pipe c.pipe := { rest := by rw [h.rest]; rfl, df := htracks }
    exact command_sameReadable h (onPipe_follows h (inByteBody_follows d hpipe)) ht
  | dfHdrb d => exact command_sameReadable h (onDefilt_follows h (dfHdrbBody_follows d h.df)) ht
  | dfConfig => exact command_sameReadable h (onDefilt_follows h (dfConfigBody_follows h.df)) ht
  | dfByte d =>
    exact command_sameReadable h
      (onDefilt_follows h (follows_imp (dfByteBody_follows d htracks) fun _ _ hd => hd.toSameBytes)) ht

end

theorem step_sameReadable {s s' t : State} (hs : Inv s) (h : SameReadable s s') (ht : step s = .next t) :
    ∃ t', step s' = .next t' ∧ SameReadable t t' := by
  obtain ⟨c, hc, hs'⟩ := block_of_sameReadable h
  cases hin : s.inputs with
  | nil =>
    cases (step_idle hin).symm.trans ht
    exact ⟨s', step_idle (by rw [hs', hin]), h⟩
  | cons input rest =>
    have hin' : s'.inputs = input :: rest := by rw [hs', hin]
    have hrest : { s' with inputs := rest } = { { s with inputs := rest } with blk := c } := by rw [hs']
    cases input with
    | powerOn =>
      cases (step_powerOn hin).symm.trans ht
      rw [step_powerOn hin', hrest]
      exact ⟨_, rfl, sameReadable_of_block (s := resetBlock { s with inputs := rest }) (sameBlock_refl _)⟩
    | command w =>
      cases hd : decode w with
      | ok i =>
        rw [step_command hin hd] at ht
        rw [step_command hin' hd, hrest]
        exact exec_sameReadable (inv_inputs rest hs) hc ht
      | error e =>
        rw [step_illegal hin hd] at ht
        rw [step_illegal hin' hd, hrest]
        exact command_sameReadable hc (.trap _ hc) ht

/-- Settles O60: each input of the queue, and no input; the responses are no bytes of `LINE` or `PIX`. -/
theorem unwrittenBytesHaveNoEffect : Obligations.UnwrittenBytesHaveNoEffect := by
  intro s s' t hs _ h ht
  obtain ⟨t', ht', hsame⟩ := step_sameReadable hs h ht
  exact ⟨t', ht', hsame, by rw [hsame.rest]⟩

end Sys2Proof.Machine
